-- ==== Sys2Proof/Word.lean ====
section
/-! DEFINITION. The word types of Gnoid code and the 32-lane vector type (R216, R343). -/

namespace Sys2Proof

/-- A 32-bit register or instruction word. -/
abbrev Word := BitVec 32

/-- One byte of memory. -/
abbrev Byte := BitVec 8

/-- A 64-bit value: a scalar pair, a time register, a host register. -/
abbrev DWord := BitVec 64

/-- A 57-bit virtual address; also a PC (R344). -/
abbrev VA := BitVec 57

/-- One bit for each of the 32 lanes of a wave. -/
abbrev Mask := BitVec 32

/-- A lane of a wave, 0 to 31 (R141). -/
abbrev Lane := Fin 32

/-- One value for each lane of a wave. -/
abbrev Lanes (α : Type) := Vector α 32

/-- One of the eight octants (R19). -/
abbrev Oct := Fin 8

/-- Host port A is 0 and port B is 1 (R91). -/
abbrev Port := Fin 2

/-- The lanes, in increasing order. -/
def allLanes : List Lane := List.ofFn fun L : Lane => L

/-- The lanes whose bit is set in a mask, in increasing order. -/
def lanesOf (m : Mask) : List Lane := allLanes.filter fun L => m.getLsbD L.val

/-- The mask whose bit L is `f L`. -/
def maskOf (f : Lane → Bool) : Mask :=
  allLanes.foldl (fun m L => if f L then m ||| (1#32 <<< L.val) else m) 0#32

end Sys2Proof
end

