-- ==== Sys2Proof/Config.lean ====
section
/-! DEFINITION. What the N5 fixes (R2, R128, R451), and the values the manual leaves open: opaque constants with no body, so that nothing can be proved of their value. -/

namespace Sys2Proof
namespace Config

/-- The rates and sizes of R2, R30, R43, R44, R45, R52. -/
def earlyEntries : Nat := 512
def retryEntries : Nat := 4096
def pathWindow : Nat := 1024
def beaconPeriod : Nat := 256
def beaconAdvance : Nat := 512
def beaconLoss : Nat := 4096
def retryLoss : Nat := 16384
def resendDelay : Nat := 64
def linkRetryMax : Nat := 512

/-- CAP_BOUND_HOLD (R71). -/
def boundHold : Nat := 2048
/-- CAP_MXWAKE in PS0 (R133). -/
def mxWake : Nat := 160
/-- The frets of the fretboard and the ticks of one fret (R66). -/
def frets : Nat := 1024
def fretTicks : Nat := 4
/-- The lead of an install and of its bound transition (R68). -/
def installLead : Nat := 16384
def boundLead : Nat := 12288
/-- Replay entries and line-fill tracker entries of a core (R168, R173). -/
def replayEntries : Nat := 64
def trackerEntries : Nat := 2048
/-- Entries of the L1 TLB and the L2 TLB (R324). -/
def l1Tlb : Nat := 128
/-- Entries of a die's page-walk cache (R324). -/
def walkCache : Nat := 1024
def l2Tlb : Nat := 16384
/-- Entries of the event wait list: reserved for each partition, and shared (R156). -/
def waitReserved : Nat := 256
def waitShared : Nat := 2048
/-- Entries of the event overflow area (R156). -/
def overflowEntries : Nat := 4096
/-- The default barrier timeout (R143). -/
def bartoDefault : Nat := 16777216
/-- Matrix queue entries (R273). -/
def matrixQueue : Nat := 8
/-- The submission buffer of a partition (R119). -/
def submissionBuffer : Nat := 1024
/-- I/O request timeout (R121). -/
def ioTimeout : Nat := 268435456
/-- The HSEM lapse of one second (R97). -/
def hsemLapse : Nat := 2500000000
/-- The windows of the package's input power (R135), and the period of the energy accounts (R136). -/
def powerWindow : Nat := 250000
def energyPeriod : Nat := 2500000
/-- Tickets the sequencer grants for a home at once, and in one tick (R310). -/
def ticketsPerHome : Nat := 4096
def ticketsPerTick : Nat := 8
/-- Largest tensor of a cpt or stream (R288): 64 MiB. -/
def tensorMax : Nat := 67108864
/-- Installed device memory (R2): 768 GB, read as 768 x 2^30 bytes (DEDUCED, log 8). -/
def installed : Nat := 768 * 1073741824

/-- The 32-byte sector of device memory, by number, that the controller keeps at a pseudo-channel, bank, row and sector of the row (R78). -/
opaque sectorAt : Nat → Nat → Nat → Nat → Nat
/-- The value of a free result number n: what an instruction leaves open (log 9). -/
opaque freeWord : Nat → Word
/-- The transcendental unit's result for a selector (0 frcp, 1 frsq, 2 fex2, 3 flg2, 4 fsin, 5 fcos) and an operand, before the
bound of R247 is applied to it (log 10). -/
opaque transcend : Nat → Word → Word
/-- SHAKE256 digest of a byte string, 256 bits of it (R137, R140). -/
opaque shake256 : List Byte → BitVec 256
/-- Does the ML-DSA-65 signature of a firmware image verify against the fused vendor key hash (R137)? -/
opaque imageSigned : List Byte → Bool
/-- The security version a firmware image carries (R137). -/
opaque imageVersion : List Byte → Nat
/-- The bytes of the firmware image that stands at a device address, found by the image's own format, which the manual
does not give (R138): from the bytes of memory from that address. -/
opaque imageLength : List Byte → Nat
/-- The firmware image in Psihel's flash at power-on (R137). -/
opaque flashImage : List Byte
/-- The measurements the later firmware stages extend into MEAS1-MEAS7 (R137). -/
opaque stageMeasure : Nat → BitVec 256
/-- The signed attestation report over its contents (R139). -/
opaque signReport : List Byte → List Byte
/-- The value of the fused rollback counter at power-on (R139), and this device's chip id and generation. -/
opaque rollbackFuse : Nat
opaque chipId : BitVec 12
opaque generation : Nat
/-- The native code that the finaliser makes of a Trimi object's bytes, within R369 (R140). -/
opaque finalise : List Byte → List Byte
/-- Entry handle of a waiting wave in the event overflow area, meaningful only to the N5 (R156). -/
opaque waiterHandle : Nat → DWord
/-- The input power in watts, averaged over the window that ends at a tick (R135). -/
opaque inputPower : Nat → BitVec 16
/-- A context's share of energy in microjoules, at a tick (R136). -/
opaque energyShare : Nat → Nat → Nat
/-- The 64 bytes of a pooled task in the ring at taskbase (R151): its entry, its region and its record, in a layout of the N5's own. -/
opaque poolEntry : Nat → Nat → List Byte → List Byte
/-- Does a PCIe port accept an AtomicOp (R423)? Each one has its own number. -/
opaque portTakesAtomic : Nat → Bool

end Config
end Sys2Proof
end

