-- ==== Sys2Proof/Syntax.lean ====
section
/-! DEFINITION. The syntax of Gnoid instruction words and of the package's happenings: one constructor of Instr for each row of
spec/opcode_table.json. -/

namespace Sys2Proof

/-- A scalar register number (R216). -/
abbrev SReg := Fin 64
/-- An even-odd scalar pair: pair n is s(2n) and s(2n + 1) (R216, R351). -/
abbrev SPair := Fin 32
/-- A mask register number (R216). -/
abbrev KReg := Fin 8
/-- An index register number (R222). -/
abbrev XNum := Fin 16

/-- A vector operand specifier (R223). -/
inductive VOp where
  | dir (n : Fin 80)
  | idx (x : XNum)
  | inc (x : XNum)
  | dec (x : XNum)
deriving DecidableEq, Repr

/-- A time operand (R227, R351). -/
inductive TOp where
  | dir (n : Fin 16)
  | idx (x : XNum)
deriving DecidableEq, Repr

/-- The integer vector types (R353). -/
inductive IntTy where
  | i32 | n32 | i16x2 | i8x4 | n16x2 | n8x4
deriving DecidableEq, Repr

/-- The float vector types (R353). -/
inductive FloTy where
  | f32 | f16x2 | bf16x2
deriving DecidableEq, Repr

/-- Rounding modes (R245), in the order of their codes. -/
inductive Rnd where
  | rne | rtz | rup | rdn
deriving DecidableEq, Repr

/-- Overflow policies (R249), in the order of their codes. -/
inductive Ovf where
  | sat | inf | nan | trap
deriving DecidableEq, Repr

/-- Conditions of `cmp` (R359), in the order of their codes. -/
inductive Cond where
  | eq | ne | lt | le | lo | ls
deriving DecidableEq, Repr

/-- Conditions of `fcmp` (R359). -/
inductive FCond where
  | eq | ne | lt | le
deriving DecidableEq, Repr

/-- The element types a conversion field can name: type codes 0 to 13 (R352), in order. -/
inductive Elt where
  | f32 | f16 | bf16 | e4m3 | e5m2 | e3m2 | e2m3 | e2m1 | e8m0 | i32 | n32 | i8 | n8 | i4
deriving DecidableEq, Repr

/-- The packed types of `pack` and `unpack` (R400). -/
inductive PackTy where
  | f16x2 | bf16x2 | i16x2 | n16x2
deriving DecidableEq, Repr

/-- Matrix operand formats (R437), in the order of their codes. -/
inductive MxFmt where
  | e2m1 | e2m3 | i8 | i4 | e4m3 | e5m2 | e3m2 | bf16
deriving DecidableEq, Repr

/-- Scale formats of `mloop.sc` and `scacc` (R437). -/
inductive ScFmt where
  | e8m0 | f32
deriving DecidableEq, Repr

/-- Access sizes (R355), in the order of their codes. -/
inductive Size where
  | b32 | b8 | b16 | b64 | b128
deriving DecidableEq, Repr

/-- Memory orders (R7, R355), in the order of their codes. -/
inductive Order where
  | wk | acq | rel | ar
deriving DecidableEq, Repr

/-- Scopes (R297, R355), in the order of their codes. -/
inductive Scope where
  | dev | wave | group | sys
deriving DecidableEq, Repr

/-- Cache policies (R355, R410), in the order of their codes. -/
inductive Policy where
  | dflt | stream | keep | fwd
deriving DecidableEq, Repr

/-- The prefix fields that every memory word shares (R355). -/
structure MemMod where
  size : Size
  order : Order
  scope : Scope
  policy : Policy
deriving DecidableEq, Repr

/-- Atomic operations (R358), in the order of their codes. -/
inductive AtomOp where
  | add | min | max | minN | maxN | and | or | xor | exch | fadd | fmin | fmax
deriving DecidableEq, Repr

/-- Who makes a request from outside the causal order (R57): the host through CXL.mem or through a port's BAR2-3 window (R91, R93), or a peer package
by its chip id. -/
inductive Outsider where
  | host (port : Port)
  | window (port : Port)
  | peer (chip : BitVec 12)
deriving DecidableEq, Repr

/-- What a peer package asks for over Noreus Link (R112, R113). -/
inductive PeerOp where
  | load (va : Nat) (n : Nat)
  | store (va : Nat) (data : List Byte)
  | doorbell (queue : Nat) (value : DWord)
deriving DecidableEq, Repr

/-- Where in its pseudo-channel an error was found, which the controller chooses, and the page frames that map onto its row (R78, R87). -/
structure RowAddr where
  bank : BitVec 4
  row : BitVec 18
  pages : List (BitVec 36)
deriving DecidableEq, Repr

/-- What the sector code finds when a sector is read from a stack (R79-R82). -/
inductive EccFinding where
  | good
  | corrected (sectors : BitVec 4) (again : Bool) (at_ : RowAddr)
  | uncorrectable (sectors : BitVec 4) (at_ : RowAddr)
deriving DecidableEq, Repr

/-- What a write from outside carries: its bytes, and whether it arrives poisoned (R83, R91). -/
structure OutsideStore where
  bytes : List Byte
  poisoned : Bool
deriving DecidableEq, Repr

/-- What a read from outside asks for: a length; and what the sector codes find in its first line, in a slice that holds it or in the stack (R79). -/
structure OutsideLoad where
  len : Nat
  bad : BitVec 4
  found : EccFinding
deriving DecidableEq, Repr

/-- A RAISE_ROLLBACK command: the port that writes FWMBOX, and the arg it writes there (R138). -/
structure RollbackWrite where
  port : Port
  arg : BitVec 48
deriving DecidableEq, Repr

/-- A peer request: its source chip, which the sending Psihel sets, and the context it names (R113); and what the sector codes find in the line that a load reads,
in a slice that holds it or in the stack (R79). -/
structure PeerReq where
  peer : BitVec 12
  ctx : BitVec 12
  op : PeerOp
  bad : BitVec 4 := 0
  found : EccFinding := .good
deriving DecidableEq, Repr

/-- A Trimi code object as the finaliser reads it (R365, R368): the descriptor bytes and the 64-bit words of a kernel. -/
structure TrimiObj where
  desc : List Byte
  words : List DWord
deriving DecidableEq, Repr

/-- One constructor for each row of spec/opcode_table.json: the happenings that the package itself brings about, the instruction words,
the happenings that only an outside agent brings about, and last the rows without operands. A happening names what it is about: the octants of a path, a
request, an access, a wave (global wave slot, R25), a group by its key, a core, a queue; or it carries what an outside agent brings. -/
inductive Instr where
  | stampWrite (req : Nat)
  | stampRead (req : Nat)
  | wr (src dst : Oct)
  | wrel (src dst : Oct)
  | rd (src dst : Oct)
  | racq (src dst : Oct)
  | rply (src dst : Oct)
  | aply (src dst : Oct)
  | bcn (src dst : Oct)
  | refuse (src dst : Oct)
  | retryResend (site home : Oct)
  | mreq (src dst : Oct)
  | mrply (src dst : Oct)
  | beaconTimeout (site home : Oct)
  | retryBufferTimeout (site : Oct)
  | stop (site : Oct)
  | stopped (site : Oct)
  | drained (home : Oct)
  | l2ProbeAccept (req : Nat) (bad : BitVec 4)
  | l3ReadAccept (req : Nat) (bad : BitVec 4)
  | hbmReadAccept (req : Nat)
  | hbmDataReturn (req : Nat) (found : EccFinding)
  | homeAluAccept (req : Nat)
  | translationComplete (wave : Nat) (held : Nat)
  | refinement (wave : Nat) (acc : Nat)
  | valueArrival (wave : Nat) (acc : Nat)
  | lateNotice (wave : Nat) (acc : Nat)
  | promiseMatures (wave : Nat)
  | kernel (q : Nat)
  | taskpool (q : Nat)
  | signal (q : Nat)
  | event (q : Nat)
  | wait (q : Nat)
  | dependenceSignalPoll (q : Nat)
  | packetCompletion (job : Nat)
  | backInvalidateResponse (req : Nat)
  | ioContextBind (n : Nat)
  | ioContextUnbind (n : Nat)
  | cqPoll (n : Nat)
  | ioRequestTimeout (n : Nat) (num : Nat)
  | ioSubmission (n : Nat)
  | suspensionComplete (p : Fin 8)
  | matrixGate (core : Nat)
  | groupPlacement (p : Fin 8)
  | quiescenceComplete (group : Nat)
  | binnerTimeout (ctx : Nat)
  | barTimeout (group : Nat) (bar : Fin 16)
  | eventOverflowScan (ctx : Nat) (name : BitVec 16)
  | eventAddAtHome (req : Nat)
  | triggerCount (wave : Nat)
  | waveSlotFree (wave : Nat)
  | sleepExpiry (wave : Nat)
  | yieldTickExpiry (wave : Nat)
  | fixedLatencyResult (wave : Nat)
  | l1Fill (req : Nat)
  | instructionFetch (wave : Nat) (pc : VA)
  | replayIssue (wave : Nat) (held : Nat)
  | bowWakeEnd (core : Nat)
  | bowFetchEnd (core : Nat)
  | bowStepEnd (core : Nat)
  | bowDrainEnd (core : Nat)
  | bowStopEnd (core : Nat)
  | accumulatorAccess (core : Nat)
  | copyComplete (wave : Nat) (acc : Nat)
  | cpaEvictionTimeout (wave : Nat) (acc : Nat)
  | streamHeaderPoll (core : Nat) (engine : Fin 4)
  | streamPublish (core : Nat) (engine : Fin 4)
  | streamAck (core : Nat) (engine : Fin 4)
  | cptComplete (core : Nat) (engine : Fin 4)
  | fenceScComplete (wave : Nat)
  | homeAcknowledgement (req : Nat)
  | prqRetry (index : Nat)
  | prqFail (index : Nat)
  | sAdd (d a b : SReg)
  | sSub (d a b : SReg)
  | sMul (d a b : SReg)
  | sMulh (d a b : SReg)
  | sAnd (d a b : SReg)
  | sOr (d a b : SReg)
  | sXor (d a b : SReg)
  | sShl (d a b : SReg)
  | sShr (d a b : SReg)
  | sSra (d a b : SReg)
  | sMin (d a b : SReg)
  | sMax (d a b : SReg)
  | sCmpEq (d a b : SReg)
  | sCmpNe (d a b : SReg)
  | sCmpLt (d a b : SReg)
  | sCmpLe (d a b : SReg)
  | sCmpLo (d a b : SReg)
  | sCmpLs (d a b : SReg)
  | sSel (d a b : SReg)
  | sBfx (d a b : SReg)
  | sPopc (d a : SReg)
  | sClz (d a : SReg)
  | sMov (d a : SReg)
  | sLi (d : SReg) (imm : Word)
  | sAddi (d a : SReg) (imm : Word)
  | sRdlane (d : SReg) (a : VOp) (b : SReg)
  | sWrlane (d : VOp) (a b : SReg)
  | br (off : BitVec 19)
  | bc (k : KReg) (off : BitVec 19)
  | bvAny (k : KReg) (off : BitVec 19)
  | bvAll (k : KReg) (off : BitVec 19)
  | jr (a : SPair)
  | call (link : Fin 16) (off : BitVec 19)
  | ret (a : SPair)
  | yieldTags (a : SPair) (sp : Bool)
  | yieldTl (a : SPair) (b : SReg) (sp : Bool)
  | yieldEv (a b : SReg) (sp : Bool)
  | yieldTick (a : SPair) (sp : Bool)
  | sleep (a : SReg) (imm : Word)
  | spawn (a : VOp) (b : SPair)
  | launch (q : SReg) (p : SPair)
  | add (ty : IntTy) (d a b : VOp)
  | sub (ty : IntTy) (d a b : VOp)
  | mul (ty : IntTy) (d a b : VOp)
  | mulh (ty : IntTy) (d a b : VOp)
  | mad (ty : IntTy) (d a b : VOp)
  | and (d a b : VOp)
  | or (d a b : VOp)
  | xor (d a b : VOp)
  | shl (ty : IntTy) (d a b : VOp)
  | shr (ty : IntTy) (d a b : VOp)
  | sra (ty : IntTy) (d a b : VOp)
  | min (ty : IntTy) (d a b : VOp)
  | max (ty : IntTy) (d a b : VOp)
  | abs (ty : IntTy) (d a : VOp)
  | cmp (c : Cond) (ty : IntTy) (k : KReg) (a b : VOp)
  | sel (k : Fin 4) (d a b : VOp)
  | bfx (uns : Bool) (d a b : VOp)
  | bfi (d a b : VOp)
  | popc (d a : VOp)
  | clz (d a : VOp)
  | shflIdx (d a b : VOp)
  | shflUp (d a b : VOp)
  | shflDown (d a b : VOp)
  | shflXor (d a b : VOp)
  | voteAll (d : VOp) (k : KReg)
  | voteAny (d : VOp) (k : KReg)
  | voteBallot (d : VOp) (k : KReg)
  | id (d : VOp) (sel : BitVec 9)
  | mov (d a : VOp)
  | fadd (ty : FloTy) (r : Rnd) (d a b : VOp)
  | fsub (ty : FloTy) (r : Rnd) (d a b : VOp)
  | fmul (ty : FloTy) (r : Rnd) (d a b : VOp)
  | ffma (ty : FloTy) (r : Rnd) (d a b : VOp)
  | fmin (ty : FloTy) (d a b : VOp)
  | fmax (ty : FloTy) (d a b : VOp)
  | fcmp (c : FCond) (ty : FloTy) (k : KReg) (a b : VOp)
  | fcls (ty : FloTy) (d a : VOp)
  | frcp (d a : VOp)
  | frsq (d a : VOp)
  | fsqrt (d a : VOp)
  | fex2 (d a : VOp)
  | flg2 (d a : VOp)
  | fsin (d a : VOp)
  | fcos (d a : VOp)
  | fred (r : Rnd) (d a : VOp)
  | cvt (dst src : Elt) (r : Rnd) (d a : VOp)
  | cvtn (dst src : Elt) (r : Rnd) (o : Ovf) (d a : VOp)
  | cvtw (dst src : Elt) (r : Rnd) (d a : VOp)
  | pack (ty : PackTy) (r : Rnd) (d a b : VOp)
  | unpack (ty : PackTy) (d a : VOp)
  | kand (d a b : KReg)
  | kor (d a b : KReg)
  | kxor (d a b : KReg)
  | knot (d a : KReg)
  | xcfg (x : XNum) (base bound : BitVec 8) (step : BitVec 4)
  | xset (x : XNum) (a : VOp)
  | xget (d : VOp) (x : XNum)
  | xadd (x : XNum) (a : VOp)
  | shp (d : SReg) (a : VOp)
  | shpw (d : SReg)
  | tnow (d : VOp)
  | tget (d : VOp) (t : TOp)
  | tdist (d : VOp) (t : TOp)
  | tready (k : KReg) (t : TOp)
  | twait (t : TOp)
  | tyield (t : TOp)
  | trank (d : VOp) (t : Fin 16) (m : Fin 8)
  | ld (m : MemMod) (d a : VOp) (b : SPair) (t : TOp)
  | st (m : MemMod) (d a : VOp) (b : SPair) (key : SReg)
  | sld (m : MemMod) (d a : VOp) (b : SPair) (t : TOp)
  | sst (m : MemMod) (d a : VOp) (b : SPair) (key : SReg)
  | lds (m : MemMod) (d a : VOp) (b : SPair) (t : TOp)
  | sts (m : MemMod) (d a : VOp) (b : SPair)
  | ldp (m : MemMod) (d a : VOp) (b : SPair) (t : TOp)
  | stp (m : MemMod) (d a : VOp) (b : SPair)
  | probe (m : MemMod) (a : VOp) (b : SPair) (t : TOp)
  | ldt (m : MemMod) (d a : VOp) (b : SPair) (key : SReg) (t : TOp)
  | atom (op : AtomOp) (m : MemMod) (d a : VOp) (b : SPair) (t : TOp)
  | cas (m : MemMod) (d a : VOp) (b : SPair) (e : VOp) (t : TOp)
  | atsc (op : AtomOp) (m : MemMod) (d a : VOp) (b : SPair) (t : TOp)
  | red (op : AtomOp) (m : MemMod) (d a : VOp) (b : SPair)
  | hred (op : AtomOp) (m : MemMod) (d a : VOp) (b : SPair)
  | fence (o : Order) (s : Scope)
  | bar (n : Fin 16)
  | barr (n : Fin 16)
  | barw (n : Fin 16)
  | evsig (a : SReg)
  | evwait (a b : SReg)
  | evq (d a : SReg)
  | sigdec (p : SPair)
  | cpa (toGlobal : Bool) (size : Size) (policy : Policy) (o a : VOp) (b s : SPair) (tag : Fin 64)
  | cpt (a : SReg) (v : SPair) (tag : Fin 64)
  | tagw (i : Fin 64)
  | taga (i : Fin 64) (m : BitVec 8)
  | tagf (i : Fin 64)
  | tagc (d : SPair)
  | srec (d a : SReg)
  | sarm (e : SReg) (tag : Fin 64)
  | sstop (e : SReg)
  | iord (d a : VOp) (b : SReg)
  | iowr (d a : VOp) (b : SReg)
  | tlw (i : SReg) (v : SPair)
  | tlget (d : SPair) (i : SReg)
  | acca (d : SReg) (n : BitVec 6)
  | accf (h : SReg)
  | accz (h : SReg)
  | accr (d : VOp) (h n : SReg) (t : TOp)
  | accw (a : VOp) (h n : SReg)
  | mgix (a : SReg)
  | mma (fa fb : MxFmt) (c d : SReg) (tag : Fin 64)
  | mloop (fa fb : MxFmt) (c n d : SReg) (tag : Fin 64)
  | mloopSc (fa fb : MxFmt) (sf : ScFmt) (c n d : SReg) (tag : Fin 64)
  | scacc (sf : ScFmt) (c p s : SReg) (tag : Fin 64)
  | sysr (d : SPair) (n : BitVec 12)
  | sysw (a : SPair) (n : BitVec 12)
  | wspill (a : SPair) (b : SReg)
  | wfill (a : SPair) (b : SReg)
  | storeAccept (req : Nat)
  | powerWindowEnd (avg : BitVec 16)
  | energyAccount (shares : List (Nat × Nat))
  | linkUnrecoverableFlit (oct : Oct)
  | linkRetry (boundary : Fin 10) (down : Bool) (ticks : Nat)
  | spareRow (value : DWord)
  | rowRemap (value : DWord)
  | spareGranule (value : DWord)
  | memrepairReservedKind (value : DWord)
  | faqTail (value : Word)
  | bplAdd (value : DWord)
  | fretCommit (port : Port) (value : DWord)
  | hsemAcquire (port : Port) (both : Bool)
  | hsemRelease (port : Port)
  | functionLevelReset (port : Port)
  | linkDown (port : Port)
  | queueEnable (q : Nat)
  | queueResume (q : Nat)
  | queueDisable (q : Nat)
  | doorbell (q : Nat) (value : DWord)
  | msixUnmask (port : Port) (fn vec : Nat)
  | peerRequest (r : PeerReq)
  | hostWrite (src : Outsider) (pa : Nat) (data : OutsideStore)
  | hostRead (src : Outsider) (pa : Nat) (n : OutsideLoad)
  | ionotify (n : Nat)
  | nvmeCompletion (n : Nat) (num : Nat) (status : Nat)
  | suspend (port : Port) (p : Fin 8)
  | partitionResume (port : Port) (p : Fin 8)
  | pstatePs0 (port : Port)
  | pstatePs1 (port : Port)
  | pstatePs2 (port : Port)
  | pstatePs3 (port : Port)
  | mxgate (port : Port) (value : DWord)
  | pwralarm (port : Port) (value : DWord)
  | firmwareInstall (port : Port) (arg : BitVec 48)
  | attest (port : Port) (arg : BitVec 48)
  | removeOctant (port : Port) (arg : BitVec 48)
  | raiseRollback (port : RollbackWrite)
  | fwmboxNoCommand (port : Port) (value : DWord)
  | trimiLoad (obj : TrimiObj)
  | prqRespNoEffect (value : DWord)
  | prqTail (value : Word)
  | frecTail (value : Word)
  | shootdown (value : DWord)
  | debugHalt (value : DWord)
  | debugResume (value : DWord)
  | debugStep (value : DWord)
  | dbgDataWrite (value : DWord)
  | registerWrite (port : Port) (fn : Nat) (offset size : Nat) (value : DWord)
  | coldReset
  | coldResetRelease
  | thermalAlert
  | criticalTemperatureStop
  | beaconSend
  | resume
  | repairComplete
  | fretMapCheck
  | fretInstall
  | boundTransitionStart
  | boundTransitionEnd
  | hsemLapse
  | powerTransition
  | ticketGrant
  | shootdownComplete
  | dbgDataRead
  | exit
  | trig
  | nop
  | fenceSc
  | trap
  | brk
  | rti
  | replay
  | thermalAlertDeassert
deriving DecidableEq, Repr

end Sys2Proof
end

