-- ==== Sys2Proof/WellFormed.lean ====
section
/-! DEFINITION. Which terms of Instr are instructions that the encoding admits: what R349-R359, R398, R399, R409, R429, R437 and
R226 refuse beyond the shape of the fields. A term that fails a check raises ILLEGAL_INSTR when its word issues (R363). -/

namespace Sys2Proof

/-- The vector operands of a word, in the order of its fields (R223). A happening has none. -/
def Instr.vops : Instr → List VOp
  | .sRdlane _ a _ | .spawn a _ | .xset _ a | .xadd _ a | .shp _ a | .probe _ a _ _ | .accw a _ _ => [a]
  | .sWrlane d _ _ | .voteAll d _ | .voteAny d _ | .voteBallot d _ | .id d _ | .xget d _ | .tnow d | .tget d _ | .tdist d _ | .trank d _ _
  | .accr d _ _ _ => [d]
  | .add _ d a b | .sub _ d a b | .mul _ d a b | .mulh _ d a b | .mad _ d a b | .and d a b | .or d a b | .xor d a b | .shl _ d a b
  | .shr _ d a b | .sra _ d a b | .min _ d a b | .max _ d a b | .sel _ d a b | .bfx _ d a b | .bfi d a b | .shflIdx d a b | .shflUp d a b
  | .shflDown d a b | .shflXor d a b | .fadd _ _ d a b | .fsub _ _ d a b | .fmul _ _ d a b | .ffma _ _ d a b | .fmin _ d a b | .fmax _ d a b
  | .pack _ _ d a b => [d, a, b]
  | .abs _ d a | .popc d a | .clz d a | .mov d a | .fcls _ d a | .frcp d a | .frsq d a | .fsqrt d a | .fex2 d a | .flg2 d a | .fsin d a
  | .fcos d a | .fred _ d a | .cvt _ _ _ d a | .cvtn _ _ _ _ d a | .cvtw _ _ _ d a | .unpack _ d a | .ld _ d a _ _ | .st _ d a _ _
  | .sld _ d a _ _ | .sst _ d a _ _ | .lds _ d a _ _ | .sts _ d a _ | .ldp _ d a _ _ | .stp _ d a _ | .ldt _ d a _ _ _ | .atom _ _ d a _ _
  | .atsc _ _ d a _ _ | .red _ _ d a _ | .hred _ _ d a _ | .iord d a _ | .iowr d a _ => [d, a]
  | .cmp _ _ _ a b | .fcmp _ _ _ a b => [a, b]
  | .cas _ d a _ e _ => [d, a, e]
  | .cpa _ _ _ o a _ _ _ => [o, a]
  | .stampWrite _ | .stampRead _ | .wr _ _ | .wrel _ _ | .rd _ _ | .racq _ _ | .rply _ _ | .aply _ _ | .bcn _ _ | .refuse _ _
  | .retryResend _ _ | .mreq _ _ | .mrply _ _ | .beaconTimeout _ _ | .retryBufferTimeout _ | .stop _ | .stopped _ | .drained _
  | .l2ProbeAccept _ _ | .l3ReadAccept _ _ | .hbmReadAccept _ | .hbmDataReturn _ _ | .homeAluAccept _ | .translationComplete _ _
  | .refinement _ _ | .valueArrival _ _ | .lateNotice _ _ | .promiseMatures _ | .kernel _ | .taskpool _ | .signal _ | .event _ | .wait _
  | .dependenceSignalPoll _ | .packetCompletion _ | .backInvalidateResponse _ | .ioContextBind _ | .ioContextUnbind _ | .cqPoll _
  | .ioRequestTimeout _ _ | .ioSubmission _ | .suspensionComplete _ | .matrixGate _ | .groupPlacement _ | .quiescenceComplete _
  | .binnerTimeout _ | .barTimeout _ _ | .eventOverflowScan _ _ | .eventAddAtHome _ | .triggerCount _ | .waveSlotFree _ | .sleepExpiry _
  | .yieldTickExpiry _ | .fixedLatencyResult _ | .l1Fill _ | .instructionFetch _ _ | .replayIssue _ _ | .bowWakeEnd _ | .bowFetchEnd _
  | .bowStepEnd _ | .bowDrainEnd _ | .bowStopEnd _ | .accumulatorAccess _ | .copyComplete _ _ | .cpaEvictionTimeout _ _
  | .streamHeaderPoll _ _ | .streamPublish _ _ | .streamAck _ _ | .cptComplete _ _ | .fenceScComplete _ | .homeAcknowledgement _
  | .prqRetry _ | .prqFail _ | .sAdd _ _ _ | .sSub _ _ _ | .sMul _ _ _ | .sMulh _ _ _ | .sAnd _ _ _ | .sOr _ _ _ | .sXor _ _ _ | .sShl _ _ _
  | .sShr _ _ _ | .sSra _ _ _ | .sMin _ _ _ | .sMax _ _ _ | .sCmpEq _ _ _ | .sCmpNe _ _ _ | .sCmpLt _ _ _ | .sCmpLe _ _ _ | .sCmpLo _ _ _
  | .sCmpLs _ _ _ | .sSel _ _ _ | .sBfx _ _ _ | .sPopc _ _ | .sClz _ _ | .sMov _ _ | .sLi _ _ | .sAddi _ _ _ | .br _ | .bc _ _ | .bvAny _ _
  | .bvAll _ _ | .jr _ | .call _ _ | .ret _ | .yieldTags _ _ | .yieldTl _ _ _ | .yieldEv _ _ _ | .yieldTick _ _ | .sleep _ _ | .launch _ _
  | .kand _ _ _ | .kor _ _ _ | .kxor _ _ _ | .knot _ _ | .xcfg _ _ _ _ | .shpw _ | .tready _ _ | .twait _ | .tyield _ | .fence _ _ | .bar _
  | .barr _ | .barw _ | .evsig _ | .evwait _ _ | .evq _ _ | .sigdec _ | .cpt _ _ _ | .tagw _ | .taga _ _ | .tagf _ | .tagc _ | .srec _ _
  | .sarm _ _ | .sstop _ | .tlw _ _ | .tlget _ _ | .acca _ _ | .accf _ | .accz _ | .mgix _ | .mma _ _ _ _ _ | .mloop _ _ _ _ _ _
  | .mloopSc _ _ _ _ _ _ _ | .scacc _ _ _ _ _ | .sysr _ _ | .sysw _ _ | .wspill _ _ | .wfill _ _ | .storeAccept _ | .linkUnrecoverableFlit _
  | .linkRetry _ _ _ | .spareRow _ | .rowRemap _ | .spareGranule _ | .memrepairReservedKind _ | .faqTail _ | .bplAdd _ | .fretCommit _ _
  | .hsemAcquire _ _ | .hsemRelease _ | .functionLevelReset _ | .linkDown _ | .queueEnable _ | .queueResume _ | .queueDisable _
  | .doorbell _ _ | .msixUnmask _ _ _ | .peerRequest _ | .hostWrite _ _ _ | .hostRead _ _ _ | .ionotify _ | .nvmeCompletion _ _ _
  | .suspend _ _ | .partitionResume _ _ | .pstatePs0 _ | .pstatePs1 _ | .pstatePs2 _ | .pstatePs3 _ | .mxgate _ _ | .pwralarm _ _
  | .powerWindowEnd _ | .energyAccount _ | .firmwareInstall _ _ | .attest _ _ | .removeOctant _ _ | .raiseRollback _ | .fwmboxNoCommand _ _
  | .trimiLoad _ | .prqRespNoEffect _ | .prqTail _ | .frecTail _ | .shootdown _ | .debugHalt _ | .debugResume _ | .debugStep _
  | .dbgDataWrite _ | .registerWrite _ _ _ _ _ | .coldReset | .coldResetRelease | .thermalAlert | .criticalTemperatureStop | .beaconSend
  | .resume | .repairComplete | .fretMapCheck | .fretInstall | .boundTransitionStart | .boundTransitionEnd | .hsemLapse | .powerTransition
  | .ticketGrant | .shootdownComplete | .dbgDataRead | .exit | .trig | .nop | .fenceSc | .trap | .brk | .rti | .replay
  | .thermalAlertDeassert => []

/-- The time operand of a word that may name it through an index register (R227). -/
def Instr.tops : Instr → List TOp
  | .tget _ t | .tdist _ t | .tready _ t | .twait t | .tyield t | .ld _ _ _ _ t | .sld _ _ _ _ t | .lds _ _ _ _ t | .ldp _ _ _ _ t
  | .probe _ _ _ t | .ldt _ _ _ _ _ t | .atom _ _ _ _ _ t | .cas _ _ _ _ _ t | .atsc _ _ _ _ _ t | .accr _ _ _ t => [t]
  | .stampWrite _ | .stampRead _ | .wr _ _ | .wrel _ _ | .rd _ _ | .racq _ _ | .rply _ _ | .aply _ _ | .bcn _ _ | .refuse _ _
  | .retryResend _ _ | .mreq _ _ | .mrply _ _ | .beaconTimeout _ _ | .retryBufferTimeout _ | .stop _ | .stopped _ | .drained _
  | .l2ProbeAccept _ _ | .l3ReadAccept _ _ | .hbmReadAccept _ | .hbmDataReturn _ _ | .homeAluAccept _ | .translationComplete _ _
  | .refinement _ _ | .valueArrival _ _ | .lateNotice _ _ | .promiseMatures _ | .kernel _ | .taskpool _ | .signal _ | .event _ | .wait _
  | .dependenceSignalPoll _ | .packetCompletion _ | .backInvalidateResponse _ | .ioContextBind _ | .ioContextUnbind _ | .cqPoll _
  | .ioRequestTimeout _ _ | .ioSubmission _ | .suspensionComplete _ | .matrixGate _ | .groupPlacement _ | .quiescenceComplete _
  | .binnerTimeout _ | .barTimeout _ _ | .eventOverflowScan _ _ | .eventAddAtHome _ | .triggerCount _ | .waveSlotFree _ | .sleepExpiry _
  | .yieldTickExpiry _ | .fixedLatencyResult _ | .l1Fill _ | .instructionFetch _ _ | .replayIssue _ _ | .bowWakeEnd _ | .bowFetchEnd _
  | .bowStepEnd _ | .bowDrainEnd _ | .bowStopEnd _ | .accumulatorAccess _ | .copyComplete _ _ | .cpaEvictionTimeout _ _
  | .streamHeaderPoll _ _ | .streamPublish _ _ | .streamAck _ _ | .cptComplete _ _ | .fenceScComplete _ | .homeAcknowledgement _
  | .prqRetry _ | .prqFail _ | .sAdd _ _ _ | .sSub _ _ _ | .sMul _ _ _ | .sMulh _ _ _ | .sAnd _ _ _ | .sOr _ _ _ | .sXor _ _ _ | .sShl _ _ _
  | .sShr _ _ _ | .sSra _ _ _ | .sMin _ _ _ | .sMax _ _ _ | .sCmpEq _ _ _ | .sCmpNe _ _ _ | .sCmpLt _ _ _ | .sCmpLe _ _ _ | .sCmpLo _ _ _
  | .sCmpLs _ _ _ | .sSel _ _ _ | .sBfx _ _ _ | .sPopc _ _ | .sClz _ _ | .sMov _ _ | .sLi _ _ | .sAddi _ _ _ | .sRdlane _ _ _
  | .sWrlane _ _ _ | .br _ | .bc _ _ | .bvAny _ _ | .bvAll _ _ | .jr _ | .call _ _ | .ret _ | .yieldTags _ _ | .yieldTl _ _ _
  | .yieldEv _ _ _ | .yieldTick _ _ | .sleep _ _ | .spawn _ _ | .launch _ _ | .add _ _ _ _ | .sub _ _ _ _ | .mul _ _ _ _ | .mulh _ _ _ _
  | .mad _ _ _ _ | .and _ _ _ | .or _ _ _ | .xor _ _ _ | .shl _ _ _ _ | .shr _ _ _ _ | .sra _ _ _ _ | .min _ _ _ _ | .max _ _ _ _
  | .abs _ _ _ | .cmp _ _ _ _ _ | .sel _ _ _ _ | .bfx _ _ _ _ | .bfi _ _ _ | .popc _ _ | .clz _ _ | .shflIdx _ _ _ | .shflUp _ _ _
  | .shflDown _ _ _ | .shflXor _ _ _ | .voteAll _ _ | .voteAny _ _ | .voteBallot _ _ | .id _ _ | .mov _ _ | .fadd _ _ _ _ _
  | .fsub _ _ _ _ _ | .fmul _ _ _ _ _ | .ffma _ _ _ _ _ | .fmin _ _ _ _ | .fmax _ _ _ _ | .fcmp _ _ _ _ _ | .fcls _ _ _ | .frcp _ _
  | .frsq _ _ | .fsqrt _ _ | .fex2 _ _ | .flg2 _ _ | .fsin _ _ | .fcos _ _ | .fred _ _ _ | .cvt _ _ _ _ _ | .cvtn _ _ _ _ _ _
  | .cvtw _ _ _ _ _ | .pack _ _ _ _ _ | .unpack _ _ _ | .kand _ _ _ | .kor _ _ _ | .kxor _ _ _ | .knot _ _ | .xcfg _ _ _ _ | .xset _ _
  | .xget _ _ | .xadd _ _ | .shp _ _ | .shpw _ | .tnow _ | .trank _ _ _ | .st _ _ _ _ _ | .sst _ _ _ _ _ | .sts _ _ _ _ | .stp _ _ _ _
  | .red _ _ _ _ _ | .hred _ _ _ _ _ | .fence _ _ | .bar _ | .barr _ | .barw _ | .evsig _ | .evwait _ _ | .evq _ _ | .sigdec _
  | .cpa _ _ _ _ _ _ _ _ | .cpt _ _ _ | .tagw _ | .taga _ _ | .tagf _ | .tagc _ | .srec _ _ | .sarm _ _ | .sstop _ | .iord _ _ _
  | .iowr _ _ _ | .tlw _ _ | .tlget _ _ | .acca _ _ | .accf _ | .accz _ | .accw _ _ _ | .mgix _ | .mma _ _ _ _ _ | .mloop _ _ _ _ _ _
  | .mloopSc _ _ _ _ _ _ _ | .scacc _ _ _ _ _ | .sysr _ _ | .sysw _ _ | .wspill _ _ | .wfill _ _ | .storeAccept _ | .linkUnrecoverableFlit _
  | .linkRetry _ _ _ | .spareRow _ | .rowRemap _ | .spareGranule _ | .memrepairReservedKind _ | .faqTail _ | .bplAdd _ | .fretCommit _ _
  | .hsemAcquire _ _ | .hsemRelease _ | .functionLevelReset _ | .linkDown _ | .queueEnable _ | .queueResume _ | .queueDisable _
  | .doorbell _ _ | .msixUnmask _ _ _ | .peerRequest _ | .hostWrite _ _ _ | .hostRead _ _ _ | .ionotify _ | .nvmeCompletion _ _ _
  | .suspend _ _ | .partitionResume _ _ | .pstatePs0 _ | .pstatePs1 _ | .pstatePs2 _ | .pstatePs3 _ | .mxgate _ _ | .pwralarm _ _
  | .powerWindowEnd _ | .energyAccount _ | .firmwareInstall _ _ | .attest _ _ | .removeOctant _ _ | .raiseRollback _ | .fwmboxNoCommand _ _
  | .trimiLoad _ | .prqRespNoEffect _ | .prqTail _ | .frecTail _ | .shootdown _ | .debugHalt _ | .debugResume _ | .debugStep _
  | .dbgDataWrite _ | .registerWrite _ _ _ _ _ | .coldReset | .coldResetRelease | .thermalAlert | .criticalTemperatureStop | .beaconSend
  | .resume | .repairComplete | .fretMapCheck | .fretInstall | .boundTransitionStart | .boundTransitionEnd | .hsemLapse | .powerTransition
  | .ticketGrant | .shootdownComplete | .dbgDataRead | .exit | .trig | .nop | .fenceSc | .trap | .brk | .rti | .replay
  | .thermalAlertDeassert => []

/-- The form in which an operand names an index register (R226). -/
inductive XForm where
  | plain | inc | dec
deriving DecidableEq, Repr

/-- The index register an operand names, and the form. -/
def VOp.xform : VOp → Option (XNum × XForm)
  | .dir _ => none
  | .idx x => some (x, .plain)
  | .inc x => some (x, .inc)
  | .dec x => some (x, .dec)

/-- The index register a time operand names: it has no auto-step form (R227). -/
def TOp.xform : TOp → Option (XNum × XForm)
  | .dir _ => none
  | .idx x => some (x, .plain)

/-- All operands of one word that name one index register use one form (R226). -/
def Instr.oneForm (i : Instr) : Bool :=
  let fs := i.vops.filterMap VOp.xform ++ i.tops.filterMap TOp.xform
  fs.all fun p => fs.all fun q => p.1 != q.1 || p.2 == q.2

/-- The class of a conversion (R248). -/
inductive CvtClass where
  | widening | rounding | narrowing
deriving DecidableEq, Repr

/-- Is the element type an integer type? -/
def Elt.isInt : Elt → Bool
  | .i32 | .n32 | .i8 | .n8 | .i4 => true
  | .f32 | .f16 | .bf16 | .e4m3 | .e5m2 | .e3m2 | .e2m3 | .e2m1 | .e8m0 => false

/-- The class of the pair that converts a `src` element to a `dst` element (R248). -/
def cvtClass (dst src : Elt) : CvtClass :=
  if dst = src then .widening else
  match dst, src with
  | .f32, .i32 | .f32, .n32 | .bf16, .f16 | .bf16, .i32 | .bf16, .n32 => .rounding
  | .f32, _ => .widening
  | .f16, .e4m3 | .f16, .e5m2 | .f16, .e3m2 | .f16, .e2m3 | .f16, .e2m1 | .f16, .i8 | .f16, .n8 | .f16, .i4 => .widening
  | .bf16, .e4m3 | .bf16, .e5m2 | .bf16, .e3m2 | .bf16, .e2m3 | .bf16, .e2m1 | .bf16, .e8m0
  | .bf16, .i8 | .bf16, .n8 | .bf16, .i4 => .widening
  | .i32, .i8 | .i32, .i4 | .i32, .n8 | .n32, .n8 | .i8, .i4 => .widening
  | _, _ => .narrowing

/-- The pairs of `cvtw` (R399). -/
def cvtwTakes (dst src : Elt) : Bool :=
  match dst, src with
  | .f16, .e4m3 | .f16, .e5m2 | .f16, .e3m2 | .f16, .e2m3 | .f16, .e2m1 | .f16, .i8 | .f16, .n8 | .f16, .i4 => true
  | .bf16, .e4m3 | .bf16, .e5m2 | .bf16, .e3m2 | .bf16, .e2m3 | .bf16, .e2m1 | .bf16, .i8 | .bf16, .n8 | .bf16, .i4 => true
  | .bf16, .e8m0 => true
  | _, _ => false

/-- The selectors of `id` (R395). -/
def idSelector (s : BitVec 9) : Bool := s.toNat ≤ 8 || (64 ≤ s.toNat && s.toNat ≤ 127)

/-- The scope rule "any with order" of R409. -/
def MemMod.scopeOk (m : MemMod) : Bool := m.order != .wk || m.scope == .dev

/-- `ld` and `sld` (R409). -/
def MemMod.loadOk (m : MemMod) : Bool := (m.order == .wk || m.order == .acq) && m.scopeOk && m.policy != .fwd

/-- `st` and `sst` with their key register (R409): a key only with `.fwd`. -/
def MemMod.storeOk (m : MemMod) (key : SReg) : Bool :=
  (m.order == .wk || m.order == .rel) && m.scopeOk && (m.policy == .fwd || key == 0)

/-- `lds` and `ldt` (R409). -/
def MemMod.ldsOk (m : MemMod) : Bool := (m.order == .wk || m.order == .acq) && m.scopeOk && m.policy == .dflt

/-- `sts` (R409). -/
def MemMod.stsOk (m : MemMod) : Bool := (m.order == .wk || m.order == .rel) && m.scopeOk && m.policy == .dflt

/-- `ldp` and `stp` (R409). -/
def MemMod.plainOk (m : MemMod) : Bool := m.order == .wk && m.scope == .dev && m.policy == .dflt

/-- `probe` (R409). -/
def MemMod.probeOk (m : MemMod) : Bool := m.order == .wk && m.scope == .dev && m.policy != .fwd

/-- The sizes of an atomic (R409). -/
def MemMod.atomSize (m : MemMod) : Bool := (m.size == .b32 || m.size == .b64) && m.policy == .dflt

/-- An atomic operation and its size (R419). -/
def AtomOp.sizeOk (op : AtomOp) (s : Size) : Bool :=
  match op with
  | .fadd | .fmin | .fmax => s == .b32
  | .add | .min | .max | .minN | .maxN | .and | .or | .xor | .exch => true

/-- Does the format take the residue path (R437)? -/
def MxFmt.residue : MxFmt → Bool
  | .e2m1 | .e2m3 | .i8 | .i4 => true
  | .e4m3 | .e5m2 | .e3m2 | .bf16 => false

/-- The pairings of R257. -/
def mxPair (a b : MxFmt) : Bool := a.residue == b.residue && ((a == .bf16) == (b == .bf16))

/-- Is a system register number reserved (R449)? -/
def sysReserved (n : Nat) : Bool := (decide (0x00A ≤ n) && decide (n ≤ 0x00F)) || decide (0x016 ≤ n)

/-- The checks of one instruction beyond R226. A happening has no encoding and no check. -/
def Instr.fieldsOk : Instr → Bool
  | .call link _ => link != 0
  | .taga _ m => m != 0
  | .acca _ n => n == 1 || n == 2 || n == 4 || n == 8 || n == 16 || n == 32
  | .fence o _ => o != .wk
  | .id _ n => idSelector n
  | .cvt dst src _ _ _ => cvtClass dst src != .narrowing
  | .cvtn dst src _ _ _ _ => cvtClass dst src == .narrowing
  | .cvtw dst src _ _ _ => cvtwTakes dst src
  | .trank _ t m => t.val + m.val ≤ 15
  | .sysr _ n => !sysReserved n.toNat
  | .sysw _ n => n == 0
  | .ld m _ _ _ _ => m.loadOk
  | .sld m _ _ _ _ => m.loadOk
  | .st m _ _ _ key => m.storeOk key
  | .sst m _ _ _ key => m.storeOk key
  | .lds m _ _ _ _ => m.ldsOk
  | .ldt m _ _ _ _ _ => m.ldsOk
  | .sts m _ _ _ => m.stsOk
  | .ldp m _ _ _ _ => m.plainOk
  | .stp m _ _ _ => m.plainOk
  | .probe m _ _ _ => m.probeOk
  | .atom op m _ _ _ _ => m.atomSize && op.sizeOk m.size
  | .cas m _ _ _ _ _ => m.atomSize
  | .atsc op m _ _ _ _ => m.atomSize && op.sizeOk m.size && m.order == .wk && m.scope == .dev
  | .red op m _ _ _ => m.atomSize && op.sizeOk m.size && (m.order == .wk || m.order == .rel)
  | .hred op m _ _ _ => m.atomSize && op.sizeOk m.size && (m.order == .wk || m.order == .rel) && op != .exch
  | .cpa _ size policy _ _ b _ _ => (size == .b32 || size == .b64 || size == .b128) && policy != .fwd && decide (b.val < 16)
  | .mma fa fb _ _ _ => mxPair fa fb
  | .mloop fa fb _ _ _ _ => mxPair fa fb
  | .mloopSc fa fb _ _ _ _ _ => mxPair fa fb
  | .stampWrite _ | .stampRead _ | .wr _ _ | .wrel _ _ | .rd _ _ | .racq _ _ | .rply _ _ | .aply _ _ | .bcn _ _ | .refuse _ _
  | .retryResend _ _ | .mreq _ _ | .mrply _ _ | .beaconTimeout _ _ | .retryBufferTimeout _ | .stop _ | .stopped _ | .drained _
  | .l2ProbeAccept _ _ | .l3ReadAccept _ _ | .hbmReadAccept _ | .hbmDataReturn _ _ | .homeAluAccept _ | .translationComplete _ _
  | .refinement _ _ | .valueArrival _ _ | .lateNotice _ _ | .promiseMatures _ | .kernel _ | .taskpool _ | .signal _ | .event _ | .wait _
  | .dependenceSignalPoll _ | .packetCompletion _ | .backInvalidateResponse _ | .ioContextBind _ | .ioContextUnbind _ | .cqPoll _
  | .ioRequestTimeout _ _ | .ioSubmission _ | .suspensionComplete _ | .matrixGate _ | .groupPlacement _ | .quiescenceComplete _
  | .binnerTimeout _ | .barTimeout _ _ | .eventOverflowScan _ _ | .eventAddAtHome _ | .triggerCount _ | .waveSlotFree _ | .sleepExpiry _
  | .yieldTickExpiry _ | .fixedLatencyResult _ | .l1Fill _ | .instructionFetch _ _ | .replayIssue _ _ | .bowWakeEnd _ | .bowFetchEnd _
  | .bowStepEnd _ | .bowDrainEnd _ | .bowStopEnd _ | .accumulatorAccess _ | .copyComplete _ _ | .cpaEvictionTimeout _ _
  | .streamHeaderPoll _ _ | .streamPublish _ _ | .streamAck _ _ | .cptComplete _ _ | .fenceScComplete _ | .homeAcknowledgement _
  | .prqRetry _ | .prqFail _ | .sAdd _ _ _ | .sSub _ _ _ | .sMul _ _ _ | .sMulh _ _ _ | .sAnd _ _ _ | .sOr _ _ _ | .sXor _ _ _ | .sShl _ _ _
  | .sShr _ _ _ | .sSra _ _ _ | .sMin _ _ _ | .sMax _ _ _ | .sCmpEq _ _ _ | .sCmpNe _ _ _ | .sCmpLt _ _ _ | .sCmpLe _ _ _ | .sCmpLo _ _ _
  | .sCmpLs _ _ _ | .sSel _ _ _ | .sBfx _ _ _ | .sPopc _ _ | .sClz _ _ | .sMov _ _ | .sLi _ _ | .sAddi _ _ _ | .sRdlane _ _ _
  | .sWrlane _ _ _ | .br _ | .bc _ _ | .bvAny _ _ | .bvAll _ _ | .jr _ | .ret _ | .yieldTags _ _ | .yieldTl _ _ _ | .yieldEv _ _ _
  | .yieldTick _ _ | .sleep _ _ | .spawn _ _ | .launch _ _ | .add _ _ _ _ | .sub _ _ _ _ | .mul _ _ _ _ | .mulh _ _ _ _ | .mad _ _ _ _
  | .and _ _ _ | .or _ _ _ | .xor _ _ _ | .shl _ _ _ _ | .shr _ _ _ _ | .sra _ _ _ _ | .min _ _ _ _ | .max _ _ _ _ | .abs _ _ _
  | .cmp _ _ _ _ _ | .sel _ _ _ _ | .bfx _ _ _ _ | .bfi _ _ _ | .popc _ _ | .clz _ _ | .shflIdx _ _ _ | .shflUp _ _ _ | .shflDown _ _ _
  | .shflXor _ _ _ | .voteAll _ _ | .voteAny _ _ | .voteBallot _ _ | .mov _ _ | .fadd _ _ _ _ _ | .fsub _ _ _ _ _ | .fmul _ _ _ _ _
  | .ffma _ _ _ _ _ | .fmin _ _ _ _ | .fmax _ _ _ _ | .fcmp _ _ _ _ _ | .fcls _ _ _ | .frcp _ _ | .frsq _ _ | .fsqrt _ _ | .fex2 _ _
  | .flg2 _ _ | .fsin _ _ | .fcos _ _ | .fred _ _ _ | .pack _ _ _ _ _ | .unpack _ _ _ | .kand _ _ _ | .kor _ _ _ | .kxor _ _ _ | .knot _ _
  | .xcfg _ _ _ _ | .xset _ _ | .xget _ _ | .xadd _ _ | .shp _ _ | .shpw _ | .tnow _ | .tget _ _ | .tdist _ _ | .tready _ _ | .twait _
  | .tyield _ | .bar _ | .barr _ | .barw _ | .evsig _ | .evwait _ _ | .evq _ _ | .sigdec _ | .cpt _ _ _ | .tagw _ | .tagf _ | .tagc _
  | .srec _ _ | .sarm _ _ | .sstop _ | .iord _ _ _ | .iowr _ _ _ | .tlw _ _ | .tlget _ _ | .accf _ | .accz _ | .accr _ _ _ _ | .accw _ _ _
  | .mgix _ | .scacc _ _ _ _ _ | .wspill _ _ | .wfill _ _ | .storeAccept _ | .linkUnrecoverableFlit _
  | .linkRetry _ _ _ | .spareRow _ | .rowRemap _ | .spareGranule _ | .memrepairReservedKind _ | .faqTail _ | .bplAdd _ | .fretCommit _ _
  | .hsemAcquire _ _ | .hsemRelease _ | .functionLevelReset _ | .linkDown _ | .queueEnable _ | .queueResume _ | .queueDisable _
  | .doorbell _ _ | .msixUnmask _ _ _ | .peerRequest _ | .hostWrite _ _ _ | .hostRead _ _ _ | .ionotify _ | .nvmeCompletion _ _ _
  | .suspend _ _ | .partitionResume _ _ | .pstatePs0 _ | .pstatePs1 _ | .pstatePs2 _ | .pstatePs3 _ | .mxgate _ _ | .pwralarm _ _
  | .powerWindowEnd _ | .energyAccount _ | .firmwareInstall _ _ | .attest _ _ | .removeOctant _ _ | .raiseRollback _ | .fwmboxNoCommand _ _
  | .trimiLoad _ | .prqRespNoEffect _ | .prqTail _ | .frecTail _ | .shootdown _ | .debugHalt _ | .debugResume _ | .debugStep _
  | .dbgDataWrite _ | .registerWrite _ _ _ _ _ | .coldReset | .coldResetRelease | .thermalAlert | .criticalTemperatureStop | .beaconSend
  | .resume | .repairComplete | .fretMapCheck | .fretInstall | .boundTransitionStart | .boundTransitionEnd | .hsemLapse | .powerTransition
  | .ticketGrant | .shootdownComplete | .dbgDataRead | .exit | .trig | .nop | .fenceSc | .trap | .brk | .rti | .replay
  | .thermalAlertDeassert => true

/-- An instruction that the encoding admits. -/
def Instr.wellFormed (i : Instr) : Bool := i.fieldsOk && i.oneForm

end Sys2Proof
end

