-- ==== Sys2Proof/Decode.lean ====
section
/-! DEFINITION. Packets, the instruction word and its formats, the long-form prefix, the decoder (total; it rejects what is no
instruction) and the encoder (R343-R358). The last part shows each constructor's decoding on a word written out from R348-R357. -/

namespace Sys2Proof

/-! ## The formats (R348) -/

/-- The fields of bits [22:0] in each format. -/
inductive Fields where
  | A (d a b : Fin 128) (f : Fin 4)
  | I (d a : Fin 128) (imm : Fin 512)
  | S (d a b : Fin 64) (f : Fin 32)
  | SI (d a : Fin 64) (imm : Fin 2048)
  | B (c : Fin 16) (off : Fin 524288)
  | M (d a : Fin 128) (t : Fin 16) (b : Fin 32)
  | X (op : Fin 8) (x : Fin 16) (v : Fin 128) (t : Fin 32) (n : Fin 16)
  | Q (op : Fin 8) (sa sb sc : Fin 64) (e : Fin 4)
  | L (payload : Fin 8388608)
deriving DecidableEq, Repr

/-- The names of the formats. -/
inductive Format where
  | A | I | S | SI | B | M | X | Q | L
deriving DecidableEq, Repr

/-- The format of given fields. -/
def Fields.format : Fields → Format
  | .A .. => .A
  | .I .. => .I
  | .S .. => .S
  | .SI .. => .SI
  | .B .. => .B
  | .M .. => .M
  | .X .. => .X
  | .Q .. => .Q
  | .L .. => .L

/-- The format of a major (R357); none for a reserved major. -/
def formatOf (m : Nat) : Option Format :=
  if m = 0x00 then some .S
  else if m ≤ 0x02 then some .SI
  else if m = 0x03 then some .A
  else if m ≤ 0x06 then some .B
  else if m = 0x07 then some .S
  else if m = 0x08 then some .B
  else if m = 0x09 then some .S
  else if m ≤ 0x0B then some .B
  else if m = 0x0C then some .S
  else if m = 0x0D then some .B
  else if m = 0x0E then some .SI
  else if m = 0x0F then some .A
  else if m = 0x10 then some .Q
  else if m ≤ 0x26 then some .A
  else if m = 0x27 then some .I
  else if m ≤ 0x3D then some .A
  else if m ≤ 0x3F then some .X
  else if m = 0x40 then some .A
  else if m ≤ 0x44 then some .X
  else if m ≤ 0x53 then some .M
  else if m ≤ 0x57 then some .Q
  else if m = 0x58 then some .M
  else if m ≤ 0x5B then some .Q
  else if m = 0x5C then some .A
  else if m ≤ 0x5E then some .Q
  else if m = 0x5F then some .A
  else if m ≤ 0x68 then some .Q
  else if m = 0x7E then some .L
  else none

/-- Does a major take a prefix (R355)? -/
def takesPrefix (m : Nat) : Bool :=
  m = 0x01 || m = 0x02 || m = 0x0E || m = 0x27 || (0x11 ≤ m && m ≤ 0x26) || (0x28 ≤ m && m ≤ 0x3D) || m = 0x5F || m = 0x3F
    || (0x45 ≤ m && m ≤ 0x53) || m = 0x58 || (0x61 ≤ m && m ≤ 0x63)

/-- Is the long form always emitted for a major (R357)? -/
def prefixRequired (m : Nat) : Bool := (0x4F ≤ m && m ≤ 0x53) || m = 0x58 || (0x61 ≤ m && m ≤ 0x63)

/-- The pipes (R357). -/
inductive Pipe where
  | S | V | C | M | A
deriving DecidableEq, Repr

/-- The pipe of a major (R357); none for the prefix and the reserved majors. -/
def pipeOf (m : Nat) : Option Pipe :=
  if m ≤ 0x02 then some .S
  else if m = 0x03 then some .V
  else if m ≤ 0x0E then some .C
  else if m ≤ 0x10 then some .A
  else if m ≤ 0x3D then some .V
  else if m = 0x3E then some .S
  else if m ≤ 0x41 then some .V
  else if m ≤ 0x43 then some .C
  else if m = 0x44 then some .V
  else if m ≤ 0x54 then some .M
  else if m = 0x55 then some .C
  else if m ≤ 0x57 then some .M
  else if m ≤ 0x63 then some .A
  else if m ≤ 0x65 then some .C
  else if m ≤ 0x68 then some .A
  else none

/-- Bits [22:0] as a number. -/
def Fields.toNat : Fields → Nat
  | .A d a b f => d.val * 65536 + a.val * 512 + b.val * 4 + f.val
  | .I d a i => d.val * 65536 + a.val * 512 + i.val
  | .S d a b f => d.val * 131072 + a.val * 2048 + b.val * 32 + f.val
  | .SI d a i => d.val * 131072 + a.val * 2048 + i.val
  | .B c o => c.val * 524288 + o.val
  | .M d a t b => d.val * 65536 + a.val * 512 + t.val * 32 + b.val
  | .X op x v t n => op.val * 1048576 + x.val * 65536 + v.val * 512 + t.val * 16 + n.val
  | .Q op sa sb sc e => op.val * 1048576 + sa.val * 16384 + sb.val * 256 + sc.val * 4 + e.val
  | .L p => p.val

/-- Bits [lo + log2 n - 1 : lo] of a number, with `p` = 2^lo. -/
def bitsAt (x p n : Nat) [NeZero n] : Fin n := Fin.ofNat n (x / p)

/-- The fields of a word in a format. -/
def Fields.ofNat (fmt : Format) (x : Nat) : Fields :=
  match fmt with
  | .A => .A (bitsAt x 65536 128) (bitsAt x 512 128) (bitsAt x 4 128) (bitsAt x 1 4)
  | .I => .I (bitsAt x 65536 128) (bitsAt x 512 128) (bitsAt x 1 512)
  | .S => .S (bitsAt x 131072 64) (bitsAt x 2048 64) (bitsAt x 32 64) (bitsAt x 1 32)
  | .SI => .SI (bitsAt x 131072 64) (bitsAt x 2048 64) (bitsAt x 1 2048)
  | .B => .B (bitsAt x 524288 16) (bitsAt x 1 524288)
  | .M => .M (bitsAt x 65536 128) (bitsAt x 512 128) (bitsAt x 32 16) (bitsAt x 1 32)
  | .X => .X (bitsAt x 1048576 8) (bitsAt x 65536 16) (bitsAt x 512 128) (bitsAt x 16 32) (bitsAt x 1 16)
  | .Q => .Q (bitsAt x 1048576 8) (bitsAt x 16384 64) (bitsAt x 256 64) (bitsAt x 4 64) (bitsAt x 1 4)
  | .L => .L (bitsAt x 1 8388608)

/-- The major of a word: bits [29:23] (R347). -/
def majorOf (w : Word) : Nat := w.toNat / 8388608 % 128

/-- The chain bit c: [31] (R175). -/
def chainBit (w : Word) : Bool := w.getLsbD 31

/-- The switch marker w: [30] (R180). -/
def switchBit (w : Word) : Bool := w.getLsbD 30

/-- A word with c = w = 0, its major and its fields. -/
def packWord (m : Nat) (f : Fields) : Word := BitVec.ofNat 32 (m * 8388608 + f.toNat)

/-! ## Operand fields (R223, R351-R353) -/

/-- A vector operand specifier (R223). -/
def decVOp (n : Fin 128) : VOp :=
  if h : n.val < 80 then .dir ⟨n.val, h⟩
  else if n.val < 96 then .idx (Fin.ofNat 16 (n.val - 80))
  else if n.val < 112 then .inc (Fin.ofNat 16 (n.val - 96))
  else .dec (Fin.ofNat 16 (n.val - 112))

def encVOp : VOp → Fin 128
  | .dir n => Fin.ofNat 128 n.val
  | .idx x => Fin.ofNat 128 (80 + x.val)
  | .inc x => Fin.ofNat 128 (96 + x.val)
  | .dec x => Fin.ofNat 128 (112 + x.val)

/-- A 5-bit time operand (R351). -/
def decTOp (n : Fin 32) : TOp := if n.val < 16 then .dir (Fin.ofNat 16 n.val) else .idx (Fin.ofNat 16 (n.val - 16))

def encTOp : TOp → Fin 32
  | .dir n => Fin.ofNat 32 n.val
  | .idx x => Fin.ofNat 32 (16 + x.val)

/-- A scalar register in a 7-bit field: 64-127 is refused. -/
def decS7 (n : Fin 128) : Option SReg := if h : n.val < 64 then some ⟨n.val, h⟩ else none

def encS7 (s : SReg) : Fin 128 := Fin.ofNat 128 s.val

/-- A scalar pair in a 6-bit field: an odd number is refused. -/
def decPair (n : Fin 64) : Option SPair := if n.val % 2 = 0 then some (Fin.ofNat 32 (n.val / 2)) else none

def encPair (p : SPair) : Fin 64 := Fin.ofNat 64 (2 * p.val)

/-- A mask register in the low bits of a wider field. -/
def decK {n : Nat} (x : Fin n) : Option KReg := if h : x.val < 8 then some ⟨x.val, h⟩ else none

/-- Integer types (R353): `u` is the prefix bit uns. -/
def decIntTy (u : Bool) (f : Fin 4) : Option IntTy :=
  match u, f.val with
  | false, 0 => some .i32
  | false, 1 => some .n32
  | false, 2 => some .i16x2
  | false, 3 => some .i8x4
  | true, 2 => some .n16x2
  | true, 3 => some .n8x4
  | _, _ => none

def encIntTy : IntTy → Bool × Fin 4
  | .i32 => (false, 0)
  | .n32 => (false, 1)
  | .i16x2 => (false, 2)
  | .i8x4 => (false, 3)
  | .n16x2 => (true, 2)
  | .n8x4 => (true, 3)

def decFloTy (f : Fin 4) : Option FloTy :=
  match f.val with
  | 0 => some .f32
  | 1 => some .f16x2
  | 2 => some .bf16x2
  | _ => none

def encFloTy : FloTy → Fin 4
  | .f32 => 0
  | .f16x2 => 1
  | .bf16x2 => 2

def decRnd (n : Nat) : Rnd :=
  match n with
  | 0 => .rne
  | 1 => .rtz
  | 2 => .rup
  | _ => .rdn

def encRnd : Rnd → Nat
  | .rne => 0
  | .rtz => 1
  | .rup => 2
  | .rdn => 3

def decOvf (n : Nat) : Ovf :=
  match n with
  | 0 => .sat
  | 1 => .inf
  | 2 => .nan
  | _ => .trap

def encOvf : Ovf → Nat
  | .sat => 0
  | .inf => 1
  | .nan => 2
  | .trap => 3

def decCond (n : Nat) : Option Cond :=
  match n with
  | 0 => some .eq
  | 1 => some .ne
  | 2 => some .lt
  | 3 => some .le
  | 4 => some .lo
  | 5 => some .ls
  | _ => none

def encCond : Cond → Nat
  | .eq => 0
  | .ne => 1
  | .lt => 2
  | .le => 3
  | .lo => 4
  | .ls => 5

def decFCond (n : Nat) : Option FCond :=
  match n with
  | 0 => some .eq
  | 1 => some .ne
  | 2 => some .lt
  | 3 => some .le
  | _ => none

def encFCond : FCond → Nat
  | .eq => 0
  | .ne => 1
  | .lt => 2
  | .le => 3

/-- Type codes (R352); 14 and 15 are refused. -/
def decElt (n : Nat) : Option Elt :=
  match n with
  | 0 => some .f32
  | 1 => some .f16
  | 2 => some .bf16
  | 3 => some .e4m3
  | 4 => some .e5m2
  | 5 => some .e3m2
  | 6 => some .e2m3
  | 7 => some .e2m1
  | 8 => some .e8m0
  | 9 => some .i32
  | 10 => some .n32
  | 11 => some .i8
  | 12 => some .n8
  | 13 => some .i4
  | _ => none

def encElt : Elt → Nat
  | .f32 => 0
  | .f16 => 1
  | .bf16 => 2
  | .e4m3 => 3
  | .e5m2 => 4
  | .e3m2 => 5
  | .e2m3 => 6
  | .e2m1 => 7
  | .e8m0 => 8
  | .i32 => 9
  | .n32 => 10
  | .i8 => 11
  | .n8 => 12
  | .i4 => 13

def decPackTy (f : Fin 4) : PackTy :=
  match f.val with
  | 0 => .f16x2
  | 1 => .bf16x2
  | 2 => .i16x2
  | _ => .n16x2

def encPackTy : PackTy → Fin 4
  | .f16x2 => 0
  | .bf16x2 => 1
  | .i16x2 => 2
  | .n16x2 => 3

def decMxFmt (n : Nat) : MxFmt :=
  match n with
  | 0 => .e2m1
  | 1 => .e2m3
  | 2 => .i8
  | 3 => .i4
  | 4 => .e4m3
  | 5 => .e5m2
  | 6 => .e3m2
  | _ => .bf16

def encMxFmt : MxFmt → Nat
  | .e2m1 => 0
  | .e2m3 => 1
  | .i8 => 2
  | .i4 => 3
  | .e4m3 => 4
  | .e5m2 => 5
  | .e3m2 => 6
  | .bf16 => 7

def decSize (n : Nat) : Option Size :=
  match n with
  | 0 => some .b32
  | 1 => some .b8
  | 2 => some .b16
  | 3 => some .b64
  | 4 => some .b128
  | _ => none

def encSize : Size → Nat
  | .b32 => 0
  | .b8 => 1
  | .b16 => 2
  | .b64 => 3
  | .b128 => 4

def decOrder (n : Nat) : Order :=
  match n with
  | 0 => .wk
  | 1 => .acq
  | 2 => .rel
  | _ => .ar

def encOrder : Order → Nat
  | .wk => 0
  | .acq => 1
  | .rel => 2
  | .ar => 3

def decScope (n : Nat) : Scope :=
  match n with
  | 0 => .dev
  | 1 => .wave
  | 2 => .group
  | _ => .sys

def encScope : Scope → Nat
  | .dev => 0
  | .wave => 1
  | .group => 2
  | .sys => 3

def decPolicy (n : Nat) : Policy :=
  match n with
  | 0 => .dflt
  | 1 => .stream
  | 2 => .keep
  | _ => .fwd

def encPolicy : Policy → Nat
  | .dflt => 0
  | .stream => 1
  | .keep => 2
  | .fwd => 3

/-- Atomic operations (R358). -/
def decAtomOp (n : Nat) : Option AtomOp :=
  match n with
  | 0 => some .add
  | 1 => some .min
  | 2 => some .max
  | 3 => some .minN
  | 4 => some .maxN
  | 5 => some .and
  | 6 => some .or
  | 7 => some .xor
  | 8 => some .exch
  | 9 => some .fadd
  | 10 => some .fmin
  | 11 => some .fmax
  | _ => none

def encAtomOp : AtomOp → Nat
  | .add => 0
  | .min => 1
  | .max => 2
  | .minN => 3
  | .maxN => 4
  | .and => 5
  | .or => 6
  | .xor => 7
  | .exch => 8
  | .fadd => 9
  | .fmin => 10
  | .fmax => 11

/-! ## Prefix payloads (R355) -/

/-- The vector prefix. -/
structure PVec where
  rnd : Rnd := .rne
  ovf : Ovf := .sat
  uns : Bool := false
  time : TOp := .dir 0
deriving DecidableEq, Repr

def PVec.toNat (p : PVec) : Nat :=
  encRnd p.rnd * 2097152 + encOvf p.ovf * 524288 + p.uns.toNat * 262144 + (encTOp p.time).val * 8192

def PVec.ofNat (x : Nat) : Option PVec :=
  if x % 8192 = 0 then
    some { rnd := decRnd (x / 2097152 % 4), ovf := decOvf (x / 524288 % 4), uns := x / 262144 % 2 = 1,
           time := decTOp (bitsAt x 8192 32) }
  else none

/-- The memory prefix; `e` is [11:5] and `op` is [4:0]. -/
structure PMem where
  m : MemMod
  tx : Bool := false
  bhi : Bool := false
  e : Fin 128 := 0
  op : Fin 32 := 0
deriving DecidableEq, Repr

def PMem.toNat (p : PMem) : Nat :=
  encSize p.m.size * 1048576 + encOrder p.m.order * 262144 + encScope p.m.scope * 65536 + encPolicy p.m.policy * 16384
    + p.tx.toNat * 8192 + p.bhi.toNat * 4096 + p.e.val * 32 + p.op.val

def PMem.ofNat (x : Nat) : Option PMem :=
  (decSize (x / 1048576 % 8)).map fun sz =>
    { m := { size := sz, order := decOrder (x / 262144 % 4), scope := decScope (x / 65536 % 4), policy := decPolicy (x / 16384 % 4) }
      tx := x / 8192 % 2 = 1, bhi := x / 4096 % 2 = 1, e := bitsAt x 32 128, op := bitsAt x 1 32 }

/-- The copy prefix. -/
structure PCopy where
  size : Size
  toGlobal : Bool
  s : SPair
  tag : Fin 64
  policy : Policy
deriving DecidableEq, Repr

def PCopy.toNat (p : PCopy) : Nat :=
  encSize p.size * 1048576 + p.toGlobal.toNat * 524288 + (encPair p.s).val * 8192 + p.tag.val * 128 + encPolicy p.policy * 32

def PCopy.ofNat (x : Nat) : Option PCopy :=
  if x % 32 = 0 then
    match decSize (x / 1048576 % 8), decPair (bitsAt x 8192 64) with
    | some sz, some s =>
      some { size := sz, toGlobal := x / 524288 % 2 = 1, s := s, tag := bitsAt x 128 64, policy := decPolicy (x / 32 % 4) }
    | _, _ => none
  else none

/-- The matrix prefix; `sc` is the scales code. -/
structure PMat where
  fa : MxFmt := .e2m1
  fb : MxFmt := .e2m1
  sc : Option ScFmt := none
  tag : Fin 64
deriving DecidableEq, Repr

def encSc : Option ScFmt → Nat
  | none => 0
  | some .e8m0 => 1
  | some .f32 => 2

def PMat.toNat (p : PMat) : Nat :=
  encMxFmt p.fa * 1048576 + encMxFmt p.fb * 131072 + encSc p.sc * 32768 + p.tag.val * 512

def PMat.ofNat (x : Nat) : Option PMat :=
  if x % 512 = 0 ∧ x / 32768 % 4 ≠ 3 then
    some { fa := decMxFmt (x / 1048576 % 8), fb := decMxFmt (x / 131072 % 8), tag := bitsAt x 512 64,
           sc := match x / 32768 % 4 with
             | 1 => some .e8m0
             | 2 => some .f32
             | _ => none }
  else none

/-- The index configuration prefix: base, bound mod 256, step. -/
def idxPayload (base bound : BitVec 8) (step : BitVec 4) : Nat := base.toNat * 32768 + bound.toNat * 128 + step.toNat * 8

/-! ## The decoder -/

/-- A word under a vector prefix that takes no field of it. -/
def vec0 (p : Nat) (i : Option Instr) : Option Instr := if p = 0 then i else none

/-- A word under a vector prefix that takes the rounding field alone. -/
def vecRnd (p : Nat) (i : Rnd → Option Instr) : Option Instr :=
  (PVec.ofNat p).bind fun q => if q.ovf = .sat ∧ q.uns = false ∧ q.time = .dir 0 then i q.rnd else none

/-- A word under a vector prefix that takes the rounding and the overflow field. -/
def vecRndOvf (p : Nat) (i : Rnd → Ovf → Option Instr) : Option Instr :=
  (PVec.ofNat p).bind fun q => if q.uns = false ∧ q.time = .dir 0 then i q.rnd q.ovf else none

/-- A word under a vector prefix whose f is an integer type. -/
def vecInt (p : Nat) (f : Fin 4) (i : IntTy → Option Instr) : Option Instr :=
  (PVec.ofNat p).bind fun q =>
    if q.rnd = .rne ∧ q.ovf = .sat ∧ q.time = .dir 0 then (decIntTy q.uns f).bind i else none

/-- A word whose f must be 0. -/
def f0 (f : Fin 4) (i : Option Instr) : Option Instr := if f = 0 then i else none

/-- A word whose b must be 0. -/
def b0 (b : Fin 128) (i : Option Instr) : Option Instr := if b = 0 then i else none

/-- The conversion pair in the b and f bits (R398). -/
def decPairBf (b : Fin 128) (f : Fin 4) (i : Elt → Elt → Option Instr) : Option Instr :=
  let x := b.val * 4 + f.val
  if x % 2 = 0 then (decElt (x / 32 % 16)).bind fun dst => (decElt (x / 2 % 16)).bind fun src => i dst src else none

def encBf (dst src : Elt) : Fin 128 × Fin 4 :=
  let x := encElt dst * 32 + encElt src * 2
  (Fin.ofNat 128 (x / 4), Fin.ofNat 4 x)

/-- Format A. -/
def decA (m p : Nat) (d a b : Fin 128) (f : Fin 4) : Option Instr :=
  let vd := decVOp d
  let va := decVOp a
  let vb := decVOp b
  match m with
  | 0x03 =>
    match f.val with
    | 0 => (decS7 d).bind fun d => (decS7 b).bind fun b => some (.sRdlane d va b)
    | 1 => (decS7 a).bind fun a => (decS7 b).bind fun b => some (.sWrlane vd a b)
    | _ => none
  | 0x0F => if d = 0 ∧ f = 0 then (decS7 b).bind fun b => (decPair b).bind fun b => some (.spawn va b) else none
  | 0x11 => vecInt p f fun ty => some (.add ty vd va vb)
  | 0x12 => vecInt p f fun ty => some (.sub ty vd va vb)
  | 0x13 => vecInt p f fun ty => some (.mul ty vd va vb)
  | 0x14 => vecInt p f fun ty => some (.mulh ty vd va vb)
  | 0x15 => vecInt p f fun ty => some (.mad ty vd va vb)
  | 0x16 => vec0 p (f0 f (some (.and vd va vb)))
  | 0x17 => vec0 p (f0 f (some (.or vd va vb)))
  | 0x18 => vec0 p (f0 f (some (.xor vd va vb)))
  | 0x19 => vecInt p f fun ty => some (.shl ty vd va vb)
  | 0x1A => vecInt p f fun ty => some (.shr ty vd va vb)
  | 0x1B => vecInt p f fun ty => some (.sra ty vd va vb)
  | 0x1C => vecInt p f fun ty => some (.min ty vd va vb)
  | 0x1D => vecInt p f fun ty => some (.max ty vd va vb)
  | 0x1E => b0 b (vecInt p f fun ty => some (.abs ty vd va))
  | 0x1F => vecInt p f fun ty => (decCond (d.val / 8)).bind fun c => some (.cmp c ty (Fin.ofNat 8 d.val) va vb)
  | 0x20 => vec0 p (some (.sel f vd va vb))
  | 0x21 =>
    match f.val with
    | 0 => vec0 p (some (.bfx false vd va vb))
    | 1 => vec0 p (some (.bfx true vd va vb))
    | _ => none
  | 0x22 => vec0 p (f0 f (some (.bfi vd va vb)))
  | 0x23 => vec0 p (f0 f (b0 b (some (.popc vd va))))
  | 0x24 => vec0 p (f0 f (b0 b (some (.clz vd va))))
  | 0x25 =>
    match f.val with
    | 0 => vec0 p (some (.shflIdx vd va vb))
    | 1 => vec0 p (some (.shflUp vd va vb))
    | 2 => vec0 p (some (.shflDown vd va vb))
    | _ => vec0 p (some (.shflXor vd va vb))
  | 0x26 =>
    (decK a).bind fun k => b0 b <|
      match f.val with
      | 0 => vec0 p (some (.voteAll vd k))
      | 1 => vec0 p (some (.voteAny vd k))
      | 2 => vec0 p (some (.voteBallot vd k))
      | _ => none
  | 0x28 => vec0 p (f0 f (b0 b (some (.mov vd va))))
  | 0x29 => (decFloTy f).bind fun ty => vecRnd p fun r => some (.fadd ty r vd va vb)
  | 0x2A => (decFloTy f).bind fun ty => vecRnd p fun r => some (.fsub ty r vd va vb)
  | 0x2B => (decFloTy f).bind fun ty => vecRnd p fun r => some (.fmul ty r vd va vb)
  | 0x2C => (decFloTy f).bind fun ty => vecRnd p fun r => some (.ffma ty r vd va vb)
  | 0x2D => (decFloTy f).bind fun ty => vec0 p (some (.fmin ty vd va vb))
  | 0x2E => (decFloTy f).bind fun ty => vec0 p (some (.fmax ty vd va vb))
  | 0x2F => (decFloTy f).bind fun ty => (decFCond (d.val / 8)).bind fun c => vec0 p (some (.fcmp c ty (Fin.ofNat 8 d.val) va vb))
  | 0x30 => (decFloTy f).bind fun ty => b0 b (vec0 p (some (.fcls ty vd va)))
  | 0x31 => vec0 p (f0 f (b0 b (some (.frcp vd va))))
  | 0x32 => vec0 p (f0 f (b0 b (some (.frsq vd va))))
  | 0x33 => vec0 p (f0 f (b0 b (some (.fsqrt vd va))))
  | 0x34 => vec0 p (f0 f (b0 b (some (.fex2 vd va))))
  | 0x35 => vec0 p (f0 f (b0 b (some (.flg2 vd va))))
  | 0x36 => vec0 p (f0 f (b0 b (some (.fsin vd va))))
  | 0x37 => vec0 p (f0 f (b0 b (some (.fcos vd va))))
  | 0x38 => f0 f (b0 b (vecRnd p fun r => some (.fred r vd va)))
  | 0x39 => decPairBf b f fun dst src => vecRnd p fun r => some (.cvt dst src r vd va)
  | 0x3A => decPairBf b f fun dst src => vecRndOvf p fun r o => some (.cvtn dst src r o vd va)
  | 0x3B => decPairBf b f fun dst src => vecRnd p fun r => some (.cvtw dst src r vd va)
  | 0x3C => vecRnd p fun r => some (.pack (decPackTy f) r vd va vb)
  | 0x3D => b0 b (vec0 p (some (.unpack (decPackTy f) vd va)))
  | 0x40 =>
    match f.val with
    | 0 => b0 b ((decS7 d).bind fun d => some (.shp d va))
    | 1 => b0 b (b0 a ((decS7 d).bind fun d => some (.shpw d)))
    | _ => none
  | 0x5C =>
    match f.val with
    | 0 => (decS7 b).bind fun b => some (.iord vd va b)
    | 1 => (decS7 b).bind fun b => some (.iowr vd va b)
    | _ => none
  | 0x5F =>
    match f.val with
    | 0 => (decS7 a).bind fun h => (decS7 b).bind fun n => (PVec.ofNat p).bind fun q =>
        if q.rnd = .rne ∧ q.ovf = .sat ∧ q.uns = false then some (.accr vd h n q.time) else none
    | 1 => (decS7 a).bind fun h => (decS7 b).bind fun n => vec0 p (some (.accw vd h n))
    | _ => none
  | _ => none

/-- Format S. -/
def decS (m : Nat) (d a b : Fin 64) (f : Fin 32) : Option Instr :=
  match m with
  | 0x00 =>
    match f.val with
    | 0 => some (.sAdd d a b)
    | 1 => some (.sSub d a b)
    | 2 => some (.sMul d a b)
    | 3 => some (.sMulh d a b)
    | 4 => some (.sAnd d a b)
    | 5 => some (.sOr d a b)
    | 6 => some (.sXor d a b)
    | 7 => some (.sShl d a b)
    | 8 => some (.sShr d a b)
    | 9 => some (.sSra d a b)
    | 10 => some (.sMin d a b)
    | 11 => some (.sMax d a b)
    | 12 => some (.sCmpEq d a b)
    | 13 => some (.sCmpNe d a b)
    | 14 => some (.sCmpLt d a b)
    | 15 => some (.sCmpLe d a b)
    | 16 => some (.sCmpLo d a b)
    | 17 => some (.sCmpLs d a b)
    | 18 => some (.sSel d a b)
    | 19 => some (.sBfx d a b)
    | 20 => if b = 0 then some (.sPopc d a) else none
    | 21 => if b = 0 then some (.sClz d a) else none
    | 22 => if b = 0 then some (.sMov d a) else none
    | _ => none
  | 0x07 => if d = 0 ∧ b = 0 ∧ f = 0 then (decPair a).bind fun a => some (.jr a) else none
  | 0x09 => if d = 0 ∧ b = 0 ∧ f = 0 then (decPair a).bind fun a => some (.ret a) else none
  | 0x0C =>
    if d = 0 ∧ f.val < 8 then
      let sp : Bool := f.val / 4 = 1
      match f.val % 4 with
      | 0 => if b = 0 then (decPair a).bind fun a => some (.yieldTags a sp) else none
      | 1 => (decPair a).bind fun a => some (.yieldTl a b sp)
      | 2 => some (.yieldEv a b sp)
      | _ => if b = 0 then (decPair a).bind fun a => some (.yieldTick a sp) else none
    else none
  | _ => none

/-- The 32-bit immediate of format SI (R355, R379): sign-extended with no prefix, put together with one. -/
def wideImm (p : Option Nat) (imm : Fin 2048) : Option Word :=
  match p with
  | none => some ((BitVec.ofNat 11 imm.val).signExtend 32)
  | some x => if x < 2097152 then some (BitVec.ofNat 32 (x * 2048 + imm.val)) else none

/-- Format SI. -/
def decSI (m : Nat) (p : Option Nat) (d a : Fin 64) (imm : Fin 2048) : Option Instr :=
  (wideImm p imm).bind fun v =>
    match m with
    | 0x01 => if a = 0 then some (.sLi d v) else none
    | 0x02 => some (.sAddi d a v)
    | 0x0E => if d = 0 then some (.sleep a v) else none
    | _ => none

/-- Format B. -/
def decB (m : Nat) (c : Fin 16) (off : Fin 524288) : Option Instr :=
  let o := BitVec.ofNat 19 off.val
  match m with
  | 0x04 => if c = 0 then some (.br o) else none
  | 0x05 => (decK c).bind fun k => some (.bc k o)
  | 0x06 => if c.val < 8 then some (.bvAny (Fin.ofNat 8 c.val) o) else some (.bvAll (Fin.ofNat 8 c.val) o)
  | 0x08 => some (.call c o)
  | 0x0A => if c = 0 ∧ off = 0 then some .exit else none
  | 0x0B => if c = 0 ∧ off = 0 then some .trig else none
  | 0x0D => if c = 0 ∧ off = 0 then some .nop else none
  | _ => none

/-- The base pair of a memory word: b and bhi (R407). -/
def memBase (b : Fin 32) (bhi : Bool) : Option SPair :=
  if b.val % 2 = 0 then some (Fin.ofNat 32 (b.val / 2 + (if bhi then 16 else 0))) else none

/-- The time operand of a memory word: t and tx (R407). -/
def memTime (t : Fin 16) (tx : Bool) : TOp := if tx then .idx t else .dir t

/-- A word that names no time register has t = 0 and tx = 0 (R407). -/
def noTime (t : Fin 16) (tx : Bool) (i : Option Instr) : Option Instr := if t = 0 ∧ tx = false then i else none

/-- Format M, majors 0x45-0x53. -/
def decMem (m : Nat) (q : PMem) (d a : Fin 128) (t : Fin 16) (b : SPair) : Option Instr :=
  let vd := decVOp d
  let va := decVOp a
  let tt := memTime t q.tx
  let plain (i : Option Instr) : Option Instr := if q.e = 0 ∧ q.op = 0 then i else none
  let keyed (i : SReg → Option Instr) : Option Instr := if q.op = 0 then (decS7 q.e).bind i else none
  let oped (i : AtomOp → Option Instr) : Option Instr := if q.e = 0 then (decAtomOp q.op.val).bind i else none
  match m with
  | 0x45 => plain (some (.ld q.m vd va b tt))
  | 0x46 => noTime t q.tx (keyed fun k => some (.st q.m vd va b k))
  | 0x47 => plain (some (.sld q.m vd va b tt))
  | 0x48 => noTime t q.tx (keyed fun k => some (.sst q.m vd va b k))
  | 0x49 => plain (some (.lds q.m vd va b tt))
  | 0x4A => noTime t q.tx (plain (some (.sts q.m vd va b)))
  | 0x4B => plain (some (.ldp q.m vd va b tt))
  | 0x4C => noTime t q.tx (plain (some (.stp q.m vd va b)))
  | 0x4D => if d = 0 then plain (some (.probe q.m va b tt)) else none
  | 0x4E => keyed fun k => some (.ldt q.m vd va b k tt)
  | 0x4F => oped fun op => some (.atom op q.m vd va b tt)
  | 0x50 => if q.op = 0 then some (.cas q.m vd va b (decVOp q.e) tt) else none
  | 0x51 => oped fun op => some (.atsc op q.m vd va b tt)
  | 0x52 => noTime t q.tx (oped fun op => some (.red op q.m vd va b))
  | 0x53 => noTime t q.tx (oped fun op => some (.hred op q.m vd va b))
  | _ => none

/-- Format M. -/
def decM (m p : Nat) (d a : Fin 128) (t : Fin 16) (b : Fin 32) : Option Instr :=
  if m = 0x58 then
    if t = 0 then
      (PCopy.ofNat p).bind fun q => (memBase b false).bind fun bp =>
        some (.cpa q.toGlobal q.size q.policy (decVOp d) (decVOp a) bp q.s q.tag)
    else none
  else (PMem.ofNat p).bind fun q => (memBase b q.bhi).bind fun bp => decMem m q d a t bp

/-- Format X (R349). -/
def decX (m p : Nat) (op : Fin 8) (x : Fin 16) (v : Fin 128) (t : Fin 32) (n : Fin 16) : Option Instr :=
  match m with
  | 0x3E =>
    if t = 0 then
      (decK x).bind fun ka => (decK v).bind fun kb => (decK n).bind fun kd =>
        match op.val with
        | 0 => some (.kand kd ka kb)
        | 1 => some (.kor kd ka kb)
        | 2 => some (.kxor kd ka kb)
        | 3 => if v = 0 then some (.knot kd ka) else none
        | _ => none
    else none
  | 0x3F =>
    if t = 0 ∧ n = 0 then
      match op.val with
      | 0 =>
        if v = 0 ∧ p % 8 = 0 then
          some (.xcfg x (BitVec.ofNat 8 (p / 32768)) (BitVec.ofNat 8 (p / 128)) (BitVec.ofNat 4 (p / 8)))
        else none
      | 1 => vec0 p (some (.xset x (decVOp v)))
      | 2 => vec0 p (some (.xget (decVOp v) x))
      | 3 => vec0 p (some (.xadd x (decVOp v)))
      | _ => none
    else none
  | 0x41 =>
    if x = 0 then
      match op.val with
      | 0 => if t = 0 ∧ n = 0 then some (.tnow (decVOp v)) else none
      | 1 => if n = 0 then some (.tget (decVOp v) (decTOp t)) else none
      | 2 => if n = 0 then some (.tdist (decVOp v) (decTOp t)) else none
      | 3 => if v = 0 then (decK n).bind fun k => some (.tready k (decTOp t)) else none
      | _ => none
    else none
  | 0x42 => if op = 0 ∧ x = 0 ∧ v = 0 ∧ n = 0 then some (.twait (decTOp t)) else none
  | 0x43 => if op = 0 ∧ x = 0 ∧ v = 0 ∧ n = 0 then some (.tyield (decTOp t)) else none
  | 0x44 =>
    if op = 0 ∧ x = 0 ∧ t.val < 16 then (decK n).bind fun k => some (.trank (decVOp v) (Fin.ofNat 16 t.val) k) else none
  | _ => none

/-- A Q-format word with the fields after `sa` zero. -/
def q1 (sb sc : Fin 64) (e : Fin 4) (i : Option Instr) : Option Instr := if sb = 0 ∧ sc = 0 ∧ e = 0 then i else none

/-- A Q-format word with the fields after `sb` zero. -/
def q2 (sc : Fin 64) (e : Fin 4) (i : Option Instr) : Option Instr := if sc = 0 ∧ e = 0 then i else none

/-- A Q-format word that uses `sc` alone. -/
def qc (sa sb : Fin 64) (e : Fin 4) (i : Option Instr) : Option Instr := if sa = 0 ∧ sb = 0 ∧ e = 0 then i else none

/-- A Q-format word with no field. -/
def qz (sa sb sc : Fin 64) (e : Fin 4) (i : Option Instr) : Option Instr :=
  if sa = 0 ∧ sb = 0 ∧ sc = 0 ∧ e = 0 then i else none

/-- The matrix words (R443). -/
def decMat (m p : Nat) (sa sb sc : Fin 64) (e : Fin 4) : Option Instr :=
  (PMat.ofNat p).bind fun q =>
    if e = 0 then
      match m, q.sc with
      | 0x61, none => if sb = 0 then some (.mma q.fa q.fb sa sc q.tag) else none
      | 0x62, none => some (.mloop q.fa q.fb sa sb sc q.tag)
      | 0x62, some s => some (.mloopSc q.fa q.fb s sa sb sc q.tag)
      | 0x63, some s => if q.fa = .e2m1 ∧ q.fb = .e2m1 then some (.scacc s sa sb sc q.tag) else none
      | _, _ => none
    else none

/-- Format Q (R350). -/
def decQ (m p : Nat) (op : Fin 8) (sa sb sc : Fin 64) (e : Fin 4) : Option Instr :=
  match m, op.val with
  | 0x10, 0 => q2 sc e ((decPair sb).bind fun b => some (.launch sa b))
  | 0x54, 0 => if sa = 0 ∧ sb = 0 ∧ sc.val < 4 then some (.fence (decOrder e.val) (decScope sc.val)) else none
  | 0x54, 1 => qz sa sb sc e (some .fenceSc)
  | 0x55, 0 => if sc.val < 16 then qc sa sb e (some (.bar (Fin.ofNat 16 sc.val))) else none
  | 0x55, 1 => if sc.val < 16 then qc sa sb e (some (.barr (Fin.ofNat 16 sc.val))) else none
  | 0x55, 2 => if sc.val < 16 then qc sa sb e (some (.barw (Fin.ofNat 16 sc.val))) else none
  | 0x56, 0 => q1 sb sc e (some (.evsig sa))
  | 0x56, 1 => q2 sc e (some (.evwait sa sb))
  | 0x56, 2 => q2 sc e (some (.evq sa sb))
  | 0x57, 0 => q1 sb sc e ((decPair sa).bind fun a => some (.sigdec a))
  | 0x59, 0 => if e = 0 then (decPair sb).bind fun v => some (.cpt sa v sc) else none
  | 0x5A, 0 => qc sa sb e (some (.tagw sc))
  | 0x5A, 1 =>
    if e = 0 ∧ sa.val * 64 + sb.val < 256 then some (.taga sc (BitVec.ofNat 8 (sa.val * 64 + sb.val))) else none
  | 0x5A, 2 => qc sa sb e (some (.tagf sc))
  | 0x5A, 3 => q1 sb sc e ((decPair sa).bind fun a => some (.tagc a))
  | 0x5B, 0 => q2 sc e (some (.srec sa sb))
  | 0x5B, 1 => if sb = 0 ∧ e = 0 then some (.sarm sa sc) else none
  | 0x5B, 2 => q1 sb sc e (some (.sstop sa))
  | 0x5D, 0 => q2 sc e ((decPair sb).bind fun b => some (.tlw sa b))
  | 0x5D, 1 => q2 sc e ((decPair sa).bind fun a => some (.tlget a sb))
  | 0x5E, 0 => if sb = 0 ∧ e = 0 then some (.acca sa (BitVec.ofNat 6 sc.val)) else none
  | 0x5E, 1 => q1 sb sc e (some (.accf sa))
  | 0x5E, 2 => q1 sb sc e (some (.accz sa))
  | 0x60, 0 => q1 sb sc e (some (.mgix sa))
  | 0x61, 0 => decMat 0x61 p sa sb sc e
  | 0x62, 0 => decMat 0x62 p sa sb sc e
  | 0x63, 0 => decMat 0x63 p sa sb sc e
  | 0x64, 0 => qz sa sb sc e (some .trap)
  | 0x64, 1 => qz sa sb sc e (some .brk)
  | 0x65, 0 => qz sa sb sc e (some .rti)
  | 0x66, 0 => if e = 0 then (decPair sa).bind fun a => some (.sysr a (BitVec.ofNat 12 (sb.val * 64 + sc.val))) else none
  | 0x66, 1 => if e = 0 then (decPair sa).bind fun a => some (.sysw a (BitVec.ofNat 12 (sb.val * 64 + sc.val))) else none
  | 0x67, 0 => qz sa sb sc e (some .replay)
  | 0x68, 0 => q2 sc e ((decPair sa).bind fun a => some (.wspill a sb))
  | 0x68, 1 => q2 sc e ((decPair sa).bind fun a => some (.wfill a sb))
  | _, _ => none

/-- The instruction of a major, its fields and its prefix payload. -/
def decodeFields (m : Nat) (p : Option Nat) (f : Fields) : Option Instr :=
  match f with
  | .A d a b f => decA m (p.getD 0) d a b f
  | .I d a imm =>
    if m = 0x27 ∧ a = 0 ∧ p.getD 0 = 0 then some (.id (decVOp d) (BitVec.ofNat 9 imm.val)) else none
  | .S d a b f => decS m d a b f
  | .SI d a imm => decSI m p d a imm
  | .B c off => decB m c off
  | .M d a t b => decM m (p.getD 0) d a t b
  | .X op x v t n => decX m (p.getD 0) op x v t n
  | .Q op sa sb sc e => decQ m (p.getD 0) op sa sb sc e
  | .L _ => none

/-- An instruction as it stands in a packet: an instruction word and, in a long form, the payload of its prefix (R354). -/
structure Code where
  payload : Option (BitVec 23)
  word : Word
deriving DecidableEq, Repr

/-- The decoder: the instruction, or none for a reserved major, an undefined op or f value, a non-zero must-be-zero field, a register
field outside R351 or a payload outside R355. The chain bit and the switch marker are read apart. -/
def decode (c : Code) : Option Instr :=
  let m := majorOf c.word
  if c.payload.isSome && !takesPrefix m then none
  else (formatOf m).bind fun fmt => decodeFields m (c.payload.map (·.toNat)) (Fields.ofNat fmt c.word.toNat)

/-! ## The encoder -/

/-- The code of a major, a payload and fields: the prefix is emitted when its payload is not 0 or the major requires it (R9). -/
def mkCode (m p : Nat) (f : Fields) : Code :=
  { payload := if p = 0 ∧ prefixRequired m = false then none else some (BitVec.ofNat 23 p), word := packWord m f }

/-- A format-SI code: the prefix is emitted when the value lies outside -1,024 to 1,023 (R372). -/
def mkWide (m : Nat) (d a : Fin 64) (v : Word) : Code :=
  let imm := Fin.ofNat 2048 v.toNat
  { payload := if (BitVec.ofNat 11 imm.val).signExtend 32 = v then none else some (BitVec.ofNat 23 (v.toNat / 2048)),
    word := packWord m (.SI d a imm) }

/-- Three vector operands and no payload. -/
def encV3 (m : Nat) (d a b : VOp) (f : Fin 4) : Code := mkCode m 0 (.A (encVOp d) (encVOp a) (encVOp b) f)

/-- Two vector operands and no payload. -/
def encV2 (m : Nat) (d a : VOp) (f : Fin 4) : Code := mkCode m 0 (.A (encVOp d) (encVOp a) 0 f)

/-- Three vector operands of an integer type. -/
def encI3 (m : Nat) (ty : IntTy) (d a b : VOp) : Code :=
  mkCode m (PVec.toNat { uns := (encIntTy ty).1 }) (.A (encVOp d) (encVOp a) (encVOp b) (encIntTy ty).2)

/-- Three vector operands of a float type, with a rounding mode. -/
def encF3 (m : Nat) (ty : FloTy) (r : Rnd) (d a b : VOp) : Code :=
  mkCode m (PVec.toNat { rnd := r }) (.A (encVOp d) (encVOp a) (encVOp b) (encFloTy ty))

/-- The time bits of a memory word. -/
def encMemTime : TOp → Fin 16 × Bool
  | .dir n => (n, false)
  | .idx x => (x, true)

/-- A memory word. -/
def encMem (m : Nat) (mm : MemMod) (d a : VOp) (b : SPair) (t : TOp) (e : Fin 128) (op : Nat) : Code :=
  mkCode m (PMem.toNat { m := mm, tx := (encMemTime t).2, bhi := 16 ≤ b.val, e := e, op := Fin.ofNat 32 op })
    (.M (encVOp d) (encVOp a) (encMemTime t).1 (Fin.ofNat 32 (2 * b.val)))

/-- A Q-format word with no payload. -/
def encQ (m op : Nat) (sa sb sc : Fin 64) (e : Fin 4) : Code := mkCode m 0 (.Q (Fin.ofNat 8 op) sa sb sc e)

/-- A matrix word. -/
def encMat (m : Nat) (q : PMat) (sa sb sc : Fin 64) : Code := mkCode m q.toNat (.Q 0 sa sb sc 0)

/-- A format-S word of major 0. -/
def encS (f : Fin 32) (d a b : SReg) : Code := mkCode 0x00 0 (.S d a b f)

/-- An X-format word with no payload. -/
def encX (m op : Nat) (x : Fin 16) (v : Fin 128) (t : Fin 32) (n : Fin 16) : Code := mkCode m 0 (.X (Fin.ofNat 8 op) x v t n)

/-- The encoder: the code of an instruction, from the same tables; none for a happening. -/
def encode : Instr → Option Code
  | .sAdd d a b => some (encS 0 d a b)
  | .sSub d a b => some (encS 1 d a b)
  | .sMul d a b => some (encS 2 d a b)
  | .sMulh d a b => some (encS 3 d a b)
  | .sAnd d a b => some (encS 4 d a b)
  | .sOr d a b => some (encS 5 d a b)
  | .sXor d a b => some (encS 6 d a b)
  | .sShl d a b => some (encS 7 d a b)
  | .sShr d a b => some (encS 8 d a b)
  | .sSra d a b => some (encS 9 d a b)
  | .sMin d a b => some (encS 10 d a b)
  | .sMax d a b => some (encS 11 d a b)
  | .sCmpEq d a b => some (encS 12 d a b)
  | .sCmpNe d a b => some (encS 13 d a b)
  | .sCmpLt d a b => some (encS 14 d a b)
  | .sCmpLe d a b => some (encS 15 d a b)
  | .sCmpLo d a b => some (encS 16 d a b)
  | .sCmpLs d a b => some (encS 17 d a b)
  | .sSel d a b => some (encS 18 d a b)
  | .sBfx d a b => some (encS 19 d a b)
  | .sPopc d a => some (encS 20 d a 0)
  | .sClz d a => some (encS 21 d a 0)
  | .sMov d a => some (encS 22 d a 0)
  | .sLi d imm => some (mkWide 0x01 d 0 imm)
  | .sAddi d a imm => some (mkWide 0x02 d a imm)
  | .sRdlane d a b => some (mkCode 0x03 0 (.A (encS7 d) (encVOp a) (encS7 b) 0))
  | .sWrlane d a b => some (mkCode 0x03 0 (.A (encVOp d) (encS7 a) (encS7 b) 1))
  | .br off => some (mkCode 0x04 0 (.B 0 (Fin.ofNat 524288 off.toNat)))
  | .bc k off => some (mkCode 0x05 0 (.B (Fin.ofNat 16 k.val) (Fin.ofNat 524288 off.toNat)))
  | .bvAny k off => some (mkCode 0x06 0 (.B (Fin.ofNat 16 k.val) (Fin.ofNat 524288 off.toNat)))
  | .bvAll k off => some (mkCode 0x06 0 (.B (Fin.ofNat 16 (8 + k.val)) (Fin.ofNat 524288 off.toNat)))
  | .jr a => some (mkCode 0x07 0 (.S 0 (encPair a) 0 0))
  | .call link off => some (mkCode 0x08 0 (.B link (Fin.ofNat 524288 off.toNat)))
  | .ret a => some (mkCode 0x09 0 (.S 0 (encPair a) 0 0))
  | .exit => some (mkCode 0x0A 0 (.B 0 0))
  | .trig => some (mkCode 0x0B 0 (.B 0 0))
  | .yieldTags a sp => some (mkCode 0x0C 0 (.S 0 (encPair a) 0 (if sp then 4 else 0)))
  | .yieldTl a b sp => some (mkCode 0x0C 0 (.S 0 (encPair a) b (if sp then 5 else 1)))
  | .yieldEv a b sp => some (mkCode 0x0C 0 (.S 0 a b (if sp then 6 else 2)))
  | .yieldTick a sp => some (mkCode 0x0C 0 (.S 0 (encPair a) 0 (if sp then 7 else 3)))
  | .nop => some (mkCode 0x0D 0 (.B 0 0))
  | .sleep a imm => some (mkWide 0x0E 0 a imm)
  | .spawn a b => some (mkCode 0x0F 0 (.A 0 (encVOp a) (encS7 (encPair b)) 0))
  | .launch q p => some (encQ 0x10 0 q (encPair p) 0 0)
  | .add ty d a b => some (encI3 0x11 ty d a b)
  | .sub ty d a b => some (encI3 0x12 ty d a b)
  | .mul ty d a b => some (encI3 0x13 ty d a b)
  | .mulh ty d a b => some (encI3 0x14 ty d a b)
  | .mad ty d a b => some (encI3 0x15 ty d a b)
  | .and d a b => some (encV3 0x16 d a b 0)
  | .or d a b => some (encV3 0x17 d a b 0)
  | .xor d a b => some (encV3 0x18 d a b 0)
  | .shl ty d a b => some (encI3 0x19 ty d a b)
  | .shr ty d a b => some (encI3 0x1A ty d a b)
  | .sra ty d a b => some (encI3 0x1B ty d a b)
  | .min ty d a b => some (encI3 0x1C ty d a b)
  | .max ty d a b => some (encI3 0x1D ty d a b)
  | .abs ty d a => some (mkCode 0x1E (PVec.toNat { uns := (encIntTy ty).1 }) (.A (encVOp d) (encVOp a) 0 (encIntTy ty).2))
  | .cmp c ty k a b => some (mkCode 0x1F (PVec.toNat { uns := (encIntTy ty).1 }) (.A (Fin.ofNat 128 (encCond c * 8 + k.val)) (encVOp a) (encVOp b) (encIntTy ty).2))
  | .sel k d a b => some (encV3 0x20 d a b k)
  | .bfx uns d a b => some (encV3 0x21 d a b (if uns then 1 else 0))
  | .bfi d a b => some (encV3 0x22 d a b 0)
  | .popc d a => some (encV2 0x23 d a 0)
  | .clz d a => some (encV2 0x24 d a 0)
  | .shflIdx d a b => some (encV3 0x25 d a b 0)
  | .shflUp d a b => some (encV3 0x25 d a b 1)
  | .shflDown d a b => some (encV3 0x25 d a b 2)
  | .shflXor d a b => some (encV3 0x25 d a b 3)
  | .voteAll d k => some (mkCode 0x26 0 (.A (encVOp d) (Fin.ofNat 128 k.val) 0 0))
  | .voteAny d k => some (mkCode 0x26 0 (.A (encVOp d) (Fin.ofNat 128 k.val) 0 1))
  | .voteBallot d k => some (mkCode 0x26 0 (.A (encVOp d) (Fin.ofNat 128 k.val) 0 2))
  | .id d n => some (mkCode 0x27 0 (.I (encVOp d) 0 (Fin.ofNat 512 n.toNat)))
  | .mov d a => some (encV2 0x28 d a 0)
  | .fadd ty r d a b => some (encF3 0x29 ty r d a b)
  | .fsub ty r d a b => some (encF3 0x2A ty r d a b)
  | .fmul ty r d a b => some (encF3 0x2B ty r d a b)
  | .ffma ty r d a b => some (encF3 0x2C ty r d a b)
  | .fmin ty d a b => some (encV3 0x2D d a b (encFloTy ty))
  | .fmax ty d a b => some (encV3 0x2E d a b (encFloTy ty))
  | .fcmp c ty k a b => some (mkCode 0x2F 0 (.A (Fin.ofNat 128 (encFCond c * 8 + k.val)) (encVOp a) (encVOp b) (encFloTy ty)))
  | .fcls ty d a => some (encV2 0x30 d a (encFloTy ty))
  | .frcp d a => some (encV2 0x31 d a 0)
  | .frsq d a => some (encV2 0x32 d a 0)
  | .fsqrt d a => some (encV2 0x33 d a 0)
  | .fex2 d a => some (encV2 0x34 d a 0)
  | .flg2 d a => some (encV2 0x35 d a 0)
  | .fsin d a => some (encV2 0x36 d a 0)
  | .fcos d a => some (encV2 0x37 d a 0)
  | .fred r d a => some (mkCode 0x38 (PVec.toNat { rnd := r }) (.A (encVOp d) (encVOp a) 0 0))
  | .cvt dst src r d a => some (mkCode 0x39 (PVec.toNat { rnd := r }) (.A (encVOp d) (encVOp a) (encBf dst src).1 (encBf dst src).2))
  | .cvtn dst src r o d a => some (mkCode 0x3A (PVec.toNat { rnd := r, ovf := o }) (.A (encVOp d) (encVOp a) (encBf dst src).1 (encBf dst src).2))
  | .cvtw dst src r d a => some (mkCode 0x3B (PVec.toNat { rnd := r }) (.A (encVOp d) (encVOp a) (encBf dst src).1 (encBf dst src).2))
  | .pack ty r d a b => some (mkCode 0x3C (PVec.toNat { rnd := r }) (.A (encVOp d) (encVOp a) (encVOp b) (encPackTy ty)))
  | .unpack ty d a => some (encV2 0x3D d a (encPackTy ty))
  | .kand d a b => some (encX 0x3E 0 (Fin.ofNat 16 a.val) (Fin.ofNat 128 b.val) 0 (Fin.ofNat 16 d.val))
  | .kor d a b => some (encX 0x3E 1 (Fin.ofNat 16 a.val) (Fin.ofNat 128 b.val) 0 (Fin.ofNat 16 d.val))
  | .kxor d a b => some (encX 0x3E 2 (Fin.ofNat 16 a.val) (Fin.ofNat 128 b.val) 0 (Fin.ofNat 16 d.val))
  | .knot d a => some (encX 0x3E 3 (Fin.ofNat 16 a.val) 0 0 (Fin.ofNat 16 d.val))
  | .xcfg x base bound step => some (mkCode 0x3F (idxPayload base bound step) (.X 0 x 0 0 0))
  | .xset x a => some (encX 0x3F 1 x (encVOp a) 0 0)
  | .xget d x => some (encX 0x3F 2 x (encVOp d) 0 0)
  | .xadd x a => some (encX 0x3F 3 x (encVOp a) 0 0)
  | .shp d a => some (mkCode 0x40 0 (.A (encS7 d) (encVOp a) 0 0))
  | .shpw d => some (mkCode 0x40 0 (.A (encS7 d) 0 0 1))
  | .tnow d => some (encX 0x41 0 0 (encVOp d) 0 0)
  | .tget d t => some (encX 0x41 1 0 (encVOp d) (encTOp t) 0)
  | .tdist d t => some (encX 0x41 2 0 (encVOp d) (encTOp t) 0)
  | .tready k t => some (encX 0x41 3 0 0 (encTOp t) (Fin.ofNat 16 k.val))
  | .twait t => some (encX 0x42 0 0 0 (encTOp t) 0)
  | .tyield t => some (encX 0x43 0 0 0 (encTOp t) 0)
  | .trank d t m => some (encX 0x44 0 0 (encVOp d) (Fin.ofNat 32 t.val) (Fin.ofNat 16 m.val))
  | .ld m d a b t => some (encMem 0x45 m d a b t 0 0)
  | .st m d a b key => some (encMem 0x46 m d a b (.dir 0) (encS7 key) 0)
  | .sld m d a b t => some (encMem 0x47 m d a b t 0 0)
  | .sst m d a b key => some (encMem 0x48 m d a b (.dir 0) (encS7 key) 0)
  | .lds m d a b t => some (encMem 0x49 m d a b t 0 0)
  | .sts m d a b => some (encMem 0x4A m d a b (.dir 0) 0 0)
  | .ldp m d a b t => some (encMem 0x4B m d a b t 0 0)
  | .stp m d a b => some (encMem 0x4C m d a b (.dir 0) 0 0)
  | .probe m a b t => some (encMem 0x4D m (.dir 0) a b t 0 0)
  | .ldt m d a b key t => some (encMem 0x4E m d a b t (encS7 key) 0)
  | .atom op m d a b t => some (encMem 0x4F m d a b t 0 (encAtomOp op))
  | .cas m d a b e t => some (encMem 0x50 m d a b t (encVOp e) 0)
  | .atsc op m d a b t => some (encMem 0x51 m d a b t 0 (encAtomOp op))
  | .red op m d a b => some (encMem 0x52 m d a b (.dir 0) 0 (encAtomOp op))
  | .hred op m d a b => some (encMem 0x53 m d a b (.dir 0) 0 (encAtomOp op))
  | .fence o s => some (encQ 0x54 0 0 0 (Fin.ofNat 64 (encScope s)) (Fin.ofNat 4 (encOrder o)))
  | .fenceSc => some (encQ 0x54 1 0 0 0 0)
  | .bar n => some (encQ 0x55 0 0 0 (Fin.ofNat 64 n.val) 0)
  | .barr n => some (encQ 0x55 1 0 0 (Fin.ofNat 64 n.val) 0)
  | .barw n => some (encQ 0x55 2 0 0 (Fin.ofNat 64 n.val) 0)
  | .evsig a => some (encQ 0x56 0 a 0 0 0)
  | .evwait a b => some (encQ 0x56 1 a b 0 0)
  | .evq d a => some (encQ 0x56 2 d a 0 0)
  | .sigdec p => some (encQ 0x57 0 (encPair p) 0 0 0)
  | .cpa toGlobal size policy o a b s tag => some (mkCode 0x58 (PCopy.toNat { size := size, toGlobal := toGlobal, s := s, tag := tag, policy := policy }) (.M (encVOp o) (encVOp a) 0 (Fin.ofNat 32 (2 * b.val))))
  | .cpt a v tag => some (encQ 0x59 0 a (encPair v) tag 0)
  | .tagw i => some (encQ 0x5A 0 0 0 i 0)
  | .taga i m => some (encQ 0x5A 1 (Fin.ofNat 64 (m.toNat / 64)) (Fin.ofNat 64 m.toNat) i 0)
  | .tagf i => some (encQ 0x5A 2 0 0 i 0)
  | .tagc d => some (encQ 0x5A 3 (encPair d) 0 0 0)
  | .srec d a => some (encQ 0x5B 0 d a 0 0)
  | .sarm e tag => some (encQ 0x5B 1 e 0 tag 0)
  | .sstop e => some (encQ 0x5B 2 e 0 0 0)
  | .iord d a b => some (mkCode 0x5C 0 (.A (encVOp d) (encVOp a) (encS7 b) 0))
  | .iowr d a b => some (mkCode 0x5C 0 (.A (encVOp d) (encVOp a) (encS7 b) 1))
  | .tlw i v => some (encQ 0x5D 0 i (encPair v) 0 0)
  | .tlget d i => some (encQ 0x5D 1 (encPair d) i 0 0)
  | .acca d n => some (encQ 0x5E 0 d 0 (Fin.ofNat 64 n.toNat) 0)
  | .accf h => some (encQ 0x5E 1 h 0 0 0)
  | .accz h => some (encQ 0x5E 2 h 0 0 0)
  | .accr d h n t => some (mkCode 0x5F (PVec.toNat { time := t }) (.A (encVOp d) (encS7 h) (encS7 n) 0))
  | .accw a h n => some (mkCode 0x5F 0 (.A (encVOp a) (encS7 h) (encS7 n) 1))
  | .mgix a => some (encQ 0x60 0 a 0 0 0)
  | .mma fa fb c d tag => some (encMat 0x61 { fa := fa, fb := fb, tag := tag } c 0 d)
  | .mloop fa fb c n d tag => some (encMat 0x62 { fa := fa, fb := fb, tag := tag } c n d)
  | .mloopSc fa fb sf c n d tag => some (encMat 0x62 { fa := fa, fb := fb, sc := some sf, tag := tag } c n d)
  | .scacc sf c p s tag => some (encMat 0x63 { sc := some sf, tag := tag } c p s)
  | .trap => some (encQ 0x64 0 0 0 0 0)
  | .brk => some (encQ 0x64 1 0 0 0 0)
  | .rti => some (encQ 0x65 0 0 0 0 0)
  | .sysr d n => some (encQ 0x66 0 (encPair d) (Fin.ofNat 64 (n.toNat / 64)) (Fin.ofNat 64 n.toNat) 0)
  | .sysw a n => some (encQ 0x66 1 (encPair a) (Fin.ofNat 64 (n.toNat / 64)) (Fin.ofNat 64 n.toNat) 0)
  | .replay => some (encQ 0x67 0 0 0 0 0)
  | .wspill a b => some (encQ 0x68 0 (encPair a) b 0 0)
  | .wfill a b => some (encQ 0x68 1 (encPair a) b 0 0)
  | .coldReset | .coldResetRelease | .thermalAlert | .criticalTemperatureStop | .stampWrite _ | .stampRead _ | .wr _ _ | .wrel _ _ | .rd _ _
  | .racq _ _ | .rply _ _ | .aply _ _ | .bcn _ _ | .refuse _ _ | .retryResend _ _ | .mreq _ _ | .mrply _ _ | .beaconSend
  | .beaconTimeout _ _ | .retryBufferTimeout _ | .linkUnrecoverableFlit _ | .linkRetry _ _ _ | .stop _ | .stopped _ | .drained _ | .resume
  | .l2ProbeAccept _ _ | .l3ReadAccept _ _ | .hbmReadAccept _ | .hbmDataReturn _ _ | .homeAluAccept _ | .translationComplete _ _
  | .refinement _ _ | .valueArrival _ _ | .lateNotice _ _ | .promiseMatures _ | .spareRow _ | .rowRemap _ | .spareGranule _
  | .memrepairReservedKind _ | .repairComplete | .faqTail _ | .bplAdd _ | .fretCommit _ _ | .fretMapCheck | .fretInstall
  | .boundTransitionStart | .boundTransitionEnd | .hsemAcquire _ _ | .hsemRelease _ | .hsemLapse | .functionLevelReset _ | .linkDown _
  | .queueEnable _ | .queueResume _ | .queueDisable _ | .doorbell _ _ | .kernel _ | .taskpool _ | .signal _ | .event _ | .wait _
  | .dependenceSignalPoll _ | .packetCompletion _ | .msixUnmask _ _ _ | .peerRequest _ | .hostWrite _ _ _ | .hostRead _ _ _
  | .backInvalidateResponse _ | .ioContextBind _ | .ioContextUnbind _ | .ionotify _ | .cqPoll _ | .nvmeCompletion _ _ _
  | .ioRequestTimeout _ _ | .ioSubmission _ | .suspend _ _ | .suspensionComplete _ | .partitionResume _ _ | .pstatePs0 _ | .pstatePs1 _
  | .pstatePs2 _ | .pstatePs3 _ | .powerTransition | .mxgate _ _ | .matrixGate _ | .pwralarm _ _ | .powerWindowEnd _ | .energyAccount _
  | .firmwareInstall _ _ | .attest _ _ | .removeOctant _ _ | .raiseRollback _ | .fwmboxNoCommand _ _ | .trimiLoad _ | .groupPlacement _
  | .quiescenceComplete _ | .binnerTimeout _ | .barTimeout _ _ | .eventOverflowScan _ _ | .eventAddAtHome _ | .triggerCount _
  | .waveSlotFree _ | .sleepExpiry _ | .yieldTickExpiry _ | .fixedLatencyResult _ | .l1Fill _ | .instructionFetch _ _ | .replayIssue _ _
  | .bowWakeEnd _ | .bowFetchEnd _ | .bowStepEnd _ | .bowDrainEnd _ | .bowStopEnd _ | .accumulatorAccess _ | .copyComplete _ _
  | .cpaEvictionTimeout _ _ | .streamHeaderPoll _ _ | .streamPublish _ _ | .streamAck _ _ | .cptComplete _ _ | .ticketGrant
  | .fenceScComplete _ | .homeAcknowledgement _ | .prqRetry _ | .prqFail _ | .prqRespNoEffect _ | .prqTail _ | .frecTail _ | .shootdown _
  | .shootdownComplete | .debugHalt _ | .debugResume _ | .debugStep _ | .dbgDataRead | .dbgDataWrite _ | .registerWrite _ _ _ _ _
  | .storeAccept _ | .thermalAlertDeassert => none

/-! ## Packets (R343-R346) -/

/-- A packet: the header and slots 1-3. -/
structure Packet where
  header : Word
  slot1 : Word
  slot2 : Word
  slot3 : Word
deriving DecidableEq, Repr

/-- The word of a slot, 1 to 3. -/
def Packet.slot (p : Packet) (n : Nat) : Word :=
  match n with
  | 1 => p.slot1
  | 2 => p.slot2
  | _ => p.slot3

/-- A little-endian word of four bytes. -/
def wordOfBytes (b0 b1 b2 b3 : Byte) : Word := b3 ++ b2 ++ b1 ++ b0

/-- The instruction of a code, where it decodes to one that the encoding admits (R226, R363) (DEDUCED, log 101). -/
def legal (c : Code) : Option Instr := (decode c).filter Instr.wellFormed

/-- The packet in 16 bytes (R343); bytes beyond the list read 0. -/
def packetOfBytes (b : List Byte) : Packet :=
  let g (n : Nat) : Byte := b.getD n 0
  let w (n : Nat) : Word := wordOfBytes (g n) (g (n + 1)) (g (n + 2)) (g (n + 3))
  { header := w 0, slot1 := w 4, slot2 := w 8, slot3 := w 12 }

/-- The block priority of a packet (R344). -/
def Packet.pri (p : Packet) : Nat := p.header.toNat / 4194304 % 256

/-- Is a word a prefix (R354)? -/
def isPrefix (w : Word) : Bool := majorOf w == 0x7E

/-- The instruction word at a slot that is no prefix, else the next slot's. -/
def Packet.instrSlot (p : Packet) (n : Nat) : Nat := if isPrefix (p.slot n) then n + 1 else n

/-- The slots at which an instruction may start: not the word a prefix extends, not the successor of a word with c = 1 (R345). -/
def Packet.starts (p : Packet) : List Nat :=
  let after (n : Nat) : Nat :=                 -- the slot after the unit that starts at slot n
    let k := p.instrSlot n
    if chainBit (p.slot k) then p.instrSlot (k + 1) + 1 else k + 1
  let s2 := after 1
  let s3 := after s2
  1 :: (if s2 ≤ 3 then [s2] else []) ++ (if s2 ≤ 3 ∧ s3 ≤ 3 then [s3] else [])

/-- The whole-packet check (R346). -/
def Packet.malformed (p : Packet) : Bool :=
  let pre (n : Nat) : Bool := isPrefix (p.slot n)
  let badPrefix (n : Nat) : Bool :=
    pre n && (chainBit (p.slot n) || switchBit (p.slot n) || !takesPrefix (majorOf (p.slot (n + 1))))
  let badChain (n : Nat) : Bool :=
    !pre n && chainBit (p.slot n) && chainBit (p.slot (p.instrSlot (n + 1)))
  p.header.toNat / 1073741824 != 1 || p.header.toNat % 4194304 != 0
    || pre 3 || chainBit p.slot3
    || badPrefix 1 || badPrefix 2 || badChain 1 || badChain 2

/-- The code at a start slot, and the slot of its instruction word. -/
def Packet.codeAt (p : Packet) (n : Nat) : Code × Nat :=
  if isPrefix (p.slot n) then
    ({ payload := some (BitVec.ofNat 23 (p.slot n).toNat), word := p.slot (n + 1) }, n + 1)
  else ({ payload := none, word := p.slot n }, n)

/-- The bytes of a word, little-endian. -/
def bytesOfWord (w : Word) : List Byte := [w.extractLsb' 0 8, w.extractLsb' 8 8, w.extractLsb' 16 8, w.extractLsb' 24 8]

/-- The bytes of a packet. -/
def Packet.bytes (p : Packet) : List Byte :=
  bytesOfWord p.header ++ bytesOfWord p.slot1 ++ bytesOfWord p.slot2 ++ bytesOfWord p.slot3

/-- A prefix word with a payload. -/
def prefixWord (p : BitVec 23) : Word := packWord 0x7E (.L (Fin.ofNat 8388608 p.toNat))

/-- The header of control version 1 and block priority 0. -/
def headerWord : Word := 0x40000000#32

/-- The packet that holds words from slot 1 on, the rest of it `nop`s. -/
def packetOf (ws : List Word) : Packet :=
  let g (n : Nat) : Word := ws.getD n 0x06800000#32
  { header := headerWord, slot1 := g 0, slot2 := g 1, slot3 := g 2 }

/-- The words of a code, as they stand in the slots of a packet. -/
def Code.words (c : Code) : List Word :=
  match c.payload with
  | some p => [prefixWord p, c.word]
  | none => [c.word]

/-- The words of an instruction given as a number of `nbits` bits, the first word lowest. -/
def tableWords (nbits w : Nat) : List Word :=
  let w0 := BitVec.ofNat 32 w
  if isPrefix w0 || 32 < nbits then [w0, BitVec.ofNat 32 (w / 4294967296)] else [w0]

/-- The instruction that the decoder reads from an instruction word of the opcode table laid into slot 1 of a packet. -/
def decodeTableWord (nbits w : Nat) : Option Instr := decode ((packetOfBytes (packetOf (tableWords nbits w)).bytes).codeAt 1).1

end Sys2Proof
end

