-- ==== Sys2Proof/Machine/State.lean ====
section
/-! DEFINITION. The state of the package: waves, groups, cores, contexts, octants, memory, host registers, queues, I/O, power and the
scheduler, all plain data; the faults and refusals; and the state right after reset. -/

namespace Sys2Proof
namespace Machine

/-! ## Registers of a wave (R216-R222, R194) -/

/-- A vector register with its shape (R218): U one value, A base and stride, G one value a lane; and shape U whose value an `sld` still
brings, the lanes reading what they held before (R211, R220). -/
inductive VReg where
  | u (v : Word)
  | a (base stride : Word)
  | g (lanes : Lanes Word)
  | coming (old : Lanes Word)
deriving DecidableEq, Repr

/-- An index register (R222): base, bound 1-256, signed step, and a value for each lane. -/
structure XReg where
  base : BitVec 8 := 0
  bound : BitVec 9 := 256
  step : BitVec 4 := 0
  val : Lanes (BitVec 8) := Vector.replicate _ 0
deriving DecidableEq, Repr

/-- The register files of a wave. -/
structure Regs where
  v : Vector VReg 256
  s : Vector Word 64
  x : Vector XReg 16
  t : Vector (Lanes DWord) 16
  arr : Vector Mask 16
  k : Vector Mask 8
deriving DecidableEq, Repr

/-- The registers at wave start before R142 and R153 fill the named ones (R217, R194). -/
def Regs.start : Regs :=
  { v := Vector.replicate _ (.u 0)
    s := Vector.replicate _ 0
    x := Vector.replicate _ {}
    t := Vector.replicate _ (Vector.replicate _ 0)
    arr := Vector.replicate _ (BitVec.allOnes 32)
    k := Vector.ofFn fun i => if i.val = 0 then BitVec.allOnes 32 else 0 }

/-- A frontier entry (R161, R162): where it stands, its lanes, its consecutive issues, whether it is demoted, and whether it waits
for the fetch of its packet (R383). -/
structure Entry where
  pc : VA
  mask : Mask
  run : Nat := 0
  demoted : Bool := false
  fetching : Bool := false
  blocked : Bool := false            -- holds a trap under R335
deriving DecidableEq, Repr

/-- The condition of a `yield` (R388). -/
inductive YieldCond where
  | tags (mask : DWord)
  | timeline (n : Nat) (value : DWord)
  | event (name : BitVec 16) (thr : Word)
  | tick (at_ : DWord)
deriving DecidableEq, Repr

/-- What a wave is parked at (R160, R235). A word that its pipe has not accepted is no park: its PC stands at the word. A switch
marker's park is the field `switch` of the wave. -/
inductive Park where
  | none
  | twait (t : Lanes (Fin 16))
  | tyield (t : Lanes (Fin 16))
  | yield (c : YieldCond) (sp : Bool)
  | rows (c : YieldCond)
  | bar (n : Fin 16) (phase : Word)
  | barw (n : Fin 16) (phase : Word)
  | event (name : BitVec 16) (thr : Word)
  | tag (i : Fin 64)
  | timeline (n : Nat) (value : DWord)
  | value (acc : Nat)
  | replay
  | spawn (left : List (VA × List Byte))      -- entries and records of the tasks not yet pushed (R389)
  | sleep (until_ : Nat)
deriving DecidableEq, Repr

/-- A register as the operand window names it (R177, R229). -/
inductive RegName where
  | v (n : Fin 256) (lanes : Mask)
  | s (n : Fin 64)
  | k (n : Fin 8)
  | x (n : Fin 16)
deriving DecidableEq, Repr

/-- A fixed-latency result that is not ready yet (R177): the value already stands in the register, as R178 allows. -/
structure Pending where
  reg : RegName
  ready : Nat
deriving DecidableEq, Repr

/-! ## Variable-latency accesses (R179, R194-R205) -/

/-- What an outstanding access of a wave is. -/
inductive AccKind where
  | load            -- ld, sld, lds, ldp, ldt
  | probe
  | atom
  | red             -- red, hred: no value
  | accr
  | fence           -- an acquire fence that awaits matrix replies, or a fence.sc
  | evq
  | evwait
  | tlget
  | wfill
  | copy            -- cpa
  | iord
  | mgix
deriving DecidableEq, Repr

/-- What a late notice says (R203): so many ticks past the old value, the tick of a link's retry, the tick of a new reservation. -/
inductive Late where
  | add (n : Nat)
  | retry (tick : Nat)
  | anew (tick : Nat)
deriving DecidableEq, Repr

/-- One outstanding access. Lane L's destination is `dst` L and the `regs - 1` registers after it; a lane's bit of `alive i` says that
no younger word has written register `dst + i` in that lane (R231). `tlanes` are the lanes whose time register still follows this
access (R196); `own` is the promise each lane holds for itself. -/
structure Access where
  id : Nat
  kind : AccKind
  pc : VA
  instr : Instr
  issued : Nat
  lanes : Mask                       -- lanes not ended
  dst : Lanes (Fin 256) := Vector.replicate _ 0
  regs : Nat := 0
  alive : Vector Mask 5 := Vector.replicate _ 0
  treg : Lanes (Fin 16) := Vector.replicate _ 0
  tlanes : Mask := 0
  own : Lanes DWord := Vector.replicate _ 0
  uniform : Bool := false            -- sld: one value for every lane
  waits : List Nat := []             -- requests whose part has not arrived
  sources : Lanes (List (Nat × Nat × Nat × Nat)) := Vector.replicate _ []   -- request, first byte in line, bytes, place
  data : Lanes (BitVec 128) := Vector.replicate _ 0
  bad : Mask := 0                    -- lanes that consumed a poisoned sector
  cancelled : Mask := 0
  acquire : Option Scope := none     -- later memory words wait for it (R306)
  at_ : Option Nat := none           -- the tick at which an access with an exact latency ends
  sdst : Option (Fin 64) := none     -- scalar destination of evq, or the even register of tlget
  tag : Option Nat := none           -- core tag of a copy
  fromHold : Bool := false           -- reissued from a replay entry (R453)
  ticket : Option Nat := none
  event : Option (BitVec 16 × Word) := none
  place : Lanes Nat := Vector.replicate _ 0    -- scratchpad offsets of a copy
  since : Nat := 0                   -- serial from which the requests of this access count
  refines : List (Nat × Nat) := []   -- refinements on their way to the core: the request that they refine, and the tick (R200)
  lineTimes : List (Nat × Nat) := [] -- the tick that each refined request stands at: a lane of several lines has the largest (R197)
  hitAt : Nat := 0                   -- the tick of the lanes that found a part in the L1
  hitLanes : Mask := 0
  noticedAt : Option Nat := none     -- the tick of its latest notice: a refinement of that tick came before it (R203)
  latch : Option Regs := none        -- of a copy or a probe: the registers at issue, for R195 and R296
  notices : List (Nat × Late) := []  -- late notices on their way, with their request (R203)
deriving DecidableEq, Repr

/-- A POISON trap that entries of the wave owe under R458: for a held store, atomic, copy, launch or fetch whose page request failed, or for
an `evq`, `evwait` or `wfill` that consumed a poisoned sector. `pc` is the PC of that word. -/
structure Owed where
  pc : VA
  mask : Mask
deriving DecidableEq, Repr

/-! ## Waves and groups (R141) -/

/-- What a word of a tick reads of the wave's time state: it stands as the tick found it (R405, R449). -/
structure Seen where
  t : Vector (Lanes DWord) 16 := Regs.start.t
  arr : Vector Mask 16 := Regs.start.arr
  late : Bool := false
  cancel : Bool := false
  latecount : BitVec 16 := 0
deriving DecidableEq, Repr

/-- A wave. A vacant wave (live = false) is in no slot (DESIGN CHOICE, log 1). -/
structure Wave where
  live : Bool := false
  uid : Nat := 0                     -- unique among all waves of the run
  slot : Nat := 0                    -- global wave slot (R25)
  gid : Nat := 0                     -- its group
  ctx : Nat := 0
  index : Nat := 0                   -- wave index in the group
  task : Bool := false
  regs : Regs := Regs.start
  nregs : Nat := 8                   -- .regs
  wide : Nat := 0                    -- .wide
  segbase : VA := 0                  -- private segment (R188)
  limit : Nat := 0                   -- .private in words (R190)
  late : Bool := false
  cancel : Bool := false
  latecount : BitVec 16 := 0
  seen : Seen := {}
  news : Nat := 0                    -- late notices of this tick (R452), and whether one of its lanes became CANCELLED in it
  newCancel : Bool := false
  front : List Entry := []
  park : Park := .none
  parkPc : VA := 0                   -- PC of the word it is parked at, and that word's Active
  parkLanes : Mask := 0
  switch : Bool := false             -- a switch marker's park (R180)
  recent : List Nat := []            -- for each of its last 8 words, when its fixed-latency result is ready (R178)
  window : List Pending := []
  accs : List Access := []
  owed : List Owed := []
  poisoned : List (Fin 256 × Mask) := []   -- destinations of accesses that ended as POISON (R213)
  triggered : Bool := false
  trigAt : Nat := 0                  -- serial at its trigger: the stores before it must be stamped (R385)
  exited : Bool := false
  lastIssue : Nat := 0
  since : Nat := 0                   -- eligible since
  waiting : Option Nat := none       -- since when a word awaits its pipe or a grant
  halted : Bool := false
  stepping : Bool := false
  poked : List (Fin 256 × Mask × Word) := []   -- lanes of a register that a debugger has written with one value (R238)
  unit : Option Nat := none          -- save unit of a spilled wave (R236)
  spilled : Bool := false
  arrivedIn : List (Fin 16 × Word) := []   -- barrier, phase it last arrived in (R425)
  homes : BitVec 8 := 0              -- homes that served its loads since its last acquire (R307)
  relHomes : BitVec 8 := 0           -- homes whose next store is a release (R307)
  relSys : Bool := false             -- that release is of system scope
  relSts : Option Scope := none      -- scope of a fence release that the next `sts` stands for (R298, R313)
  relOut : Option Scope := none      -- scope of a fence release that the next store to host or peer memory stands for (R298, R305)
  mayIssue : Nat := 0                -- first tick at which it may issue (R149, R209)
deriving DecidableEq, Repr

/-- A barrier of a group (R163-R165). `arriving` holds arrivals that wait for R426: wave index, tick Q, and the serial at its issue. -/
structure Barrier where
  phase : Word := 0
  arrived : Mask := 0
  first : Option Nat := none
  elapsed : Nat := 0
  barto : Nat := 16777216            -- the timeout in force when the phase began (R146)
  arriving : List (Nat × Nat × Nat) := []
deriving DecidableEq, Repr

/-- A queued matrix entry (R272, R276). `isScacc` marks an `scacc` entry, whose source run and scale offset are `src` and `so`. -/
structure MxEntry where
  gid : Nat
  desc : List Byte := []             -- the 64 bytes of the step descriptor
  fa : MxFmt := .e2m1
  fb : MxFmt := .e2m1
  scales : Option ScFmt := none
  steps : Nat := 0
  bank : Nat := 0                    -- first bank of C
  tag : Nat := 0                     -- window tag index
  init : Bool := false               -- init still to apply
  done : Nat := 0                    -- steps performed
  rows : List Nat := []              -- the index vector as it stood at the fetch of the step in progress, and of the next (R265)
  nextRows : List Nat := []
  snap : List Host.Cell := []        -- the scratchpad as those two fetches read it (R279), and its bytes
  nextSnap : List Host.Cell := []
  room : Nat := 0
  isScacc : Bool := false
  src : Nat := 0
  so : Nat := 0
deriving DecidableEq, Repr

/-- A group and the regions it is charged to: `chain` is its RCB and the ancestors (R145) (DESIGN CHOICE, log 1). -/
structure Group where
  gid : Nat := 0
  ctx : Nat := 0
  kdesc : VA := 0
  rcb : VA := 0
  chain : List Nat := []
  gx : Nat := 0
  gy : Nat := 0
  gz : Nat := 0
  waves : Nat := 0                   -- W
  core : Nat := 0
  age : Nat := 0
  prio : Nat := 0                    -- effective
  policy : Nat := 0
  placedAt : Nat := 0                -- tick of its placement (R160)
  scratch : Nat := 0                 -- bytes, a multiple of 4 KiB (R185)
  pad : List Host.Cell := []         -- scratchpad bytes of the allocation
  padBad : List Nat := []            -- poisoned 32-byte sectors of it (R83)
  fresh : Nat × List Host.Cell := (0, [])    -- a tick, and the bytes that stores of the wave ports replaced in it (R186)
  gathered : List Nat := []          -- offsets of its blocks in the gather cache that no write has touched (R265)
  tagFirst : Nat := 0
  tags : List Nat := []              -- counts of the tag window
  bars : Vector Barrier 16 := Vector.replicate _ {}
  triggered : Mask := 0
  exited : Mask := 0
  runs : List (Nat × Nat) := []      -- accumulator runs: first bank, banks (R268)
  loops : List MxEntry := []         -- matrix entries taken from the queue at an eviction, in queue order (R275)
  privSlot : Option Nat := none
  privBytes : Nat := 0               -- .private
  privBase : Nat := 0                -- privbase + k * privstride (R188)
  job : Nat := 0                     -- the started packet it belongs to
  task : Bool := false
  coresident : Bool := false
  octmask : BitVec 8 := 0
  regs : Nat := 8
  wideEach : Nat := 0
  evictAt : Option Nat := none       -- tick at which its eviction was decided (R167)
  exitPcs : List (Nat × VA) := []    -- PCs of the exits of its waves, by wave index (R165)
  sysAcquire : Bool := false         -- starts as if with fence.acq.sys (R316)
deriving DecidableEq, Repr

/-! ## The core (R173) -/

/-- A store's update of the L1 copy of a line, made at the end of the tick of its lookup (R182, R193). -/
structure L1Late where
  line : Nat
  mask : BitVec 128
  data : BitVec 1024
  policy : Policy
  bad : BitVec 4 := 0                -- poisoned sectors of the data (R83)
deriving DecidableEq, Repr

/-- A line of the L1 (R181, R182). A private line keeps its wave and the virtual line it belongs to. -/
structure L1Line where
  line : Nat                         -- key of the line: its address div 128
  set : Nat
  way : Nat
  priv : Bool := false
  owner : Nat := 0                   -- uid of the wave of a private line
  ctx : Nat := 0
  va : VA := 0                       -- virtual line
  valid : BitVec 4 := 0
  bad : BitVec 4 := 0
  dirty : BitVec 128 := 0
  data : BitVec 1024 := 0
  age : Nat := 1
  readAt : Nat := 0                  -- serial at which the fill read the line
deriving DecidableEq, Repr

/-- Where a leaf maps to (R321). -/
inductive Target where
  | device
  | host (port : Port)
  | peer (chip : BitVec 12)
deriving DecidableEq, Repr

/-- A cached translation (R324): a leaf of a context. -/
structure Tlb where
  ctx : Nat
  base : Nat                         -- first virtual address of the page
  size : Nat
  target : Target
  pa : Nat
  write : Bool
  exec : Bool
deriving DecidableEq, Repr

/-- A table pointer in a page-walk cache (R324): the table of a level under a range of a context that starts at `base`. -/
structure Pwc where
  ctx : Nat
  base : Nat
  level : Nat
  table : Nat
deriving DecidableEq, Repr

/-- What an access needs of a page (R323, R327). -/
inductive Need where
  | read | write | fetch
deriving DecidableEq, Repr

/-- The state of a replay entry (R330): `walking` holds it before its translation completes (R329). -/
inductive HeldState where
  | walking | waiting | requested | retry | fail
deriving DecidableEq, Repr

/-- A replay entry (R168, R330): the held word, the lanes still to perform, and the operands it was issued with. -/
structure Held where
  id : Nat
  wave : Nat                         -- uid
  slot : Nat
  pc : VA
  instr : Instr
  mask : Mask
  latch : Regs
  need : Need
  va : VA
  state : HeldState := .walking
  asks : List (Nat × Mask) := []     -- page-request entries and the lanes that wait on each (R325, R327)
  again : Mask := 0                  -- lanes answered with retry, to issue again (R212, R328)
  failed : Mask := 0                 -- lanes answered with fail while the wave is saved
  stepped : BitVec 16 := 0
  since : Nat := 0
  acc : Option Nat := none           -- the access whose lanes it holds
  rec_ : List Byte := []             -- the record that a `cpt` read and kept (R289)
  issued : Nat := 0                  -- the tick at which it was issued, or issued again, and the G published then (R197, R212)
  g : Nat := 0
  active : Mask := 0                 -- the lanes of the word at its issue
  walk : Mask := 0                   -- the lanes whose translation runs, while it walks; none named: all
deriving DecidableEq, Repr

/-- The states of the Bow (R274). -/
inductive BowState where
  | idle | wake | fetch | step | drain | stop
deriving DecidableEq, Repr

/-- The Bow: its state, the tick at which it leaves it, the step it works on, and since when it is idle. -/
structure Bow where
  state : BowState := .idle
  leave : Nat := 0
  idleSince : Nat := 0
  gated : Bool := false
  narrow : Bool := false
  was : Bool × Bool := (false, false)   -- gated and narrow as the tick found them (R449, R456)
  stopFor : Option Nat := none       -- group for whose save or end it stops
deriving DecidableEq, Repr

/-- A waiting accumulator-port access (R269). -/
inductive AccOp where
  | zero (bank banks : Nat)
  | read (wave acc : Nat) (bank seg : Nat) (lanes : Mask)
  | write (bank seg : Nat) (lanes : Mask) (vals : Lanes Word)
deriving DecidableEq, Repr

structure AccWait where
  start : Nat
  gid : Nat
  op : AccOp
deriving DecidableEq, Repr

/-- A vector in the gather cache (R265): its group, and the offset of its block. -/
structure GatherVec where
  gid : Nat
  off : Nat
deriving DecidableEq, Repr

/-- What a stream engine does (R295, R430). -/
inductive EngineKind where
  | free | held | armed | cpt
deriving DecidableEq, Repr

/-- A stream engine (R295, R296). -/
structure Engine where
  kind : EngineKind := .free
  gid : Nat := 0
  rec_ : List Byte := []             -- the 128-byte tensor layout record
  tag : Nat := 0
  next : Nat := 0                    -- next element of the run
  num : Nat := 1                     -- slot number it works on
  published : Nat := 0
  acked : Nat := 0
  move : Nat := 0                    -- destination VA of a move
  pc : VA := 0
  wave : Nat := 0                    -- uid of the wave that armed it, and the serial of that word: its earlier stores are seen (R294)
  since : Nat := 0
  busy : Bool := false               -- it moves its number, or its tensor
  waits : List Nat := []             -- its reads that have not arrived, or its writes that no L2 slice has accepted
  lines : List (Nat × BitVec 1024 × BitVec 4) := []    -- lines that have arrived, with their poisoned sectors
deriving DecidableEq, Repr

/-- A core. -/
structure Core where
  id : Nat := 0
  l1 : List L1Line := []
  l1Late : List L1Late := []         -- oldest first
  lookAt : Nat := 0                  -- tick of the latest L1 lookup, and the lines looked up in it (R181)
  looked : Nat := 0
  tlb : List Tlb := []
  held : List Held := []
  q : Vector Nat 4 := Vector.replicate _ 0          -- tick Q of each sub-core's wave port (R186)
  issuedAt : Vector (Option Nat) 4 := Vector.replicate _ none
  lastWave : Vector (Option Nat) 4 := Vector.replicate _ none   -- uid (R160)
  reserved : Vector (Option (Nat × Nat)) 4 := Vector.replicate _ none   -- R228: slot and tick
  acc : List (Nat × Word) := []      -- accumulator words by word number, 0 where not listed
  qa : Nat := 0                      -- tick Qa of the accumulator port
  accWaits : List AccWait := []
  mq : List MxEntry := []
  bow : Bow := {}
  gather : List GatherVec := []
  engines : Vector Engine 4 := Vector.replicate _ {}
  l1Seq : Nat := 0                   -- invalidations so far: a fill begun before one leaves its line invalid (R183)
deriving DecidableEq, Repr

/-! ## Requests between a core, its octant and a home -/

/-- What a request asks for. -/
inductive ReqKind where
  | read (acquire : Bool)
  | write
  | atomic (op : AtomOp) (compare : Option DWord)
  | take (key : BitVec 16)           -- ldt
  | mreq                             -- matrix request of a fence acquire (R307)
  | event (name : BitVec 16)         -- an addition to an event
deriving DecidableEq, Repr

/-- Where a request stands. -/
inductive Stage where
  | l2                               -- on its way to an L2 slice (or its host or peer port)
  | stamp                            -- at the stamper
  | wire                             -- stamped and sent
  | early                            -- in the home's early buffer
  | held                             -- held at the home (R46)
  | l3                               -- to be accepted by an L3 slice
  | hbm                              -- to be accepted by a HBM controller
  | mem                              -- accepted by it: the data will return
  | alu                              -- performed at the home ALU, the reply not yet sent
  | reply                            -- the reply is on its way
  | fill                             -- at the core
  | applied                          -- a write applied at its home, not yet acknowledged
deriving DecidableEq, Repr

/-- A request for one line. -/
structure Req where
  id : Nat
  kind : ReqKind
  wave : Nat                         -- uid of the wave
  slot : Nat
  core : Nat
  site : Oct
  home : Oct
  ctx : Nat
  part : Nat
  line : Nat                         -- line key (address div 128)
  job : Nat := 0                     -- packet of the wave's group
  target : Target := .device
  seq : Nat                          -- program order within the wave: the serial at the issue of its word, also when it was held (R329)
  acc : Option Nat := none           -- the access it belongs to
  mask : BitVec 128 := 0             -- bytes of a write, sector needs of a read
  data : BitVec 1024 := 0
  va : VA := 0                       -- virtual line, for the L1 set of a fill
  priv : Bool := false               -- of the private class
  under : BitVec 128 := 0            -- bytes of the line that a private store had written when the read was issued (R184)
  underData : BitVec 1024 := 0
  size : Nat := 4                    -- bytes of an atomic
  offset : Nat := 0                  -- its first byte in the line
  lane : Nat := 0
  acquire : Bool := false
  release : Bool := false
  sys : Bool := false
  policy : Policy := .dflt
  key : Option (BitVec 16) := none   -- forward key of a store (R75)
  stage : Stage := .l2
  bad : BitVec 4 := 0                -- poisoned sectors of the data
  refused : Bool := false            -- an atomic that was not performed
  cacheable : Bool := true           -- may the reply fill the L2
  fillL1 : Bool := true              -- may the reply fill the L1
  l1Seq : Nat := 0
  vec : Vector (BitVec 12) 8 := Vector.replicate _ 0      -- the column it was stamped with
  mat : Option (Vector (Vector (BitVec 12) 8) 8) := none
  waitFor : Nat := 0                 -- ticket sub-number of an atsc
  ticketed : Bool := false
  signal : Bool := false             -- a decrement of a signal (R109, R428)
  heldAt : Option Nat := none        -- tick at which a hold began
  quiet : Bool := false              -- a write that nobody waits for: a write-back, or one that has been acknowledged
  readAt : Nat := 0                  -- serial at which a read read its line
  snooped : Bool := false            -- a back-invalidate snoop for it is out (R116)
  born : Nat := 0                    -- tick at which it was sent
  issued : Nat := 0                  -- issue tick of the lanes it reads for, and the G published then (R197, R198)
  g : Nat := 0
  winHeld : Option Nat := none       -- serial at which the stamper began to hold it for the window of R45
  delayed : Option Nat := none       -- tick to which a link retry delays it (R48)
  eng : Option (Fin 4) := none       -- the stream engine of its core that sent it (R294)
deriving DecidableEq, Repr

/-! ## The octant: site and home (R30-R53) -/

/-- A column or vector of counters. -/
abbrev CVec := Vector (BitVec 12) 8
/-- A matrix of counters. -/
abbrev CMat := Vector CVec 8

/-- All counters zero. -/
def CVec.zero : CVec := Vector.replicate _ 0
def CMat.zero : CMat := Vector.replicate _ CVec.zero

/-- A remote copy, or a local line, in an L2 slice (R61). Local lines hold no data here: memory below is the coherence point's value (DEDUCED, log 117). -/
structure L2Line where
  line : Nat
  way : Nat
  age : Nat := 1
  owner : Nat := 0                   -- context id (R73)
  dirty : Bool := false
  data : BitVec 1024 := 0
  bad : BitVec 4 := 0
deriving DecidableEq, Repr

/-- An L3 line's metadata (R62, R75). `below` is what memory holds under a dirty line, and `belowBad` its poisoned sectors (R76) (DEDUCED, log 117). -/
structure L3Line where
  line : Nat
  way : Nat
  age : Nat := 1
  owner : Nat := 0
  dirty : Bool := false
  sharers : BitVec 8 := 0
  key : Option (BitVec 16) := none
  below : BitVec 1024 := 0
  belowBad : BitVec 4 := 0
deriving DecidableEq, Repr

/-- CF_STATUS (R53), without the fields computed from other state. -/
structure CfStatus where
  epoch : BitVec 2 := 0
  ebufmax : BitVec 10 := 0
  refusals : BitVec 16 := 0
  losses : BitVec 8 := 0
  stale : BitVec 8 := 0
  removed : Bool := false
deriving DecidableEq, Repr

/-- An octant, as a site and as a home. Requests in its retry and early buffers are named by their ids. -/
structure Octant where
  id : Oct := 0
  k : CMat := CMat.zero              -- K_s
  bcn : Vector CVec 8 := Vector.replicate _ CVec.zero     -- last beacon of each home
  bcnTick : Vector Nat 8 := Vector.replicate _ 0
  shown : CVec := CVec.zero          -- own writes each home has shown as applied (R44, R45)
  retry : List (Nat × Nat) := []     -- stamped writes not shown applied: request and tick (R44)
  refusedAt : Vector (Option Nat) 8 := Vector.replicate _ none   -- homes that refused, and when to resend
  stopped : Bool := false
  l2 : List L2Line := []
  tlb2 : List Tlb := []
  pwc : List Pwc := []               -- the page-walk cache (R324)
  a : CVec := CVec.zero              -- A_h
  h : CMat := CMat.zero              -- H_h
  early : List Nat := []             -- early buffer, oldest first (R43)
  refusing : Vector (Option (BitVec 12)) 8 := Vector.replicate _ none   -- Refusing and RefusedSeq (R42)
  held : List Nat := []              -- held reads, oldest first
  sentA : CVec := CVec.zero          -- A_h at the last beacon (R49)
  l3 : List L3Line := []
  quarantined : List (Bool × Nat × Nat) := []   -- L3?, set, way (R90)
  atscNext : BitVec 16 := 0          -- next ticketed operation to perform (R310), and those after it that an epoch change discarded (log 147)
  atscLost : List (BitVec 16) := []
  cf : CfStatus := {}
deriving DecidableEq, Repr

/-- What a packet on a path carries (R39, R40). -/
inductive Wire where
  | wr (req : Nat)
  | wrel (req : Nat)
  | rd (req : Nat)
  | racq (req : Nat)
  | rply (req : Nat) (vec : CVec)
  | aply (req : Nat) (vec : CVec) (mat : CMat)
  | bcn (vec : CVec)
  | refuse (vec : CVec)
  | mreq (req : Nat)
  | mrply (req : Nat) (vec : CVec) (mat : CMat)
  | inval (line : Nat)
  | ctl (sub : BitVec 4)             -- another control subtype (R40)
deriving DecidableEq, Repr

/-- A packet in flight: its path, the epoch at stamping, and its contents. Packets of one path arrive in list order (R22) (DESIGN CHOICE, log 25). -/
structure Flight where
  src : Oct
  dst : Oct
  epoch : BitVec 2
  wire : Wire
  reserved : BitVec 4 := 0           -- the header's reserved field (R39)
deriving DecidableEq, Repr

/-- An epoch change (R54): the site that detected the loss, the octant being removed, who has stopped and drained. -/
structure Epoch where
  running : Bool := false
  cause : Oct := 0
  remove : Option Oct := none
  stopSent : BitVec 8 := 0           -- sites whose STOP has not arrived
  stopped : BitVec 8 := 0
  drained : BitVec 8 := 0
  reported : BitVec 8 := 0           -- STOPPED packets Psihel has not received
deriving DecidableEq, Repr

/-- A ticket request or an outstanding ticket (R310). -/
structure Ticket where
  g : Nat := 0                       -- 0 while not granted
  wave : Nat
  slot : Nat
  acc : Nat
  lane : Nat := 0
  home : Option Oct := none          -- none for fence.sc
  sub : BitVec 16 := 0
  done : Bool := false
  asked : Nat := 0
deriving DecidableEq, Repr

/-- The SC sequencer (R310). -/
structure Sequencer where
  next : Nat := 1
  sub : Vector (BitVec 16) 8 := Vector.replicate _ 0
  tickets : List Ticket := []
  tick : Nat := 0                    -- tick of the last grants
  granted : Nat := 0                 -- grants of that tick
deriving DecidableEq, Repr

/-! ## Memory (R78-R90) -/

/-- Bytes by key in canonical form: keys rise strictly and no listed byte is 0, what an unlisted key reads as (log 3). Device byte
pa has key pa; a host byte has key 2^52 (1 + port) + pa; a byte of peer chip c has key 2^52 (16 + c) + pa. Poison is kept for each
32-byte sector, by key div 32, in rising order (R83). -/
structure Memory where
  cells : List Host.Cell := []
  bad : List Nat := []
deriving DecidableEq, Repr

/-- A ring of fixed-size entries in the control window, with its counters (R87, R338). -/
structure Ring where
  slots : List (Nat × BitVec 512) := []
  head : Nat := 0
  lost : BitVec 16 := 0
  tail : Nat := 0
deriving DecidableEq, Repr

/-- Repair, the fault-address queue and the bad-page list (R84-R88). -/
structure Repair where
  memrepair : DWord := 0
  due : Option Nat := none                       -- tick at which the running command completes
  spareRows : List (Nat × Nat) := []             -- bank (pc * 16 + bank), rows used, pending ones included
  pendingRows : List DWord := []                 -- MEMREPAIR values of the spare rows that are pending
  remaps : List (Nat × Nat) := []                -- package channel, remaps used
  granules : Vector Nat 8 := Vector.replicate _ 0
  faq : Ring := {}
  bpl : List (BitVec 4 × BitVec 36) := []        -- oldest first
  exhausted : List (Nat × BitVec 18) := []       -- bank and row reported REPAIR_EXHAUSTED
  degraded : List Nat := []
deriving DecidableEq, Repr

/-- A sparse array of 64-bit registers that read 0 where not listed: index rising, no zero. -/
abbrev RegArray := List (Nat × DWord)

/-- HSEM (R96, R97); `wrote` is the tick of the owner's last write, `took` that at which the owner took the free semaphore, and `hadLast` what `last` was
before. -/
structure Hsem where
  owner : BitVec 2 := 0
  last : Bool := false
  preempted : Bool := false
  denied : BitVec 16 := 0
  wrote : Nat := 0
  took : Option Nat := none
  hadLast : Bool := false
deriving DecidableEq, Repr

/-- The partition registers that an install changes (R124, R125). -/
structure PartConf where
  valid : Bool := false
  ports : BitVec 16 := 0
  qfirst : BitVec 12 := 0
  qlast : BitVec 12 := 0
  cores : BitVec 320 := 0
  routes : Vector DWord 16 := Vector.replicate _ 0
deriving DecidableEq, Repr

/-- CACHE_QUOTA (R72). -/
structure Quota where
  l3ways : BitVec 5 := 2
  l2ways : BitVec 5 := 2
deriving DecidableEq, Repr

/-- A partition: stored and in-force configuration, suspension, counters (R124, R126, R205), and the stages of its published
bound G (R68): the value outside a transition, and during one. -/
structure Partition where
  stored : PartConf := {}
  force : PartConf := {}
  quota : Quota := {}
  quotaForce : Quota := {}
  suspend : Bool := false
  suspended : Bool := false
  refused : BitVec 16 := 0
  pmiss : BitVec 16 := 0
  pmissTick : BitVec 48 := 0
  gNow : Nat := 4096
  gTransition : Nat := 4096
deriving DecidableEq, Repr

/-- The fretboard (R67, R68): the map stored and in force, and the map, quotas and partition registers of an accepted commit. -/
structure Fretboard where
  stored : Vector DWord 64 := Vector.replicate _ 0x8888888888888888
  force : Vector DWord 64 := Vector.replicate _ 0x8888888888888888
  state : BitVec 2 := 0
  checking : Option Nat := none                  -- tick of the commit write
  install : Nat := 0                             -- T_i
  boundEnd : Option Nat := none                  -- T_i + 12,288 of an install done
  started : Bool := false                        -- the transition bounds are published
  staged : Vector DWord 64 := Vector.replicate _ 0
  stagedParts : List (PartConf × Quota) := []
deriving DecidableEq, Repr

/-- An MSI-X vector's table entry and pending bit (R110): address, data, masked (DESIGN CHOICE, log 6). -/
structure MsiVec where
  port : Port
  fn : Nat
  vec : Nat
  addr : DWord := 0
  data : Word := 0
  masked : Bool := true
  pending : Bool := false
deriving DecidableEq, Repr

/-- What the package sends to the outside: an interrupt message, the answer to a read, a refusal, a doorbell to a controller (DESIGN CHOICE, log 122). -/
inductive Out where
  | msix (port : Port) (fn vec : Nat)
  | readData (src : Outsider) (pa : Nat) (data : List Byte) (poisoned : Bool)
  | unsupported (src : Outsider) (offset : Nat)
  | regData (port : Port) (fn offset : Nat) (value : DWord)
  | refused (peer : BitVec 12)
  | peerData (peer : BitVec 12) (data : List Byte) (poisoned : Bool)
  | snoop (req : Nat)
  | snoopLine (line : Nat)
  | nvmeDoorbell (n : Nat) (addr value : DWord)
  | prpList (n num : Nat) (entries : List Nat)
deriving DecidableEq, Repr

/-! ## Queues, I/O, partitions (R99-R122) -/

/-- What an RCB chain read gave (R144, R145): the values in force for the region, and the budgets of each RCB of the chain. -/
structure Budget where
  rcb : Nat
  cores : Nat
  waves : Nat
  scratch : Nat
  acc : Nat
  wide : Nat
deriving DecidableEq, Repr

structure Chain where
  ctx : Nat
  rcb : Nat
  budgets : List Budget := []
  octmask : BitVec 8 := 0
  prio : Nat := 0
  policy : Nat := 0
  barto : Nat := 0
  depth : Nat := 1
  reads : List (Nat × List Byte) := []           -- the RCBs of the chain as they were read, the root's first
deriving DecidableEq, Repr

/-- A queue as its last enable cached it (R99, R100). -/
structure Queue where
  q : Nat
  base : VA := 0
  rcb : VA := 0
  ctx : Nat := 0
  lgsize : Nat := 6
  kind : Nat := 0
  state : BitVec 2 := 0
  err : BitVec 8 := 0
  errvec : Nat := 0
  irqport : Port := 0
  irqfn : Nat := 0                               -- 0 physical, v a virtual function (R111)
  rptr : Nat := 0
  wptr : Nat := 0
  rcbs : List Nat := []                          -- the RCB chain of its last enable
  chain : Option Chain := none                   -- the read of the next packet's chain (R144)
deriving DecidableEq, Repr

/-- A started packet that has not completed (R104, R108). -/
structure Job where
  id : Nat
  q : Nat
  index : Nat
  kind : Nat                                     -- the packet's type
  ctx : Nat
  rcb : Nat
  chain : List Nat := []                         -- its RCB and the ancestors
  left : Nat := 0                                -- groups that have not exited
  untriggered : Nat := 0                         -- groups that have not triggered (R158)
  compsig : VA := 0
  cev : Option (BitVec 16) := none
  msix : Option Nat := none
  kdesc : VA := 0
  privSlot : Option Nat := none
  args : VA := 0
  grid : Nat × Nat × Nat := (1, 1, 1)
  coresident : Bool := false
  dead : Bool := false                           -- its work was terminated (R147)
  coldone : Bool := false                        -- a SIGNAL, EVENT or WAIT whose effect is done
deriving DecidableEq, Repr

/-- A pooled task (R151). -/
structure Task where
  entry : VA
  data : List Byte
  rcb : Nat
  chain : List Nat                               -- its RCB and the ancestors
  tick : Nat
  job : Nat := 0
deriving DecidableEq, Repr

/-- A context (R143): the fields of its root RCB. -/
structure Ctx where
  id : Nat := 0
  part : Nat := 0
  root : Nat := 0                                -- PA of the root RCB
  ptroot : BitVec 40 := 0
  handler : BitVec 53 := 0
  save : BitVec 45 := 0
  evover : BitVec 41 := 0
  evbase : BitVec 39 := 0
  taskbase : BitVec 41 := 0
  tasklg : Nat := 6
  diag : BitVec 48 := 0
  rcbs : List (Nat × List Byte) := []            -- each RCB as the last packet start that read it found it (R144, R146)
  pool : List Task := []
  pushed : Nat := 0                              -- tasks pushed so far: the place in the ring (R151)
  units : List Nat := []                         -- save units in use (R233)
  dead : Bool := false
deriving DecidableEq, Repr

/-- A request of an I/O context (R119). -/
structure IoReq where
  num : Nat
  write : Bool                                   -- iowr
  ctx : Nat
  buf : Nat                                      -- device address of the buffer, by pages
  pages : List (Nat × Nat) := []                 -- device address and bytes of each piece
  lba : DWord := 0
  blocks : Nat := 0
  submitted : Option Nat := none
  done : Bool := false
  late : Bool := false                           -- timed out: its identifier is not reused yet
deriving DecidableEq, Repr

/-- An I/O context record and its engine state (R117-R121); `regs` are its eight 64-bit words as written. -/
structure IoCtx where
  n : Nat
  regs : Vector DWord 8 := Vector.replicate _ 0
  valid : Bool := false
  status : BitVec 8 := 0
  timeline : DWord := 0
  issued : DWord := 0
  firstfail : DWord := 0
  reqs : List IoReq := []
  sqTail : Nat := 0
  cqHead : Nat := 0
deriving DecidableEq, Repr

/-- A page-request entry (R327). -/
structure Prq where
  index : Nat
  va : VA
  ctx : Nat
  part : Nat
  need : Need
  bad : Bool
  core : Nat
  tick : Nat
  waiters : Nat
deriving DecidableEq, Repr

/-- Page requests, fault records, shootdown and debug (R326-R341). -/
structure Xlate where
  prq : List Prq := []
  notify : List (Nat × Word) := []
  prqHead : Nat := 0
  prqLost : BitVec 16 := 0
  prqTail : Nat := 0
  frec : Ring := {}
  shootGo : Bool := false
  shootStatus : BitVec 2 := 0
  shootCtx : BitVec 12 := 0
  shootVa : DWord := 0
  shootLen : DWord := 0
  shootWait : List Nat := []                     -- requests that step 3 of R331 waits for
  shootEngines : List (Nat × Fin 4) := []        -- and stream engines: core and number
  dbgResult : BitVec 3 := 0
  dbgReason : BitVec 2 := 0
  dbgWave : BitVec 15 := 0
  dbgSel : DWord := 0
  dbg : RegArray := []                           -- debug entries, 16 words a context (R341)
deriving DecidableEq, Repr

/-! ## Power and trust (R128-R140) -/

structure Power where
  held : Bool := false                           -- cold reset held
  hot : Bool := false                            -- thermal-alert output
  target : BitVec 2 := 3
  cur : BitVec 2 := 3
  busy : Bool := false
  err : BitVec 4 := 0
  due : Nat := 0                     -- first tick at which the running transition may end
  since : Nat := 0                   -- tick at which the cores last entered PS0 or PS1 from PS2 or PS3 (R133)
  alarm : Bool := false
  exempt : BitVec 8 := 0
  avg : BitVec 16 := 0
  exceeded : Bool := false                       -- PWRCAP.over
  auto : Bool := false
  cap : BitVec 16 := 4000
  mxgate : Word := 0
  owing : List Nat := []             -- terminated contexts whose share of energy is still to be added (R136)
deriving DecidableEq, Repr

structure Trust where
  cmd : BitVec 8 := 0
  status : BitVec 8 := 0
  arg : BitVec 48 := 0
  flash : List Byte := []
  running : List Byte := []
  meas : Vector (BitVec 256) 8 := Vector.replicate _ 0
  rollback : Nat := 0
  booted : Bool := false
  cache : List (BitVec 256 × List Byte) := []    -- digest, native code (R140)
deriving DecidableEq, Repr

/-! ## The scheduler (R148-R157) -/

/-- Where a group's save stands (R233): the units of its waves by wave index, the scratchpad run and the accumulator run. -/
structure SaveUnits where
  waves : List (Nat × Nat) := []
  scratch : Nat × Nat := (0, 0)
  acc : Nat × Nat := (0, 0)
deriving DecidableEq, Repr

/-- An entry of the placement list: a new group, a saved group with its waves, or a wave that waits for rows (R170) (DEDUCED, log 81). -/
structure Placing where
  group : Group
  waves : List Wave := []
  held : List Held := []             -- replay entries of a saved group
  engines : List (Fin 4 × Engine) := []          -- its stream engines (R296)
  saved : Bool := false
  units : SaveUnits := {}
  rowsFor : Option Nat := none                   -- uid of the wave
  since : Nat := 0
  tasks : List Task := []
  next : Nat := 0                                -- of a grid: the next group to place, and how many there are
  count : Nat := 1
deriving DecidableEq, Repr

/-- Where a waiting wave's entry stands (R156). -/
inductive WaitPlace where
  | reserved | shared | overflow (index : Nat)
deriving DecidableEq, Repr

structure WaitEntry where
  wave : Nat
  ctx : Nat
  part : Nat
  name : BitVec 16
  thr : Word
  place : WaitPlace
  meets : Bool := false                          -- the condition holds: the wave leaves in this tick's scan
deriving DecidableEq, Repr

structure Sched where
  places : List Placing := []
  waits : List WaitEntry := []
  scans : List (Nat × BitVec 16 × Nat) := []     -- overflow scans due: context, event, tick
  privs : List (Nat × VA × Nat) := []            -- partition, descriptor, private slot in use (R189)
  evicting : List Nat := []                      -- groups under quiescence: gid
  unsynced : List Nat := []                      -- queues that a termination stopped, whose records are still to be written (R147)
  cleared : List (Nat × Nat) := []               -- overflow entries of terminated waves still to be cleared: context and index (R147)
deriving DecidableEq, Repr

/-- What the issue register holds of the unit being issued: the entry's Active mask, the word's PC, the next unit's PC, and how
the word fared. -/
structure Issue where
  active : Mask := 0
  pc : VA := 0
  next : VA := 0
  unit : VA := 0                                 -- PC of the unit's first word
  alone : Bool := false                          -- the wave has no other entry (R162)
  q : Nat := 0                                   -- tick Q of its sub-core's wave port (R186) before the unit
  poisoned : List (Fin 256 × Mask) := []         -- the wave's poisoned destinations as they stood at the issue (R175, R213)
  seq : Option Nat := none                       -- a held word that is performed: its place in the wave's program order (R212)
  since : Option (Nat × Nat) := none             -- of a held word: its issue tick and the G published then (R197)
  trapped : Option Nat := none                   -- a word of the unit trapped: its place in the order of R363
  refused : Bool := false                        -- its pipe did not accept the word, or it waits at issue
deriving DecidableEq, Repr

/-- Which agent moves next: a model's own input (log 11). -/
inductive Choice where
  | tick
  | issue (core : Nat) (sub : Fin 4)
  | happen (e : Instr)
deriving DecidableEq, Repr

/-- The control window's own registers (R95) that no other part holds. -/
structure Window where
  devwin : BitVec 10 := 0
  vfs : Vector (BitVec 8) 2 := Vector.replicate _ 0      -- virtual functions that a port's configuration space enables: bit v - 1 (R111)
  qdesc : BitVec 40 := 0
  act : RegArray := []
  ctxRoot : RegArray := []
  msi : List MsiVec := []
deriving DecidableEq, Repr

/-! ## The package -/

/-- An entry of Psihel's error log: a value that came later than its register's value, with no notice (R205) (DESIGN CHOICE, log 143). -/
structure LateMiss where
  tick : Nat
  part : Nat
  core : Nat
  pc : VA
deriving DecidableEq, Repr

/-- The whole machine. The wave at issue, its group, its core and its context stand in `w`, `g`, `c` and `x`; the others in lists. -/
structure State where
  w : Wave
  g : Group
  c : Core
  x : Ctx
  waves : List Wave
  groups : List Group
  cores : List Core
  ctxs : List Ctx
  latch : Regs                                   -- registers as they stood at the issue tick (R175)
  cur : Issue
  tick : Nat
  mem : Memory
  hostHolds : List Nat                           -- lines that a host cache may hold (R116)
  octs : Vector Octant 8
  reqs : List Req
  flights : List Flight
  epoch : Epoch
  seq : Sequencer
  repair : Repair
  hsem : Hsem
  window : Window
  fret : Fretboard
  parts : Vector Partition 8
  queues : List Queue
  jobs : List Job
  ios : List IoCtx
  xlate : Xlate
  power : Power
  trust : Trust
  sched : Sched
  errorLog : List LateMiss                       -- Psihel's error log, oldest first (R205)
  out : List Out                                 -- oldest first
  script : List Choice
  todo : List Instr
  serial : Nat
  free : Nat
deriving DecidableEq, Repr

/-! ## How a step can stop -/

/-- A fault of the model. Every fault the spec describes is taken by the machine (R332), so none is here but one. -/
inductive Fault where
  /-- Raised by no meaning of this model: kept for a state that no rule of the spec describes. Safe: nothing is claimed of it. -/
  | noRule
deriving DecidableEq, Repr

/-- A refusal of the model. -/
inductive Refusal where
  /-- Raised by an arm of exec for an instruction that has no meaning yet. Safe: nothing is claimed of it. -/
  | notModelled (mnemonic : String)
deriving DecidableEq, Repr

/-! ## Reset -/

/-- The octants after cold reset. -/
def Octant.reset (o : Oct) : Octant := { id := o }

/-- The firmware's measurement of the flash image (R137): MEAS0 is extended with its digest (DESIGN CHOICE, log 7). -/
def bootMeas : Vector (BitVec 256) 8 :=
  Vector.ofFn fun i =>
    if i.val = 0 then Config.shake256 ((List.range 32).map (fun _ => (0 : Byte)) ++ bytesOf (Config.shake256 Config.flashImage))
    else Config.stageMeasure i.val
where
  /-- The 32 bytes of a digest, low byte first. -/
  bytesOf (d : BitVec 256) : List Byte := (List.range 32).map fun n => d.extractLsb' (8 * n) 8

/-- The package right after cold reset is released and the boot of R137 has ended well: PS3, HSEM free, nothing resident (DESIGN CHOICE, log 4) (DESIGN
CHOICE, log 5) (DESIGN CHOICE, log 7). -/
def State.reset : State :=
  { w := {}, g := {}, c := {}, x := {}
    waves := [], groups := [], cores := [], ctxs := []
    latch := Regs.start
    cur := {}
    tick := 0
    mem := {}
    hostHolds := []
    octs := Vector.ofFn Octant.reset
    reqs := [], flights := [], epoch := {}, seq := {}
    repair := {}, hsem := {}, window := {}, fret := {}
    parts := Vector.replicate _ {}
    queues := [], jobs := [], ios := [], xlate := {}, power := {}
    trust := { flash := Config.flashImage, running := Config.flashImage, meas := bootMeas, rollback := Config.rollbackFuse,
               booted := true }
    sched := {}
    errorLog := [], out := [], script := [], todo := [], serial := 1, free := 0 }

end Machine
end Sys2Proof
end

