-- ==== Sys2Proof/Machine/Memory.lean ====
section
/-! DEFINITION. Byte stores in canonical form: memory, scratchpad and accumulator words; keys of physical locations; poison by sector. -/

namespace Sys2Proof
namespace Machine

/-- The byte at a key; what is not listed reads 0 (DESIGN CHOICE, log 2). -/
def cellsGet : List Host.Cell → Nat → Byte
  | [], _ => 0
  | (a, b) :: rest, k => if a = k then b else cellsGet rest k

/-- Write a byte: keys stay in rising order, and a byte 0 is not listed. -/
def cellsSet : List Host.Cell → Nat → Byte → List Host.Cell
  | [], k, v => if v = 0 then [] else [(k, v)]
  | (a, b) :: rest, k, v =>
    if k < a then (if v = 0 then (a, b) :: rest else (k, v) :: (a, b) :: rest)
    else if k = a then (if v = 0 then rest else (k, v) :: rest)
    else (a, b) :: cellsSet rest k v

/-- Keys rise strictly from `from_` on, and no listed byte is 0. -/
def cellsWf : Nat → List Host.Cell → Bool
  | _, [] => true
  | n, (a, b) :: rest => decide (n ≤ a) && b != 0 && cellsWf (a + 1) rest

/-- Rising order of a list of numbers, from `n` on. -/
def rising : Nat → List Nat → Bool
  | _, [] => true
  | n, a :: rest => decide (n ≤ a) && rising (a + 1) rest

/-- The canonical form of memory. -/
def Memory.wf (m : Memory) : Bool := cellsWf 0 m.cells && rising 0 m.bad

/-- One byte of memory (DESIGN CHOICE, log 3). -/
def Memory.byte (m : Memory) (k : Nat) : Byte := cellsGet m.cells k

/-- Write one byte. -/
def Memory.setByte (m : Memory) (k : Nat) (v : Byte) : Memory := { m with cells := cellsSet m.cells k v }

/-- Insert a number into a rising list. -/
def insertNat : List Nat → Nat → List Nat
  | [], k => [k]
  | a :: rest, k => if k < a then k :: a :: rest else if k = a then a :: rest else a :: insertNat rest k

/-- Mark a sector (key div 32) poisoned, or good (R83). -/
def Memory.setBad (m : Memory) (sector : Nat) (b : Bool) : Memory :=
  { m with bad := if b then insertNat m.bad sector else m.bad.filter (· != sector) }

/-- Is a sector poisoned? -/
def Memory.isBad (m : Memory) (sector : Nat) : Bool := m.bad.contains sector

/-- `n` bytes from a key. -/
def Memory.bytes (m : Memory) (k n : Nat) : List Byte := (List.range n).map fun i => m.byte (k + i)

/-- Write bytes from a key on. -/
def Memory.setBytes (m : Memory) (k : Nat) : List Byte → Memory
  | [] => m
  | b :: rest => (m.setByte k b).setBytes (k + 1) rest

/-- A little-endian number of bytes. -/
def natOfBytes : List Byte → Nat
  | [] => 0
  | b :: rest => b.toNat + 256 * natOfBytes rest

/-- The `n` low bytes of a number, little-endian. -/
def bytesOfNat (x : Nat) : Nat → List Byte
  | 0 => []
  | n + 1 => BitVec.ofNat 8 x :: bytesOfNat (x / 256) n

/-- A 64-bit word at a key. -/
def Memory.dword (m : Memory) (k : Nat) : DWord := BitVec.ofNat 64 (natOfBytes (m.bytes k 8))

/-- A 32-bit word at a key. -/
def Memory.word (m : Memory) (k : Nat) : Word := BitVec.ofNat 32 (natOfBytes (m.bytes k 4))

/-- Write a 64-bit word. -/
def Memory.setDword (m : Memory) (k : Nat) (v : DWord) : Memory := m.setBytes k (bytesOfNat v.toNat 8)

/-- Byte n of a line. -/
def lineByte (d : BitVec 1024) (n : Nat) : Byte := d.extractLsb' (8 * n) 8

/-- A line of memory as 1,024 bits, byte 0 lowest. -/
def Memory.line (m : Memory) (line : Nat) : BitVec 1024 := BitVec.ofNat 1024 (natOfBytes (m.bytes (line * 128) 128))

/-- The poisoned sectors of a line. -/
def Memory.lineBad (m : Memory) (line : Nat) : BitVec 4 :=
  (List.range 4).foldl (fun v n => if m.isBad (line * 4 + n) then v ||| (1#4 <<< n) else v) 0

/-- The bytes 0-127 of a line whose bit is set in a mask. -/
def maskBytes (mask : BitVec 128) : List Nat := (List.range 128).filter fun n => mask.getLsbD n

/-- Write the masked bytes of a line (DEDUCED, log 116). -/
def Memory.setLine (m : Memory) (line : Nat) (mask : BitVec 128) (d : BitVec 1024) : Memory :=
  (maskBytes mask).foldl (fun m n => m.setByte (line * 128 + n) (lineByte d n)) m

/-- Sectors that a byte mask covers in full (DEDUCED, log 116). -/
def fullSectors (mask : BitVec 128) : BitVec 4 :=
  (List.range 4).foldl (fun v n => if mask.extractLsb' (32 * n) 32 = BitVec.allOnes 32 then v ||| (1#4 <<< n) else v) 0

/-- Sectors that a byte mask touches. -/
def touchedSectors (mask : BitVec 128) : BitVec 4 :=
  (List.range 4).foldl (fun v n => if mask.extractLsb' (32 * n) 32 = 0 then v else v ||| (1#4 <<< n)) 0

/-- Set or clear the poison of the sectors of a line. -/
def Memory.setLineBad (m : Memory) (line : Nat) (which : BitVec 4) (b : Bool) : Memory :=
  (List.range 4).foldl (fun m n => if which.getLsbD n then m.setBad (line * 4 + n) b else m) m

/-- A store's effect on memory (R83): its bytes; a sector written in full loses its poison. -/
def Memory.store (m : Memory) (line : Nat) (mask : BitVec 128) (d : BitVec 1024) : Memory :=
  (m.setLine line mask d).setLineBad line (fullSectors mask) false

/-- Merge the masked bytes of `d` into `old`. -/
def mergeLine (old d : BitVec 1024) (mask : BitVec 128) : BitVec 1024 :=
  let wide := (maskBytes mask).foldl (fun (v : BitVec 1024) n => v ||| (0xFF#1024 <<< (8 * n))) 0
  (old &&& ~~~wide) ||| (d &&& wide)

/-- The mask of `n` bytes from byte `b` of a line. -/
def byteMask (b n : Nat) : BitVec 128 := ((1#128 <<< n) - 1) <<< b

/-- Bits of a line from byte `b`, `n` bytes, as a number. -/
def lineNat (d : BitVec 1024) (b n : Nat) : Nat := d.toNat / 2 ^ (8 * b) % 2 ^ (8 * n)

/-- A number placed at byte `b` of a line. -/
def lineAt (x b : Nat) : BitVec 1024 := BitVec.ofNat 1024 (2 ^ (8 * b) * x)

/-- The first key of a target's space (see Memory). -/
def spaceBase : Target → Nat
  | .device => 0
  | .host p => (1 + p.val) * 2 ^ 52
  | .peer c => (16 + c.toNat) * 2 ^ 52

/-- The key of a physical address of a target. -/
def keyOf (t : Target) (pa : Nat) : Nat := spaceBase t + pa

/-- Does device memory hold the address (R2)? (DEDUCED, log 8) -/
def installedAt (pa : Nat) : Bool := pa < Config.installed

/-- XOR of the w-bit fields of PA from bit lo up, fields that end above bit 51 left out (R60). -/
def foldBits (pa lo w : Nat) : Nat → Nat
  | 0 => 0
  | n + 1 =>
    let rest := foldBits pa lo w n
    if lo + n * w + w - 1 ≤ 51 then rest ^^^ (pa / 2 ^ (lo + n * w) % 2 ^ w) else rest

/-- Home(PA) (R60). -/
def homeOf (pa : Nat) : Oct := Fin.ofNat 8 (foldBits pa 16 3 12)

/-- L2Slice(PA) and L3Slice(PA) (R60). -/
def l2Slice (pa : Nat) : Nat := foldBits pa 7 4 12
def l3Slice (pa : Nat) : Nat := foldBits pa 7 5 12

/-- The set of a line in its L2 slice and in its L3 slice (R58), made unique in the octant with the slice number. -/
def l2Set (pa : Nat) : Nat := l2Slice pa * 4096 + pa / 2048 % 3072
def l3Set (pa : Nat) : Nat := l3Slice pa * 4096 + pa / 4096 % 4096

/-- XOR of single bits of PA. -/
def bitsXor (pa : Nat) (bits : List Nat) : Nat := bits.foldl (fun v n => v ^^^ (pa / 2 ^ n % 2)) 0

/-- Stack(PA), Channel(PA), Pseudo(PA) and the package's pseudo-channel number (R24, R60). -/
def stackOf (pa : Nat) : Nat := (homeOf pa).val * 2 + bitsXor pa [7, 14, 21, 28, 35, 42, 49]
def channelOf (pa : Nat) : Nat :=
  (pa / 2 ^ 8 % 32) ^^^ (pa / 2 ^ 20 % 32) ^^^ (pa / 2 ^ 32 % 32) ^^^ (pa / 2 ^ 44 % 32)
def pseudoOf (pa : Nat) : Nat := bitsXor pa [13, 25]
def pseudoChannel (pa : Nat) : Nat := (stackOf pa * 32 + channelOf pa) * 2 + pseudoOf pa

/-- The word at a word number of the accumulator memory; what is not listed reads 0 (log 2). -/
def wordsGet : List (Nat × Word) → Nat → Word
  | [], _ => 0
  | (a, b) :: rest, k => if a = k then b else wordsGet rest k

/-- Write a word: numbers stay in rising order, and a word 0 is not listed. -/
def wordsSet : List (Nat × Word) → Nat → Word → List (Nat × Word)
  | [], k, v => if v = 0 then [] else [(k, v)]
  | (a, b) :: rest, k, v =>
    if k < a then (if v = 0 then (a, b) :: rest else (k, v) :: (a, b) :: rest)
    else if k = a then (if v = 0 then rest else (k, v) :: rest)
    else (a, b) :: wordsSet rest k v

/-- A register of a sparse array (R94). -/
def regsGet : RegArray → Nat → DWord
  | [], _ => 0
  | (a, b) :: rest, k => if a = k then b else regsGet rest k

/-- Write a register of a sparse array. -/
def regsSet : RegArray → Nat → DWord → RegArray
  | [], k, v => if v = 0 then [] else [(k, v)]
  | (a, b) :: rest, k, v =>
    if k < a then (if v = 0 then (a, b) :: rest else (k, v) :: (a, b) :: rest)
    else if k = a then (if v = 0 then rest else (k, v) :: rest)
    else (a, b) :: regsSet rest k v

end Machine
end Sys2Proof
end

