-- ==== Sys2Proof/Machine/Uses.lean ====
section
/-! DEFINITION. The registers each word reads and writes: what REG_BOUND tests (R224), what holds a word (R160, R177, R212, R213,
R229, R329) and where an access writes. -/

namespace Sys2Proof
namespace Machine

/-- The operand fields a trap record names (R334). -/
inductive OpField where
  | none | d | a | b | t
deriving DecidableEq, Repr

/-- The code of a field (R334). -/
def fieldCode : OpField → Nat
  | .none => 0
  | .d => 1
  | .a => 2
  | .b => 3
  | .t => 4

/-- The registers of an operand beyond its first, by access size (R408). -/
def sizeRegs : Size → Nat
  | .b8 => 0
  | .b16 => 0
  | .b32 => 0
  | .b64 => 1
  | .b128 => 3

/-- The two registers of a scalar pair. -/
def lo (p : SPair) : SReg := Fin.ofNat 64 (2 * p.val)
def hi (p : SPair) : SReg := Fin.ofNat 64 (2 * p.val + 1)

/-- What a word reads and writes. A vector operand stands with the number of its registers beyond the first, and its field; `vn` is
an operand that is resolved and tested but whose value is not read. -/
structure Uses where
  vr : List (VOp × Nat × OpField) := []
  vw : List (VOp × Nat × OpField) := []
  vn : List (VOp × Nat × OpField) := []
  sr : List SReg := []
  sw : List SReg := []
  kr : List KReg := []
  kw : List KReg := []
  xr : List XNum := []
  xw : List XNum := []
  t : Option TOp := none

/-- The uses of every word; a happening has none. -/
def uses : Instr → Uses
  | .sAdd d a b => { sr := [a, b], sw := [d] }
  | .sSub d a b => { sr := [a, b], sw := [d] }
  | .sMul d a b => { sr := [a, b], sw := [d] }
  | .sMulh d a b => { sr := [a, b], sw := [d] }
  | .sAnd d a b => { sr := [a, b], sw := [d] }
  | .sOr d a b => { sr := [a, b], sw := [d] }
  | .sXor d a b => { sr := [a, b], sw := [d] }
  | .sShl d a b => { sr := [a, b], sw := [d] }
  | .sShr d a b => { sr := [a, b], sw := [d] }
  | .sSra d a b => { sr := [a, b], sw := [d] }
  | .sMin d a b => { sr := [a, b], sw := [d] }
  | .sMax d a b => { sr := [a, b], sw := [d] }
  | .sCmpEq d a b => { sr := [a, b], sw := [d] }
  | .sCmpNe d a b => { sr := [a, b], sw := [d] }
  | .sCmpLt d a b => { sr := [a, b], sw := [d] }
  | .sCmpLe d a b => { sr := [a, b], sw := [d] }
  | .sCmpLo d a b => { sr := [a, b], sw := [d] }
  | .sCmpLs d a b => { sr := [a, b], sw := [d] }
  | .sSel d a b => { sr := [a, b, d], sw := [d] }
  | .sBfx d a b => { sr := [a, b], sw := [d] }
  | .sPopc d a => { sr := [a], sw := [d] }
  | .sClz d a => { sr := [a], sw := [d] }
  | .sMov d a => { sr := [a], sw := [d] }
  | .sLi d _ => { sw := [d] }
  | .sAddi d a _ => { sr := [a], sw := [d] }
  | .sRdlane d a b => { vr := [(a, 0, .a)], sr := [b], sw := [d] }
  | .sWrlane d a b => { vw := [(d, 0, .d)], sr := [a, b] }
  | .br _ => {}
  | .bc k _ => { kr := [k] }
  | .bvAny k _ => { kr := [k] }
  | .bvAll k _ => { kr := [k] }
  | .jr a => { sr := [lo a, hi a] }
  | .call link _ => { sw := [Fin.ofNat 64 (2 * link.val), Fin.ofNat 64 (2 * link.val + 1)] }
  | .ret a => { sr := [lo a, hi a] }
  | .yieldTags a _ => { sr := [lo a, hi a] }
  | .yieldTl a b _ => { sr := [lo a, hi a, b] }
  | .yieldEv a b _ => { sr := [a, b] }
  | .yieldTick a _ => { sr := [lo a, hi a] }
  | .sleep a _ => { sr := [a] }
  | .spawn a b => { vr := [(a, 7, .a)], sr := [lo b, hi b] }
  | .launch q p => { sr := [q, lo p, hi p] }
  | .add _ d a b => { vr := [(a, 0, .a), (b, 0, .b)], vw := [(d, 0, .d)] }
  | .sub _ d a b => { vr := [(a, 0, .a), (b, 0, .b)], vw := [(d, 0, .d)] }
  | .mul _ d a b => { vr := [(a, 0, .a), (b, 0, .b)], vw := [(d, 0, .d)] }
  | .mulh _ d a b => { vr := [(a, 0, .a), (b, 0, .b)], vw := [(d, 0, .d)] }
  | .mad _ d a b => { vr := [(d, 0, .d), (a, 0, .a), (b, 0, .b)], vw := [(d, 0, .d)] }
  | .and d a b => { vr := [(a, 0, .a), (b, 0, .b)], vw := [(d, 0, .d)] }
  | .or d a b => { vr := [(a, 0, .a), (b, 0, .b)], vw := [(d, 0, .d)] }
  | .xor d a b => { vr := [(a, 0, .a), (b, 0, .b)], vw := [(d, 0, .d)] }
  | .shl _ d a b => { vr := [(a, 0, .a), (b, 0, .b)], vw := [(d, 0, .d)] }
  | .shr _ d a b => { vr := [(a, 0, .a), (b, 0, .b)], vw := [(d, 0, .d)] }
  | .sra _ d a b => { vr := [(a, 0, .a), (b, 0, .b)], vw := [(d, 0, .d)] }
  | .min _ d a b => { vr := [(a, 0, .a), (b, 0, .b)], vw := [(d, 0, .d)] }
  | .max _ d a b => { vr := [(a, 0, .a), (b, 0, .b)], vw := [(d, 0, .d)] }
  | .abs _ d a => { vr := [(a, 0, .a)], vw := [(d, 0, .d)] }
  | .cmp _ _ k a b => { vr := [(a, 0, .a), (b, 0, .b)], kw := [k] }
  | .sel k d a b => { vr := [(a, 0, .a), (b, 0, .b)], vw := [(d, 0, .d)], kr := [Fin.ofNat 8 k.val] }
  | .bfx _ d a b => { vr := [(a, 0, .a), (b, 0, .b)], vw := [(d, 0, .d)] }
  | .bfi d a b => { vr := [(d, 0, .d), (a, 0, .a), (b, 0, .b)], vw := [(d, 0, .d)] }
  | .popc d a => { vr := [(a, 0, .a)], vw := [(d, 0, .d)] }
  | .clz d a => { vr := [(a, 0, .a)], vw := [(d, 0, .d)] }
  | .shflIdx d a b => { vr := [(a, 0, .a), (b, 0, .b)], vw := [(d, 0, .d)] }
  | .shflUp d a b => { vr := [(a, 0, .a), (b, 0, .b)], vw := [(d, 0, .d)] }
  | .shflDown d a b => { vr := [(a, 0, .a), (b, 0, .b)], vw := [(d, 0, .d)] }
  | .shflXor d a b => { vr := [(a, 0, .a), (b, 0, .b)], vw := [(d, 0, .d)] }
  | .voteAll d k => { vw := [(d, 0, .d)], kr := [k] }
  | .voteAny d k => { vw := [(d, 0, .d)], kr := [k] }
  | .voteBallot d k => { vw := [(d, 0, .d)], kr := [k] }
  | .id d n => { vw := [(d, 0, .d)], sr := (if 64 ≤ n.toNat then [Fin.ofNat 64 (n.toNat - 64)] else []) }
  | .mov d a => { vr := [(a, 0, .a)], vw := [(d, 0, .d)] }
  | .fadd _ _ d a b => { vr := [(a, 0, .a), (b, 0, .b)], vw := [(d, 0, .d)] }
  | .fsub _ _ d a b => { vr := [(a, 0, .a), (b, 0, .b)], vw := [(d, 0, .d)] }
  | .fmul _ _ d a b => { vr := [(a, 0, .a), (b, 0, .b)], vw := [(d, 0, .d)] }
  | .ffma _ _ d a b => { vr := [(d, 0, .d), (a, 0, .a), (b, 0, .b)], vw := [(d, 0, .d)] }
  | .fmin _ d a b => { vr := [(a, 0, .a), (b, 0, .b)], vw := [(d, 0, .d)] }
  | .fmax _ d a b => { vr := [(a, 0, .a), (b, 0, .b)], vw := [(d, 0, .d)] }
  | .fcmp _ _ k a b => { vr := [(a, 0, .a), (b, 0, .b)], kw := [k] }
  | .fcls _ d a => { vr := [(a, 0, .a)], vw := [(d, 0, .d)] }
  | .frcp d a => { vr := [(a, 0, .a)], vw := [(d, 0, .d)] }
  | .frsq d a => { vr := [(a, 0, .a)], vw := [(d, 0, .d)] }
  | .fsqrt d a => { vr := [(a, 0, .a)], vw := [(d, 0, .d)] }
  | .fex2 d a => { vr := [(a, 0, .a)], vw := [(d, 0, .d)] }
  | .flg2 d a => { vr := [(a, 0, .a)], vw := [(d, 0, .d)] }
  | .fsin d a => { vr := [(a, 0, .a)], vw := [(d, 0, .d)] }
  | .fcos d a => { vr := [(a, 0, .a)], vw := [(d, 0, .d)] }
  | .fred _ d a => { vr := [(a, 0, .a)], vw := [(d, 0, .d)] }
  | .cvt _ _ _ d a => { vr := [(a, 0, .a)], vw := [(d, 0, .d)] }
  | .cvtn _ _ _ _ d a => { vr := [(a, 0, .a)], vw := [(d, 0, .d)] }
  | .cvtw _ _ _ d a => { vr := [(a, 0, .a)], vw := [(d, 1, .d)] }
  | .pack _ _ d a b => { vr := [(a, 0, .a), (b, 0, .b)], vw := [(d, 0, .d)] }
  | .unpack _ d a => { vr := [(a, 0, .a)], vw := [(d, 1, .d)] }
  | .kand d a b => { kr := [a, b], kw := [d] }
  | .kor d a b => { kr := [a, b], kw := [d] }
  | .kxor d a b => { kr := [a, b], kw := [d] }
  | .knot d a => { kr := [a], kw := [d] }
  | .xcfg x _ _ _ => { xw := [x] }
  | .xset x a => { vr := [(a, 0, .a)], xw := [x] }
  | .xget d x => { vw := [(d, 0, .d)], xr := [x] }
  | .xadd x a => { vr := [(a, 0, .a)], xr := [x], xw := [x] }
  | .shp d a => { vr := [], vn := [(a, 0, .a)], sw := [d] }
  | .shpw d => { sw := [d] }
  | .tnow d => { vw := [(d, 1, .d)] }
  | .tget d t => { vw := [(d, 1, .d)], t := some t }
  | .tdist d t => { vw := [(d, 0, .d)], t := some t }
  | .tready k t => { kw := [k], t := some t }
  | .twait t => { t := some t }
  | .tyield t => { t := some t }
  | .trank d t _ => { vw := [(d, 0, .d)], t := some (.dir t) }
  | .ld m d a b t => { vr := [(a, 0, .a)], vw := [(d, sizeRegs m.size, .d)], sr := [lo b, hi b], t := some t }
  | .st m d a b key => { vr := [(d, sizeRegs m.size, .d), (a, 0, .a)], sr := [lo b, hi b, key] }
  | .sld m d a b t => { vr := [(a, 0, .a)], vw := [(d, sizeRegs m.size, .d)], sr := [lo b, hi b], t := some t }
  | .sst m d a b key => { vr := [(d, sizeRegs m.size, .d), (a, 0, .a)], sr := [lo b, hi b, key] }
  | .lds m d a b t => { vr := [(a, 0, .a)], vw := [(d, sizeRegs m.size, .d)], sr := [lo b, hi b], t := some t }
  | .sts m d a b => { vr := [(d, sizeRegs m.size, .d), (a, 0, .a)], sr := [lo b, hi b] }
  | .ldp m d a b t => { vr := [(a, 0, .a)], vw := [(d, sizeRegs m.size, .d)], sr := [lo b, hi b], t := some t }
  | .stp m d a b => { vr := [(d, sizeRegs m.size, .d), (a, 0, .a)], sr := [lo b, hi b] }
  | .probe _ a b t => { vr := [(a, 0, .a)], sr := [lo b, hi b], t := some t }
  | .ldt m d a b key t => { vr := [(a, 0, .a)], vw := [(d, sizeRegs m.size, .d)], sr := [lo b, hi b, key], t := some t }
  | .atom _ m d a b t => { vr := [(d, sizeRegs m.size, .d), (a, 0, .a)], vw := [(d, sizeRegs m.size, .d)], sr := [lo b, hi b], t := some t }
  | .cas m d a b e t => { vr := [(d, sizeRegs m.size, .d), (a, 0, .a), (e, sizeRegs m.size, .b)], vw := [(d, sizeRegs m.size, .d)], sr := [lo b, hi b], t := some t }
  | .atsc _ m d a b t => { vr := [(d, sizeRegs m.size, .d), (a, 0, .a)], vw := [(d, sizeRegs m.size, .d)], sr := [lo b, hi b], t := some t }
  | .red _ m d a b => { vr := [(d, sizeRegs m.size, .d), (a, 0, .a)], sr := [lo b, hi b] }
  | .hred _ m d a b => { vr := [(d, sizeRegs m.size, .d), (a, 0, .a)], sr := [lo b, hi b] }
  | .fence _ _ => {}
  | .bar _ => {}
  | .barr _ => {}
  | .barw _ => {}
  | .evsig a => { sr := [a] }
  | .evwait a b => { sr := [a, b] }
  | .evq d a => { sr := [a], sw := [d] }
  | .sigdec p => { sr := [lo p, hi p] }
  | .cpa _ _ _ o a b s _ => { vr := [(o, 0, .d), (a, 0, .a)], sr := [lo b, hi b, lo s, hi s] }
  | .cpt a v _ => { sr := [a, lo v, hi v] }
  | .tagw _ => {}
  | .taga _ _ => {}
  | .tagf _ => {}
  | .tagc d => { sw := [lo d, hi d] }
  | .srec d a => { sr := [a], sw := [d] }
  | .sarm e _ => { sr := [e] }
  | .sstop e => { sr := [e] }
  | .iord d a b => { vr := [(a, 4, .a)], vw := [(d, 1, .d)], sr := [b] }
  | .iowr d a b => { vr := [(a, 4, .a)], vw := [(d, 1, .d)], sr := [b] }
  | .tlw i v => { sr := [i, lo v, hi v] }
  | .tlget d i => { sr := [i], sw := [lo d, hi d] }
  | .acca d _ => { sw := [d] }
  | .accf h => { sr := [h] }
  | .accz h => { sr := [h] }
  | .accr d h n t => { vw := [(d, 0, .d)], sr := [h, n], t := some t }
  | .accw a h n => { vr := [(a, 0, .d)], sr := [h, n] }
  | .mgix a => { sr := [a] }
  | .mma _ _ c d _ => { sr := [c, d] }
  | .mloop _ _ c n d _ => { sr := [c, n, d] }
  | .mloopSc _ _ _ c n d _ => { sr := [c, n, d] }
  | .scacc _ c p s _ => { sr := [c, p, s] }
  | .sysr d _ => { sw := [lo d, hi d] }
  | .sysw a _ => { sr := [lo a, hi a] }
  | .wspill a b => { sr := [lo a, hi a, b] }
  | .wfill a b => { sr := [lo a, hi a, b] }
  | .exit => {}
  | .trig => {}
  | .nop => {}
  | .fenceSc => {}
  | .trap => {}
  | .brk => {}
  | .rti => { sr := [60, 61] }
  | .replay => {}
  | .stampWrite _ | .stampRead _ | .wr _ _ | .wrel _ _ | .rd _ _ | .racq _ _ | .rply _ _ | .aply _ _ | .bcn _ _ | .refuse _ _
  | .retryResend _ _ | .mreq _ _ | .mrply _ _ | .beaconTimeout _ _ | .retryBufferTimeout _ | .stop _ | .stopped _ | .drained _
  | .l2ProbeAccept _ _ | .l3ReadAccept _ _ | .hbmReadAccept _ | .hbmDataReturn _ _ | .homeAluAccept _ | .translationComplete _ _
  | .refinement _ _ | .valueArrival _ _ | .lateNotice _ _ | .promiseMatures _ | .kernel _ | .taskpool _ | .signal _ | .event _ | .wait _
  | .dependenceSignalPoll _ | .packetCompletion _ | .backInvalidateResponse _ | .ioContextBind _ | .ioContextUnbind _ | .cqPoll _
  | .ioRequestTimeout _ _ | .ioSubmission _ | .suspensionComplete _ | .matrixGate _ | .groupPlacement _ | .quiescenceComplete _
  | .binnerTimeout _ | .barTimeout _ _ | .eventOverflowScan _ _ | .eventAddAtHome _ | .triggerCount _ | .waveSlotFree _ | .sleepExpiry _
  | .yieldTickExpiry _ | .fixedLatencyResult _ | .l1Fill _ | .instructionFetch _ _ | .replayIssue _ _ | .bowWakeEnd _ | .bowFetchEnd _
  | .bowStepEnd _ | .bowDrainEnd _ | .bowStopEnd _ | .accumulatorAccess _ | .copyComplete _ _ | .cpaEvictionTimeout _ _
  | .streamHeaderPoll _ _ | .streamPublish _ _ | .streamAck _ _ | .cptComplete _ _ | .fenceScComplete _ | .homeAcknowledgement _
  | .prqRetry _ | .prqFail _ | .storeAccept _ | .linkUnrecoverableFlit _ | .linkRetry _ _ _ | .spareRow _ | .rowRemap _ | .spareGranule _
  | .memrepairReservedKind _ | .faqTail _ | .bplAdd _ | .fretCommit _ _ | .hsemAcquire _ _ | .hsemRelease _ | .functionLevelReset _
  | .linkDown _ | .queueEnable _ | .queueResume _ | .queueDisable _ | .doorbell _ _ | .msixUnmask _ _ _ | .peerRequest _ | .hostWrite _ _ _
  | .hostRead _ _ _ | .ionotify _ | .nvmeCompletion _ _ _ | .suspend _ _ | .partitionResume _ _ | .pstatePs0 _ | .pstatePs1 _ | .pstatePs2 _
  | .pstatePs3 _ | .mxgate _ _ | .pwralarm _ _ | .powerWindowEnd _ | .energyAccount _ | .firmwareInstall _ _ | .attest _ _
  | .removeOctant _ _ | .raiseRollback _ | .fwmboxNoCommand _ _ | .trimiLoad _ | .prqRespNoEffect _ | .prqTail _ | .frecTail _
  | .shootdown _ | .debugHalt _ | .debugResume _ | .debugStep _ | .dbgDataWrite _ | .registerWrite _ _ _ _ _ | .coldReset
  | .coldResetRelease | .thermalAlert | .criticalTemperatureStop | .beaconSend | .resume | .repairComplete | .fretMapCheck | .fretInstall
  | .boundTransitionStart | .boundTransitionEnd | .hsemLapse | .powerTransition | .ticketGrant | .shootdownComplete | .dbgDataRead
  | .thermalAlertDeassert => {}

/-- Is it a memory instruction, one that an epoch change keeps from issuing: a word of pipe M, or one that reaches global memory (R54) (DEDUCED, log 137)? -/
def memoryWord (i : Instr) : Bool :=
  match i with
  | .ld _ _ _ _ _ => true
  | .sld _ _ _ _ _ => true
  | .ldp _ _ _ _ _ => true
  | .ldt _ _ _ _ _ _ => true
  | .lds _ _ _ _ _ => true
  | .probe _ _ _ _ => true
  | .st _ _ _ _ _ => true
  | .sst _ _ _ _ _ => true
  | .stp _ _ _ _ => true
  | .sts _ _ _ _ => true
  | .atom _ _ _ _ _ _ => true
  | .cas _ _ _ _ _ _ => true
  | .atsc _ _ _ _ _ _ => true
  | .red _ _ _ _ _ => true
  | .hred _ _ _ _ _ => true
  | .fence _ _ => true
  | .fenceSc => true
  | .evsig _ => true
  | .evwait _ _ => true
  | .evq _ _ => true
  | .sigdec _ => true
  | .cpa _ _ _ _ _ _ _ _ => true
  | .cpt _ _ _ => true
  | .sarm _ _ => true
  | .iord _ _ _ => true
  | .iowr _ _ _ => true
  | .wspill _ _ => true
  | .wfill _ _ => true
  | .launch _ _ => true
  | _ => false

end Machine
end Sys2Proof
end

