-- ==== Sys2Proof/Machine/Operands.lean ====
section
/-! DEFINITION. Operand forms: reading registers of every shape, resolving direct and indirect operands per lane and testing them
(R216-R227), auto-steps (R226), and writing registers with the shape and younger-write rules (R218-R221, R231). -/

namespace Sys2Proof
namespace Machine

/-! ## Reading -/

/-- The value a lane reads, whatever the shape (R218). -/
def VReg.lane (r : VReg) (L : Lane) : Word :=
  match r with
  | .u v => v
  | .a b st => b + BitVec.ofNat 32 L.val * st
  | .g ls => ls[L]
  | .coming ls => ls[L]

/-- All 32 lanes of a register. -/
def VReg.all (r : VReg) : Lanes Word := Vector.ofFn fun L => r.lane L

/-- Is the shape G (R218)? -/
def VReg.isG : VReg → Bool
  | .g _ => true
  | .u _ => false
  | .a _ _ => false
  | .coming _ => false

/-- A register with `f` in the lanes of a mask, shape G (DEDUCED, log 17). -/
def VReg.merge (r : VReg) (m : Mask) (f : Lane → Word) : VReg :=
  .g (Vector.ofFn fun L => if m.getLsbD L.val then f L else r.lane L)

/-- A scalar register; s0 reads 0 (R176). -/
def Regs.sget (r : Regs) (n : SReg) : Word := if n = 0 then 0 else r.s[n]

/-- A scalar pair as 64 bits. -/
def Regs.pair (r : Regs) (p : SPair) : DWord := r.sget (hi p) ++ r.sget (lo p)

/-- A mask register; k0 reads all ones (R216). -/
def Regs.kget (r : Regs) (n : KReg) : Mask := if n = 0 then BitVec.allOnes 32 else r.k[n]

/-- A vector register by number. -/
def Regs.vget (r : Regs) (n : Fin 256) : VReg := r.v[n]

/-! ## Resolution (R223-R227) -/

/-- Which way an operand steps its index register. -/
def VOp.step : VOp → Option (XNum × Bool)
  | .dir _ => none
  | .idx _ => none
  | .inc x => some (x, true)
  | .dec x => some (x, false)

/-- An index value after one step up or down (R223). -/
def XReg.stepped (x : XReg) (up : Bool) (v : BitVec 8) : BitVec 8 :=
  if up then v + x.step.signExtend 8 else v - x.step.signExtend 8

/-- The index value with which an operand resolves in a lane: after a pre-decrement (R223). -/
def xvalue (r : Regs) (o : VOp) (L : Lane) : Nat :=
  match o with
  | .dir _ => 0
  | .idx x => (r.x[x].val[L]).toNat
  | .inc x => (r.x[x].val[L]).toNat
  | .dec x => (r.x[x].stepped false r.x[x].val[L]).toNat

/-- The register an operand resolves to in a lane, as a number that may lie beyond the file (R224). -/
def resolveNat (r : Regs) (o : VOp) (L : Lane) : Nat :=
  match o with
  | .dir n => n.val
  | .idx x => (r.x[x].base).toNat + xvalue r o L
  | .inc x => (r.x[x].base).toNat + xvalue r o L
  | .dec x => (r.x[x].base).toNat + xvalue r o L

/-- The register an operand resolves to in a lane. -/
def resolve (r : Regs) (o : VOp) (L : Lane) : Fin 256 := Fin.ofNat 256 (resolveNat r o L)

/-- Does an operand of k + 1 registers fail R224 in a lane, for a wave of `nregs` registers? -/
def fails (r : Regs) (nregs : Nat) (o : VOp) (k : Nat) (L : Lane) : Bool :=
  match o with
  | .dir n => decide (nregs ≤ n.val + k)
  | .idx x => beyond x
  | .inc x => beyond x
  | .dec x => beyond x
where
  /-- The test of an indirect operand. -/
  beyond (x : XNum) : Bool :=
    let v := xvalue r o L + k
    let n := (r.x[x].base).toNat + v
    decide ((r.x[x].bound).toNat ≤ v) || decide (255 < n) || decide (nregs ≤ n)

/-- The lanes of a mask in which an operand fails R224. -/
def failLanes (r : Regs) (nregs : Nat) (m : Mask) (o : VOp) (k : Nat) : Mask := m &&& maskOf fun L => fails r nregs o k L

/-- The time register an operand resolves to in a lane (R227). -/
def resolveT (r : Regs) (o : TOp) (L : Lane) : Nat :=
  match o with
  | .dir n => n.val
  | .idx x => (r.x[x].base).toNat + (r.x[x].val[L]).toNat

/-- The same as a register number. -/
def timeReg (r : Regs) (o : TOp) (L : Lane) : Fin 16 := Fin.ofNat 16 (resolveT r o L)

/-- Does a time operand fail R227 in a lane? -/
def failsT (r : Regs) (o : TOp) (L : Lane) : Bool :=
  match o with
  | .dir _ => false
  | .idx x => decide ((r.x[x].bound).toNat ≤ (r.x[x].val[L]).toNat) || decide (15 < resolveT r o L)

/-- The value of register `i` of an operand in a lane. -/
def readAt (r : Regs) (o : VOp) (i : Nat) (L : Lane) : Word := (r.v[Fin.ofNat 256 (resolveNat r o L + i)]).lane L

/-- The value of a one-register operand in a lane. -/
def readV (r : Regs) (o : VOp) (L : Lane) : Word := readAt r o 0 L

/-- The registers an operand resolves to in the lanes of a mask, without repeats. -/
def targets (r : Regs) (m : Mask) (o : VOp) : List (Fin 256) := ((lanesOf m).map fun L => resolve r o L).dedup

/-- The one register an operand resolves to in every lane of a mask. -/
def single (r : Regs) (m : Mask) (o : VOp) : Option (Fin 256) :=
  match targets r m o with
  | [n] => some n
  | _ => none

/-- Do the active lanes resolve an operand to different numbers (R228)? -/
def divergent (r : Regs) (m : Mask) (o : VOp) : Bool := decide (1 < (targets r m o).length)

/-! ## Writing -/

/-- A younger write to register n in the lanes of a mask: older accesses no longer write there (R231). -/
def killLanes (a : Access) (n : Fin 256) (m : Mask) : Access :=
  { a with alive := Vector.ofFn fun (i : Fin 5) =>
      if i.val < a.regs then a.alive[i] &&& ~~~(m &&& maskOf fun L => decide ((a.dst[L]).val + i.val = n.val)) else a.alive[i] }

/-- The wave's accesses and poisoned destinations after a younger write (R213, R231) (DEDUCED, log 13). -/
def Wave.kill (w : Wave) (n : Fin 256) (m : Mask) : Wave :=
  { w with accs := w.accs.map fun a => killLanes a n m
           poisoned := w.poisoned.filterMap fun p =>
             if p.1 = n then (if p.2 &&& ~~~m = 0 then none else some (n, p.2 &&& ~~~m)) else some p }

/-- Put a register. -/
def Wave.setV (w : Wave) (n : Fin 256) (r : VReg) : Wave := { w with regs := { w.regs with v := w.regs.v.set n r } }

/-- Write the lanes of a mask of one register; the shape becomes G (R220). -/
def Wave.writeLanes (w : Wave) (n : Fin 256) (m : Mask) (f : Lane → Word) : Wave :=
  (w.setV n ((w.regs.v[n]).merge m f)).kill n m

/-- Write a whole register with a given shape. -/
def Wave.writeWhole (w : Wave) (n : Fin 256) (r : VReg) : Wave := (w.setV n r).kill n (BitVec.allOnes 32)

/-- The shape of a result that is written in all 32 lanes of one register: U or A as given, or G (R220). -/
inductive Shape where
  | u (v : Word)
  | a (base stride : Word)
  | g
  | pending                          -- U, of a source whose value an `sld` still brings: each lane as it reads (R211) (DEDUCED, log 146)
deriving DecidableEq, Repr

/-- Write register `i` of an operand in the lanes of a mask: `f` gives the values, `sh` the shape of a full write (R220). -/
def Wave.write (w : Wave) (r : Regs) (m : Mask) (o : VOp) (i : Nat) (f : Lane → Word) (sh : Shape) : Wave :=
  let ts := targets r m o
  let at_ (n : Fin 256) : Fin 256 := Fin.ofNat 256 (n.val + i)
  if m = BitVec.allOnes 32 ∧ ts.length = 1 then
    match ts, sh with
    | n :: _, .u v => w.writeWhole (at_ n) (.u v)
    | n :: _, .a b st => w.writeWhole (at_ n) (.a b st)
    | n :: _, .pending => w.writeWhole (at_ n) (.coming (Vector.ofFn f))
    | n :: _, .g => w.writeLanes (at_ n) m f
    | [], _ => w
  else ts.foldl (fun w n => w.writeLanes (at_ n) (m &&& maskOf fun L => resolve r o L = n) f) w

/-- Write a scalar register; a write to s0 is discarded (R176). -/
def Wave.writeS (w : Wave) (n : SReg) (v : Word) : Wave :=
  if n = 0 then w else { w with regs := { w.regs with s := w.regs.s.set n v } }

/-- Write a scalar pair. -/
def Wave.writePair (w : Wave) (p : SPair) (v : DWord) : Wave :=
  (w.writeS (lo p) (v.extractLsb' 0 32)).writeS (hi p) (v.extractLsb' 32 32)

/-- Write a mask register; a write to k0 is discarded (R216). -/
def Wave.writeK (w : Wave) (n : KReg) (v : Mask) : Wave :=
  if n = 0 then w else { w with regs := { w.regs with k := w.regs.k.set n v } }

/-- Put an index register. -/
def Wave.setX (w : Wave) (n : XNum) (x : XReg) : Wave := { w with regs := { w.regs with x := w.regs.x.set n x } }

/-- The value of an index register set in the lanes of a mask. -/
def XReg.setVal (x : XReg) (m : Mask) (f : Lane → BitVec 8) : XReg :=
  { x with val := Vector.ofFn fun L => if m.getLsbD L.val then f L else x.val[L] }

/-- Write a time register in the lanes of a mask, and its arrival state (R194, R195). -/
def Wave.writeT (w : Wave) (n : Fin 16) (m : Mask) (f : Lane → DWord) : Wave :=
  { w with regs := { w.regs with
      t := w.regs.t.set n (Vector.ofFn fun L => if m.getLsbD L.val then f L else w.regs.t[n][L]) } }

def Wave.setArr (w : Wave) (n : Fin 16) (m : Mask) (b : Bool) : Wave :=
  { w with regs := { w.regs with arr := w.regs.arr.set n (if b then w.regs.arr[n] ||| m else w.regs.arr[n] &&& ~~~m) } }

/-- The index registers that the operands of a word step, each once (R226). -/
def steps (os : List VOp) : List (XNum × Bool) := (os.filterMap VOp.step).dedup

/-- Step index registers in the lanes of a mask, from the values at issue (R223, R226). -/
def Wave.stepAll (w : Wave) (r : Regs) (m : Mask) (xs : List (XNum × Bool)) : Wave :=
  xs.foldl (fun w p => w.setX p.1 ((w.regs.x[p.1]).setVal m fun L => (r.x[p.1]).stepped p.2 (r.x[p.1]).val[L])) w

/-- The number of the wave's registers in shape G (R221). -/
def gCount (w : Wave) : Nat := (w.regs.v.toList.take w.nregs).countP fun v => v.isG

/-! ## The window (R177, R178) -/

/-- Latency classes (R177). -/
inductive Latency where
  | scalar | vecInt | vecFloat | cross | trans | system
deriving DecidableEq, Repr

/-- Core cycles of a class. -/
def Latency.cycles : Latency → Nat
  | .scalar => 2
  | .vecInt => 4
  | .vecFloat => 6
  | .cross => 8
  | .trans => 12
  | .system => 12

end Machine
end Sys2Proof
end

