-- ==== Sys2Proof/Machine/Ops.lean ====
section
/-! DEFINITION. The operations every meaning shares: reaching waves, groups, cores and contexts; the frontier (R161); interrupts and fault
records (R110, R338); terminating a fault domain (R147); taking a trap and returning from it (R333-R337); and issuing a word under the
fault order of R363. -/

namespace Sys2Proof
namespace Machine

/-- The outcome of a step of this machine. -/
abbrev Out1 := Host.Outcome State Fault Refusal

/-! ## Reaching the parts of the state -/

/-- Change the wave at issue. -/
def State.modW (s : State) (f : Wave → Wave) : State := { s with w := f s.w }

/-- Change the group at issue. -/
def State.modG (s : State) (f : Group → Group) : State := { s with g := f s.g }

/-- Change the core at issue. -/
def State.modC (s : State) (f : Core → Core) : State := { s with c := f s.c }

/-- A wave by its uid: the one at issue, or another live one. -/
def State.wave? (s : State) (uid : Nat) : Option Wave :=
  if s.w.live ∧ s.w.uid = uid then some s.w else s.waves.find? fun w => w.live && w.uid == uid

/-- Change a wave by its uid. -/
def State.modWave (s : State) (uid : Nat) (f : Wave → Wave) : State :=
  if s.w.live ∧ s.w.uid = uid then { s with w := f s.w }
  else { s with waves := s.waves.map fun w => if w.uid = uid then f w else w }

/-- All live waves. -/
def State.allWaves (s : State) : List Wave := (s.w :: s.waves).filter (·.live)

/-- The resident wave in a global wave slot (R25). -/
def State.atSlot (s : State) (slot : Nat) : Option Wave := s.allWaves.find? fun w => w.slot == slot

/-- All groups that are resident. -/
def State.allGroups (s : State) : List Group := (s.g :: s.groups).filter fun g => g.gid != 0

/-- A resident group. -/
def State.group? (s : State) (gid : Nat) : Option Group := s.allGroups.find? fun g => g.gid == gid

/-- Change a group. -/
def State.modGroup (s : State) (gid : Nat) (f : Group → Group) : State :=
  if s.g.gid = gid then { s with g := f s.g }
  else { s with groups := s.groups.map fun g => if g.gid = gid then f g else g }

/-- A core; one that has no entry has never been used. -/
def State.core (s : State) (id : Nat) : Core :=
  if s.c.id = id then s.c else (s.cores.find? fun c => c.id == id).getD { id := id }

/-- Change a core. -/
def State.modCore (s : State) (id : Nat) (f : Core → Core) : State :=
  if s.c.id = id then { s with c := f s.c }
  else if s.cores.any fun c => c.id == id then { s with cores := s.cores.map fun c => if c.id = id then f c else c }
  else { s with cores := s.cores ++ [f { id := id }] }

/-- Every core that has an entry. -/
def State.allCores (s : State) : List Core := s.c :: s.cores

/-- A context as its root RCB was last read. -/
def State.ctx? (s : State) (id : Nat) : Option Ctx :=
  if s.x.id = id then some s.x else s.ctxs.find? fun c => c.id == id

/-- Change a context. -/
def State.modCtx (s : State) (id : Nat) (f : Ctx → Ctx) : State :=
  if s.x.id = id then { s with x := f s.x }
  else { s with ctxs := s.ctxs.map fun c => if c.id = id then f c else c }

/-- The core of a wave slot, its sub-core and its octant (R25). -/
def coreOfSlot (slot : Nat) : Nat := slot / 64
def subOfSlot (slot : Nat) : Fin 4 := Fin.ofNat 4 (slot / 16)
def octOfCore (core : Nat) : Oct := Fin.ofNat 8 (core / 40)

/-- Put another wave at the issue stage, with its group, core and context; the old ones go back to the lists. -/
def State.focus (s : State) (uid : Nat) : State :=
  if s.w.live ∧ s.w.uid = uid then s
  else
    match s.waves.find? fun w => w.live && w.uid == uid with
    | none => s
    | some w =>
      let s := { s with waves := (if s.w.live then [s.w] else []) ++ s.waves.filter fun v => v.uid != uid, w := w }
      let s :=
        if s.g.gid = w.gid then s
        else match s.groups.find? fun g => g.gid == w.gid with
          | none => s
          | some g => { s with groups := (if s.g.gid = 0 then [] else [s.g]) ++ s.groups.filter fun h => h.gid != w.gid, g := g }
      let core := coreOfSlot w.slot
      let s :=
        if s.c.id = core then s
        else { s with c := s.core core, cores := s.c :: s.cores.filter fun c => c.id != core }
      if s.x.id = w.ctx then s
      else match s.ctxs.find? fun c => c.id == w.ctx with
        | none => s
        | some x => { s with ctxs := s.x :: s.ctxs.filter fun c => c.id != w.ctx, x := x }

/-- A fresh name for an access, a request, a group. -/
def State.fresh (s : State) : Nat × State := (s.serial, { s with serial := s.serial + 1 })

/-- Queue a happening that the package brings about by itself. -/
def State.due (s : State) (e : Instr) : State := { s with todo := s.todo ++ [e] }

/-- Ticks of one core cycle: 2 in PS1 (R131, R132). -/
def State.cycle (s : State) : Nat := if s.power.cur = 1 then 2 else 1

/-! ## Interrupts and fault records -/

/-- The MSI-X vector of a function: its table entry (DESIGN CHOICE, log 6). -/
def State.msiVec (s : State) (port : Port) (fn vec : Nat) : MsiVec :=
  (s.window.msi.find? fun m => m.port == port && m.fn == fn && m.vec == vec).getD { port := port, fn := fn, vec := vec }

/-- Put a table entry. -/
def State.setMsi (s : State) (m : MsiVec) : State :=
  let same (n : MsiVec) : Bool := n.port == m.port && n.fn == m.fn && n.vec == m.vec
  let l := s.window.msi
  { s with window := { s.window with msi := if l.any same then l.map fun n => if same n then m else n else l ++ [m] } }

/-- Raise a vector: a message, or its pending bit while it is masked (R110). -/
def State.raiseMsi (s : State) (port : Port) (fn vec : Nat) : State :=
  let m := s.msiVec port fn vec
  if m.masked then s.setMsi { m with pending := true } else { s with out := s.out ++ [.msix port fn vec] }

/-- Raise a device event on the physical function of both ports (R111). -/
def State.raiseBoth (s : State) (vec : Nat) : State := (s.raiseMsi 0 0 vec).raiseMsi 1 0 vec

/-- Is a ring full, for entries counted modulo `m` (R87)? -/
def Ring.used (r : Ring) (m : Nat) : Nat := (r.head + m - r.tail) % m

/-- Write an entry at head, or count it as lost; says whether the ring was empty. -/
def Ring.push (r : Ring) (v : BitVec 512) : Ring × Bool :=
  if r.used 512 = 256 then ({ r with lost := if r.lost = BitVec.allOnes 16 then r.lost else r.lost + 1 }, false)
  else
    let i := r.head % 256
    ({ r with slots := (r.slots.filter fun p => p.1 != i) ++ [(i, v)], head := (r.head + 1) % 512 }, r.used 512 = 0)

/-- A field of a record: the value placed at a bit. -/
def fieldAt (v bit : Nat) : Nat := 2 ^ bit * v

/-- The causes of R332, with their codes. -/
inductive Cause where
  | illegalInstr | malformedPacket | chainConflict | regBound | privLimit | wideBudget | overflow | poison | brk | trap
  | barTimeout | accLeak | handlerFetch | dataLoss | causalLoss | eventOverflow
deriving DecidableEq, Repr

def causeCode : Cause → Nat
  | .illegalInstr => 1
  | .malformedPacket => 2
  | .chainConflict => 3
  | .regBound => 4
  | .privLimit => 5
  | .wideBudget => 6
  | .overflow => 7
  | .poison => 8
  | .brk => 9
  | .trap => 10
  | .barTimeout => 11
  | .accLeak => 12
  | .handlerFetch => 13
  | .dataLoss => 14
  | .causalLoss => 15
  | .eventOverflow => 16

/-- What a fault record says (R338). -/
structure FaultRec where
  cause : Nat
  ctx : Nat
  part : Nat
  pc : Nat := 0
  addr : Nat := 0
  rcb : Nat := 0
  slot : Option Nat := none
  octant : Oct := 0
  domain : Nat := 2
  nested : Bool := false

/-- The 512 bits of a fault record. -/
def FaultRec.bits (f : FaultRec) (tick : Nat) : BitVec 512 :=
  let core := match f.slot with
    | some n => coreOfSlot n
    | none => 0x1FF
  let wave := match f.slot with
    | some n => n % 64
    | none => 0
  BitVec.ofNat 512 (fieldAt tick 448 + fieldAt f.pc 384 + fieldAt f.addr 320 + fieldAt (f.rcb / 128) 270 + fieldAt f.ctx 258
    + fieldAt f.part 255 + fieldAt core 246 + fieldAt wave 240 + fieldAt f.octant.val 237 + fieldAt f.domain 230
    + fieldAt f.nested.toNat 229 + fieldAt f.cause 221 + 1)

/-- Write a fault record; into an empty ring it raises vector 2,047 (R338). -/
def State.record (s : State) (f : FaultRec) : State :=
  let r := s.xlate.frec.push (f.bits s.tick)
  let s := { s with xlate := { s.xlate with frec := r.1 } }
  if r.2 then s.raiseBoth 2047 else s

/-! ## Terminating a fault domain (R147) -/

/-- The extent of a fault domain. -/
inductive Domain where
  | region (rcb : Nat)
  | subtree (rcb : Nat)
  | context
deriving DecidableEq, Repr

/-- The domain field of a fault record. -/
def Domain.code : Domain → Nat
  | .region _ => 0
  | .subtree _ => 1
  | .context => 2

/-- The domain that the policy in force gives. -/
def Domain.ofPolicy (policy rcb : Nat) : Domain :=
  match policy with
  | 0 => .region rcb
  | 1 => .subtree rcb
  | _ => .context

/-- Does work of a region lie in the domain? `chain` is the region's RCB and its ancestors. -/
def Domain.has (d : Domain) (rcb : Nat) (chain : List Nat) : Bool :=
  match d with
  | .region r => r == rcb
  | .subtree r => chain.contains r
  | .context => true

/-- Does the Bow work on the head entry? -/
def BowState.busy : BowState → Bool
  | .idle => false
  | .wake => false
  | .fetch => true
  | .step => true
  | .drain => true
  | .stop => true

/-- What the termination of a group leaves of the matrix queue: an entry that the Bow works on stays until its step, its drain or its stop has
ended (R275). -/
def Core.keptLoops (c : Core) (gids : List Nat) : List MxEntry :=
  match c.mq with
  | [] => []
  | e :: rest => (if gids.contains e.gid && !c.bow.state.busy then [] else [e]) ++ rest.filter fun e => !gids.contains e.gid

/-- The Bow after the termination of groups: a running step completes, and then the entry is stopped; one whose fetch runs is stopped at once
(R275, R281). -/
def Core.keptBow (c : Core) (gids : List Nat) (tick cycle : Nat) : Bow :=
  match c.mq.head? with
  | some e =>
    if gids.contains e.gid then
      match c.bow.state with
      | .step => { c.bow with stopFor := some e.gid }
      | .fetch => { c.bow with state := .stop, leave := tick + 2 * cycle, stopFor := some e.gid }
      | _ => c.bow
    else c.bow
  | none => c.bow

/-- Remove the groups whose gid is listed from a core: their tags, engines, queue entries, replay entries and banks. -/
def Core.dropGroups (c : Core) (gids uids : List Nat) (tick cycle : Nat) : Core :=
  { c with
    held := c.held.filter fun h => !uids.contains h.wave
    accWaits := c.accWaits.filter fun a => !gids.contains a.gid
    mq := c.keptLoops gids
    bow := c.keptBow gids tick cycle
    gather := c.gather.filter fun e => !gids.contains e.gid
    l1 := c.l1.filter fun l => !(l.priv && uids.contains l.owner)
    engines := Vector.ofFn fun i => if gids.contains (c.engines[i]).gid then {} else c.engines[i] }

/-- Does a job, a queue or a group of context `ctx` lie in the domain? -/
def Domain.hits (d : Domain) (ctx c rcb : Nat) (chain : List Nat) : Bool := c == ctx && d.has rcb chain

/-- The gids of the resident groups of a context that lie in a domain. -/
def State.gidsIn (s : State) (ctx : Nat) (d : Domain) : List Nat :=
  (s.allGroups.filter fun g => d.hits ctx g.ctx g.rcb.toNat g.chain).map (·.gid)

/-- Drop groups, with their waves, from the cores and the lists. -/
def State.dropGroups (s : State) (gids : List Nat) : State :=
  let uids := (s.allWaves.filter fun w => gids.contains w.gid).map (·.uid)
  let s := { s with waves := s.waves.filter fun w => !gids.contains w.gid, w := if gids.contains s.w.gid then {} else s.w }
  let s := { s with groups := s.groups.filter fun g => !gids.contains g.gid, g := if gids.contains s.g.gid then {} else s.g }
  let s := { s with cores := s.cores.map fun (c : Core) => c.dropGroups gids uids s.tick s.cycle, c := s.c.dropGroups gids uids s.tick s.cycle }
  let spilt (e : WaitEntry) : Option (Nat × Nat) := match e.place with
    | .overflow i => if uids.contains e.wave then some (e.ctx, i) else none
    | .reserved => none
    | .shared => none
  let s := { s with sched := { s.sched with
    cleared := s.sched.cleared ++ s.sched.waits.filterMap spilt
    waits := s.sched.waits.filter fun e => !uids.contains e.wave
    evicting := s.sched.evicting.filter fun g => !gids.contains g } }
  { s with seq := { s.seq with tickets := s.seq.tickets.map fun (t : Ticket) => if uids.contains t.wave then { t with done := true } else t } }

/-- Terminate a domain of a context (R147): its waves stop; what they have stored goes on; its groups, saved groups and tasks are
dropped; its packets do not complete, and give up their private slots (R189); its queues go to state 2, and their records follow in this tick. -/
def State.terminate (s : State) (ctx : Nat) (d : Domain) : State :=
  let s := s.dropGroups (s.gidsIn ctx d)
  let ends := s.jobs.filter fun (j : Job) => d.hits ctx j.ctx j.rcb j.chain
  let s := { s with sched := { s.sched with
    privs := s.sched.privs.filter fun e => !(ends.any fun (j : Job) => j.kdesc == e.2.1 && j.privSlot == some e.2.2)
    unsynced := s.sched.unsynced ++ (s.queues.filter fun (q : Queue) => d.hits ctx q.ctx q.rcb.toNat q.rcbs).map fun (q : Queue) => q.q } }
  let s := { s with
    jobs := s.jobs.map fun (j : Job) => if d.hits ctx j.ctx j.rcb j.chain then { j with dead := true } else j
    queues := s.queues.map fun (q : Queue) => if d.hits ctx q.ctx q.rcb.toNat q.rcbs then { q with state := 2 } else q }
  let s := { s with sched := { s.sched with
    places := s.sched.places.filter fun p => !d.hits ctx p.group.ctx p.group.rcb.toNat p.group.chain } }
  let s := if d = .context then { s with power := { s.power with owing := s.power.owing ++ [ctx] } }.due (.energyAccount [(ctx, Config.energyShare s.tick ctx)]) else s
  s.modCtx ctx fun x =>
    { x with pool := x.pool.filter fun (t : Task) => !d.has t.rcb t.chain
             dead := x.dead || d == .context }

/-- The partition of a context, from what was last read of it. -/
def State.partOf (s : State) (ctx : Nat) : Nat :=
  match s.ctx? ctx with
  | some x => x.part
  | none => 0

/-- A class 3 fault of a wave (R147, R338). -/
def State.waveFault (s : State) (w : Wave) (g : Group) (cause : Cause) (pc : VA) (d : Domain) : State :=
  (s.terminate w.ctx d).record
    { cause := causeCode cause, ctx := w.ctx, part := s.partOf w.ctx, pc := pc.toNat, rcb := g.rcb.toNat, slot := some w.slot,
      octant := octOfCore (coreOfSlot w.slot), domain := d.code }

/-! ## The frontier (R161) -/

/-- Merge entries that stand at one PC. -/
def mergeEntries : List Entry → List Entry
  | [] => []
  | e :: rest =>
    let r := mergeEntries rest
    match r.find? fun f => f.pc == e.pc with
    | none => e :: r
    | some f =>
      { e with mask := e.mask ||| f.mask, run := e.run, demoted := e.demoted && f.demoted, fetching := e.fetching || f.fetching,
               blocked := e.blocked && f.blocked } :: r.filter fun f => f.pc != e.pc

/-- Move the entry whose mask is given to a PC. -/
def moveEntry (l : List Entry) (m : Mask) (pc : VA) : List Entry :=
  mergeEntries (l.map fun e => if e.mask = m then { e with pc := pc, fetching := false, blocked := false } else e)

/-- A PC with slot 0 enters slot 1; bits [1:0] are ignored (R345). -/
def enterPc (v : VA) : VA :=
  let v := v &&& ~~~(3#57)
  if v &&& 0xC#57 = 0 then v ||| 4#57 else v

/-- Move the issuing entry. -/
def State.goto (s : State) (pc : VA) : State := s.modW fun w => { w with front := moveEntry w.front s.cur.active pc }

/-- Put the issuing entry back at its unit: the word has not issued. -/
def State.back (s : State) : State := s.goto s.cur.unit

/-! ## Taking a trap (R333-R337) and returning from it -/

/-- What a class 2 trap records. -/
structure Trap where
  cause : Cause
  lanes : Mask
  field : OpField := .none
  pc : VA
  park : VA
  treg : Fin 16 := 0
deriving DecidableEq, Repr

/-- The place of a cause in the order of R363. -/
def trapRank : Cause → Nat
  | .malformedPacket => 0
  | .illegalInstr => 1
  | .chainConflict => 2
  | .regBound => 3
  | .privLimit => 4
  | .wideBudget => 5
  | .overflow => 6
  | .poison => 7
  | .brk => 8
  | .trap => 8
  | .barTimeout => 9
  | .accLeak => 9
  | .handlerFetch => 9
  | .dataLoss => 9
  | .causalLoss => 9
  | .eventOverflow => 9

/-- s56.busy (R334). -/
def Regs.busy (r : Regs) : Bool := (r.s[56]).getLsbD 11

/-- The lowest lane of a mask. -/
def lowest (m : Mask) : Lane :=
  match lanesOf m with
  | L :: _ => L
  | [] => 0

/-- s56 of the trap record (R334). -/
def trapWord (t : Trap) (busy : Bool) : Word :=
  BitVec.ofNat 32 (causeCode t.cause + 256 * fieldCode t.field + 2048 * busy.toNat + 4096 * t.treg.val)

/-- The wave with the trap record written and its entry at the handler (R333, R334) (DEDUCED, log 12) (DEDUCED, log 14). -/
def Wave.trapped (w : Wave) (t : Trap) (m : Mask) (handler : VA) : Wave :=
  let time := (w.regs.t[t.treg])[lowest t.lanes]
  let w := { w with window := [] }
  let w := { w with regs := { w.regs with s :=
    (((((((w.regs.s.set 56 (trapWord t true)).set 57 t.lanes).set 58 (t.pc.zeroExtend 64 |>.extractLsb' 0 32)).set 59
      (t.pc.zeroExtend 64 |>.extractLsb' 32 32)).set 60 (t.park.zeroExtend 64 |>.extractLsb' 0 32)).set 61
      (t.park.zeroExtend 64 |>.extractLsb' 32 32)).set 62 (time.extractLsb' 0 32)).set 63 (time.extractLsb' 32 32) } }
  { w with front := moveEntry w.front m handler }

/-- Slot 1 of the handler's first packet. -/
def handlerPc (h : BitVec 53) : VA := (h ++ 0#4) ||| 4#57

/-- A class 2 trap of the issuing entry (R333). While s56.busy is 1 the word is not issued and its entry waits; a wave none of whose
entries can go on ends its context with nested = 1 (R335). Without a handler HANDLER_FETCH is raised (R337) (DEDUCED, log 14). -/
def State.takeTrap (s : State) (t : Trap) : State :=
  let s := { s with cur := { s.cur with trapped := some (trapRank t.cause) } }
  if s.w.regs.busy then
    let s := s.back
    let s := s.modW fun w =>
      { w with front := w.front.map fun e => if e.mask &&& s.cur.active ≠ 0 then { e with blocked := true } else e }
    if s.w.front.all (·.blocked) then
      (s.terminate s.w.ctx .context).record
        { cause := causeCode t.cause, ctx := s.w.ctx, part := s.x.part, pc := t.pc.toNat, rcb := s.g.rcb.toNat,
          slot := some s.w.slot, octant := octOfCore (coreOfSlot s.w.slot), nested := true }
    else s
  else if s.x.handler = 0 then s.waveFault s.w s.g .handlerFetch t.pc .context
  else
    let s := s.modW fun w => w.trapped t s.cur.active (handlerPc s.x.handler)
    s

/-- `rti` (R336): the entry goes to s61:s60, busy is cleared, and words held under R335 may issue. -/
def State.returnFromTrap (s : State) : State :=
  let target : DWord := s.latch.s[61] ++ s.latch.s[60]
  let s := s.goto (enterPc (target.extractLsb' 0 57))
  s.modW fun w =>
    { w with regs := { w.regs with s := w.regs.s.set 56 (w.regs.s[56] &&& ~~~0x800#32) }
             front := w.front.map fun e => { e with blocked := false } }

/-! ## Issuing a word -/

/-- What a word adds to the checks that every word has. -/
structure Checks where
  illegal : Bool := false            -- ILLEGAL_INSTR found from register values
  lanesD : Option Mask := none       -- lanes in which d is resolved, when not Active
  lanesA : Option Mask := none
  lanesT : Option Mask := none
  stepIn : Option Mask := none       -- lanes in which operands step, when not Active
  bound : Option OpField := none     -- a REG_BOUND of its own (wfill, wspill)
  priv : Mask := 0                   -- lanes beyond PRIVLIM
  accept : Bool := true              -- its pipe accepts it and it need not wait
  overflow : Mask := 0               -- lanes that overflow under `.trap`
  poison : Option OpField := none    -- a POISON of its own (twait)
  run : Option (Nat × Nat) := none   -- a run of registers that it reads (wspill): the first and how many
  own : Option Cause := none         -- TRAP or BRK

/-- The time register a word names, in the lowest lane of a mask (R334) (DEDUCED, log 12). -/
def tregOf (i : Instr) (s : State) (m : Mask) : Fin 16 :=
  match (uses i).t with
  | some t => timeReg s.latch t (lowest m)
  | none => 0

/-- The trap of a word with a cause, a field and lanes. -/
def State.trapOf (s : State) (i : Instr) (c : Cause) (f : OpField) (m : Mask) (park : VA) : Trap :=
  { cause := c, lanes := m, field := f, pc := s.cur.pc, park := park, treg := tregOf i s m }

/-- Lanes in which an operand of a field is resolved (DEDUCED, log 15). -/
def Checks.lanesFor (ck : Checks) (act : Mask) (f : OpField) : Mask :=
  match f with
  | .d => ck.lanesD.getD act
  | .a => ck.lanesA.getD act
  | .b => act
  | .t => ck.lanesT.getD act
  | .none => act

/-- The first operand, in the order d, a, b, t, that fails R224 or R227, with the lanes that fail (DEDUCED, log 15). -/
def boundFail (i : Instr) (ck : Checks) (s : State) : Option (OpField × Mask) :=
  let u := uses i
  let ops := u.vw ++ u.vr ++ u.vn
  let lanes (f : OpField) : Mask :=
    (ops.filter fun o => o.2.2 == f).foldl
      (fun m o => m ||| failLanes s.latch s.w.nregs (ck.lanesFor s.cur.active f) o.1 o.2.1) 0
  let tl : Mask :=
    match u.t with
    | some t => ck.lanesFor s.cur.active .t &&& maskOf fun L => failsT s.latch t L
    | none => 0
  if lanes .d ≠ 0 then some (.d, lanes .d)
  else if lanes .a ≠ 0 then some (.a, lanes .a)
  else if lanes .b ≠ 0 then some (.b, lanes .b)
  else if tl ≠ 0 then some (.t, tl)
  else ck.bound.map fun f => (f, s.cur.active)

/-- The field of the first source operand that reads a poisoned destination, as it stood at the issue (R175, R213); a run of registers is named by
field b. -/
def poisonUse (i : Instr) (ck : Checks) (s : State) : Option OpField :=
  let hits (o : VOp × Nat × OpField) : Bool :=
    s.cur.poisoned.any fun p => (lanesOf (p.2 &&& ck.lanesFor s.cur.active o.2.2)).any fun L =>
      let n := resolveNat s.latch o.1 L
      decide (n ≤ p.1.val) && decide (p.1.val ≤ n + o.2.1)
  match (uses i).vr.find? hits, ck.run with
  | some o, _ => some o.2.2
  | none, some (f, n) => if s.cur.poisoned.any fun p => decide (f ≤ p.1.val) && decide (p.1.val < f + n) then some .b else none
  | none, none => none

/-- The operands that step an index register (R226). -/
def stepOps (i : Instr) : List (XNum × Bool) := steps i.vops

/-- Issue a word (R363): the faults in their order, none of whose words takes effect; a word its pipe does not accept waits; else the
index registers step and the effect takes place. -/
def word (i : Instr) (ck : Checks) (eff : State → State) (s : State) : Out1 :=
  if ck.illegal then .next (s.takeTrap (s.trapOf i .illegalInstr .none s.cur.active s.cur.unit))
  else
    match boundFail i ck s with
    | some (f, m) => .next (s.takeTrap (s.trapOf i .regBound f m s.cur.unit))
    | none =>
      if ck.priv ≠ 0 then .next (s.takeTrap (s.trapOf i .privLimit .none ck.priv s.cur.unit))
      else if !ck.accept then .next { s.back with cur := { s.cur with refused := true } }
      else
        let t := eff (s.modW fun w => w.stepAll s.latch (ck.stepIn.getD s.cur.active) (stepOps i))
        if s.w.wide < gCount t.w then .next (s.takeTrap (s.trapOf i .wideBudget .none s.cur.active s.cur.unit))
        else if ck.overflow ≠ 0 then .next (s.takeTrap (s.trapOf i .overflow .none ck.overflow s.cur.unit))
        else
          match poisonUse i ck s, ck.poison with
          | some f, _ => .next (s.takeTrap (s.trapOf i .poison f s.cur.active s.cur.unit))
          | none, some f => .next (s.takeTrap (s.trapOf i .poison f s.cur.active s.cur.pc))
          | none, none =>
            match ck.own with
            | some c => .next (s.takeTrap (s.trapOf i c .none s.cur.active s.cur.next))
            | none => .next t

/-- A fixed-latency result in the window (R177). -/
def State.pend (s : State) (r : RegName) (l : Latency) : State :=
  s.modW fun w => { w with window := w.window ++ [{ reg := r, ready := s.tick + l.cycles * s.cycle }] }

/-- Write an operand in the lanes of Active as a fixed-latency result. -/
def State.result (s : State) (m : Mask) (d : VOp) (i : Nat) (f : Lane → Word) (sh : Shape) (l : Latency) : State :=
  let r := s.latch
  let s := s.modW fun w => w.write r m d i f sh
  (targets r m d).foldl
    (fun s n => s.pend (.v (Fin.ofNat 256 (n.val + i)) (m &&& maskOf fun L => resolve r d L = n)) l) s

/-- Write a scalar register as a fixed-latency result; a write to s0 is discarded (R176). -/
def State.resultS (s : State) (n : SReg) (v : Word) (l : Latency) : State :=
  if n = 0 then s else (s.modW fun w => w.writeS n v).pend (.s n) l

/-- Write a mask register as a fixed-latency result; a write to k0 is discarded (R216). -/
def State.resultK (s : State) (n : KReg) (v : Mask) (l : Latency) : State :=
  if n = 0 then s else (s.modW fun w => w.writeK n v).pend (.k n) l

/-- Park the wave at the word at issue; it stands behind the word (R235). -/
def State.park (s : State) (p : Park) : State :=
  s.modW fun w => { w with park := p, parkPc := s.cur.pc, parkLanes := s.cur.active }

/-- Change an index register as a fixed-latency result. -/
def State.resultX (s : State) (n : XNum) (f : XReg → XReg) (l : Latency) : State :=
  (s.modW fun w => w.setX n (f w.regs.x[n])).pend (.x n) l

end Machine
end Sys2Proof
end

