-- ==== Sys2Proof/Machine/Issue.lean ====
section
/-! DEFINITION. What comes before and after the meaning of a word: which wave, which frontier entry and which unit issue (R160-R162,
R175-R178, R228, R343-R346), the fetch of a packet, and the bookkeeping of an issue (R162, R178, R180). -/

namespace Sys2Proof
namespace Machine

/-! ## Time registers (R202, R206) -/

def noPromise : DWord := 0x7FFFFFFFFFFFFFFF
def faultTime : DWord := 0x8000000000000001
def poisonTime : DWord := 0x8000000000000002
def cancelTime : DWord := 0x8000000000000003

/-- Is the value a promise: none of the special values (R206)? -/
def isPromise (v : DWord) : Bool := v != noPromise && v != faultTime && v != poisonTime && v != cancelTime

/-- Has an access not ended in a lane? An `sld` has one lane that reads for all (R412). -/
def Access.going (a : Access) (L : Lane) : Bool := if a.uniform then a.lanes != 0 else a.lanes.getLsbD L.val

/-- Has the promise of a lane of an access that has not ended matured (R196, R202)? -/
def Access.matured (a : Access) (w : Wave) (tick : Nat) (L : Lane) : Bool :=
  let v := (w.regs.t[a.treg[L]])[L]
  a.tlanes.getLsbD L.val && isPromise v && decide (v.toNat ≤ tick)

/-- Does an outstanding access with an unmatured promise write register n in a lane (R160, R230)? -/
def Access.holds (a : Access) (w : Wave) (tick : Nat) (n : Nat) (L : Lane) : Bool :=
  a.going L && !a.matured w tick L
    && (List.finRange 5).any fun i => decide (i.val < a.regs) && a.alive[i].getLsbD L.val && (a.dst[L]).val + i.val == n

/-- Does an access return a result that a switch marker waits for (R180)? -/
def AccKind.isResult : AccKind → Bool
  | .load => true
  | .probe => true
  | .atom => true
  | .accr => true
  | .evq => true
  | .tlget => true
  | .wfill => true
  | .red => false
  | .fence => false
  | .evwait => false
  | .copy => false
  | .iord => false
  | .mgix => false

/-- Has the wave a variable-latency result outstanding? -/
def Wave.outstanding (w : Wave) : Bool := w.accs.any fun a => a.kind.isResult

/-! ## Are the operands of a word ready (R160, R177, R229)? -/

/-- Is a fixed-latency result of register n pending in a lane of a mask? -/
def Pending.onV (p : Pending) (tick : Nat) (n : Nat) (L : Lane) : Bool :=
  match p.reg with
  | .v m lanes => decide (tick < p.ready) && m.val == n && lanes.getLsbD L.val
  | .s _ => false
  | .k _ => false
  | .x _ => false

def Pending.onS (p : Pending) (tick : Nat) (n : SReg) : Bool := decide (tick < p.ready) && p.reg == .s n
def Pending.onK (p : Pending) (tick : Nat) (n : KReg) : Bool := decide (tick < p.ready) && p.reg == .k n
def Pending.onX (p : Pending) (tick : Nat) (n : XNum) : Bool := decide (tick < p.ready) && p.reg == .x n

/-- The index registers that a word names in its operands. -/
def xnumsOf (i : Instr) : List XNum := (i.vops.filterMap VOp.xform ++ i.tops.filterMap TOp.xform).map (·.1)

/-- Are all operands of a word ready in the lanes of a mask? -/
def Wave.ready (w : Wave) (tick : Nat) (m : Mask) (i : Instr) : Bool :=
  let u := uses i
  let r := w.regs
  let held (o : VOp × Nat × OpField) : Bool :=
    (lanesOf m).any fun L => (List.range (o.2.1 + 1)).any fun j =>
      let n := resolveNat r o.1 L + j
      (w.window.any fun p => p.onV tick n L) || w.accs.any fun a => a.holds w tick n L
  !(u.vr.any held)
    && !(u.sr.any fun n => w.window.any fun p => p.onS tick n)
    && !(u.kr.any fun n => w.window.any fun p => p.onK tick n)
    && !((u.xr ++ xnumsOf i).any fun n => w.window.any fun p => p.onX tick n)

/-! ## Fetching (R343-R346) -/

/-- The translation of a virtual address in a core's L1 TLB. -/
def Core.tlbFind (c : Core) (ctx : Nat) (va : Nat) : Option Tlb :=
  c.tlb.find? fun e => e.ctx == ctx && decide (e.base ≤ va) && decide (va < e.base + e.size)

/-- The key of the byte at a virtual address, from a translation. -/
def Tlb.key (e : Tlb) (va : Nat) : Nat := keyOf e.target (e.pa + (va - e.base))

/-- The address of the packet of a PC. -/
def packetVa (pc : VA) : Nat := pc.toNat / 16 * 16

/-- The slot of a PC. -/
def slotOf (pc : VA) : Nat := pc.toNat / 4 % 4

/-- The PC of a slot of the packet of another PC. -/
def atSlotPc (pc : VA) (slot : Nat) : VA :=
  if slot ≤ 3 then BitVec.ofNat 57 (packetVa pc + 4 * slot) else BitVec.ofNat 57 (packetVa pc + 20)

/-- The packet that an entry stands at and whether its sector is poisoned; none when the core has no translation that allows the fetch (DESIGN CHOICE, log 119). -/
def State.packetAt (s : State) (core : Core) (ctx : Nat) (pc : VA) : Option (Packet × Bool) :=
  match core.tlbFind ctx (packetVa pc) with
  | none => none
  | some e =>
    if e.exec then
      let k := e.key (packetVa pc)
      some (packetOfBytes (s.mem.bytes k 16), s.mem.isBad (k / 32))
    else none

/-- A unit: one word, or a chained pair (R175). A word that is no legal instruction is none. -/
structure Unit where
  first : Option Instr
  codes : List Code := []
  pc : VA
  pipe : Option Pipe
  second : Option (Option Instr × VA × Option Pipe) := none
  switch : Bool
  next : VA

/-- The unit that starts at a slot of a packet (R354, R361). -/
def unitAt (p : Packet) (pc : VA) : Unit :=
  let n := slotOf pc
  let c := p.codeAt n
  let w := p.slot c.2
  if chainBit w then
    let d := p.codeAt (c.2 + 1)
    let v := p.slot d.2
    { first := legal c.1, codes := [c.1, d.1], pc := pc, pipe := pipeOf (majorOf w), second := some (legal d.1, atSlotPc pc (c.2 + 1), pipeOf (majorOf v)),
      switch := switchBit w || switchBit v, next := atSlotPc pc (d.2 + 1) }
  else { first := legal c.1, codes := [c.1], pc := pc, pipe := pipeOf (majorOf w), switch := switchBit w, next := atSlotPc pc (c.2 + 1) }

/-- The words of a unit that are legal. -/
def Unit.instrs (u : Unit) : List Instr :=
  match u.first, u.second with
  | some i, none => [i]
  | some i, some (some j, _, _) => [i, j]
  | some i, some (none, _, _) => [i]
  | none, some (some j, _, _) => [j]
  | none, some (none, _, _) => []
  | none, none => []

/-- The number of words of a unit. -/
def Unit.words (u : Unit) : Nat := if u.second.isSome then 2 else 1

/-! ## Choosing the entry of a wave (R161, R162) -/

/-- What a wave would issue next. -/
inductive Pick where
  | none
  | fetch (pc : VA)
  | entry (e : Entry) (p : Packet) (bad : Bool)
  | owed (e : Entry) (pc : VA) (lanes : Mask)

/-- Does an entry go before another: not demoted first, then the higher priority, then the lower PC? -/
def before (e : Entry) (p : Packet) (f : Entry) (q : Packet) : Bool :=
  if e.demoted = f.demoted then (if p.pri = q.pri then decide (e.pc.toNat < f.pc.toNat) else decide (q.pri < p.pri))
  else f.demoted

/-- The trap of R458 that an entry owes. -/
def Wave.owes (w : Wave) (e : Entry) : Option Owed := w.owed.find? fun o => o.mask &&& e.mask != 0

/-- Of two entries that owe a trap, the one that takes it first: the higher block priority, then the lower PC (R342, R458) (DEDUCED, log 27). -/
def State.owedFirst (s : State) (core : Core) (w : Wave) (e f : Entry) : Bool :=
  match s.packetAt core w.ctx e.pc, s.packetAt core w.ctx f.pc with
  | some (p, _), some (q, _) => if p.pri = q.pri then decide (e.pc.toNat < f.pc.toNat) else decide (q.pri < p.pri)
  | _, _ => decide (e.pc.toNat < f.pc.toNat)

/-- The entry that a wave issues from. An entry that owes a trap takes it before its next word issues (R458). An entry whose translation is
not in the core is fetched first (DESIGN CHOICE, log 119). -/
def State.pickEntry (s : State) (core : Core) (w : Wave) : Pick :=
  let open_ := w.front.filter fun e => !e.fetching && !e.blocked
  let due := (open_.filter fun e => (w.owes e).isSome).foldl (fun (b : Option Entry) e =>
    match b with
    | none => some e
    | some f => if s.owedFirst core w e f then some e else some f) none
  match due.bind fun e => (w.owes e).map fun o => (e, o) with
  | some (e, o) => .owed e o.pc (o.mask &&& e.mask)
  | none =>
    open_.foldl (fun best e =>
      match s.packetAt core w.ctx e.pc, best with
      | none, .fetch pc => .fetch pc
      | none, _ => .fetch e.pc
      | some _, .fetch pc => .fetch pc
      | some (p, bad), .none => .entry e p bad
      | some (p, bad), .entry f q fb => if before e p f q then .entry e p bad else .entry f q fb
      | some _, .owed f pc m => .owed f pc m) .none

/-! ## Eligibility (R160) -/

/-- Does the core run: its octant is in the package, in a working state, at the beginning of a core cycle (R29, R56, R132)? -/
def State.coreRuns (s : State) (core : Nat) : Bool :=
  !s.power.held && decide (s.power.cur.toNat ≤ 1) && (s.power.cur == 0 || s.tick % 2 == 0) && !s.octs[octOfCore core].cf.removed

/-- May the core issue: it runs, and no power-state transition waits (R129)? -/
def State.issueOpen (s : State) (core : Nat) : Bool := s.coreRuns core && !s.power.busy

/-- Has an epoch change stopped the memory instructions of the core (R54)? -/
def State.memStopped (s : State) (core : Nat) : Bool := s.octs[octOfCore core].stopped

/-- The waits of a wave other than those of its next word. -/
def Wave.free (w : Wave) (tick : Nat) (evicting : List Nat) : Bool :=
  w.live && !w.exited && w.park == .none && !w.switch && !w.halted && decide (w.mayIssue ≤ tick) && !evicting.contains w.gid

/-- A ninth word waits while the oldest of the last 8 has its result pending (R178). -/
def Wave.windowFull (w : Wave) (tick n : Nat) : Bool := (w.recent.take (w.recent.length + n - 8)).any fun r => decide (tick < r)

/-- Can a wave issue in this tick, or start a fetch? -/
def State.eligible (s : State) (w : Wave) : Bool :=
  let id := coreOfSlot w.slot
  let core := s.core id
  w.free s.tick s.sched.evicting && s.issueOpen id &&
    match s.pickEntry core w with
    | .none => false
    | .fetch _ => true
    | .owed _ _ _ => true
    | .entry e p bad =>
      bad || p.malformed || !p.starts.contains (slotOf e.pc) ||
        let u := unitAt p e.pc
        !w.windowFull s.tick u.words && !(s.memStopped id && u.instrs.any memoryWord) && u.instrs.all fun i => w.ready s.tick e.mask i

/-- The effective priority of a wave's group (R146). -/
def State.prioOf (s : State) (w : Wave) : Nat := ((s.group? w.gid).map (·.prio)).getD 0

/-- When the wave's group was placed (DEDUCED, log 84). -/
def State.ageOf (s : State) (w : Wave) : Nat := ((s.group? w.gid).map (·.placedAt)).getD 0

/-- The order of R160 between two eligible waves of one sub-core (DEDUCED, log 84). Of two that have waited equally long the one that stands earlier
among the waves goes first (DESIGN CHOICE, log 141). -/
def State.goesFirst (s : State) (core : Core) (w v : Wave) : Bool :=
  let starved (x : Wave) : Bool := decide (1024 ≤ s.tick - x.since)
  let last (x : Wave) : Bool := core.lastWave[subOfSlot x.slot] == some x.uid
  if starved w || starved v then
    if starved w && starved v then decide (w.since < v.since) else starved w
  else if s.prioOf w ≠ s.prioOf v then decide (s.prioOf v < s.prioOf w)
  else if last w || last v then last w
  else if s.ageOf w ≠ s.ageOf v then decide (s.ageOf w < s.ageOf v)
  else decide (w.slot < v.slot)

/-- The wave that a sub-core issues in this tick: the one that reserved it (R228), or the first eligible one in the order of R160. -/
def State.choose (s : State) (coreId : Nat) (sub : Fin 4) : Option Wave :=
  let core := s.core coreId
  if core.issuedAt[sub] = some s.tick then none
  else
    let mine := s.allWaves.filter fun w => coreOfSlot w.slot == coreId && subOfSlot w.slot == sub && s.eligible w
    let pick := mine.foldl (fun best w =>
      match best with
      | none => some w
      | some v => if s.goesFirst core w v then some w else some v) none
    match core.reserved[sub] with
    | none => pick
    | some (slot, tick) =>
      if tick = s.tick then
        match mine.find? fun w => w.slot == slot with
        | some w => some w
        | none => pick
      else pick

/-! ## Before and after the meanings -/

/-- Do the active lanes of a word resolve some register operand to different numbers (R228)? -/
def divergentWord (r : Regs) (m : Mask) (i : Instr) : Bool :=
  let u := uses i
  ((u.vr ++ u.vw ++ u.vn).any fun o => divergent r m o.1) ||
    match u.t with
    | none => false
    | some t => decide (1 < ((lanesOf m).map fun L => resolveT r t L).dedup.length)

/-- The registers that a word of the tick reads: a time register as the events of earlier ticks left it (R405). -/
def Wave.regsSeen (w : Wave) : Regs := { w.regs with t := w.seen.t, arr := w.seen.arr }

/-- What the words of the next tick see of the wave's time state (R405, R449). -/
def Wave.look (w : Wave) : Wave :=
  { w with seen := { t := w.regs.t, arr := w.regs.arr, late := w.late, cancel := w.cancel, latecount := w.latecount }, news := 0, newCancel := false }

/-- Note in the issue stage which unit issues: the registers as they stand (R175), the entry's mask, and the entry moved behind the
unit. Entries that then stand at one PC merge when the unit has issued. -/
def State.stage (s : State) (e : Entry) (u : Unit) : State :=
  { s with
    latch := s.w.regsSeen
    cur := { active := e.mask, pc := u.pc, next := u.next, unit := u.pc, alone := decide (s.w.front.length ≤ 1), q := s.c.q[subOfSlot s.w.slot]
             poisoned := s.w.poisoned }
    w := { s.w with front := s.w.front.map fun f => if f.mask = e.mask then { f with pc := u.next } else f } }

/-- Name the second word of a pair as the one at issue. -/
def State.stageSecond (s : State) (pc : VA) : State := { s with cur := { s.cur with pc := pc } }

/-- The tick at which the latest of some results is ready. -/
def lastReady (l : List Pending) : Nat := l.foldl (fun m p => Nat.max m p.ready) 0

/-- An entry's count of consecutive issues after one of `n` words, and its demotion (R162): words count while the wave has other entries (DEDUCED, log 107). -/
def Entry.counted (e : Entry) (cur : Issue) (n : Nat) (only : Bool) : Entry :=
  if e.mask &&& cur.active ≠ 0 then
    if cur.alone then { e with run := 0 }
    else if 256 ≤ e.run + n ∧ !only then { e with run := 0, demoted := true }
    else { e with run := e.run + n }
  else { e with run := 0, demoted := false }

/-- After a unit: entries merge (R161), runs are counted (R162), the sub-core's issue is taken, the window holds the words (R178), a
switch marker parks (R180) and a step of the debugger ends (R339). `ready` says of each word when its results are ready. -/
def State.issued (s : State) (ready : List Nat) (switch : Bool) : State :=
  let sub := subOfSlot s.w.slot
  let c := { s.c with issuedAt := s.c.issuedAt.set sub (some s.tick), lastWave := s.c.lastWave.set sub (some s.w.uid),
                      reserved := s.c.reserved.set sub none }
  let only := decide (s.w.front.length ≤ 1)
  let w := { s.w with
    front := (mergeEntries s.w.front).map fun (e : Entry) => e.counted s.cur ready.length only
    recent := (s.w.recent ++ ready).drop (s.w.recent.length + ready.length - 8)
    lastIssue := s.tick
    since := s.tick
    waiting := none }
  let w := if switch && w.outstanding && s.cur.trapped.isNone then { w with switch := true } else w
  let stepped := s.w.live && w.stepping
  let w := if w.stepping then { w with stepping := false, halted := true, window := [] } else w
  let x := if stepped then { s.xlate with dbgReason := 3, dbgWave := BitVec.ofNat 15 w.slot } else s.xlate
  { s with c := c, w := if s.w.live then w else s.w, xlate := x }

/-- A unit that its pipe did not accept, or that waits at issue: the wave tries again in the next tick. -/
def State.waits (s : State) : State :=
  { s with w := { s.w with mayIssue := s.tick + 1, waiting := (match s.w.waiting with
                                                               | some t => some t
                                                               | none => some s.tick) } }

/-- Begin a fetch: the entry waits for it (R383) (DEDUCED, log 50). -/
def State.beginFetch (s : State) (pc : VA) : State :=
  (s.modW fun w => { w with front := w.front.map fun e => if e.pc = pc then { e with fetching := true } else e }).due
    (.instructionFetch s.w.slot pc)

/-- Does an encoding of the unit's two words fault before they issue (R361, R363)? The cause, the PC and the code of the word (DEDUCED, log 102). -/
def Unit.encodingFault (u : Unit) : Option (Cause × VA × Option Code) :=
  match u.first, u.second with
  | none, _ => some (.illegalInstr, u.pc, u.codes[0]?)
  | some _, some (none, pc, _) => some (.illegalInstr, pc, u.codes[1]?)
  | some _, some (some _, _, p) => if p = u.pipe then some (.chainConflict, u.pc, none) else none
  | some _, none => none

/-- Raise a fault of the unit's encoding: CHAIN_CONFLICT is class 3, the others class 2 (R332). An instruction that
is illegal only by R226 still names its time register (R334) (DEDUCED, log 101). -/
def State.encodingTrap (s : State) (c : Cause) (pc : VA) (code : Option Code) : State :=
  if c = .chainConflict then
    (s.waveFault s.w s.g c pc (.ofPolicy s.g.policy s.g.rcb.toNat))
  else
    s.takeTrap { cause := c, lanes := s.cur.active, pc := pc, park := s.cur.unit
                 treg := (((code.bind decode).filter Instr.fieldsOk).map fun i => tregOf i s s.cur.active).getD 0 }

/-- How many words of a chained pair trap, and which trap is raised: the lower place in the order of R363, the first word on a tie (DEDUCED, log 102). -/
def pickTrap (a b : State) : Option State :=
  match a.cur.trapped, b.cur.trapped with
  | none, none => none
  | some _, none => some a
  | none, some _ => some b
  | some x, some y => if y < x then some b else some a

end Machine
end Sys2Proof
end

