-- ==== Sys2Proof/Machine/Access.lean ====
section
/-! DEFINITION. The core's memory pipe: addresses and pieces of an access, the L1 TLB (R323-R325), the L1 data cache (R181-R184, R410),
time registers and initial promises (R194-R198), outstanding accesses, the scratchpad (R185), and the requests that leave the core. -/

namespace Sys2Proof
namespace Machine

/-! ## Published bounds (R71, R131) -/

/-- The G that Psihel publishes for a partition at this tick (R68). -/
def State.publishedG (s : State) (p : Nat) : Nat :=
  let q := s.parts[Fin.ofNat 8 p]
  if s.fret.started then q.gTransition else q.gNow

/-- CAP_BOUND_L1 for a number of lines, CAP_BOUND_L2, _L3, _HBM and _HOLD. -/
def State.capL1 (s : State) (lines : Nat) : Nat := s.cycle * (28 + (lines + 3) / 4 - 1)
def capL2Of (cycle g : Nat) : Nat := cycle * (300 + g)
def capL3Of (g : Nat) : Nat := 1200 + 2 * g
def capHbmOf (g : Nat) : Nat := 3600 + 3 * g
def State.capL2 (s : State) (p : Nat) : Nat := capL2Of s.cycle (s.publishedG p)
def State.capL3 (s : State) (p : Nat) : Nat := capL3Of (s.publishedG p)
def State.capHbm (s : State) (p : Nat) : Nat := capHbmOf (s.publishedG p)
def State.capHold (_ : State) : Nat := Config.boundHold

/-! ## Addresses -/

/-- The bytes that a size moves (R408). -/
def sizeBytes : Size → Nat
  | .b8 => 1
  | .b16 => 2
  | .b32 => 4
  | .b64 => 8
  | .b128 => 16

/-- The address of a lane (R407). -/
def laneAddr (r : Regs) (a : VOp) (b : SPair) (L : Lane) : Nat := ((r.pair b).toNat + (readV r a L).toNat) % 2 ^ 57

/-- The scratchpad offset of a lane (R412). -/
def laneOffset (r : Regs) (a : VOp) (b : SPair) (L : Lane) : Nat := (r.pair b).toNat + (readV r a L).toNat

/-- A part of an access: its first address, its bytes and the byte of the access it starts at. -/
structure Piece where
  va : Nat
  n : Nat
  place : Nat

/-- An access of n bytes cut at 128-byte lines, in the 57-bit space (R301). -/
def linePieces (va n : Nat) : List Piece :=
  let first := Nat.min n (128 - va % 128)
  if first = n then [{ va := va, n := n, place := 0 }]
  else [{ va := va, n := first, place := 0 }, { va := (va + first) % 2 ^ 57, n := n - first, place := first }]

/-- The pieces of a range of keys by lines. -/
def keyPieces (key : Nat) : Nat → Nat → List Piece
  | 0, _ => []
  | fuel + 1, n =>
    if n = 0 then []
    else
      let m := Nat.min n (128 - key % 128)
      { va := key, n := m, place := 0 } :: keyPieces (key + m) fuel (n - m)

/-- The pieces of a private access (R191): one for each 4-byte word it touches. -/
def privPieces (segbase : Nat) (L : Lane) (o n : Nat) : List Piece :=
  let at_ (k : Nat) : Nat := (segbase + (o + k) / 4 * 128 + L.val * 4 + (o + k) % 4) % 2 ^ 57
  (List.range n).map fun k => { va := at_ k, n := 1, place := k }

/-! ## The L1 TLB (R323, R325) -/

/-- Does a leaf allow an access (R323)? -/
def Tlb.allows (e : Tlb) (need : Need) : Bool :=
  match need with
  | .read => true
  | .write => e.write
  | .fetch => e.exec

/-- The translation of an address that the L1 TLB holds and that allows the access. -/
def Core.look (c : Core) (ctx : Nat) (need : Need) (va : Nat) : Option Tlb :=
  match c.tlbFind ctx va with
  | some e => if e.allows need then some e else none
  | none => none

/-- The lanes of a mask all of whose pieces translate. -/
def Core.hitLanes (c : Core) (ctx : Nat) (need : Need) (m : Mask) (ps : Lane → List Piece) : Mask :=
  m &&& maskOf fun L => (ps L).all fun p => (c.look ctx need p.va).isSome

/-- The key and the target of a piece. -/
def Core.keyAt (c : Core) (ctx : Nat) (va : Nat) : Option (Target × Nat) :=
  (c.tlbFind ctx va).map fun e => (e.target, e.key va)

/-! ## The L1 data cache -/

/-- The set of a virtual address (R181). -/
def l1Set (va : Nat) : Nat := va / 128 % 256

/-- A line of the L1. -/
def Core.l1Find (c : Core) (line : Nat) : Option L1Line := c.l1.find? fun (l : L1Line) => l.line == line

/-- Change a line of the L1. -/
def Core.l1Mod (c : Core) (line : Nat) (f : L1Line → L1Line) : Core :=
  { c with l1 := c.l1.map fun (l : L1Line) => if l.line = line then f l else l }

/-- The age that a fill under a policy enters at (R410). -/
def fillAge : Policy → Nat
  | .dflt => 1
  | .stream => 3
  | .keep => 0
  | .fwd => 1

/-- The age after a hit under a policy (R410). -/
def hitAge (p : Policy) (age : Nat) : Nat :=
  match p with
  | .dflt => 0
  | .keep => 0
  | .stream => age
  | .fwd => 0

/-- The way that a fill takes: the lowest invalid one, else the oldest, the lowest-numbered first (R410); and the line it evicts. -/
def Core.l1Victim (c : Core) (set : Nat) : Nat × Option L1Line :=
  let lines := c.l1.filter fun (l : L1Line) => l.set == set
  match (List.range 8).find? fun w => !(lines.any fun l => l.way == w) with
  | some w => (w, none)
  | none =>
    let old := lines.foldl (fun (b : Option L1Line) l =>
      match b with
      | none => some l
      | some m => if m.age < l.age ∨ (m.age = l.age ∧ l.way < m.way) then some l else some m) none
    match old with
    | some l => (l.way, some l)
    | none => (0, none)

/-- Put a new line into its set: the others of the set age by 1, up to 3. Answers the line evicted. -/
def Core.l1Insert (c : Core) (l : L1Line) : Core × Option L1Line :=
  let v := c.l1Victim l.set
  let kept := c.l1.filter fun (m : L1Line) => !(m.set == l.set && m.way == v.1)
  ({ c with l1 := kept.map (fun m => if m.set = l.set then { m with age := Nat.min 3 (m.age + 1) } else m) ++ [{ l with way := v.1 }] }, v.2)

/-- Invalidate every global-class line, fills in flight included (R183). -/
def Core.l1Acquire (c : Core) : Core := { c with l1 := c.l1.filter (·.priv), l1Seq := c.l1Seq + 1 }

/-- Invalidate a line in every core's L1 (DEDUCED, log 20). -/
def State.l1DropAll (s : State) (line : Nat) : State :=
  let drop (c : Core) : Core := { c with l1 := c.l1.filter fun (l : L1Line) => l.line != line }
  { s with c := drop s.c, cores := s.cores.map drop }

/-- Are all sectors valid that n bytes from byte b of the line touch? -/
def L1Line.covers (l : L1Line) (b n : Nat) : Bool := touchedSectors (byteMask b n) &&& ~~~l.valid == 0

/-- Do the bytes lie in a poisoned sector? -/
def badBytes (bad : BitVec 4) (b n : Nat) : Bool := touchedSectors (byteMask b n) &&& bad != 0

/-! ## The L1 lookups (R181, R132) -/

/-- T_L and the lines looked up before it in its tick, for a word of n lines: its lookups take ⌈n/4⌉ consecutive core cycles, at most 4 lines in each. -/
def State.lookSlot (s : State) (n : Nat) : Nat × Nat :=
  if s.c.lookAt < s.tick then (s.tick, 0)
  else if s.c.looked + Nat.min n 4 ≤ 4 then (s.c.lookAt, s.c.looked)
  else (s.c.lookAt + s.cycle, 0)

/-- T_L of a word that touches n lines. -/
def State.lookTick (s : State) (n : Nat) : Nat := (s.lookSlot n).1

/-- Take the lookups of a word that touches n lines (DEDUCED, log 108). -/
def State.takeLooks (s : State) (n : Nat) : State :=
  if n = 0 then s
  else
    let f := s.lookSlot n
    let full := (n - 1) / 4
    s.modC fun (c : Core) => { c with lookAt := f.1 + full * s.cycle, looked := if full = 0 then f.2 + n else n - 4 * full }

/-! ## Accesses of a wave -/

/-- An access of the wave at issue. -/
def Wave.acc? (w : Wave) (id : Nat) : Option Access := w.accs.find? fun (a : Access) => a.id == id

/-- Change an access. -/
def Wave.modAcc (w : Wave) (id : Nat) (f : Access → Access) : Wave :=
  { w with accs := w.accs.map fun (a : Access) => if a.id = id then f a else a }

/-- Give the time registers of a mask's lanes to a new access (R194, R196): its value is written, the arrival state cleared, and older
accesses no longer follow the register. -/
def Wave.claimTime (w : Wave) (id : Nat) (treg : Lanes (Fin 16)) (m : Mask) (f : Lane → DWord) : Wave :=
  let ms (n : Fin 16) : Mask := m &&& maskOf fun L => treg[L] = n
  let w := (List.finRange 16).foldl (fun (w : Wave) (n : Fin 16) =>
    if ms n = 0 then w else (w.writeT n (ms n) f).setArr n (ms n) false) w
  { w with accs := w.accs.map fun (a : Access) =>
      if a.id = id then { a with tlanes := a.tlanes ||| m, own := Vector.ofFn fun L => if m.getLsbD L.val then f L else a.own[L] }
      else { a with tlanes := a.tlanes &&& ~~~(m &&& maskOf fun L => a.treg[L] = treg[L]) } }

/-- Lower the promise that an access keeps for itself (R196, R200). -/
def Access.lowerOwn (a : Access) (m : Mask) (v : DWord) : Access :=
  let lower (L : Lane) : Bool :=
    m.getLsbD L.val && a.going L
      && (a.own[L] == noPromise || (isPromise a.own[L] && decide (v.toNat < (a.own[L]).toNat)))
  { a with own := Vector.ofFn fun L => if lower L then v else a.own[L] }

/-- Refine the promise of an access in the lanes of a mask to a tick (R200). -/
def Wave.refine (w : Wave) (a : Access) (m : Mask) (tick : Nat) : Wave :=
  let v : DWord := BitVec.ofNat 64 tick
  let lowers (L : Lane) : Bool :=
    let old := (w.regs.t[a.treg[L]])[L]
    m.getLsbD L.val && a.going L && a.tlanes.getLsbD L.val
      && (old == noPromise || (isPromise old && decide (v.toNat < old.toNat)))
  let w := w.modAcc a.id fun a => a.lowerOwn m v
  (List.finRange 16).foldl (fun (w : Wave) (n : Fin 16) =>
    let ms := maskOf fun L => lowers L && a.treg[L] == n
    if ms = 0 then w else w.writeT n ms fun _ => v) w

/-- The lanes of an access that a request brings a part of. -/
def Access.lanesOfReq (a : Access) (id : Nat) : Mask := maskOf fun L => (a.sources[L]).any fun p => p.1 == id

/-- Lanes whose time registers an access's lanes stand for: all of them for an `sld`. -/
def Access.timeLanes (a : Access) (m : Mask) : Mask := if a.uniform && m != 0 then BitVec.allOnes 32 else m

/-- Note the tick that a request is refined to. -/
def Access.noteTime (a : Access) (id tick : Nat) : Access := { a with lineTimes := (a.lineTimes.filter fun p => p.1 != id) ++ [(id, tick)] }

/-- The tick that a lane's requests are refined to (R197): the largest of them, none while one of them has not been refined. -/
def Access.laneTime (a : Access) (L : Lane) : Option Nat :=
  let ids := ((a.sources[L]).map (·.1)).dedup
  ids.foldl (fun (b : Option Nat) id => match b, a.lineTimes.find? fun p => p.1 == id with
    | some t, some p => some (Nat.max t p.2)
    | _, _ => none) (some (if a.hitLanes.getLsbD L.val then a.hitAt else 0))

/-- A refinement of a request reaches its access: each lane that the request brings a part of goes down to the largest tick of its parts. -/
def Wave.refineLanes (w : Wave) (acc id tick : Nat) : Wave :=
  let w := w.modAcc acc fun a => a.noteTime id tick
  match w.acc? acc with
  | none => w
  | some a =>
    (lanesOf (a.lanesOfReq id)).foldl (fun (w : Wave) L =>
      match a.laneTime L with
      | some t => w.refine ((w.acc? acc).getD a) (a.timeLanes (1#32 <<< L.val)) t
      | none => w) w

/-- The destination of a load takes its shape at issue (R220, R231): the values stay, and older writes are overtaken. -/
def Wave.toG (w : Wave) (r : Regs) (m : Mask) (d : VOp) (i : Nat) : Wave :=
  (targets r m d).foldl (fun w n =>
    let n : Fin 256 := Fin.ofNat 256 (n.val + i)
    w.writeLanes n (m &&& maskOf fun L => resolveNat r d L + i = n.val) fun L => (w.regs.v[n]).lane L) w

/-- The destination of an `sld`: shape U at issue when one register takes all 32 lanes (R220). -/
def Wave.toU (w : Wave) (r : Regs) (d : VOp) (i : Nat) : Wave :=
  match targets r (BitVec.allOnes 32) d with
  | [n] => let n : Fin 256 := Fin.ofNat 256 (n.val + i); w.writeWhole n (.coming (w.regs.v[n]).all)
  | _ => w.toG r (BitVec.allOnes 32) d i

/-- Put bytes of an access into a lane's data (DEDUCED, log 24). -/
def Access.deposit (a : Access) (L : Lane) (place bits : Nat) (bad : Bool) : Access :=
  { a with data := a.data.set L (a.data[L] ||| BitVec.ofNat 128 (2 ^ (8 * place) * bits))
           bad := if bad then a.bad ||| (1#32 <<< L.val) else a.bad }

/-- Has every part of a lane's access arrived? -/
def Access.whole (a : Access) (L : Lane) : Bool := (a.sources[L]).all fun p => !a.waits.contains p.1

/-- Write one register's lanes with an arriving result: shape and younger writes stay as issue left them (R231). -/
def Wave.arrive (w : Wave) (n : Fin 256) (m : Mask) (f : Lane → Word) : Wave :=
  if m = 0 then w else w.setV n ((w.regs.v[n]).merge m f)

/-- The word of register i of an access in a lane. -/
def Access.wordOf (a : Access) (i : Nat) (L : Lane) : Word := (a.data[L]).extractLsb' (32 * i) 32

/-- Write the results of an access in the lanes of a mask (R412). An `sld` that still writes all 32 lanes leaves shape U. -/
def Wave.land (w : Wave) (a : Access) (m : Mask) : Wave :=
  (List.finRange 5).foldl (fun (w : Wave) (i : Fin 5) =>
    if i.val < a.regs then
      if a.uniform && a.alive[i] == BitVec.allOnes 32 && m != 0 && ((List.finRange 32).all fun L => a.dst[L] == a.dst[(0 : Fin 32)]) then
        w.setV (Fin.ofNat 256 ((a.dst[(0 : Fin 32)]).val + i.val)) (.u (a.wordOf i (lowest m)))
      else
        let lanes := if a.uniform then a.alive[i] else m &&& a.alive[i]
        let f (L : Lane) : Word := a.wordOf i (if a.uniform then lowest m else L)
        (((lanesOf lanes).map fun L => Fin.ofNat 256 ((a.dst[L]).val + i.val)).dedup).foldl (fun (w : Wave) n =>
          w.arrive n (lanes &&& maskOf fun L => (a.dst[L]).val + i.val = n.val) f) w
    else w) w

/-- End an access in the lanes of a mask (R195): the time registers that follow it become `f` where given, their arrival state is set. -/
def Wave.endLanes (w : Wave) (a : Access) (m : Mask) (f : Lane → DWord → DWord) : Wave :=
  let all := if a.uniform && m != 0 then BitVec.allOnes 32 else m
  let w := (List.finRange 16).foldl (fun (w : Wave) (n : Fin 16) =>
    let ms := all &&& a.tlanes &&& maskOf fun L => a.treg[L] = n
    if ms = 0 then w
    else (w.writeT n ms fun L => f L (w.regs.t[n])[L]).setArr n ms true) w
  { w with accs := w.accs.filterMap fun (b : Access) =>
      if b.id = a.id then (if b.lanes &&& ~~~m = 0 then none else some { b with lanes := b.lanes &&& ~~~m }) else some b }

/-- Mark the destinations of lanes that ended as POISON: the next read there traps (R213) (DEDUCED, log 13). -/
def Wave.markPoison (w : Wave) (a : Access) (m : Mask) : Wave :=
  let marks := (List.finRange 5).flatMap fun (i : Fin 5) =>
    if i.val < a.regs then
      let lanes := (if a.uniform && m != 0 then BitVec.allOnes 32 else m) &&& a.alive[i]
      (((lanesOf lanes).map fun L => (Fin.ofNat 256 ((a.dst[L]).val + i.val) : Fin 256)).dedup).map fun n =>
        (n, lanes &&& maskOf fun L => (a.dst[L]).val + i.val = n.val)
    else []
  { w with poisoned := w.poisoned ++ marks }

/-- The entry parked at a word stands at the word again. -/
def Wave.backToWord (w : Wave) : Wave :=
  { w with park := .none, front := mergeEntries (w.front.map fun (e : Entry) => if e.mask = w.parkLanes then { e with pc := w.parkPc } else e) }

/-- Release a wave whose wait is over (R180, R209, R210): a switch marker with no result outstanding, a `twait`, a `tyield`, a value wait,
a `replay`. It issues again from the next tick. A `twait` of which a lane became POISON issues again, and traps (R209). -/
def Wave.release (w : Wave) (tick : Nat) (held : Bool) : Wave :=
  let go (w : Wave) : Wave := { w with park := .none, mayIssue := tick + 1 }
  let w := if w.switch && !w.outstanding then { w with switch := false, mayIssue := tick + 1 } else w
  match w.park with
  | .twait t =>
    if (lanesOf w.parkLanes).any fun L => (w.regs.t[t[L]])[L] == poisonTime then { w.backToWord with mayIssue := tick + 1 }
    else if (lanesOf w.parkLanes).all fun L => waitDone w t[L] L then go w else w
  | .tyield t => if (lanesOf w.parkLanes).all fun L => matureDone w t[L] L then go w else w
  | .value a => if w.accs.any fun (b : Access) => b.id == a || b.kind == .wfill then w else go w
  | .replay => if held || w.accs.any (·.fromHold) then w else go w
  | _ => w
where
  /-- R209. -/
  waitDone (w : Wave) (n : Fin 16) (L : Lane) : Bool :=
    let v := (w.regs.t[n])[L]
    (w.regs.arr[n]).getLsbD L.val && (decide (v.toNat ≤ tick) || v == cancelTime)
  /-- R202. -/
  matureDone (w : Wave) (n : Fin 16) (L : Lane) : Bool :=
    let v := (w.regs.t[n])[L]
    (w.regs.arr[n]).getLsbD L.val || (isPromise v && decide (v.toNat ≤ tick))

/-! ## Requests -/

/-- Is it a read? -/
def ReqKind.isRead : ReqKind → Bool
  | .read _ => true
  | .write => false
  | .atomic _ _ => false
  | .take _ => false
  | .mreq => false
  | .event _ => false

/-- Is the packet of a request a write (R36)? -/
def ReqKind.isWrite : ReqKind → Bool
  | .read _ => false
  | .write => true
  | .atomic _ _ => true
  | .take _ => false
  | .mreq => false
  | .event _ => true

/-- Does a request come before another in the program order of their wave? -/
def Req.before (q r : Req) : Bool := decide (q.seq < r.seq) || (q.seq == r.seq && decide (q.id < r.id))

/-- A request by its id. -/
def State.req? (s : State) (id : Nat) : Option Req := s.reqs.find? fun (r : Req) => r.id == id

/-- Change a request. -/
def State.modReq (s : State) (id : Nat) (f : Req → Req) : State :=
  { s with reqs := s.reqs.map fun (r : Req) => if r.id = id then f r else r }

/-- A request is over. -/
def State.dropReq (s : State) (id : Nat) : State := { s with reqs := s.reqs.filter fun (r : Req) => r.id != id }

/-! ## Earlier words that are held (R302, R329) -/

/-- The address of event n of a context whose event words begin at `base` (R155). -/
def eventAddr (base : BitVec 39) (name : BitVec 16) : Nat := (base.toNat * 2 ^ 18 + 4 * name.toNat) % 2 ^ 57

/-- The virtual lines that the lanes of a memory word touch, from the registers it was issued with, its private segment and the base
of its context's event words. -/
def wordLines (i : Instr) (r : Regs) (m : Mask) (seg : VA) (ev : BitVec 39) : List Nat :=
  let lines (f : Lane → List Piece) : List Nat := ((lanesOf m).flatMap fun L => (f L).map fun p => p.va / 128).dedup
  let at_ (a : VOp) (b : SPair) (n : Size) : List Nat := lines fun L => linePieces (laneAddr r a b L) (sizeBytes n)
  let run (a : SPair) (v : Word) : List Nat := (List.range (v.toNat / 256 % 64 + 1)).map fun j => ((r.pair a).toNat / 128 + j) % 2 ^ 50
  match i with
  | .ld m _ a b _ => at_ a b m.size
  | .sld m _ a b _ => at_ a b m.size
  | .ldt m _ a b _ _ => at_ a b m.size
  | .probe m a b _ => at_ a b m.size
  | .st m _ a b _ => at_ a b m.size
  | .sst m _ a b _ => at_ a b m.size
  | .atom _ m _ a b _ => at_ a b m.size
  | .cas m _ a b _ _ => at_ a b m.size
  | .atsc _ m _ a b _ => at_ a b m.size
  | .red _ m _ a b => at_ a b m.size
  | .hred _ m _ a b => at_ a b m.size
  | .ldp m _ a b _ => lines fun L => privPieces seg.toNat L (laneOffset r a b L) (sizeBytes m.size)
  | .stp m _ a b => lines fun L => privPieces seg.toNat L (laneOffset r a b L) (sizeBytes m.size)
  | .wspill a b => run a (r.sget b)
  | .wfill a b => run a (r.sget b)
  | .evsig a => [eventAddr ev ((r.sget a).setWidth 16) / 128]
  | .evwait a _ => [eventAddr ev ((r.sget a).setWidth 16) / 128]
  | .evq _ a => [eventAddr ev ((r.sget a).setWidth 16) / 128]
  | .sigdec p => [(r.pair p).toNat % 2 ^ 57 / 128]
  | _ => []

/-- Is the word a store of its wave for the orders of R302 and R305? -/
def storesWord (i : Instr) : Bool :=
  match i with
  | .st _ _ _ _ _ => true
  | .sst _ _ _ _ _ => true
  | .stp _ _ _ _ => true
  | .atom _ _ _ _ _ _ => true
  | .cas _ _ _ _ _ _ => true
  | .atsc _ _ _ _ _ _ => true
  | .red _ _ _ _ _ => true
  | .hred _ _ _ _ _ => true
  | .evsig _ => true
  | .sigdec _ => true
  | .wspill _ _ => true
  | _ => false

/-- Has an order an acquire side, a release side? -/
def Order.acquires : Order → Bool
  | .wk => false
  | .acq => true
  | .rel => false
  | .ar => true

def Order.releases : Order → Bool
  | .wk => false
  | .acq => false
  | .rel => true
  | .ar => true

/-- Does a scope reach beyond the core (R305)? -/
def Scope.wide : Scope → Bool
  | .dev => true
  | .wave => false
  | .group => false
  | .sys => true

/-- Is the word a store or an atomic that releases at device or system scope (R35)? -/
def releasesWord (i : Instr) : Bool :=
  let rel (m : MemMod) : Bool := Order.releases m.order && Scope.wide m.scope
  match i with
  | .st m _ _ _ _ => rel m
  | .sst m _ _ _ _ => rel m
  | .atom _ m _ _ _ _ => rel m
  | .cas m _ _ _ _ _ => rel m
  | .atsc _ _ _ _ _ _ => true
  | .red _ m _ _ _ => rel m
  | .hred _ m _ _ _ => rel m
  | .evsig _ => true
  | .sigdec _ => true
  | _ => false

/-- Has the wave a replay entry, of a word before serial n, of which a test holds? -/
def State.heldBy (s : State) (uid n : Nat) (p : Held → Bool) : Bool :=
  s.allCores.any fun (c : Core) => c.held.any fun (h : Held) => h.wave == uid && decide (h.id < n) && p h

/-- Has the wave lanes of a store, before serial n, in a replay entry? -/
def State.storesHeld (s : State) (uid n : Nat) : Bool := s.heldBy uid n fun h => storesWord h.instr

/-- The virtual lines that a held word still has to reach. -/
def State.heldLines (s : State) (h : Held) : List Nat :=
  match s.wave? h.wave with
  | some w => wordLines h.instr h.latch h.mask w.segbase (((s.ctx? w.ctx).map (·.evbase)).getD 0)
  | none => []

/-- Has the wave a held word, before serial n, that reaches the virtual line (R300, R302, R303) (DEDUCED, log 133)? -/
def State.heldLine (s : State) (uid n vline : Nat) : Bool := s.heldBy uid n fun h => (s.heldLines h).contains vline

/-- The place in program order of what the word at issue sends. -/
def State.seqNow (s : State) : Nat := s.cur.seq.getD s.serial

/-- The physical address of a line of a target. -/
def linePa (t : Target) (line : Nat) : Nat := line * 128 - spaceBase t

/-- The issue tick of what is performed, and the G that was published then (R197, R212). -/
def State.issueTick (s : State) : Nat × Nat := s.cur.since.getD (s.tick, s.publishedG s.x.part)

/-- The first field values of a request of the wave at issue for a line. -/
def State.newReq (s : State) (kind : ReqKind) (t : Target) (line : Nat) : Req :=
  let core := coreOfSlot s.w.slot
  { id := s.serial, kind := kind, wave := s.w.uid, slot := s.w.slot, core := core, site := octOfCore core,
    home := homeOf (linePa t line), ctx := s.w.ctx, part := s.x.part, line := line, job := s.g.job, target := t, seq := s.seqNow, l1Seq := s.c.l1Seq, born := s.tick
    issued := s.issueTick.1, g := s.issueTick.2 }

/-- Send a request; the happening that takes it further is due. A read of host or peer memory goes to its port and is answered there. -/
def State.send (s : State) (r : Req) : State :=
  let s := { s with reqs := s.reqs ++ [r], serial := s.serial + 1 }
  match r.kind, r.target with
  | .write, _ => s.due (.storeAccept r.id)
  | .read _, .device => s.due (.l2ProbeAccept r.id 0)
  | .take _, .device => s.due (.l2ProbeAccept r.id 0)
  | .atomic _ _, .device => s.due (.stampWrite r.id)
  | .event _, .device => s.due (.stampWrite r.id)
  | .mreq, _ => s.due (.stampRead r.id)
  | .read _, _ => s.due (.l1Fill r.id)
  | .take _, _ => s.due (.l1Fill r.id)
  | .atomic _ _, _ => s.due (.homeAluAccept r.id)
  | .event _, _ => s.due (.eventAddAtHome r.id)

/-- Has a core a store or an atomic on the line that its home has not performed? What a read brings meanwhile stays out of the core's L1, so that
a later load sees the write (R303, R319, R418) (DEDUCED, log 133). -/
def State.writesOut (s : State) (core line : Nat) : Bool :=
  s.reqs.any fun (r : Req) => r.core == core && r.line == line && !r.quiet && r.kind.isWrite
    && (r.stage == .l2 || r.stage == .stamp || r.stage == .wire || r.stage == .early)

/-- The fetch of the missing sectors of a private line that the L1 holds, which a store waits to merge with (R184). -/
def State.privFetch (s : State) (core line : Nat) : Option Req :=
  s.reqs.find? fun (r : Req) => r.core == core && r.line == line && r.kind.isRead && r.priv && r.quiet && r.fillL1

/-- A line of a core that a load hits: all its sectors valid, in the class of the access. -/
def Core.l1Hit (c : Core) (line b n : Nat) (priv : Bool) : Option L1Line :=
  match c.l1Find line with
  | some l => if l.priv = priv && l.covers b n then some l else none
  | none => none

/-- Is a piece a hit in the L1 of the wave at issue? No line is one while the fetch of its missing sectors is out (R184), or an earlier word of
the wave that is held reaches it (R303) (DEDUCED, log 109) (DEDUCED, log 133). -/
def State.pieceHit (s : State) (p : Piece) (priv acquire : Bool) : Bool :=
  match s.c.keyAt s.w.ctx p.va with
  | some (.device, k) => !acquire && (s.c.l1Hit (k / 128) (k % 128) p.n priv).isSome && (s.privFetch s.c.id (k / 128)).isNone
      && !s.heldLine s.w.uid s.seqNow (p.va / 128)
  | _ => false

/-- What a load asks for beyond its address. -/
structure LoadKind where
  priv : Bool := false
  acquire : Bool := false            -- at `.dev` or `.sys`
  sys : Bool := false
  policy : Policy := .dflt
  take : Option (BitVec 16) := none
  probe : Bool := false
  home : Bool := false               -- read at the home whatever caches hold

/-- Perform one piece of a lane's read: from the L1, or by a request for its line, one for each line of the word. -/
def State.loadPiece (s : State) (acc : Nat) (k : LoadKind) (L : Lane) (p : Piece) : State :=
  match s.c.keyAt s.w.ctx p.va with
  | none => s
  | some (t, key) =>
    let line := key / 128
    let b := key % 128
    if k.probe && t != Target.device then s
    else
    match (if k.take.isSome || t != Target.device || !s.pieceHit p k.priv (k.acquire || k.home) then none else s.c.l1Find line) with
    | some l =>
      let s := s.modC fun c => c.l1Mod line fun l => { l with age := hitAge k.policy l.age }
      s.modW fun w => w.modAcc acc fun a =>
        { a.deposit L p.place (lineNat l.data b p.n) (badBytes l.bad b p.n) with hitLanes := a.hitLanes ||| (1#32 <<< L.val) }
    | none =>
      let mine := match (if k.priv && !k.acquire then s.privFetch s.c.id line else none) with
        | some r => some r
        | none => s.reqs.find? fun (r : Req) => r.acc == some acc && r.line == line
      let s := match mine with
        | some r => s.modReq r.id fun r => { r with mask := r.mask ||| byteMask b p.n }
        | none => s.send { s.newReq (match k.take with
            | some key => .take key
            | none => .read (k.acquire || k.home)) t line with
            acc := some acc, mask := byteMask b p.n, acquire := k.acquire, sys := k.sys, policy := k.policy
            fillL1 := k.take.isNone && t == Target.device, va := BitVec.ofNat 57 (p.va / 128 * 128), priv := k.priv
            under := match s.c.l1Find line with
              | some l => l.dirty
              | none => 0
            underData := match s.c.l1Find line with
              | some l => l.data
              | none => 0 }
      let id := match mine with
        | some r => r.id
        | none => s.serial - 1
      s.modW fun w => w.modAcc acc fun a =>
        { a with waits := if a.waits.contains id then a.waits else a.waits ++ [id]
                 sources := a.sources.set L (a.sources[L] ++ [(id, b, p.n, p.place)]) }

/-- Perform the reads of the lanes of a mask; what has arrived already is written at a VALUE_ARRIVAL. -/
def State.loadLanes (s : State) (acc : Nat) (k : LoadKind) (m : Mask) (ps : Lane → List Piece) : State :=
  let s := (lanesOf m).foldl (fun s L => (ps L).foldl (fun s p => s.loadPiece acc k L p) s) s
  s.due (.valueArrival s.w.slot acc)

/-- The bytes that the lanes of a store write in each line: line, target, mask and data; where lanes write one byte the highest lane's is
kept (R300). -/
structure LineWrite where
  target : Target
  line : Nat
  va : Nat                           -- its virtual line
  mask : BitVec 128
  data : BitVec 1024

def addWrite (l : List LineWrite) (t : Target) (line va : Nat) (mask : BitVec 128) (d : BitVec 1024) : List LineWrite :=
  if l.any fun w => w.line == line then
    l.map fun w => if w.line = line then { w with mask := w.mask ||| mask, data := mergeLine w.data d mask } else w
  else l ++ [{ target := t, line := line, va := va, mask := mask, data := d }]

/-- Collect the line writes of a mask's lanes: `val` is a lane's data as a number. -/
def State.lineWrites (s : State) (m : Mask) (ps : Lane → List Piece) (val : Lane → Nat) : List LineWrite :=
  (lanesOf m).foldl (fun l L => (ps L).foldl (fun l p =>
    match s.c.keyAt s.w.ctx p.va with
    | none => l
    | some (t, k) =>
      addWrite l t (k / 128) (p.va / 128) (byteMask (k % 128) p.n) (lineAt (val L / 2 ^ (8 * p.place) % 2 ^ (8 * p.n)) (k % 128))) l) []

/-- The stores of a tick update the L1 copies, oldest first, when every lookup of the tick has been made (R193). -/
def Core.l1Settle (c : Core) : Core :=
  if c.l1Late.isEmpty then c
  else
    { c.l1Late.foldl (fun (c : Core) (w : L1Late) => c.l1Mod w.line fun l =>
        { l with data := mergeLine l.data w.data w.mask, bad := (l.bad &&& ~~~(fullSectors w.mask)) ||| w.bad, age := hitAge w.policy l.age }) c with l1Late := [] }

/-- A fill that a read after the stores of the tick brings has their bytes, or later ones. -/
def Core.l1Filled (c : Core) (line : Nat) : Core := { c with l1Late := c.l1Late.filter fun (w : L1Late) => w.line != line }

/-- A store's bytes in a line that the L1 holds (DEDUCED, log 109). -/
def L1Line.stored (l : L1Line) (w : LineWrite) : L1Line :=
  { l with data := mergeLine l.data w.data w.mask, bad := l.bad &&& ~~~(fullSectors w.mask) }

/-- Which store the words of a store are. -/
structure StoreKind where
  release : Bool := false            -- a release write (R36)
  sys : Bool := false
  policy : Policy := .dflt
  key : Option (BitVec 16) := none
  acc : Option Nat := none
  bad : BitVec 4 := 0                -- poisoned sectors of the data (R83)

/-- Does a store that was held come after younger stores of its wave to the line? Their bytes stand in the L1 copy. -/
def State.overtaken (s : State) (line : Nat) : Bool :=
  s.cur.seq.isSome && s.reqs.any fun (r : Req) => r.wave == s.w.uid && r.line == line && r.kind == .write && decide (s.seqNow < r.seq)

/-- Does a store to a target carry the release of a fence before it (R298, R307)? Answers whether, whether at system scope, and the wave
for which the fence no longer stands. -/
def Wave.fencedStore (w : Wave) (t : Target) (home : Oct) : Bool × Bool × Wave :=
  if t = Target.device then
    if w.relHomes.getLsbD home.val then (true, w.relSys, { w with relHomes := w.relHomes &&& ~~~(1#8 <<< home.val) }) else (false, false, w)
  else (w.relOut.isSome, w.relOut == some Scope.sys, { w with relOut := none })

/-- A global-class store of one line (R182): the L1 copy is updated at the end of the tick (R193), or leaves the L1 when the store was held and younger
ones have updated it; fills in flight leave the line invalid (R319), and the write is posted. The first store to a home after a release fence,
or the first to host or peer memory, is a release (R298, R307) (DEDUCED, log 134). -/
def State.postWrite (s : State) (k : StoreKind) (w : LineWrite) : State :=
  let s := s.modC fun (c : Core) =>
    if s.overtaken w.line then { c with l1 := c.l1.filter fun (l : L1Line) => l.priv || l.line != w.line, l1Late := c.l1Late.filter fun (x : L1Late) => x.line != w.line }
    else { c with l1Late := c.l1Late ++ [{ line := w.line, mask := w.mask, data := w.data, policy := k.policy, bad := k.bad }] }
  let s := { s with reqs := s.reqs.map fun (r : Req) =>
    if r.core == coreOfSlot s.w.slot && r.line == w.line && r.kind.isRead then { r with fillL1 := false } else r }
  let r := s.newReq .write w.target w.line
  let f := s.w.fencedStore w.target r.home
  let s := s.modW fun v => (v.fencedStore w.target r.home).2.2
  s.send { r with
    va := BitVec.ofNat 57 (w.va * 128), mask := w.mask, data := w.data, release := k.release || f.1, sys := k.sys || f.2.1, policy := k.policy
    key := if w.target = .device then k.key else none, acc := k.acc, bad := k.bad }

/-- Write back a private line that leaves the L1 (R184). -/
def State.writeBack (s : State) (core : Nat) (l : L1Line) : State :=
  if l.priv ∧ l.dirty ≠ 0 then
    let r := s.newReq .write .device l.line
    let job := (((s.wave? l.owner).bind fun w => s.group? w.gid).map (·.job)).getD 0
    let s := { s with reqs := s.reqs.map fun (q : Req) =>
      if q.core == core && q.line == l.line && q.kind.isRead then
        { q with fillL1 := false, under := if q.quiet && q.fillL1 then l.dirty else q.under, underData := if q.quiet && q.fillL1 then l.data else q.underData }
      else q }
    s.send { r with seq := s.serial, mask := l.dirty, data := l.data, bad := l.bad &&& touchedSectors l.dirty &&& l.valid, va := l.va, wave := l.owner, ctx := l.ctx, part := s.partOf l.ctx, job := job, core := core,
                    site := octOfCore core, quiet := true }
  else s

/-- The write-back of a private line that a fill replaced in this tick: a store of the tick comes before it (R193). -/
def State.leftNow (s : State) (line : Nat) : Option Req :=
  s.reqs.find? fun (r : Req) => r.wave == s.w.uid && r.line == line && r.kind == .write && r.quiet && r.stage == .l2 && r.born == s.tick

/-- A private-class store to a line of the L1, or of one line that it allocates (R184): sectors written in full become valid, and the rest of a
partly written sector is fetched. A line that the L1 held for the global class becomes a private one (R182) (DEDUCED, log 135). -/
def State.privStore (s : State) (va : Nat) (w : LineWrite) : State :=
  let s :=
    if (s.c.l1Find w.line).isSome then s
    else
      let p := s.c.l1Insert { line := w.line, set := l1Set va, way := 0, priv := true, owner := s.w.uid, ctx := s.w.ctx,
                              va := BitVec.ofNat 57 (va / 128 * 128) }
      let s := { s with c := p.1 }
      match p.2 with
      | some old => s.writeBack (coreOfSlot s.w.slot) old
      | none => s
  let s := s.modC fun c => c.l1Mod w.line fun l =>
    { l.stored w with dirty := l.dirty ||| w.mask, valid := l.valid ||| fullSectors w.mask, age := 0
                      priv := true, owner := s.w.uid, ctx := s.w.ctx, va := BitVec.ofNat 57 (va / 128 * 128) }
  match s.c.l1Find w.line with
  | some l =>
    if touchedSectors w.mask &&& ~~~l.valid = 0 || (s.privFetch s.c.id w.line).isSome then s
    else s.send { s.newReq (.read false) .device w.line with mask := BitVec.allOnes 128, quiet := true, priv := true, va := BitVec.ofNat 57 (va / 128 * 128) }
  | none => s

/-- A private-class store of one line (R184, R193). -/
def State.privWrite (s : State) (va : Nat) (w : LineWrite) : State :=
  match (if (s.c.l1Find w.line).isSome then none else s.leftNow w.line) with
  | some q => s.modReq q.id fun r => { r with mask := r.mask ||| w.mask, data := mergeLine r.data w.data w.mask, bad := r.bad &&& ~~~(fullSectors w.mask) }
  | none => s.privStore va w

/-! ## Accepting a word (R181, R306, R329) -/

/-- The line-fill tracker entries in use: one for each line miss that has not filled. -/
def State.trackerUsed (s : State) (core : Nat) : Nat :=
  s.reqs.countP fun (r : Req) => r.core == core && r.eng.isNone && (match r.kind with
    | .read _ => true
    | .take _ => true
    | .write => false
    | .atomic _ _ => false
    | .mreq => false
    | .event _ => false)

/-- Has the tracker an entry for each of n line misses (R2, R181)? -/
def State.trackerRoom (s : State) (n : Nat) : Bool := decide (s.trackerUsed (coreOfSlot s.w.slot) + n ≤ Config.trackerEntries)

/-- Does an acquire of the wave hold back its memory words (R306)? -/
def Wave.acquiring (w : Wave) : Bool := w.accs.any fun (a : Access) => a.acquire.isSome

/-- Has the wave a read that has not read its value? (DEDUCED, log 22) -/
def Wave.reading (w : Wave) : Bool := w.accs.any fun (a : Access) => a.kind == .load || a.kind == .atom

/-- Is a request of a wave a store that has not completed under R184: one that the L2 slice has not accepted, a release that is not stamped, an
atomic that its home has not performed, or a private store that waits for the rest of its sector? (DEDUCED, log 133) -/
def Req.storing (r : Req) : Bool :=
  match r.kind with
  | .write => r.stage == .l2 || (r.release && r.stage == .stamp)
  | .atomic _ _ => r.stage == .l2 || r.stage == .stamp || r.stage == .wire || r.stage == .early
  | .event _ => r.stage == .l2 || r.stage == .stamp || r.stage == .wire || r.stage == .early
  | .read _ => r.priv && r.quiet
  | .take _ => false
  | .mreq => false

/-- Has the wave a store before serial n that has not completed under R184? -/
def State.storingBefore (s : State) (uid n : Nat) : Bool :=
  (s.reqs.any fun (r : Req) => r.wave == uid && decide (r.seq < n) && r.storing) || s.storesHeld uid n

/-- Has the wave a store that has not completed under R184? -/
def State.storing (s : State) (uid : Nat) : Bool := s.storingBefore uid s.serial

/-- Has the wave a store that is not stamped? -/
def State.unstamped (s : State) (uid : Nat) : Bool :=
  s.storesHeld uid s.serial || s.reqs.any fun (r : Req) => r.wave == uid && !r.quiet && r.target == Target.device && (r.stage == .l2 || r.stage == .stamp) && (match r.kind with
    | .write => true
    | .atomic _ _ => true
    | .event _ => true
    | .read _ => false
    | .take _ => false
    | .mreq => false)

/-- Has the wave a write that is not applied at its home or acknowledged by its target? -/
def State.unapplied (s : State) (uid : Nat) : Bool :=
  s.storesHeld uid s.serial || s.reqs.any fun (r : Req) => r.wave == uid && !r.quiet && (match r.kind with
    | .write => true
    | .atomic _ _ => r.stage != .alu && r.stage != .reply
    | .event _ => true
    | .read _ => false
    | .take _ => false
    | .mreq => false)

/-- May a release at a scope that orders the core's own stores take effect (R305)? A store with lanes in a replay entry is in no L1 copy.
`.dev` and `.sys` releases wait at the stamper (DEDUCED, log 21). -/
def State.releaseOk (s : State) (o : Order) (sc : Scope) : Bool :=
  match o, sc with
  | .rel, .wave => !s.w.reading && !s.storesHeld s.w.uid s.serial
  | .ar, .wave => !s.w.reading && !s.storesHeld s.w.uid s.serial
  | .rel, .group => !s.w.reading && !s.storing s.w.uid
  | .ar, .group => !s.w.reading && !s.storing s.w.uid
  | _, _ => true

/-- Do the lanes that miss in the TLB need a replay entry that the core does not have (R329)? -/
def State.noReplay (s : State) (miss : Mask) : Bool := miss != 0 && decide (Config.replayEntries ≤ s.c.held.length)

/-- Would the word write a register that a held word of the wave reads or writes, or change an index register it used (R329)? -/
def State.heldConflict (s : State) (i : Instr) : Bool :=
  let u := uses i
  let act := s.cur.active
  s.c.held.any fun (h : Held) => h.wave == s.w.uid &&
    let v := uses h.instr
    let regs (l : List (VOp × Nat × OpField)) (r : Regs) (m : Mask) : List (Nat × Nat) :=
      l.flatMap fun o => (lanesOf m).flatMap fun L => (List.range (o.2.1 + 1)).map fun j => (resolveNat r o.1 L + j, L.val)
    let hold := regs (v.vr ++ v.vw ++ v.vn) h.latch h.mask
    ((regs u.vw s.w.regs act).any fun p => hold.contains p)
      || (u.sw.any fun n => v.sr.contains n || v.sw.contains n)
      || (u.xw.any fun x => (xnumsOf h.instr).contains x)
      || ((stepOps i).any fun p => (xnumsOf h.instr).contains p.1)

/-- One byte of a group's scratchpad; beyond the allocation it reads 0 (R185). -/
def Group.padByte (g : Group) (o : Nat) : Byte := if o < g.scratch then cellsGet g.pad o else 0

/-- The tensor layout record at a scratchpad offset (R289) (DEDUCED, log 34). -/
def Group.tensorAt (g : Group) (o : Nat) : List Byte := (List.range 128).map fun k => g.padByte (o + k)

/-- Hold the lanes of a word that miss in the L1 TLB (R329): the operands are kept as they were at issue, the record of a `cpt` as it was read (R289). -/
def State.hold (s : State) (i : Instr) (miss : Mask) (need : Need) (va : Nat) (acc : Option Nat) : State :=
  if miss = 0 then s
  else
    let stepped := (stepOps i).foldl (fun (v : BitVec 16) p => if p.2 then v ||| (1#16 <<< p.1.val) else v) 0
    let h : Held := { id := s.serial, wave := s.w.uid, slot := s.w.slot, pc := s.cur.pc, instr := i, mask := miss, latch := s.latch,
                      need := need, va := BitVec.ofNat 57 va, stepped := stepped, since := s.tick, acc := acc,
                      issued := s.tick, g := s.publishedG s.x.part, active := s.cur.active,
                      rec_ := match i with
                        | .cpt a _ _ => s.g.tensorAt (s.latch.sget a).toNat
                        | _ => [] }
    (({ s with serial := s.serial + 1 }).modC fun c => { c with held := c.held ++ [h] }).due (.translationComplete s.w.slot h.id)

/-! ## The scratchpad (R185, R186) -/

/-- Write a byte; beyond the allocation it is discarded. A block of the gather cache that holds the byte leaves the cache (R265). -/
def Group.setPad (g : Group) (o : Nat) (v : Byte) : Group :=
  if o < g.scratch then
    { g with pad := cellsSet g.pad o v, gathered := g.gathered.filter fun b => !(decide (b ≤ o) && decide (o < b + 256)) }
  else g

/-- n bytes of the scratchpad as a number. -/
def Group.padNat (g : Group) (o n : Nat) : Nat := natOfBytes ((List.range n).map fun k => g.padByte (o + k))

/-- Write n bytes of a number. -/
def Group.putPad (g : Group) (o : Nat) : List Byte → Group
  | [] => g
  | b :: rest => (g.setPad o b).putPad (o + 1) rest

/-- Are bytes of the scratchpad poisoned (R83)? -/
def Group.padPoison (g : Group) (o n : Nat) : Bool :=
  (List.range n).any fun k => decide (o + k < g.scratch) && g.padBad.contains ((o + k) / 32)

/-- A write of bytes [o, o + n): a sector written in full loses its poison. -/
def Group.clearPad (g : Group) (o n : Nat) : Group :=
  { g with padBad := g.padBad.filter fun (sct : Nat) => !(decide (o ≤ sct * 32) && decide (sct * 32 + 32 ≤ o + n)) }

/-- A word's write of n bytes for each lane of a mask: a sector that the lanes together write in full loses its poison (R83). -/
def Group.clearLanes (g : Group) (m : Mask) (off : Lane → Nat) (n : Nat) : Group :=
  { g with padBad := g.padBad.filter fun (sct : Nat) =>
      !((List.range 32).all fun b => (lanesOf m).any fun L => decide (off L ≤ sct * 32 + b) && decide (sct * 32 + b < off L + n)) }

/-! ### Both ports in one tick: the engine port comes first (R186, R193, R281) -/

/-- Keep the bytes that a wave-port store of this tick is about to replace. -/
def Group.keepFresh (g : Group) (tick : Nat) (offs : List Nat) : Group :=
  let old := if g.fresh.1 = tick then g.fresh.2 else []
  let new := (offs.filter fun o => decide (o < g.scratch) && !(old.any fun c => c.1 == o)).dedup
  { g with fresh := (tick, old ++ new.map fun o => (o, g.padByte o)) }

/-- The scratchpad as the engine port reads it in a tick: before the tick's stores. -/
def Group.engineView (g : Group) (tick : Nat) : Group :=
  if g.fresh.1 = tick then { g with pad := g.fresh.2.foldl (fun p c => cellsSet p c.1 c.2) g.pad } else g

/-- A write of the engine port: the tick's stores of the wave ports come after it. -/
def Group.engineWrite (g : Group) (tick : Nat) (f : Group → Group) : Group :=
  if g.fresh.1 ≠ tick ∨ g.fresh.2 = [] then f g
  else
    let h := f (g.engineView tick)
    g.fresh.2.foldl (fun (x : Group) c => x.setPad c.1 (g.padByte c.1)) { h with fresh := (tick, g.fresh.2.map fun c => (c.1, h.padByte c.1)) }

/-- An `lds` of this tick reads what the engine port has written in it. -/
def Access.reread (a : Access) (g : Group) (tick : Nat) : Access :=
  match a.instr with
  | .lds m _ _ _ _ =>
    if a.issued ≠ tick then a
    else
      (lanesOf a.lanes).foldl (fun (x : Access) L => x.deposit L 0 (g.padNat (a.place[L]) (sizeBytes m.size)) (g.padPoison (a.place[L]) (sizeBytes m.size)))
        { a with data := Vector.replicate _ 0, bad := 0 }
  | _ => a

/-- A write of the engine port into a group's scratchpad. -/
def State.enginePad (s : State) (gid : Nat) (f : Group → Group) : State :=
  let s := s.modGroup gid fun g => g.engineWrite s.tick f
  match s.group? gid with
  | none => s
  | some g =>
    let one (w : Wave) : Wave := if w.gid = gid then { w with accs := w.accs.map fun (a : Access) => a.reread g s.tick } else w
    { s with w := one s.w, waves := s.waves.map one }

/-- d of R186: the largest number of distinct 16-byte words that the lanes name in any one bank. -/
def bankDepth (m : Mask) (off : Lane → Nat) (n : Nat) : Nat :=
  let words := ((lanesOf m).flatMap fun L => (List.range ((off L + n - 1) / 16 - off L / 16 + 1)).map fun j => off L / 16 + j).dedup
  (List.range 128).foldl (fun d b => Nat.max d (words.countP fun w => w % 128 == b)) 0

/-- Take the sub-core's wave port (R186, R132): Start and the promise (DEDUCED, log 103). -/
def State.wavePort (s : State) (d : Nat) : Nat × State :=
  let sub := subOfSlot s.w.slot
  let start := Nat.max s.tick s.c.q[sub]
  (start, s.modC fun c => { c with q := c.q.set sub (start + 4 * d * s.cycle) })

end Machine
end Sys2Proof
end

