-- ==== Sys2Proof/Machine/NumFmt.lean ====
section
/-! DEFINITION. Number formats, rounding, exact arithmetic on finite values, conversions (R239-R250) and the bounded transcendental
results of R247. A finite value is a sign, a natural mantissa and an exponent, so every operation is exact until it is rounded. -/

namespace Sys2Proof
namespace Machine

/-! ## Formats (R239) -/

/-- How a format encodes infinity and NaN. -/
inductive Special where
  | ieee        -- all-ones exponent: F = 0 infinity, F ≠ 0 NaN
  | e4m3        -- all ones but the sign: NaN; no infinity
  | none        -- neither
deriving DecidableEq, Repr

/-- A floating-point format: widths of exponent and mantissa, the bias, and its special patterns. -/
structure FloatFmt where
  expBits : Nat
  manBits : Nat
  bias : Nat
  special : Special
deriving DecidableEq, Repr

def fmtF32 : FloatFmt := { expBits := 8, manBits := 23, bias := 127, special := .ieee }
def fmtF16 : FloatFmt := { expBits := 5, manBits := 10, bias := 15, special := .ieee }
def fmtBF16 : FloatFmt := { expBits := 8, manBits := 7, bias := 127, special := .ieee }
def fmtE4M3 : FloatFmt := { expBits := 4, manBits := 3, bias := 7, special := .e4m3 }
def fmtE5M2 : FloatFmt := { expBits := 5, manBits := 2, bias := 15, special := .ieee }
def fmtE3M2 : FloatFmt := { expBits := 3, manBits := 2, bias := 3, special := .none }
def fmtE2M3 : FloatFmt := { expBits := 2, manBits := 3, bias := 1, special := .none }
def fmtE2M1 : FloatFmt := { expBits := 2, manBits := 1, bias := 1, special := .none }

/-- The bits of a format. -/
def FloatFmt.bits (f : FloatFmt) : Nat := 1 + f.expBits + f.manBits

/-- A number: NaN, an infinity, or (-1)^neg * man * 2^exp; man = 0 is a zero with its sign. -/
inductive Num where
  | nan
  | inf (neg : Bool)
  | fin (neg : Bool) (man : Nat) (exp : Int)
deriving DecidableEq, Repr

/-- The number a pattern stands for (R239). -/
def FloatFmt.decode (f : FloatFmt) (b : Nat) : Num :=
  let neg : Bool := b / 2 ^ (f.expBits + f.manBits) % 2 = 1
  let e := b / 2 ^ f.manBits % 2 ^ f.expBits
  let m := b % 2 ^ f.manBits
  let top := e = 2 ^ f.expBits - 1
  let finite : Num :=
    if e = 0 then .fin neg m (1 - (f.bias : Int) - f.manBits)
    else .fin neg (2 ^ f.manBits + m) ((e : Int) - f.bias - f.manBits)
  match f.special with
  | .ieee => if top then (if m = 0 then .inf neg else .nan) else finite
  | .e4m3 => if top ∧ m = 2 ^ f.manBits - 1 then .nan else finite
  | .none => finite

/-- The largest finite pattern, without the sign. -/
def FloatFmt.maxBits (f : FloatFmt) : Nat :=
  match f.special with
  | .ieee => (2 ^ f.expBits - 1) * 2 ^ f.manBits - 1
  | .e4m3 => 2 ^ (f.expBits + f.manBits) - 2
  | .none => 2 ^ (f.expBits + f.manBits) - 1

/-- The pattern of infinity, without the sign; only formats that have one use it. -/
def FloatFmt.infBits (f : FloatFmt) : Nat := (2 ^ f.expBits - 1) * 2 ^ f.manBits

/-- The canonical NaN (R240); formats without NaN give +0 (R249). -/
def FloatFmt.nanBits (f : FloatFmt) : Nat :=
  match f.special with
  | .ieee => (2 ^ f.expBits - 1) * 2 ^ f.manBits + 2 ^ (f.manBits - 1)
  | .e4m3 => 2 ^ (f.expBits + f.manBits) - 1
  | .none => 0

/-- A pattern with its sign. -/
def FloatFmt.signed (f : FloatFmt) (neg : Bool) (b : Nat) : Nat := (if neg then 2 ^ (f.expBits + f.manBits) else 0) + b

/-! ## Rounding (R245) -/

/-- The number of bits of a natural. -/
def bitLen (n : Nat) : Nat := if n = 0 then 0 else Nat.log2 n + 1

/-- Does the mode go up in magnitude between `lo` and `lo + 1`, with remainder `rem` of `2^d`? -/
def roundUp (r : Rnd) (neg : Bool) (odd : Bool) (rem d : Nat) : Bool :=
  match r with
  | .rne => rem * 2 > 2 ^ d || (rem * 2 == 2 ^ d && odd)
  | .rtz => false
  | .rup => rem != 0 && !neg
  | .rdn => rem != 0 && neg

/-- man * 2^exp rounded to a multiple of 2^q, as that multiple. -/
def roundAt (r : Rnd) (neg : Bool) (man : Nat) (exp q : Int) : Nat :=
  if q ≤ exp then man * 2 ^ (exp - q).toNat
  else
    let d := (q - exp).toNat
    let lo := man / 2 ^ d
    if roundUp r neg (lo % 2 = 1) (man % 2 ^ d) d then lo + 1 else lo

/-- A finite value rounded to the grid of a format, exponent unbounded above: the multiple and its exponent. -/
def FloatFmt.grid (f : FloatFmt) (r : Rnd) (neg : Bool) (man : Nat) (exp : Int) : Nat × Int :=
  let emin : Int := 1 - (f.bias : Int) - f.manBits
  let q := max ((bitLen man : Int) + exp - f.manBits - 1) emin
  (roundAt r neg man exp q, q)

/-- The pattern of m * 2^q, a point of the grid, without the sign; none beyond the largest finite value. -/
def FloatFmt.encodeGrid (f : FloatFmt) (m : Nat) (q : Int) : Option Nat :=
  let carry := m = 2 ^ (f.manBits + 1)
  let m := if carry then 2 ^ f.manBits else m
  let q := if carry then q + 1 else q
  let b : Int :=
    if m < 2 ^ f.manBits then m
    else (q + f.manBits + f.bias) * (2 ^ f.manBits : Nat) + (m - 2 ^ f.manBits : Nat)
  if b ≤ f.maxBits then some b.toNat else none

/-- What a rounding came to: a pattern, an overflow with its sign, or NaN. -/
inductive Rounded where
  | ok (bits : Nat)
  | over (neg : Bool)
  | nan
deriving DecidableEq, Repr

/-- A number rounded once to a format; an infinity in a format with infinities is exact. -/
def FloatFmt.round (f : FloatFmt) (r : Rnd) (x : Num) : Rounded :=
  match x with
  | .nan => .nan
  | .inf neg => .over neg
  | .fin neg m e =>
    let g := f.grid r neg m e
    match f.encodeGrid g.1 g.2 with
    | some b => .ok (f.signed neg b)
    | none => .over neg

/-- The result of arithmetic in FP32, FP16 or BF16 (R246): an infinite operand's infinity stays, an overflow follows the mode. -/
def FloatFmt.arith (f : FloatFmt) (r : Rnd) (x : Num) : Nat :=
  match x with
  | .inf neg => f.signed neg f.infBits
  | _ =>
    match f.round r x with
    | .ok b => b
    | .nan => f.nanBits
    | .over neg =>
      match r, neg with
      | .rne, _ => f.signed neg f.infBits
      | .rtz, _ => f.signed neg f.maxBits
      | .rup, false => f.infBits
      | .rup, true => f.signed true f.maxBits
      | .rdn, false => f.maxBits
      | .rdn, true => f.signed true f.infBits

/-! ## Exact operations -/

/-- A signed integer times 2^exp; a zero takes the given sign. -/
def numOfInt (v : Int) (exp : Int) (zeroNeg : Bool) : Num :=
  if v = 0 then .fin zeroNeg 0 exp else .fin (v < 0) v.natAbs exp

/-- The signed mantissa. -/
def sgn (neg : Bool) (m : Nat) : Int := if neg then -(m : Int) else m

/-- Exact sum (R245): an exact cancellation is +0, and -0 under `.rdn`; equal zeros keep their sign. -/
def Num.add (r : Rnd) (x y : Num) : Num :=
  match x, y with
  | .nan, _ | _, .nan => .nan
  | .inf a, .inf b => if a = b then .inf a else .nan
  | .inf a, .fin .. => .inf a
  | .fin .., .inf b => .inf b
  | .fin a m e, .fin b n g =>
    let q := min e g
    let v := sgn a m * 2 ^ (e - q).toNat + sgn b n * 2 ^ (g - q).toNat
    numOfInt v q (if m = 0 ∧ n = 0 ∧ a = b then a else r = .rdn)

/-- The negated number. -/
def Num.neg : Num → Num
  | .nan => .nan
  | .inf a => .inf !a
  | .fin a m e => .fin (!a) m e

/-- Exact product: infinity times zero is NaN. -/
def Num.mul (x y : Num) : Num :=
  match x, y with
  | .nan, _ | _, .nan => .nan
  | .inf a, .inf b => .inf (a != b)
  | .inf a, .fin b n _ => if n = 0 then .nan else .inf (a != b)
  | .fin a m _, .inf b => if m = 0 then .nan else .inf (a != b)
  | .fin a m e, .fin b n g => .fin (a != b) (m * n) (e + g)

/-- x * y + c, exact (R247). -/
def Num.fma (r : Rnd) (x y c : Num) : Num := Num.add r (Num.mul x y) c

/-- x < y, for numbers that are not NaN; -0 equals +0. -/
def Num.lt (x y : Num) : Bool :=
  match x, y with
  | .nan, _ | _, .nan => false
  | .inf a, .inf b => a && !b
  | .inf a, .fin .. => a
  | .fin .., .inf b => !b
  | .fin a m e, .fin b n g =>
    let q := min e g
    sgn a m * 2 ^ (e - q).toNat < sgn b n * 2 ^ (g - q).toNat

/-- x = y as numbers. -/
def Num.eq (x y : Num) : Bool :=
  match x, y with
  | .nan, _ | _, .nan => false
  | x, y => !x.lt y && !y.lt x

/-- Is the number NaN? -/
def Num.isNan : Num → Bool
  | .nan => true
  | .inf _ => false
  | .fin .. => false

/-- The sign. -/
def Num.isNeg : Num → Bool
  | .nan => false
  | .inf a => a
  | .fin a _ _ => a

/-- Does x order below y, with -0 below +0 (minimumNumber)? -/
def Num.below (x y : Num) : Bool := x.lt y || (x.eq y && x.isNeg && !y.isNeg)

/-! ## Element operations of the float formats (R240, R247) -/

def FloatFmt.fadd (f : FloatFmt) (r : Rnd) (a b : Nat) : Nat := f.arith r (Num.add r (f.decode a) (f.decode b))
def FloatFmt.fsub (f : FloatFmt) (r : Rnd) (a b : Nat) : Nat := f.arith r (Num.add r (f.decode a) (f.decode b).neg)
def FloatFmt.fmul (f : FloatFmt) (r : Rnd) (a b : Nat) : Nat := f.arith r (Num.mul (f.decode a) (f.decode b))
def FloatFmt.ffma (f : FloatFmt) (r : Rnd) (a b c : Nat) : Nat := f.arith r (Num.fma r (f.decode a) (f.decode b) (f.decode c))

/-- minimumNumber: the other operand when one is NaN; never rounded (R247). -/
def FloatFmt.fmin (f : FloatFmt) (a b : Nat) : Nat :=
  let x := f.decode a
  let y := f.decode b
  if x.isNan then (if y.isNan then f.nanBits else b) else if y.isNan then a else if y.below x then b else a

def FloatFmt.fmax (f : FloatFmt) (a b : Nat) : Nat :=
  let x := f.decode a
  let y := f.decode b
  if x.isNan then (if y.isNan then f.nanBits else b) else if y.isNan then a else if x.below y then b else a

/-- The ordered comparisons of `fcmp` (R247). -/
def FloatFmt.fcmp (f : FloatFmt) (c : FCond) (a b : Nat) : Bool :=
  let x := f.decode a
  let y := f.decode b
  match c with
  | .eq => x.eq y
  | .ne => !x.eq y
  | .lt => x.lt y
  | .le => x.lt y || x.eq y

/-- The class bit of an element (R397). -/
def FloatFmt.classBit (f : FloatFmt) (a : Nat) : Nat :=
  match f.decode a with
  | .nan => 8
  | .inf true => 0
  | .inf false => 7
  | .fin neg m _ =>
    if m = 0 then (if neg then 3 else 4)
    else if m < 2 ^ f.manBits then (if neg then 2 else 5)
    else if neg then 1 else 6

/-! ## Square root, correctly rounded -/

/-- Integer square root by bits: the largest r with r * r ≤ n, for n < 4^k. -/
def isqrt (n : Nat) : Nat → Nat
  | 0 => 0
  | k + 1 =>
    let r := 2 * isqrt (n / 4) k
    if (r + 1) * (r + 1) ≤ n then r + 1 else r

/-- The square root of a finite positive value with 64 fraction bits and a sticky bit. -/
def sqrtNum (m : Nat) (e : Int) : Num :=
  let e2 := if e % 2 = 0 then e - 128 else e - 129
  let n := m * 2 ^ (e - e2).toNat
  let r := isqrt n 128
  .fin false (2 * r + (if r * r = n then 0 else 1)) (e2 / 2 - 1)

/-- `fsqrt` (R247). -/
def fsqrtBits (a : Nat) : Nat :=
  match fmtF32.decode a with
  | .nan => fmtF32.nanBits
  | .inf true => fmtF32.nanBits
  | .inf false => fmtF32.infBits
  | .fin neg m e => if m = 0 then a else if neg then fmtF32.nanBits else fmtF32.arith .rne (sqrtNum m e)

/-! ## Transcendental results within the bounds of R247 (log 10)

The value is the constant of Config when it lies within the bound, and the correctly rounded value otherwise: whatever Config
holds, the result meets the bound. `Near` approximations carry at least 60 correct bits, and a bound is tested with that slack. -/

/-- A rational approximation n / 2^60 of a magnitude, scaled by 2^exp. -/
structure Near where
  man : Nat
  exp : Int
deriving DecidableEq, Repr

/-- |y - x| ≤ bound, for dyadic values: each is a signed mantissa and an exponent (DEDUCED, log 16). -/
def within (y : Int) (ye : Int) (x : Int) (xe : Int) (b : Nat) (be : Int) : Bool :=
  let q := min (min ye xe) be
  (y * 2 ^ (ye - q).toNat - x * 2 ^ (xe - q).toNat).natAbs ≤ b * 2 ^ (be - q).toNat

/-- The ulp exponent of a FP32 result (R247). -/
def ulpExp (m : Nat) (e : Int) : Int := if m = 0 then -149 else max ((bitLen m : Int) + e - 1) (-126) - 23

/-- May a result be replaced by the candidate: within `k` ulp (or absolutely within 2^-22), or a zero of the same sign for a result
whose magnitude lies below 2^-126? The slack is 2^-60 of the result (DESIGN CHOICE, log 10) (DEDUCED, log 16). -/
def resultOk (cand : Nat) (neg : Bool) (m : Nat) (e : Int) (k : Nat) (absolute : Bool) : Bool :=
  match fmtF32.decode cand with
  | .nan => false
  | .inf _ => false
  | .fin cn cm ce =>
    let tiny := (bitLen m : Int) + e ≤ -126
    let be := if absolute then -22 else ulpExp cm ce
    (tiny && cm == 0 && cn == neg) || within (sgn cn cm) ce (sgn neg m) e k be

/-- The candidate where it meets the bound, else the correctly rounded value (DESIGN CHOICE, log 10). -/
def pick (sel : Nat) (x : Nat) (neg : Bool) (m : Nat) (e : Int) (k : Nat) (absolute : Bool) : Nat :=
  let cand := (Config.transcend sel (BitVec.ofNat 32 x)).toNat
  if resultOk cand neg m e k absolute then cand else fmtF32.arith .rne (.fin neg m e)

/-- `frcp`: 1/x. -/
def frcpBits (a : Nat) : Nat :=
  match fmtF32.decode a with
  | .nan => fmtF32.nanBits
  | .inf neg => fmtF32.signed neg 0
  | .fin neg m e =>
    if m = 0 then fmtF32.signed neg fmtF32.infBits
    else
      let n := 2 ^ 120 / m
      if (bitLen n : Int) - 120 - e > 128 then fmtF32.arith .rne (.fin neg n (-120 - e))
      else pick 0 a neg n (-120 - e) 1 false

/-- `frsq`: 1/sqrt x. -/
def frsqBits (a : Nat) : Nat :=
  match fmtF32.decode a with
  | .nan => fmtF32.nanBits
  | .inf true => fmtF32.nanBits
  | .inf false => 0
  | .fin neg m e =>
    if m = 0 then fmtF32.signed neg fmtF32.infBits
    else if neg then fmtF32.nanBits
    else
      let e2 := if e % 2 = 0 then e else e - 1
      let n := m * 2 ^ (e - e2).toNat
      pick 1 a false (isqrt (2 ^ 240 / n) 128) (-120 - e2 / 2) 1 false

/-- The sum of x^i / i! for a fixed-point x with 96 fraction bits, `k` more terms from term `t` = x^(i-1)/(i-1)!. -/
def expSum (x : Nat) : Nat → Nat → Nat → Nat
  | 0, _, _ => 0
  | k + 1, i, t => t + expSum x k (i + 1) (t * x / 2 ^ 96 / i)

/-- ln 2 with 96 fraction bits. -/
def ln2Fix : Nat := 54916777467707473351141471128

/-- 2^f for f = n / 2^96 in [0, 1), with 96 fraction bits. -/
def exp2Fix (n : Nat) : Nat := expSum (n * ln2Fix / 2 ^ 96) 40 1 (2 ^ 96)

/-- `fex2`: 2^x (R247); exact for an integer x with a normal result. -/
def fex2Bits (a : Nat) : Nat :=
  match fmtF32.decode a with
  | .nan => fmtF32.nanBits
  | .inf true => 0
  | .inf false => fmtF32.infBits
  | .fin neg m e =>
    if m = 0 then 0x3F800000
    else if (bitLen m : Int) + e > 9 then (if neg then 0 else fmtF32.infBits)
    else
      -- x as a multiple of 2^-96, rounded toward -infinity
      let fx : Int := if 0 ≤ e + 96 then sgn neg m * 2 ^ (e + 96).toNat else sgn neg m / (2 ^ (-(e + 96)).toNat : Nat)
      let i := fx / (2 ^ 96 : Nat)
      let n := (fx % (2 ^ 96 : Nat)).toNat
      if n = 0 ∧ -126 ≤ i ∧ i ≤ 127 then ((i + 127) * 8388608).toNat
      else if i ≥ 128 then fmtF32.infBits
      else pick 2 a false (exp2Fix n) (i - 96) 2 false

/-- `k` fraction bits of log2 of a fixed-point x in [1, 2) with 96 fraction bits. -/
def log2Bits : Nat → Nat → Nat → Nat
  | 0, _, acc => acc
  | k + 1, x, acc =>
    let y := x * x / 2 ^ 96
    if y ≥ 2 ^ 97 then log2Bits k (y / 2) (2 * acc + 1) else log2Bits k y (2 * acc)

/-- `flg2`: log2 x (R247); exact for a power of two. -/
def flg2Bits (a : Nat) : Nat :=
  match fmtF32.decode a with
  | .nan => fmtF32.nanBits
  | .inf true => fmtF32.nanBits
  | .inf false => fmtF32.infBits
  | .fin neg m e =>
    if m = 0 then fmtF32.signed true fmtF32.infBits
    else if neg then fmtF32.nanBits
    else
      let l := bitLen m
      let i : Int := (l : Int) + e - 1
      if m = 2 ^ (l - 1) then fmtF32.arith .rne (numOfInt i 0 false)
      else
        let frac := log2Bits 80 (m * 2 ^ (97 - l)) 0
        let v : Int := i * (2 ^ 80 : Nat) + frac
        -- x in [0.5, 2]: i is -1 or 0
        pick 3 a (v < 0) v.natAbs (-80) (if i = -1 ∨ i = 0 then 1 else 2) (i = -1 ∨ i = 0)

/-- pi / 2 with 160 fraction bits. -/
def halfPiFix : Nat := 2295721403524109460692402599871655564227077512209

/-- The alternating sum t - t x^2/((i)(i+1)) + ..., fixed point with 96 fraction bits, x2 = x^2. -/
def trigSum (x2 : Nat) : Nat → Nat → Int → Int
  | 0, _, _ => 0
  | k + 1, i, t => t + trigSum x2 k (i + 2) (-(t * x2 / (2 ^ 96 : Nat) / (i * (i + 1) : Nat)))

/-- sin and cos of r in [0, pi/2], with 96 fraction bits. -/
def sinFix (r : Nat) : Int := trigSum (r * r / 2 ^ 96) 20 2 r
def cosFix (r : Nat) : Int := trigSum (r * r / 2 ^ 96) 20 1 (2 ^ 96)

/-- sin (quarter = 0) or cos (quarter = 1) of a finite x, with 96 fraction bits, for |x| ≤ 32,768. -/
def trigFix (neg : Bool) (m : Nat) (e : Int) (quarter : Nat) : Int :=
  let x : Int := if 0 ≤ e + 160 then sgn neg m * 2 ^ (e + 160).toNat else sgn neg m / (2 ^ (-(e + 160)).toNat : Nat)
  let q := x / halfPiFix
  let r := (x % halfPiFix).toNat / 2 ^ 64
  match (q + quarter) % 4 with
  | 0 => sinFix r
  | 1 => cosFix r
  | 2 => -sinFix r
  | _ => -cosFix r

/-- `fsin` and `fcos` of a finite non-zero operand: within 2^-22 up to 32,768, any value in [-1, 1] beyond. -/
def trigBits (sel quarter a : Nat) (neg : Bool) (m : Nat) (e : Int) : Nat :=
  if within (m : Int) e 0 0 32768 0 then
    let v := trigFix neg m e quarter
    pick sel a (v < 0) v.natAbs (-96) 1 true
  else
    let cand := (Config.transcend sel (BitVec.ofNat 32 a)).toNat
    match fmtF32.decode cand with
    | .fin cn cm ce => if within (sgn cn cm) ce 0 0 1 0 then cand else 0
    | .nan => 0
    | .inf _ => 0

def fsinBits (a : Nat) : Nat :=
  match fmtF32.decode a with
  | .nan => fmtF32.nanBits
  | .inf _ => fmtF32.nanBits
  | .fin neg m e => if m = 0 then a else trigBits 4 0 a neg m e

def fcosBits (a : Nat) : Nat :=
  match fmtF32.decode a with
  | .nan => fmtF32.nanBits
  | .inf _ => fmtF32.nanBits
  | .fin neg m e => if m = 0 then 0x3F800000 else trigBits 5 1 a neg m e

/-! ## Conversions (R248, R249) -/

end Machine

/-- The bits an element takes in a register (R243). -/
def Elt.width : Elt → Nat
  | .f32 => 32
  | .f16 => 16
  | .bf16 => 16
  | .e4m3 => 8
  | .e5m2 => 8
  | .e3m2 => 6
  | .e2m3 => 6
  | .e2m1 => 4
  | .e8m0 => 8
  | .i32 => 32
  | .n32 => 32
  | .i8 => 8
  | .n8 => 8
  | .i4 => 4

/-- The float format of an element type; E8M0 and the integers have none. -/
def Elt.fmt : Elt → Option Machine.FloatFmt
  | .f32 => some Machine.fmtF32
  | .f16 => some Machine.fmtF16
  | .bf16 => some Machine.fmtBF16
  | .e4m3 => some Machine.fmtE4M3
  | .e5m2 => some Machine.fmtE5M2
  | .e3m2 => some Machine.fmtE3M2
  | .e2m3 => some Machine.fmtE2M3
  | .e2m1 => some Machine.fmtE2M1
  | .e8m0 => none
  | .i32 => none
  | .n32 => none
  | .i8 => none
  | .n8 => none
  | .i4 => none

/-- Is the integer type signed? -/
def Elt.signed : Elt → Bool
  | .i32 | .i8 | .i4 => true
  | .n32 | .n8 => false
  | .f32 | .f16 | .bf16 | .e4m3 | .e5m2 | .e3m2 | .e2m3 | .e2m1 | .e8m0 => false

namespace Machine

/-- A two's complement or plain value of w bits. -/
def intOf (sg : Bool) (w b : Nat) : Int := if sg ∧ 2 ^ (w - 1) ≤ b % 2 ^ w then (b % 2 ^ w : Int) - 2 ^ w else (b % 2 ^ w : Nat)

/-- The w low bits of an integer. -/
def wrapN (x : Int) (w : Nat) : Nat := (x % (2 ^ w : Nat)).toNat

/-- The number an element stands for. -/
def eltNum (t : Elt) (bits : Nat) : Num :=
  let b := bits % 2 ^ t.width
  match t.fmt with
  | some f => f.decode b
  | none =>
    if t = .e8m0 then (if b = 255 then .nan else .fin false 1 ((b : Int) - 127))
    else numOfInt (intOf t.signed t.width b) 0 false

/-- The range of an integer type. -/
def eltRange (t : Elt) : Int × Int :=
  if t.signed then (-(2 ^ (t.width - 1) : Nat), (2 ^ (t.width - 1) : Nat) - 1) else (0, (2 ^ t.width : Nat) - 1)

/-- The result of a conversion: its bits, or an overflow under `.trap`. -/
inductive CvtRes where
  | ok (bits : Nat)
  | trap
deriving DecidableEq, Repr

/-- What an overflow of a float target becomes (R249). -/
def overflowFloat (f : FloatFmt) (o : Ovf) (neg : Bool) : CvtRes :=
  match o, f.special with
  | .trap, _ => .trap
  | .sat, _ => .ok (f.signed neg f.maxBits)
  | .inf, .ieee => .ok (f.signed neg f.infBits)
  | .inf, .e4m3 => .ok (f.signed neg f.nanBits)
  | .nan, .ieee => .ok f.nanBits
  | .nan, .e4m3 => .ok f.nanBits
  | _, .none => .ok (f.signed neg f.maxBits)

/-- A NaN converted to a format without NaN: +0, or OVERFLOW under `.trap` (R249). -/
def nanFloat (f : FloatFmt) (o : Ovf) : CvtRes :=
  match f.special, o with
  | .none, .trap => .trap
  | _, _ => .ok f.nanBits

/-- The exponent of a positive value rounded to a power of two: E8M0 takes the even encoding on a tie (R245). -/
def e8m0Exp (r : Rnd) (m : Nat) (e : Int) : Int :=
  let k := (bitLen m : Int) + e - 1          -- 2^k ≤ x < 2^(k+1)
  let d := bitLen m - 1
  let rem := m - 2 ^ d
  if roundUp r false ((k + 127) % 2 = 1) rem d then k + 1 else k

/-- A number converted to E8M0 (R249). -/
def toE8m0 (r : Rnd) (o : Ovf) (x : Num) : CvtRes :=
  let neg : CvtRes := if o = .trap then .trap else .ok 0xFF
  let ovr : CvtRes :=
    match o with
    | .trap => .trap
    | .sat => .ok 0xFE
    | .inf => .ok 0xFF
    | .nan => .ok 0xFF
  match x with
  | .nan => .ok 0xFF
  | .inf true => neg
  | .inf false => ovr
  | .fin true _ _ => neg
  | .fin false m e =>
    if m = 0 then .ok 0
    else
      let k := e8m0Exp r m e
      if k > 127 then ovr else if k < -127 then .ok 0 else .ok (k + 127).toNat

/-- A number rounded to an integer. -/
def roundInt (r : Rnd) (neg : Bool) (m : Nat) (e : Int) : Int := sgn neg (roundAt r neg m e 0)

/-- A number converted to an integer type (R249). -/
def toInt (t : Elt) (r : Rnd) (o : Ovf) (x : Num) : CvtRes :=
  let lo := (eltRange t).1
  let hi := (eltRange t).2
  let clamp (v : Int) : CvtRes :=
    if v < lo then (if o = .trap then .trap else .ok (wrapN lo t.width))
    else if v > hi then (if o = .trap then .trap else .ok (wrapN hi t.width))
    else .ok (wrapN v t.width)
  match x with
  | .nan => if o = .trap then .trap else .ok 0
  | .inf true => if o = .trap then .trap else .ok (wrapN lo t.width)
  | .inf false => if o = .trap then .trap else .ok (wrapN hi t.width)
  | .fin neg m e => clamp (roundInt r neg m e)

/-- A number converted to an element type (R248, R249). An infinity of a widening conversion stays one. -/
def convertNum (dst : Elt) (r : Rnd) (o : Ovf) (narrow : Bool) (x : Num) : CvtRes :=
  match dst.fmt with
  | some f =>
    match x with
    | .nan => nanFloat f o
    | .inf neg => if narrow then overflowFloat f o neg else .ok (f.signed neg f.infBits)
    | .fin neg m e =>
      match f.round r (.fin neg m e) with
      | .ok b => .ok b
      | .over neg => overflowFloat f o neg
      | .nan => .ok f.nanBits
  | none => if dst = .e8m0 then toE8m0 r o x else toInt dst r o x

/-- `cvt` and `cvtn` of one element (R398): the identical pair returns its source, a NaN made canonical. -/
def convert (dst src : Elt) (r : Rnd) (o : Ovf) (bits : Nat) : CvtRes :=
  let x := eltNum src bits
  if dst = src then
    .ok (if x.isNan then (match dst.fmt with
        | some f => f.nanBits
        | none => 0xFF) else bits % 2 ^ src.width)
  else convertNum dst r o (cvtClass dst src = .narrowing) x

/-! ## The reduction tree (R247) -/

/-- The FP32 sum of adjacent pairs. -/
def pairSums (r : Rnd) : List Nat → List Nat
  | a :: b :: rest => fmtF32.fadd r a b :: pairSums r rest
  | [a] => [a]
  | [] => []

/-- The FP32 tree sum: `k` levels of pairs. -/
def treeSum (r : Rnd) : Nat → List Nat → Nat
  | 0, xs => xs.headD 0
  | k + 1, xs => treeSum r k (pairSums r xs)

end Machine
end Sys2Proof
end

