-- ==== Sys2Proof/Machine/Flags.lean ====
section
/-! DEFINITION. Conditions and element-wise operations: packed elements (R242, R243), the conditions of cmp and fcmp (R359, R392), the
integer operations of R391, BitField (R378, R393), scalar results (R378), and the result shapes of R220. -/

namespace Sys2Proof
namespace Machine

/-! ## Elements (R243) -/

/-- Element `k` of `w` bits of a register. -/
def elem (w k : Nat) (v : Word) : Nat := v.toNat / 2 ^ (w * k) % 2 ^ w

/-- A register built of elements of `w` bits. -/
def joinElems (w : Nat) (f : Nat → Nat) : Word :=
  BitVec.ofNat 32 ((List.range (32 / w)).foldl (fun v k => v + f k % 2 ^ w * 2 ^ (w * k)) 0)

/-- An operation of each element of three sources. -/
def zipElems (w : Nat) (f : Nat → Nat → Nat → Nat) (a b d : Word) : Word := joinElems w fun k => f (elem w k a) (elem w k b) (elem w k d)

/-- Does a test hold for every element of two sources? -/
def allElems (w : Nat) (f : Nat → Nat → Bool) (a b : Word) : Bool := (List.range (32 / w)).all fun k => f (elem w k a) (elem w k b)

end Machine

/-- The width of an element. -/
def IntTy.bits : IntTy → Nat
  | .i32 => 32
  | .n32 => 32
  | .i16x2 => 16
  | .n16x2 => 16
  | .i8x4 => 8
  | .n8x4 => 8

/-- Is the type signed? -/
def IntTy.isSigned : IntTy → Bool
  | .i32 => true
  | .i16x2 => true
  | .i8x4 => true
  | .n32 => false
  | .n16x2 => false
  | .n8x4 => false

/-- Is it a 32-bit type? -/
def IntTy.whole : IntTy → Bool
  | .i32 => true
  | .n32 => true
  | .i16x2 => false
  | .i8x4 => false
  | .n16x2 => false
  | .n8x4 => false

/-- The element format of a float type, and its width. -/
def FloTy.fmt : FloTy → Machine.FloatFmt
  | .f32 => Machine.fmtF32
  | .f16x2 => Machine.fmtF16
  | .bf16x2 => Machine.fmtBF16

def FloTy.bits : FloTy → Nat
  | .f32 => 32
  | .f16x2 => 16
  | .bf16x2 => 16

/-- The element `b` as the type reads it. -/
def IntTy.val (ty : IntTy) (b : Nat) : Int := Machine.intOf ty.isSigned ty.bits b

/-- The condition of `cmp` on one element (R359): lt and le follow the type, lo and ls are unsigned. -/
def Cond.holds (c : Cond) (ty : IntTy) (a b : Nat) : Bool :=
  match c with
  | .eq => a == b
  | .ne => a != b
  | .lt => decide (ty.val a < ty.val b)
  | .le => decide (ty.val a ≤ ty.val b)
  | .lo => decide (a < b)
  | .ls => decide (a ≤ b)

/-- The condition of `cmp` on a register: it holds for every element (R392). -/
def Cond.word (c : Cond) (ty : IntTy) (a b : Word) : Bool := Machine.allElems ty.bits (c.holds ty) a b

namespace Machine

/-! ## Integer operations (R391) -/

/-- The element operations. -/
inductive IntOp where
  | add | sub | mul | mulh | mad | shl | shr | sra | min | max | abs
deriving DecidableEq, Repr

/-- The effect of an operation on one element (R391). -/
def IntOp.elem (op : IntOp) (ty : IntTy) (a b d : Nat) : Nat :=
  let w := ty.bits
  let x := ty.val a
  let y := ty.val b
  match op with
  | .add => wrapN (x + y) w
  | .sub => wrapN (x - y) w
  | .mul => wrapN (x * y) w
  | .mulh => wrapN (x * y / (2 ^ w : Nat)) w
  | .mad => wrapN (x * y + ty.val d) w
  | .shl => a * 2 ^ (b % w) % 2 ^ w
  | .shr => a / 2 ^ (b % w)
  | .sra => wrapN (x / (2 ^ (b % w) : Nat)) w
  | .min => if x ≤ y then a else b
  | .max => if x ≤ y then b else a
  | .abs => wrapN (x.natAbs : Int) w

/-- The effect on a register. -/
def IntOp.word (op : IntOp) (ty : IntTy) (a b d : Word) : Word := zipElems ty.bits (op.elem ty) a b d

/-- BitField (R378) (DEDUCED, log 26). -/
def bitField (v spec : Word) : Word :=
  let off := spec.toNat % 32
  let w := Nat.min (spec.toNat / 256 % 32) 32
  if w = 0 then 0 else BitVec.ofNat 32 (v.toNat / 2 ^ off % 2 ^ w)

/-- The width that BitField takes from a specification (DEDUCED, log 26). -/
def fieldWidth (spec : Word) : Nat := Nat.min (spec.toNat / 256 % 32) 32

/-- `bfx` (R393): with `.i32` and a width of 1 to 31 the field's top bit is copied upwards. -/
def bfxWord (uns : Bool) (v spec : Word) : Word :=
  let f := bitField v spec
  let w := fieldWidth spec
  if !uns ∧ 0 < w ∧ w < 32 ∧ f.getLsbD (w - 1) then f ||| (BitVec.allOnes 32 <<< w) else f

/-- `bfi` (R393). -/
def bfiWord (d v spec : Word) : Word :=
  let off := spec.toNat % 32
  let m : Word := BitVec.ofNat 32 ((2 ^ fieldWidth spec - 1) * 2 ^ off)
  (d &&& ~~~m) ||| ((v <<< off) &&& m)

/-- The number of 1 bits. -/
def popcount (v : Word) : Nat := (List.range 32).countP fun n => v.getLsbD n

/-- The number of leading zero bits; 32 for 0. -/
def leadingZeros (v : Word) : Nat := 32 - bitLen v.toNat

/-- 1 or 0. -/
def flag (b : Bool) : Word := if b then 1 else 0

/-! ## Shapes (R220) -/

/-- The register that an operand names in all lanes of a mask has shape U, and its value. -/
def srcShape (r : Regs) (m : Mask) (o : VOp) : Shape :=
  match single r m o with
  | none => .g
  | some n =>
    match r.v[n] with
    | .u v => .u v
    | .a b st => .a b st
    | .g _ => .g
    | .coming _ => .pending

/-- Is the shape U? -/
def Shape.isU : Shape → Bool
  | .u _ => true
  | .a _ _ => false
  | .g => false
  | .pending => true

/-- The last two rows of R220: U for uniform sources, whose value is then the same in every lane, and else G. -/
def uniformShape (r : Regs) (m : Mask) (os : List VOp) (v : Word) : Shape :=
  if os.all fun o => (srcShape r m o).isU then (if os.any fun o => srcShape r m o == .pending then .pending else .u v) else .g

/-- The row of R220 for `add` and `sub`: an A result with stride 0 becomes U. -/
def Shape.affine (base stride : Word) : Shape := if stride = 0 then .u base else .a base stride

/-- Do two sources resolve to one register in every active lane (R220)? (DEDUCED, log 18) -/
def sameReg (r : Regs) (m : Mask) (a b : VOp) : Bool := (lanesOf m).all fun L => resolveNat r a L == resolveNat r b L

/-- The result shape of an integer operation of a 32-bit type by the rows of R220 for `add`, `sub`, `mul` and `shl`; `v` is the value
when every lane holds the same (DEDUCED, log 17) (DEDUCED, log 18). -/
def intShape (op : IntOp) (ty : IntTy) (r : Regs) (m : Mask) (a b : VOp) (os : List VOp) (v : Word) : Shape :=
  let other := uniformShape r m os v
  match op with
  | .add =>
    if ty.whole then
      match srcShape r m a, srcShape r m b with
      | .a x s, .u y => .affine (x + y) s
      | .u x, .a y s => .affine (x + y) s
      | .a x s, .a y t => .affine (x + y) (s + t)
      | _, _ => other
    else other
  | .sub =>
    if sameReg r m a b then .u 0
    else if ty.whole then
      match srcShape r m a, srcShape r m b with
      | .a x s, .u y => .affine (x - y) s
      | .u x, .a y s => .affine (x - y) (-s)
      | .a x s, .a y t => .affine (x - y) (s - t)
      | _, _ => other
    else other
  | .mul =>
    if ty.whole then
      match srcShape r m a, srcShape r m b with
      | .a x s, .u y => .a (x * y) (s * y)
      | .u x, .a y s => .a (x * y) (x * s)
      | _, _ => other
    else other
  | .shl =>
    if ty.whole then
      match srcShape r m a, srcShape r m b with
      | .a x s, .u y => .a (x <<< (y.toNat % 32)) (s <<< (y.toNat % 32))
      | _, _ => other
    else other
  | .mulh => other
  | .mad => other
  | .shr => other
  | .sra => other
  | .min => other
  | .max => other
  | .abs => other

end Machine
end Sys2Proof
end

