-- ==== Sys2Proof/Machine/LoadStore.lean ====
section
/-! DEFINITION. The loads, stores and `probe` (R407-R418), and how the held lanes of a memory word are performed again (R329). -/

namespace Sys2Proof
namespace Machine

/-- The read part of a word: what it asks for, its need (R323), its pieces, and whether it makes one access for the lowest lane. -/
structure LoadWord where
  k : LoadKind
  need : Need := .read
  ps : Lane → List Piece
  one : Bool := false

/-- A lane or the lowest active lane, for `sld` and `sst` (R412). -/
def oneOr (one : Bool) (act : Mask) (L : Lane) : Lane := if one then lowest act else L

/-- The lanes that make accesses. -/
def accessLanes (one : Bool) (act : Mask) : Mask := if one then 1#32 <<< (lowest act).val else act

/-- `ld` and `sld`. -/
def loadOf (m : MemMod) (a : VOp) (b : SPair) (one : Bool) (r : Regs) (act : Mask) : LoadWord :=
  { k := { acquire := Order.acquires m.order && Scope.wide m.scope, sys := m.scope == .sys, policy := m.policy }
    ps := fun L => linePieces (laneAddr r a b (oneOr one act L)) (sizeBytes m.size), one := one }

/-- `probe` (R415): whole lines. -/
def probeOf (m : MemMod) (a : VOp) (b : SPair) (r : Regs) : LoadWord :=
  { k := { policy := m.policy, probe := true }
    ps := fun L => (linePieces (laneAddr r a b L) (sizeBytes m.size)).map fun p => { va := p.va / 128 * 128, n := 128, place := 0 } }

/-- `ldp` (R191). -/
def ldpOf (m : MemMod) (a : VOp) (b : SPair) (r : Regs) (seg : VA) : LoadWord :=
  { k := { priv := true }, ps := fun L => privPieces seg.toNat L (laneOffset r a b L) (sizeBytes m.size) }

/-- `ldt` (R414): it needs write permission (R323). -/
def ldtOf (m : MemMod) (a : VOp) (b : SPair) (key : SReg) (r : Regs) : LoadWord :=
  { k := { acquire := Order.acquires m.order && Scope.wide m.scope, sys := m.scope == .sys, take := some ((r.sget key).setWidth 16) }
    need := .write, ps := fun L => linePieces (laneAddr r a b L) (sizeBytes m.size) }

/-- The lanes whose private access passes the segment (R192). -/
def privLanes (r : Regs) (a : VOp) (b : SPair) (n limit : Nat) (act : Mask) : Mask :=
  act &&& maskOf fun L => decide (4 * limit < laneOffset r a b L + n)

/-- The number of distinct lines that the lanes touch. -/
def lineCount (m : Mask) (ps : Lane → List Piece) : Nat :=
  ((lanesOf m).flatMap fun L => (ps L).map fun p => p.va / 128).dedup.length

/-- The initial value of a lane's time register (R197): `hits` are the lanes that translate in the L1 TLB. -/
def State.initial (s : State) (lw : LoadWord) (hits act : Mask) (L : Lane) : DWord :=
  let L := oneOr lw.one act L
  if !hits.getLsbD L.val then noPromise
  else if (lw.ps L).any fun p => (s.c.keyAt s.w.ctx p.va).elim true fun q => q.1 != Target.device then noPromise
  else if (lw.ps L).all fun p => s.pieceHit p lw.k.priv lw.k.acquire then
    let n := lineCount (accessLanes lw.one act) lw.ps
    BitVec.ofNat 64 (s.lookTick n + s.capL1 n)
  else BitVec.ofNat 64 (s.tick + s.capHbm s.x.part + s.capHold)

/-- Look up and perform the reads of the lanes of a mask. -/
def State.readLanes (s : State) (acc : Nat) (lw : LoadWord) (m : Mask) : State :=
  (s.takeLooks (lineCount m lw.ps)).loadLanes acc lw.k m lw.ps

/-- Registers by lane of an operand. -/
def regsOf (r : Regs) (d : VOp) : Lanes (Fin 256) := Vector.ofFn fun L => resolve r d L
def timesOf (r : Regs) (t : TOp) : Lanes (Fin 16) := Vector.ofFn fun L => timeReg r t L

/-- A new access of the word at issue, with `n` destination registers in the lanes of `m`. -/
def State.newAccess (s : State) (i : Instr) (kind : AccKind) (m : Mask) (d : Option VOp) (n : Nat) (t : Option TOp) : Access :=
  { id := s.serial, kind := kind, pc := s.cur.pc, instr := i, issued := s.tick, lanes := m
    dst := match d with
      | some o => regsOf s.latch o
      | none => Vector.ofFn fun _ => 0
    regs := n
    alive := Vector.ofFn fun (j : Fin 5) => if j.val < n then m else 0
    treg := match t with
      | some t => timesOf s.latch t
      | none => Vector.ofFn fun _ => 0 }

/-- Add an access to the wave. -/
def State.addAccess (s : State) (a : Access) : State :=
  { s with serial := s.serial + 1, w := { s.w with accs := s.w.accs ++ [a] } }

/-- Issue a load: the destination takes its shape, the time register its initial value, the lanes that translate are performed and the
others are held (R194, R197, R220, R329, R412). -/
def State.startLoad (s : State) (i : Instr) (kind : AccKind) (d : Option VOp) (n : Nat) (t : TOp) (order : Order) (scope : Scope)
    (lw : LoadWord) : State :=
  let act := s.cur.active
  let own := accessLanes lw.one act
  let all := if lw.one then BitVec.allOnes 32 else act
  let s := if lw.k.acquire then s.modC Core.l1Acquire else s
  let hits := s.c.hitLanes s.w.ctx lw.need own lw.ps
  let s := match d with
    | some o => s.modW fun w => (List.range n).foldl (fun (w : Wave) j => if lw.one then w.toU s.latch o j else w.toG s.latch all o j) w
    | none => s
  let lines := lineCount own lw.ps
  let a := { s.newAccess i kind own d n (some t) with
    uniform := lw.one, acquire := if Order.acquires order then some scope else none, hitAt := s.lookTick lines + s.capL1 lines
    latch := if kind = .probe then some s.latch else none }
  let a := if lw.one then { a with alive := Vector.ofFn fun (j : Fin 5) => if j.val < n then all else 0 } else a
  let s := s.addAccess a
  let f := s.initial lw hits act
  let s := s.modW fun w => w.claimTime a.id a.treg all f
  let s := s.readLanes a.id lw hits
  let miss := own &&& ~~~hits
  s.hold i miss lw.need ((lw.ps (lowest miss)).headD { va := 0, n := 0, place := 0 }).va (some a.id)

/-- The number of lines that the lanes of a load which translate miss in the L1 (R181). -/
def State.missCount (s : State) (lw : LoadWord) (m : Mask) : Nat :=
  (((lanesOf m).flatMap fun L => (lw.ps L).filter fun p => lw.k.take.isSome || !s.pieceHit p lw.k.priv (lw.k.acquire || lw.k.home)).map fun p => p.va / 128).dedup.length

/-- What the M pipe asks of a word beyond its own waits (R181, R306, R329). -/
def State.memAccept (s : State) (i : Instr) (miss : Mask) : Bool :=
  !s.w.acquiring && !s.noReplay miss && !s.heldConflict i && decide (s.trackerUsed (coreOfSlot s.w.slot) < Config.trackerEntries)

/-- A load word. -/
def runLoad (i : Instr) (kind : AccKind) (d : Option VOp) (n : Nat) (t : TOp) (order : Order) (scope : Scope) (priv : Mask)
    (lw : LoadWord) (s : State) : Out1 :=
  let own := accessLanes lw.one s.cur.active
  let miss := own &&& ~~~(s.c.hitLanes s.w.ctx lw.need own lw.ps)
  let wide := if lw.one then some (BitVec.allOnes 32) else none
  word i { lanesD := wide, lanesT := wide, priv := priv, accept := s.memAccept i miss && s.trackerRoom (s.missCount lw (own &&& ~~~miss)) }
    (fun u => u.startLoad i kind d n t order scope lw) s

/-- `ld` (R412). -/
def execLd (m : MemMod) (d a : VOp) (b : SPair) (t : TOp) (s : State) : Out1 :=
  runLoad (.ld m d a b t) .load (some d) (sizeRegs m.size + 1) t m.order m.scope 0 (loadOf m a b false s.latch s.cur.active) s

/-- `sld` (R412): one access for the lowest active lane, written in all 32 lanes. -/
def execSld (m : MemMod) (d a : VOp) (b : SPair) (t : TOp) (s : State) : Out1 :=
  runLoad (.sld m d a b t) .load (some d) (sizeRegs m.size + 1) t m.order m.scope 0 (loadOf m a b true s.latch s.cur.active) s

/-- `ldp` (R191, R192, R412). -/
def execLdp (m : MemMod) (d a : VOp) (b : SPair) (t : TOp) (s : State) : Out1 :=
  runLoad (.ldp m d a b t) .load (some d) (sizeRegs m.size + 1) t .wk .dev
    (privLanes s.latch a b (sizeBytes m.size) s.w.limit s.cur.active) (ldpOf m a b s.latch s.w.segbase) s

/-- `ldt` (R76, R414). -/
def execLdt (m : MemMod) (d a : VOp) (b : SPair) (key : SReg) (t : TOp) (s : State) : Out1 :=
  runLoad (.ldt m d a b key t) .load (some d) (sizeRegs m.size + 1) t m.order m.scope 0 (ldtOf m a b key s.latch) s

/-- `probe` (R415). -/
def execProbe (m : MemMod) (a : VOp) (b : SPair) (t : TOp) (s : State) : Out1 :=
  runLoad (.probe m a b t) .probe none 0 t .wk .dev 0 (probeOf m a b s.latch) s

/-! ## The scratchpad (R185, R186, R412, R416) -/

/-- `lds` (R186, R412): Start, the exact promise, and the bytes; beyond the allocation they read 0. -/
def State.startLds (s : State) (i : Instr) (m : MemMod) (d a : VOp) (b : SPair) (t : TOp) : State :=
  let act := s.cur.active
  let n := sizeBytes m.size
  let r := s.latch
  let off := laneOffset r a b
  let s := if Order.acquires m.order && Scope.wide m.scope then s.modC Core.l1Acquire else s
  let depth := bankDepth act off n
  let port := s.wavePort depth
  let promise := port.1 + (4 * depth + 12) * s.cycle
  let s := port.2
  let s := s.modW fun w => (List.range (sizeRegs m.size + 1)).foldl (fun (w : Wave) j => w.toG r act d j) w
  let acc := { s.newAccess i .load act (some d) (sizeRegs m.size + 1) (some t) with
    acquire := if Order.acquires m.order then some m.scope else none, at_ := some promise, place := Vector.ofFn off }
  let acc := (lanesOf act).foldl (fun (x : Access) L => x.deposit L 0 (s.g.padNat (off L) n) (s.g.padPoison (off L) n)) acc
  let s := (s.addAccess acc).modW fun w => w.claimTime acc.id acc.treg act fun _ => BitVec.ofNat 64 promise
  s.due (.valueArrival s.w.slot acc.id)

/-- `lds` (R412). -/
def execLds (m : MemMod) (d a : VOp) (b : SPair) (t : TOp) (s : State) : Out1 :=
  word (.lds m d a b t) { accept := !s.w.acquiring && !s.heldConflict (.lds m d a b t) }
    (fun u => u.startLds (.lds m d a b t) m d a b t) s

/-- The data of a lane of a store, as a number of n bytes (R408). -/
def storeVal (r : Regs) (d : VOp) (n : Nat) (L : Lane) : Nat :=
  ((List.range ((n + 3) / 4)).foldl (fun v j => v + 2 ^ (32 * j) * (readAt r d j L).toNat) 0) % 2 ^ (8 * n)

/-- May a release of scratchpad or fence kind take effect at its scope (R305, R313)? -/
def State.fullRelease (s : State) (sc : Scope) : Bool :=
  match sc with
  | .wave => !s.w.reading && !s.storesHeld s.w.uid s.serial
  | .group => !s.w.reading && !s.storing s.w.uid
  | .dev => !s.w.reading && !s.unstamped s.w.uid
  | .sys => !s.w.reading && !s.unapplied s.w.uid

/-- `sts` (R185, R186, R313, R416): as the first store after a release fence it waits as a release of the fence's scope (R298). The lanes' bytes, the highest
lane's kept; beyond the allocation discarded. -/
def execSts (m : MemMod) (d a : VOp) (b : SPair) (s : State) : Out1 :=
  let n := sizeBytes m.size
  let r := s.latch
  let off := laneOffset r a b
  word (.sts m d a b)
    { accept := !s.w.acquiring && !s.heldConflict (.sts m d a b) && (!Order.releases m.order || s.fullRelease m.scope)
                  && (match s.w.relSts with
                      | some sc => s.fullRelease sc
                      | none => true) }
    (fun u =>
      let u := ((u.modW fun w => { w with relSts := none }).wavePort (bankDepth s.cur.active off n)).2
      u.modG fun g => (lanesOf s.cur.active).foldl (fun (g : Group) L => g.putPad (off L) (bytesOfNat (storeVal r d n L) n))
        ((g.keepFresh s.tick ((lanesOf s.cur.active).flatMap fun L => (List.range n).map (off L + ·))).clearLanes s.cur.active off n)) s

/-! ## Stores to memory (R416, R417) -/

/-- A store word: which lanes store, where, and what. -/
structure StoreWord where
  k : StoreKind
  ps : Lane → List Piece
  val : Lane → Nat
  one : Bool := false
  priv : Bool := false

/-- `st` and `sst`. -/
def storeOf (m : MemMod) (d a : VOp) (b : SPair) (key : SReg) (one : Bool) (r : Regs) : StoreWord :=
  { k := { release := Order.releases m.order && Scope.wide m.scope, sys := m.scope == .sys && Order.releases m.order, policy := m.policy
           key := if m.policy = .fwd then some ((r.sget key).setWidth 16) else none }
    ps := fun L => linePieces (laneAddr r a b L) (sizeBytes m.size), val := storeVal r d (sizeBytes m.size), one := one }

/-- `stp` (R191). -/
def stpOf (m : MemMod) (d a : VOp) (b : SPair) (r : Regs) (seg : VA) : StoreWord :=
  { k := {}, ps := fun L => privPieces seg.toNat L (laneOffset r a b L) (sizeBytes m.size)
    val := storeVal r d (sizeBytes m.size), priv := true }

/-- Perform the stores of the lanes of a mask. -/
def State.storeLanes (s : State) (sw : StoreWord) (m : Mask) : State :=
  let ws := s.lineWrites m sw.ps sw.val
  ws.foldl (fun (s : State) w =>
    if sw.priv && w.target == Target.device then
      let va := ((lanesOf m).flatMap fun L => (sw.ps L).filterMap fun p =>
        if (s.c.keyAt s.w.ctx p.va).elim false fun q => q.2 / 128 == w.line then some p.va else none).headD 0
      s.privWrite va w
    else s.postWrite sw.k w) (s.takeLooks ws.length)

/-- A store word. -/
def runStore (i : Instr) (order : Order) (scope : Scope) (priv : Mask) (sw : StoreWord) (s : State) : Out1 :=
  let own := accessLanes sw.one s.cur.active
  let hits := s.c.hitLanes s.w.ctx .write own sw.ps
  let miss := own &&& ~~~hits
  word i { priv := priv, accept := s.memAccept i miss && (!sw.priv || s.trackerRoom (lineCount hits sw.ps)) && s.releaseOk order scope }
    (fun u => (u.storeLanes sw hits).hold i miss .write ((sw.ps (lowest miss)).headD { va := 0, n := 0, place := 0 }).va none) s

/-- `st` (R416, R417). -/
def execSt (m : MemMod) (d a : VOp) (b : SPair) (key : SReg) (s : State) : Out1 :=
  runStore (.st m d a b key) m.order m.scope 0 (storeOf m d a b key false s.latch) s

/-- `sst` (R416, R417): the lowest active lane's address and data, once. -/
def execSst (m : MemMod) (d a : VOp) (b : SPair) (key : SReg) (s : State) : Out1 :=
  runStore (.sst m d a b key) m.order m.scope 0 (storeOf m d a b key true s.latch) s

/-- `stp` (R184, R191, R192). -/
def execStp (m : MemMod) (d a : VOp) (b : SPair) (s : State) : Out1 :=
  runStore (.stp m d a b) .wk .dev (privLanes s.latch a b (sizeBytes m.size) s.w.limit s.cur.active)
    (stpOf m d a b s.latch s.w.segbase) s

/-! ## Rows to and from memory (R454, R455) -/

/-- The run that sB names: its first register and its count. -/
def runFirst (v : Word) : Nat := v.toNat % 256
def runCount (v : Word) : Nat := v.toNat / 256 % 64 + 1

/-- Is the word's run description illegal (R454)? -/
def runIllegal (base : DWord) (v : Word) : Bool := base.toNat % 128 != 0 || decide (16384 ≤ v.toNat)

/-- The pieces of a run: for each register its 128 bytes. -/
def runPieces (base : DWord) (n : Nat) : List Piece :=
  (List.range n).map fun j => { va := (base.toNat + 128 * j) % 2 ^ 57, n := 128, place := 0 }

/-- A register's 32 lanes as a line. -/
def rowBits (r : VReg) : BitVec 1024 :=
  BitVec.ofNat 1024 (allLanes.foldl (fun v L => v + 2 ^ (32 * L.val) * (r.lane L).toNat) 0)

/-- Store the registers of a run whose pages translate, and free their rows; what is left is held. -/
def State.spillRun (s : State) (r : Regs) (a : SPair) (b : SReg) : State :=
  let f := runFirst (r.sget b)
  (List.range (runCount (r.sget b))).foldl (fun (s : State) j =>
    let va := ((r.pair a).toNat + 128 * j) % 2 ^ 57
    let n : Fin 256 := Fin.ofNat 256 (f + j)
    match s.c.keyAt s.w.ctx va with
    | none => s
    | some (t, k) =>
      (s.postWrite {} { target := t, line := k / 128, va := va / 128, mask := BitVec.allOnes 128, data := rowBits r.v[n] }).modW
        fun w => w.writeWhole n (.u 0)) (s.takeLooks (runCount (r.sget b)))

/-- `wspill` (R454, R455): the run's registers go to memory and become a U zero (DEDUCED, log 23). -/
def execWspill (a : SPair) (b : SReg) (s : State) : Out1 :=
  let r := s.latch
  let f := runFirst (r.sget b)
  let n := runCount (r.sget b)
  let ps := runPieces (r.pair a) n
  let miss := ps.any fun p => (s.c.look s.w.ctx .write p.va).isNone
  let targeted := s.w.accs.any fun (x : Access) => (List.finRange 5).any fun j =>
    decide (j.val < x.regs) && allLanes.any fun L => x.going L && decide (f ≤ (x.dst[L]).val + j.val) && decide ((x.dst[L]).val + j.val < f + n)
  let lane : Mask := if miss then 1#32 else 0#32
  word (.wspill a b)
    { illegal := runIllegal (r.pair a) (r.sget b), bound := if s.w.nregs < f + n then some .b else none, run := some (f, n)
      accept := s.memAccept (.wspill a b) lane && !targeted }
    (fun u => if miss then (u.hold (.wspill a b) 1#32 .write (r.pair a).toNat none).park .replay else u.spillRun r a b) s

/-- Start the fill of the registers of a run: one access each; the wave parks until every line has arrived (R455). -/
def State.fillRun (s : State) (i : Instr) (r : Regs) (a : SPair) (b : SReg) : State :=
  let f := runFirst (r.sget b)
  (List.range (runCount (r.sget b))).foldl (fun (s : State) j =>
    let va := (r.pair a).toNat + 128 * j
    let n : Fin 256 := Fin.ofNat 256 (f + j)
    let all : Mask := BitVec.allOnes 32
    let x := { s.newAccess i .wfill all none 1 none with dst := Vector.ofFn fun _ => n }
    let s := s.modW fun w => w.writeLanes n all fun L => (w.regs.v[n]).lane L
    (s.addAccess x).loadLanes x.id {} all fun L => [{ va := (va + 4 * L.val) % 2 ^ 57, n := 4, place := 0 }]) (s.takeLooks (runCount (r.sget b)))

/-- `wfill` (R454, R455): the run's registers take shape G at issue (DEDUCED, log 23). -/
def execWfill (a : SPair) (b : SReg) (s : State) : Out1 :=
  let r := s.latch
  let n := runCount (r.sget b)
  let miss := (runPieces (r.pair a) n).any fun p => (s.c.look s.w.ctx .read p.va).isNone
  let lane : Mask := if miss then 1#32 else 0#32
  let f := runFirst (r.sget b)
  word (.wfill a b)
    { illegal := runIllegal (r.pair a) (r.sget b), bound := if s.w.nregs < f + n then some .b else none
      accept := s.memAccept (.wfill a b) lane && s.trackerRoom n }
    (fun u =>
      if miss then
        let u := u.modW fun w => (List.range n).foldl (fun (w : Wave) j =>
          let k : Fin 256 := Fin.ofNat 256 (f + j)
          w.writeLanes k (BitVec.allOnes 32) fun L => (w.regs.v[k]).lane L) w
        (u.hold (.wfill a b) 1#32 .read (r.pair a).toNat none).park .replay
      else
        let first := u.serial
        (u.fillRun (.wfill a b) r a b).park (.value first)) s

end Machine
end Sys2Proof
end

