-- ==== Sys2Proof/Machine/Atomics.lean ====
section
/-! DEFINITION. The atomics (R419-R423): the operations, the requests to the home, the tickets of `atsc` (R310), and the combining of
`hred`. -/

namespace Sys2Proof
namespace Machine

/-! ## The operations (R419) -/

/-- The new value of a location of w bits from its old value and the operand. -/
def newValue (op : AtomOp) (w o v : Nat) : Nat :=
  let so := intOf true w o
  let sv := intOf true w v
  match op with
  | .add => (o + v) % 2 ^ w
  | .min => if so ≤ sv then o else v
  | .max => if so ≤ sv then v else o
  | .minN => if o ≤ v then o else v
  | .maxN => if o ≤ v then v else o
  | .and => o &&& v
  | .or => o ||| v
  | .xor => o ^^^ v
  | .exch => v
  | .fadd => fmtF32.fadd .rne o v
  | .fmin => fmtF32.fmin o v
  | .fmax => fmtF32.fmax o v

/-- The operand that `hred` forms from the operands of the lanes that name one location (R422): for `.fadd` the tree of R247 over the 32
lane positions. -/
def combine (op : AtomOp) (w : Nat) (m : Mask) (f : Lane → Nat) : Nat :=
  match op with
  | .fadd => treeSum .rne 5 (allLanes.map fun L => if m.getLsbD L.val then f L else 0)
  | _ =>
    match lanesOf m with
    | [] => 0
    | L :: rest => rest.foldl (fun c K => newValue op w c (f K)) (f L)

/-- One atomic word: the operation, its lanes' operands and compare values, and its order. -/
structure AtomWord where
  op : AtomOp
  compare : Option (Lane → Nat) := none
  addr : Lane → Nat
  val : Lane → Nat
  n : Nat
  order : Order
  scope : Scope
  ticket : Bool := false
  signal : Bool := false             -- `sigdec` (R428)
  hreduce : Bool := false

/-- The piece of a lane: the address aligned down to the size (R420). -/
def AtomWord.ps (w : AtomWord) (L : Lane) : List Piece := [{ va := w.addr L / w.n * w.n, n := w.n, place := 0 }]

/-- The word's fields from its operands. -/
def atomOf (op : AtomOp) (m : MemMod) (d a : VOp) (b : SPair) (r : Regs) : AtomWord :=
  { op := op, addr := laneAddr r a b, val := storeVal r d (sizeBytes m.size), n := sizeBytes m.size, order := m.order, scope := m.scope }

/-- Invalidate the L1 copy of a line that an atomic names (R182): a dirty private line is written back. -/
def State.l1Forget (s : State) (line : Nat) : State :=
  let s := match s.c.l1Find line with
    | some l => s.writeBack (coreOfSlot s.w.slot) l
    | none => s
  let s := s.modC fun c => { c with l1 := c.l1.filter fun (l : L1Line) => l.line != line }
  { s with reqs := s.reqs.map fun (r : Req) =>
      if r.core == coreOfSlot s.w.slot && r.line == line && r.kind.isRead then { r with fillL1 := false } else r }

/-- Send one atomic operation for a lane (R420), or for a location (R422) (DEDUCED, log 30). -/
def State.sendAtom (s : State) (w : AtomWord) (acc : Option Nat) (L : Lane) (val : Nat) : State :=
  match s.c.keyAt s.w.ctx (w.addr L / w.n * w.n) with
  | none => s
  | some (t, k) =>
    let s := s.l1Forget (k / 128)
    let r := { s.newReq (.atomic w.op (w.compare.map fun f => BitVec.ofNat 64 (f L))) t (k / 128) with
      acc := acc, mask := byteMask (k % 128) w.n, data := BitVec.ofNat 1024 val, size := w.n, offset := k % 128, lane := L.val
      va := BitVec.ofNat 57 (w.addr L / 128 * 128), acquire := Order.acquires w.order
      release := (Order.releases w.order && Scope.wide w.scope) || w.ticket
      sys := w.scope == Scope.sys && Order.releases w.order, ticketed := w.ticket, signal := w.signal }
    let f := s.w.fencedStore t r.home
    let r := { r with release := r.release || f.1, sys := r.sys || f.2.1 }
    let s := s.modW fun v => (v.fencedStore t r.home).2.2
    let s := match acc with
      | some id => s.modW fun v => v.modAcc id fun a =>
          { a with waits := a.waits ++ [r.id], sources := a.sources.set L [(r.id, k % 128, w.n, 0)] }
      | none => s
    let s := s.send r
    if w.ticket && t == Target.device then
      ({ s with seq := { s.seq with tickets := s.seq.tickets ++
          [({ wave := s.w.uid, slot := s.w.slot, acc := acc.getD 0, lane := L.val, home := some r.home, asked := s.tick } : Ticket)] } }).due .ticketGrant
    else s

/-- Perform the atomics of the lanes of a mask, in increasing lane order; `hred` combines the lanes of one location first. -/
def State.atomLanes (s : State) (w : AtomWord) (acc : Option Nat) (m : Mask) : State :=
  let s := s.takeLooks (lineCount m w.ps)
  if w.hreduce then
    let key (L : Lane) : Option Nat := (s.c.keyAt s.w.ctx (w.addr L / w.n * w.n)).map (·.2)
    (lanesOf m).foldl (fun (s : State) L =>
      let same := m &&& maskOf fun K => key K == key L
      if lowest same = L then s.sendAtom w none L (combine w.op (8 * w.n) same w.val) else s) s
  else (lanesOf m).foldl (fun (s : State) L => s.sendAtom w acc L (w.val L)) s

/-- The initial value of an atomic's lane (R197). -/
def State.atomInitial (s : State) (w : AtomWord) (hits : Mask) (L : Lane) : DWord :=
  if w.ticket || !hits.getLsbD L.val then noPromise
  else if (w.ps L).any fun p => (s.c.keyAt s.w.ctx p.va).elim true fun q => q.1 != Target.device then noPromise
  else BitVec.ofNat 64 (s.tick + s.capHbm s.x.part + s.capHold)

/-- Issue an atomic that returns its old value. -/
def State.startAtom (s : State) (i : Instr) (d : VOp) (size : Size) (t : TOp) (w : AtomWord) : State :=
  let act := s.cur.active
  let n := sizeRegs size + 1
  let acq := Order.acquires w.order || w.ticket
  let s := if acq && Scope.wide w.scope then s.modC Core.l1Acquire else s
  let hits := s.c.hitLanes s.w.ctx .write act w.ps
  let s := s.modW fun v => (List.range n).foldl (fun (v : Wave) j => v.toG s.latch act d j) v
  let a := { s.newAccess i .atom act (some d) n (some t) with acquire := if acq then some w.scope else none }
  let f := s.atomInitial w hits
  let s := (s.addAccess a).modW fun v => v.claimTime a.id a.treg act f
  let s := s.atomLanes w (some a.id) hits
  let miss := act &&& ~~~hits
  s.hold i miss .write ((w.ps (lowest miss)).headD { va := 0, n := 0, place := 0 }).va (some a.id)

/-- What an atomic word asks of the M pipe. -/
def State.atomChecks (s : State) (i : Instr) (w : AtomWord) : Checks :=
  let miss := s.cur.active &&& ~~~(s.c.hitLanes s.w.ctx .write s.cur.active w.ps)
  { accept := s.memAccept i miss && s.releaseOk w.order w.scope }

/-- An atomic that returns its old value. -/
def runAtom (i : Instr) (d : VOp) (size : Size) (t : TOp) (w : AtomWord) (s : State) : Out1 :=
  word i (s.atomChecks i w) (fun u => u.startAtom i d size t w) s

/-- An atomic that returns nothing. -/
def runRed (i : Instr) (w : AtomWord) (s : State) : Out1 :=
  word i (s.atomChecks i w) (fun u =>
    let hits := u.c.hitLanes u.w.ctx .write s.cur.active w.ps
    let miss := s.cur.active &&& ~~~hits
    (u.atomLanes w none hits).hold i miss .write ((w.ps (lowest miss)).headD { va := 0, n := 0, place := 0 }).va none) s

/-- `atom` (R420). -/
def execAtom (op : AtomOp) (m : MemMod) (d a : VOp) (b : SPair) (t : TOp) (s : State) : Out1 :=
  runAtom (.atom op m d a b t) d m.size t (atomOf op m d a b s.latch) s

/-- `cas` (R420): bitwise equality at the size. -/
def casOf (m : MemMod) (d a : VOp) (b : SPair) (e : VOp) (r : Regs) : AtomWord :=
  { atomOf .exch m d a b r with compare := some (storeVal r e (sizeBytes m.size)) }

def execCas (m : MemMod) (d a : VOp) (b : SPair) (e : VOp) (t : TOp) (s : State) : Out1 :=
  runAtom (.cas m d a b e t) d m.size t (casOf m d a b e s.latch) s

/-- `atsc` (R309, R421): one ticket for each active lane; `.ar` at `.dev`. -/
def atscOf (op : AtomOp) (m : MemMod) (d a : VOp) (b : SPair) (r : Regs) : AtomWord :=
  { atomOf op m d a b r with order := .ar, scope := .dev, ticket := true }

def execAtsc (op : AtomOp) (m : MemMod) (d a : VOp) (b : SPair) (t : TOp) (s : State) : Out1 :=
  runAtom (.atsc op m d a b t) d m.size t (atscOf op m d a b s.latch) s

/-- `red` (R422). -/
def execRed (op : AtomOp) (m : MemMod) (d a : VOp) (b : SPair) (s : State) : Out1 :=
  runRed (.red op m d a b) (atomOf op m d a b s.latch) s

/-- `hred` (R422). -/
def execHred (op : AtomOp) (m : MemMod) (d a : VOp) (b : SPair) (s : State) : Out1 :=
  runRed (.hred op m d a b) { atomOf op m d a b s.latch with hreduce := true } s

end Machine
end Sys2Proof
end

