-- ==== Sys2Proof/Machine/Home.lean ====
section
/-! DEFINITION. The octants as sites and homes: counters (R30-R33), the caches' victims and quotas (R72-R75), bytes written at a home
(R41, R63), and addresses of a context translated through its tree (R320-R322). -/

namespace Sys2Proof
namespace Machine

/-! ## Counters (R31) -/

/-- Ge(a, b). -/
def ge12 (a b : BitVec 12) : Bool := decide ((a - b).toNat < 2048)

/-- Max12(a, b). -/
def max12 (a b : BitVec 12) : BitVec 12 := if ge12 a b then a else b

/-- Merge(M, N). -/
def mergeMat (m n : CMat) : CMat := Vector.ofFn fun (i : Fin 8) => Vector.ofFn fun (j : Fin 8) => max12 m[i][j] n[i][j]

/-- The column of a home in a site's matrix. -/
def columnOf (k : CMat) (h : Oct) : CVec := Vector.ofFn fun (i : Fin 8) => (k[i])[h]

/-- Is a column met by an applied vector (R46)? -/
def meets (a col : CVec) : Bool := (List.finRange 8).all fun (i : Fin 8) => ge12 a[i] col[i]

/-- Change an octant. -/
def State.modOct (s : State) (o : Oct) (f : Octant → Octant) : State := { s with octs := s.octs.set o (f s.octs[o]) }

/-- A writes' sequence number on its path. -/
def Req.seqNo (r : Req) : BitVec 12 := r.vec[r.site]

/-- A site learns a home's applied vector (R33): its knowledge grows, and the writes shown applied leave the retry buffer (R44). -/
def State.learn (s : State) (site home : Oct) (v : CVec) : State :=
  let shownNow := max12 v[site] s.octs[site].shown[home]
  let shows (id : Nat) : Bool :=
    match s.req? id with
    | some r => r.home == home && ge12 shownNow r.seqNo
    | none => true
  let gone := (s.octs[site].retry.filter fun p => shows p.1).map (·.1)
  let s := s.modOct site fun (o : Octant) => { o with
    k := Vector.ofFn fun (i : Fin 8) => (o.k[i]).set home (max12 (o.k[i])[home] v[i])
    shown := o.shown.set home shownNow
    retry := o.retry.filter fun p => !gone.contains p.1 }
  { s with reqs := s.reqs.filter fun (r : Req) => !(gone.contains r.id && r.stage == .applied && r.quiet) }

/-- A site merges a matrix (R33). -/
def State.learnMat (s : State) (site : Oct) (m : CMat) : State := s.modOct site fun (o : Octant) => { o with k := mergeMat o.k m }

/-! ## Sets of the L2 and L3 (R58, R72-R74) -/

/-- A line of a set as R73 sees it: its way, its age, its owner. -/
structure SetLine where
  way : Nat
  age : Nat
  owner : Nat

def L2Line.view (l : L2Line) : SetLine := { way := l.way, age := l.age, owner := l.owner }
def L3Line.view (l : L3Line) : SetLine := { way := l.way, age := l.age, owner := l.owner }

/-- Lines allowed to a partition in a set (R72). -/
def State.quota (s : State) (l3 : Bool) (p : Nat) : Nat :=
  let q := s.parts[Fin.ofNat 8 p].quotaForce
  if l3 then q.l3ways.toNat else q.l2ways.toNat

/-- The oldest line of a list, the lowest way among equals. -/
def oldest (l : List SetLine) : Option SetLine :=
  l.foldl (fun (b : Option SetLine) x =>
    match b with
    | none => some x
    | some y => if y.age < x.age ∨ (y.age = x.age ∧ x.way < y.way) then some x else some y) none

/-- Victim(p, set) (R73): a way, or none when the fill is served without allocation. -/
def State.victim (s : State) (l3 : Bool) (p : Nat) (lines : List SetLine) (bad : List Nat) : Option Nat :=
  match (List.range 16).find? fun w => !bad.contains w && !(lines.any fun l => l.way == w) with
  | some w => some w
  | none =>
    let charged (q : Nat) : Nat := lines.countP fun l => s.partOf l.owner == q
    let e := lines.filter fun l => !bad.contains l.way &&
      (decide (s.quota l3 (s.partOf l.owner) < charged (s.partOf l.owner)) ||
        (s.partOf l.owner == p && decide (s.quota l3 p ≤ charged p)))
    (oldest e).map (·.way)

/-- The set numbers of a line. -/
def l2SetOf (line : Nat) : Nat := l2Set (line * 128)
def l3SetOf (line : Nat) : Nat := l3Set (line * 128)

/-- The quarantined ways of a set (R90). -/
def Octant.badWays (o : Octant) (l3 : Bool) (set : Nat) : List Nat :=
  (o.quarantined.filter fun q => q.1 == l3 && q.2.1 == set).map (·.2.2)

/-- Invalidate the L2 copies of a line in every octant but one. -/
def State.l2Drop (s : State) (line : Nat) (keep : Option Oct) : State :=
  { s with octs := Vector.ofFn fun (o : Oct) =>
      let x := s.octs[o]
      if keep = some o then x else { x with l2 := x.l2.filter fun (l : L2Line) => l.line != line } }

/-- A line of an octant's L2 or L3. -/
def Octant.l2Find (o : Octant) (line : Nat) : Option L2Line := o.l2.find? fun (l : L2Line) => l.line == line
def Octant.l3Find (o : Octant) (line : Nat) : Option L3Line := o.l3.find? fun (l : L3Line) => l.line == line

/-- Change a line of an octant's L2, of its L3. -/
def Octant.modL2 (o : Octant) (line : Nat) (f : L2Line → L2Line) : Octant := { o with l2 := o.l2.map fun (x : L2Line) => if x.line = line then f x else x }
def Octant.modL3 (o : Octant) (line : Nat) (f : L3Line → L3Line) : Octant := { o with l3 := o.l3.map fun (x : L3Line) => if x.line = line then f x else x }

/-- Is a line dirty in an octant's own L2, in its L3? -/
def Octant.l2Dirty (o : Octant) (line : Nat) : Bool := ((o.l2Find line).map (·.dirty)).getD false
def Octant.l3Dirty (o : Octant) (line : Nat) : Bool := ((o.l3Find line).map (·.dirty)).getD false

/-- A copy leaves the octant's own L2: a dirty one makes its L3 line dirty (R62). -/
def Octant.l2Leaves (o : Octant) (line : Nat) : Octant :=
  let o := if o.l2Dirty line then o.modL3 line fun x => { x with dirty := true } else o
  { o with l2 := o.l2.filter fun (x : L2Line) => x.line != line }

/-- Put a line into an L2 set; answers whether a victim was found. A dirty line that leaves makes its L3 line dirty. -/
def State.l2Insert (s : State) (oct : Oct) (p : Nat) (l : L2Line) : State × Bool :=
  let o := s.octs[oct]
  let set := l2SetOf l.line
  let mates := o.l2.filter fun (m : L2Line) => l2SetOf m.line == set
  match s.victim false p (mates.map (·.view)) (o.badWays false set) with
  | none => (s, false)
  | some w =>
    let out := mates.find? fun (m : L2Line) => m.way == w
    let kept := o.l2.filter fun (m : L2Line) => !(l2SetOf m.line == set && m.way == w)
    let aged := kept.map fun (m : L2Line) => if l2SetOf m.line = set then { m with age := Nat.min 3 (m.age + 1) } else m
    let l3 := match out with
      | some m => if m.dirty then (o.modL3 m.line fun x => { x with dirty := true }).l3 else o.l3
      | none => o.l3
    (s.modOct oct fun (o : Octant) => { o with l2 := aged ++ [{ l with way := w }], l3 := l3 }, true)

/-- Put a line into an L3 set at its home (R62): a line that leaves takes every L2 copy with it. -/
def State.l3Insert (s : State) (oct : Oct) (p : Nat) (l : L3Line) : State × Bool :=
  let o := s.octs[oct]
  let set := l3SetOf l.line
  let mates := o.l3.filter fun (m : L3Line) => l3SetOf m.line == set
  match s.victim true p (mates.map (·.view)) (o.badWays true set) with
  | none => (s, false)
  | some w =>
    let out := mates.find? fun (m : L3Line) => m.way == w
    let kept := o.l3.filter fun (m : L3Line) => !(l3SetOf m.line == set && m.way == w)
    let aged := kept.map fun (m : L3Line) => if l3SetOf m.line = set then { m with age := Nat.min 3 (m.age + 1) } else m
    let s := s.modOct oct fun (o : Octant) => { o with l3 := aged ++ [{ l with way := w }] }
    match out with
    | some m => (s.l2Drop m.line none, true)
    | none => (s, true)

/-- A write hit by another context takes the line (R74): the charge moves to the writer's partition, whose oldest line leaves first when it
is at its quota and holds a line of the set (DEDUCED, log 118). -/
def State.l3Take (s : State) (oct : Oct) (line ctx : Nat) : State :=
  let o := s.octs[oct]
  match o.l3Find line with
  | none => s
  | some l =>
    let w := s.partOf ctx
    let mates := o.l3.filter fun (m : L3Line) => l3SetOf m.line == l3SetOf line
    let mine := mates.filter fun (m : L3Line) => s.partOf m.owner == w
    let out := if s.partOf l.owner ≠ w ∧ s.quota true w ≤ mine.length then oldest (mine.map (·.view)) else none
    let goes := match out with
      | some v => mates.find? fun (m : L3Line) => m.way == v.way
      | none => none
    let s := match goes with
      | some m => (s.modOct oct fun (o : Octant) => { o with l3 := o.l3.filter fun (x : L3Line) => x.line != m.line }).l2Drop m.line none
      | none => s
    s.modOct oct fun (o : Octant) => o.modL3 line fun x => { x with owner := ctx }

/-- The same for a line that an octant's L2 holds; a dirty line that leaves is written back to its L3 line. -/
def State.l2Take (s : State) (oct : Oct) (line ctx : Nat) : State :=
  let o := s.octs[oct]
  match o.l2Find line with
  | none => s
  | some l =>
    let w := s.partOf ctx
    let mates := o.l2.filter fun (m : L2Line) => l2SetOf m.line == l2SetOf line
    let mine := mates.filter fun (m : L2Line) => s.partOf m.owner == w
    let out := if s.partOf l.owner ≠ w ∧ s.quota false w ≤ mine.length then oldest (mine.map (·.view)) else none
    let goes := match out with
      | some v => (mates.find? fun (m : L2Line) => m.way == v.way).map (·.line)
      | none => none
    s.modOct oct fun (o : Octant) =>
      (match goes with
        | some m => o.l2Leaves m
        | none => o).modL2 line fun x => { x with owner := ctx }

/-! ## Bytes written at a home (R41, R63) -/

/-- Write bytes of a line at its home: every other octant's L2 copy goes, and no reply on its way may fill an L2 with the old value. -/
def State.storeLine (s : State) (line : Nat) (mask : BitVec 128) (d : BitVec 1024) : State :=
  let home := homeOf (line * 128)
  let s := s.l2Drop line (some home)
  { s with
    mem := s.mem.store line mask d
    hostHolds := s.hostHolds.filter (· != line)
    reqs := s.reqs.map fun (r : Req) =>
      if r.line == line && (r.stage == .reply || r.stage == .fill || r.stage == .mem) then { r with cacheable := false } else r }

/-- A device write at its home: the N5's own writes, which no request carries, snoop a host cache and are answered in the tick (R116) (DESIGN
CHOICE, log 57). -/
def State.homeStore (s : State) (line : Nat) (mask : BitVec 128) (d : BitVec 1024) : State :=
  { s.storeLine line mask d with out := if s.hostHolds.contains line then s.out ++ [.snoopLine line] else s.out }

/-- The home recalls a line from its own L2 (R77). -/
def State.recallL2 (s : State) (home : Oct) (line : Nat) : State := s.modOct home fun o => o.l2Leaves line

/-- Before a write makes a clean line dirty, its L3 entry keeps what memory holds (R76) (DEDUCED, log 117). -/
def State.keepBelow (s : State) (home : Oct) (line : Nat) : State :=
  if s.octs[home].l2Dirty line || s.octs[home].l3Dirty line then s
  else s.modOct home fun o => o.modL3 line fun x => { x with below := s.mem.line line, belowBad := s.mem.lineBad line }

/-- Where a write's cache metadata goes (R63, R74, R75, R410): the home's L2 when it holds the line, else its L3, allocating there; a `.fwd` store
leaves every L2 and records its key. Without a victim the write is performed at memory. -/
def State.noteWrite (s : State) (home : Oct) (line ctx : Nat) (policy : Policy) (key : Option (BitVec 16)) : State :=
  let s := if key.isSome then (s.recallL2 home line).l2Drop line none else s
  let s := s.keepBelow home line
  if (s.octs[home].l2Find line).isSome then
    (s.l2Take home line ctx).modOct home fun o =>
      (o.modL2 line fun x => { x with dirty := true, age := hitAge policy x.age }).modL3 line fun x => { x with key := none }
  else
    match s.octs[home].l3Find line with
    | some _ => (s.l3Take home line ctx).modOct home fun o => o.modL3 line fun x => { x with dirty := true, key := key, age := hitAge policy x.age }
    | none =>
      (s.l3Insert home (s.partOf ctx) { line := line, way := 0, age := fillAge policy, owner := ctx, dirty := true, key := key
                                        below := s.mem.line line, belowBad := s.mem.lineBad line }).1

/-- A write of the host or of a peer in the home's caches: a line that they hold becomes dirty under the owner it has, and loses a forward key
(R75); another one is written at memory (DEDUCED, log 67). -/
def State.noteOutside (s : State) (line : Nat) : State :=
  let home := homeOf (line * 128)
  (s.keepBelow home line).modOct home fun o =>
    if (o.l2Find line).isSome then (o.modL2 line fun x => { x with dirty := true }).modL3 line fun x => { x with key := none }
    else o.modL3 line fun x => { x with dirty := true, key := none }

/-! ## The page-table tree (R320-R322) -/

/-- What a walk finds. -/
inductive Walked where
  | leaf (t : Tlb)
  | absent (malformed : Bool)

/-- The address space bits that a level of the tree indexes: the first bit and the number of entries. -/
def levelBit : Nat → Nat
  | 0 => 16
  | n + 1 => 21 + 9 * n
def levelSize : Nat → Nat
  | 0 => 32
  | _ => 512

/-- Fields of an entry (R321). -/
def pteBit (e : DWord) (n : Nat) : Bool := e.getLsbD n
def pteTarget (e : DWord) : Nat := e.toNat / 16 % 4
def pteAddr (e : DWord) : Nat := e.toNat % 2 ^ 52 / 256 * 256
def pteChip (e : DWord) : Nat := e.toNat / 2 ^ 52

/-- Is a valid entry malformed at a level (R322)? -/
def pteMalformed (e : DWord) (level : Nat) : Bool :=
  let leaf := pteBit e 1
  let t := pteTarget e
  pteBit e 7 || t == 3
    || (leaf && decide (3 ≤ level)) || (!leaf && level == 0)
    || (!leaf && (t != 0 || pteBit e 2 || pteBit e 3 || pteBit e 6 || pteChip e != 0 || (decide (2 ≤ level) && pteAddr e % 4096 != 0)))
    || (leaf && (pteAddr e % 2 ^ levelBit level != 0 || (t != 1 && pteBit e 6) || (t != 2 && pteChip e != 0) || (t != 0 && pteBit e 3)))

/-- The leaf that an entry is. -/
def pteLeaf (ctx va : Nat) (e : DWord) (level : Nat) : Tlb :=
  let size := 2 ^ levelBit level
  { ctx := ctx, base := va / size * size, size := size
    target := match pteTarget e with
      | 0 => .device
      | 1 => .host (if pteBit e 6 then 1 else 0)
      | _ => .peer (BitVec.ofNat 12 (pteChip e))
    pa := pteAddr e, write := pteBit e 2, exec := pteBit e 3 }

/-- Walk from a table at a level. -/
def walkFrom (m : Memory) (ctx va : Nat) : Nat → Nat → Walked
  | 0, table => step 0 table fun _ => .absent true
  | n + 1, table => step (n + 1) table fun next => walkFrom m ctx va n next
where
  /-- One level. -/
  step (level table : Nat) (down : Nat → Walked) : Walked :=
    let e := m.dword (table + 8 * (va / 2 ^ levelBit level % levelSize level))
    if !pteBit e 0 then .absent false
    else if pteMalformed e level then .absent true
    else if pteBit e 1 then .leaf (pteLeaf ctx va e level)
    else down (pteAddr e)

/-- The table pointers that a walk from a table at a level passes: the levels and the tables that they name. -/
def walkPath (m : Memory) (va : Nat) : Nat → Nat → List (Nat × Nat)
  | 0, _ => []
  | n + 1, table =>
    let e := m.dword (table + 8 * (va / 2 ^ levelBit (n + 1) % levelSize (n + 1)))
    if pteBit e 0 && !pteMalformed e (n + 1) && !pteBit e 1 then (n, pteAddr e) :: walkPath m va n (pteAddr e) else []

/-- The walk of an address of a context (R320). -/
def State.walk (s : State) (ctx va : Nat) : Walked :=
  match s.ctx? ctx with
  | some x => walkFrom s.mem ctx va 4 (x.ptroot.toNat * 4096)
  | none => .absent false

/-- The target and the key of an address of a context, for the N5's own accesses. -/
def State.place (s : State) (ctx va : Nat) : Option (Target × Nat) :=
  match s.walk ctx va with
  | .leaf e => some (e.target, e.key va)
  | .absent _ => none

/-- Bytes of a context's memory, read at their homes; what does not translate reads as none. -/
def State.readVa (s : State) (ctx va n : Nat) : Option (List Byte) :=
  match s.place ctx va with
  | some (_, k) => some (s.mem.bytes k n)
  | none => none

/-- A 64-bit word and a 32-bit word of a context's memory. -/
def State.dwordVa (s : State) (ctx va : Nat) : Option DWord := (s.place ctx va).map fun p => s.mem.dword p.2
def State.wordVa (s : State) (ctx va : Nat) : Option Word := (s.place ctx va).map fun p => s.mem.word p.2

/-- Write bytes of a line for a context, at its home (R63) or in host or peer memory. -/
def State.putLine (s : State) (ctx line : Nat) (mask : BitVec 128) (d : BitVec 1024) : State :=
  if line * 128 < 2 ^ 52 then (s.noteWrite (homeOf (line * 128)) line ctx .dflt none).homeStore line mask d
  else { s with mem := s.mem.store line mask d }

/-- Write bytes at a key for a context, line by line. -/
def State.putKey (s : State) (ctx key : Nat) (b : List Byte) : State :=
  (linePieces key b.length).foldl (fun (s : State) (p : Piece) =>
    s.putLine ctx (p.va / 128) (byteMask (p.va % 128) p.n) (lineAt (natOfBytes ((b.drop p.place).take p.n)) (p.va % 128))) s

/-- Write bytes, each at most 128 of them, at an address of a context (DEDUCED, log 45). -/
def State.putVa (s : State) (ctx va : Nat) (b : List Byte) : State :=
  match s.place ctx va with
  | some (_, k) => s.putKey ctx k b
  | none => s

/-- Write a longer string of bytes, 64 at a time; the address is a multiple of 64. -/
def State.putLong (s : State) (ctx va : Nat) (b : List Byte) : State :=
  (List.range ((b.length + 63) / 64)).foldl (fun (s : State) n => s.putVa ctx (va + 64 * n) ((b.drop (64 * n)).take 64)) s

/-- Read a longer string of bytes, 64 at a time; what does not translate reads 0. -/
def State.readLong (s : State) (ctx va n : Nat) : List Byte :=
  ((List.range ((n + 63) / 64)).flatMap fun k => (s.readVa ctx (va + 64 * k) 64).getD (List.replicate 64 0)).take n

end Machine
end Sys2Proof
end

