-- ==== Sys2Proof/Machine/Queue.lean ====
section
/-! DEFINITION. Queues and packets (R99-R111, R457): records, RCB chains (R143-R146), checks, dependences, starts and completions; task
pools (R151, R152); and the waits that a change of an event or a signal ends (R155-R157). -/

namespace Sys2Proof
namespace Machine

/-- A field of a little-endian record: `w` bits from bit `lo`. -/
def bitsOf (b : List Byte) (lo w : Nat) : Nat := natOfBytes b / 2 ^ lo % 2 ^ w

/-! ## Contexts and RCB chains -/

/-- The physical address of the root RCB that CTX_ROOT names (R457). -/
def State.rootOf (s : State) (ctx : Nat) : Option Nat :=
  let r := (regsGet s.window.ctxRoot ctx).toNat
  if r / 2 ^ 63 = 1 ∧ r / 2 ^ 52 % 2 ^ 11 = 0 ∧ r % 128 = 0 ∧ r % 2 ^ 52 < Config.installed then some (r % 2 ^ 52) else none

/-- The context with its root RCB's fields as read (R143). -/
def Ctx.read (x : Ctx) (id pa : Nat) (b : List Byte) : Ctx :=
  { x with
    id := id, root := pa, part := bitsOf b 633 3, ptroot := BitVec.ofNat 40 (bitsOf b 920 40)
    handler := BitVec.ofNat 53 (bitsOf b 867 53), save := BitVec.ofNat 45 (bitsOf b 822 45)
    evover := BitVec.ofNat 41 (bitsOf b 781 41), evbase := BitVec.ofNat 39 (bitsOf b 742 39)
    taskbase := BitVec.ofNat 41 (bitsOf b 701 41), tasklg := bitsOf b 696 5, diag := BitVec.ofNat 48 (bitsOf b 648 48) }

/-- Read the root RCB of a context whose CTX_ROOT is valid. -/
def State.loadCtx (s : State) (ctx : Nat) : State :=
  match s.rootOf ctx with
  | none => s
  | some pa =>
    let b := s.mem.bytes pa 128
    match s.ctx? ctx with
    | some _ => s.modCtx ctx fun x => x.read ctx pa b
    | none => { s with ctxs := s.ctxs ++ [Ctx.read {} ctx pa b] }

/-- The RCBs of a chain, the root first, or the err of R144. -/
def State.chainFrom (s : State) (ctx : Nat) : Nat → Nat → List (Nat × List Byte) → Except Nat (List (Nat × List Byte))
  | 0, _, _ => .error 6
  | n + 1, rcb, acc =>
    if acc.any fun p => p.1 == rcb then .error 6
    else
      match s.readVa ctx rcb 128 with
      | none => .error 4
      | some b =>
        let parent := bitsOf b 206 50 * 128
        if parent = 0 then .ok ((rcb, b) :: acc)
        else if natOfBytes b / 2 ^ 256 = 0 then s.chainFrom ctx n parent ((rcb, b) :: acc)
        else .error 6

/-- The values in force for a root, and for an RCB under its parent (R145). -/
def Chain.ofRcb (ctx rcb : Nat) (b : List Byte) (up : Option Chain) : Chain :=
  let own : Budget := { rcb := rcb, cores := bitsOf b 197 9, waves := bitsOf b 182 15, scratch := bitsOf b 163 19,
                        acc := bitsOf b 147 16, wide := bitsOf b 125 22 }
  let oct := bitsOf b 117 8
  let prio := bitsOf b 113 4
  match up with
  | none => { ctx := ctx, rcb := rcb, budgets := [own], octmask := BitVec.ofNat 8 oct, prio := prio, policy := bitsOf b 111 2,
              barto := bitsOf b 79 32 }
  | some p =>
    let set (n : Nat) : Bool := bitsOf b (70 + n) 1 == 1
    let pb := p.budgets.getLastD own
    { ctx := ctx, rcb := rcb, depth := p.depth + 1
      budgets := p.budgets ++ [{ rcb := rcb, cores := if set 0 then own.cores else pb.cores, waves := if set 1 then own.waves else pb.waves,
                                 scratch := if set 2 then own.scratch else pb.scratch, acc := if set 3 then own.acc else pb.acc,
                                 wide := if set 4 then own.wide else pb.wide }]
      octmask := if set 5 then BitVec.ofNat 8 oct &&& p.octmask else p.octmask
      prio := if set 6 then Nat.min prio p.prio else p.prio
      policy := if set 7 then bitsOf b 111 2 else p.policy
      barto := if set 8 then bitsOf b 79 32 else p.barto }

/-- The chains of an RCB and of its ancestors, the root's first. -/
def chainsOf (ctx : Nat) (l : List (Nat × List Byte)) : List Chain :=
  l.foldl (fun (acc : List Chain) p => acc ++ [Chain.ofRcb ctx p.1 p.2 acc.getLast?]) []

/-- Read the chain of an RCB (R144). Its values come into force at the packet's start (R146). -/
def State.readChain (s : State) (ctx rcb : Nat) : Except Nat (Chain × State) :=
  match s.chainFrom ctx 8 rcb [] with
  | .error e => .error e
  | .ok l =>
    match l.head?, (chainsOf ctx l).getLast? with
    | some root, some c =>
      let lg := bitsOf root.2 696 5
      if c.policy = 3 ∨ lg < 6 ∨ 20 < lg ∨ bitsOf root.2 636 12 ≠ ctx then .error 6
      else
        .ok ({ c with reads := l }, s.loadCtx ctx)
    | _, _ => .error 6

/-- The RCBs from one up to the root, as noted in a list, the root's first. -/
def notedChain (l : List (Nat × List Byte)) : Nat → Nat → List (Nat × List Byte) → List (Nat × List Byte)
  | 0, _, acc => acc
  | n + 1, rcb, acc =>
    match l.find? fun p => p.1 == rcb with
    | none => acc
    | some p =>
      let parent := bitsOf p.2 206 50 * 128
      if parent = 0 then p :: acc else notedChain l n parent (p :: acc)

/-- The values in force for a region: each RCB of its chain as the last packet start that read it found it (R146). -/
def State.region (s : State) (ctx rcb : Nat) : Chain :=
  ((chainsOf ctx (notedChain (((s.ctx? ctx).map (·.rcbs)).getD []) 8 rcb [])).getLast?).getD { ctx := ctx, rcb := rcb }

/-- The RCBs that a packet's start has read come into force (R146). -/
def State.noteChain (s : State) (c : Chain) : State :=
  s.modCtx c.ctx fun x => { x with rcbs := (x.rcbs.filter fun p => !(c.reads.any fun q => q.1 == p.1)) ++ c.reads }

/-- The barrier timeout in force for a region now (R145, R146) (DEDUCED, log 83). -/
def State.bartoNow (s : State) (ctx rcb : Nat) : Nat :=
  let b := match s.chainFrom ctx 8 rcb [] with
    | .ok l => ((chainsOf ctx l).getLast?.getD (s.region ctx rcb)).barto
    | .error _ => (s.region ctx rcb).barto
  if b = 0 then Config.bartoDefault else b

/-! ## Queues -/

def State.queue? (s : State) (q : Nat) : Option Queue := s.queues.find? fun (x : Queue) => x.q == q

def State.modQueue (s : State) (q : Nat) (f : Queue → Queue) : State :=
  { s with queues := s.queues.map fun (x : Queue) => if x.q = q then f x else x }

/-- The physical address of a queue's record (R99). -/
def State.recordPa (s : State) (q : Nat) : Nat := s.window.qdesc.toNat * 4096 + q * 64

/-- Write the device's fields into the record: rptr, wptr, state and err. -/
def State.syncQueue (s : State) (q : Nat) : State :=
  match s.queue? q with
  | none => s
  | some x =>
    let pa := s.recordPa q
    let low := bitsOf (s.mem.bytes pa 64) 0 238
    let rest := bitsOf (s.mem.bytes pa 64) 250 134
    s.putKey x.ctx pa (bytesOfNat (low + 2 ^ 238 * x.err.toNat + 2 ^ 246 * x.state.toNat + 2 ^ 250 * rest + 2 ^ 384 * x.wptr + 2 ^ 448 * x.rptr) 64)

/-- Write into memory what a termination leaves to write: the records of the queues it stopped, and the overflow entries of its waves (R147, R156). -/
def State.writeRecords (s : State) : State :=
  let queues := s.sched.unsynced
  let entries := s.sched.cleared
  let s := { s with sched := { s.sched with unsynced := [], cleared := [] } }
  let s := queues.foldl (fun (s : State) q => s.syncQueue q) s
  entries.foldl (fun (s : State) e => s.putVa e.1 (((s.ctx? e.1).map (·.evover.toNat * 65536)).getD 0 + 16 * e.2) (List.replicate 16 0)) s

/-- Raise a vector of the queue's function (R111). -/
def State.raiseQueue (s : State) (x : Queue) (vec : Nat) : State := s.raiseMsi x.irqport x.irqfn vec

/-- Stop a queue on an error (R105). -/
def State.stopQueue (s : State) (q : Nat) (err : Nat) : State :=
  match s.queue? q with
  | none => s
  | some x =>
    ((s.modQueue q fun x => { x with state := 2, err := BitVec.ofNat 8 err, chain := none }).syncQueue q).raiseQueue x x.errvec

/-- The partition whose queues hold q. -/
def State.partOfQueue (s : State) (q : Nat) : Option (Fin 8) :=
  (List.finRange 8).find? fun (p : Fin 8) =>
    let f := s.parts[p].force
    f.valid && decide (f.qfirst.toNat ≤ q) && decide (q ≤ f.qlast.toNat)

/-- Does a queue consume packets: running, and its partition not suspended (R126)? -/
def State.consumes (s : State) (x : Queue) : Bool :=
  x.state == 1 && decide (x.rptr < x.wptr) && (match s.partOfQueue x.q with
    | some p => !s.parts[p].suspend
    | none => true)

/-- The packet at a queue's rptr. -/
def State.headPacket (s : State) (x : Queue) : Option (List Byte) := s.readVa x.ctx (x.base.toNat + 64 * (x.rptr % 2 ^ x.lgsize)) 64

/-- The err of a packet that breaks R103 or R104. A cev with cevon = 0 and a msixvec with msix = 0 are not looked at (DESIGN CHOICE, log 132). -/
def packetErr (x : Queue) (b : List Byte) : Option Nat :=
  let f := bitsOf b
  let type := f 0 4
  let nev := f 8 3
  let unused := (List.range 4).any fun k => decide (nev ≤ k) && (f (48 + 16 * k) 16 != 0 || f (112 + 32 * k) 32 != 0)
  if 5 ≤ type then some 1
  else if 5 ≤ nev ∨ f 44 4 ≠ 0 ∨ unused = true ∨ (f 11 1 = 0 ∧ f 240 54 ≠ 0) then some 2
  else if type ≠ 0 ∧ (f 12 5 ≠ 0 ∨ f 7 1 ≠ 0) then some 2
  else if f 5 1 = 1 ∧ x.irqfn = 0 ∧ 2043 ≤ f 17 11 then some 2
  else if (type = 1 ∧ f 485 27 ≠ 0) ∨ (type = 2 ∧ f 466 46 ≠ 0) ∨ (type = 3 ∧ f 396 116 ≠ 0) ∨ (type = 4 ∧ f 348 164 ≠ 0) then some 2
  else none

/-- The happening that starts a packet of a type. -/
def startOf (type q : Nat) : Instr :=
  match type with
  | 0 => .kernel q
  | 1 => .taskpool q
  | 2 => .signal q
  | 3 => .event q
  | _ => .wait q

/-- The count of an event at its home, and its condition (R155). -/
def State.eventKey (s : State) (ctx : Nat) (name : BitVec 16) : Option Nat :=
  match s.ctx? ctx with
  | some x => (s.place ctx (x.evbase.toNat * 2 ^ 18 + 4 * name.toNat)).map (·.2)
  | none => none
def reached (count thr : Word) : Bool := decide ((count - thr).toNat < 2 ^ 31)
def State.eventMeets (s : State) (ctx : Nat) (name : BitVec 16) (thr : Word) : Bool :=
  match s.eventKey ctx name with
  | some k => reached (s.mem.word k) thr
  | none => false

/-- Are a packet's dependences met (R107)? -/
def State.depsMet (s : State) (x : Queue) (b : List Byte) : Bool :=
  ((List.range (bitsOf b 8 3)).all fun k =>
    s.eventMeets x.ctx (BitVec.ofNat 16 (bitsOf b (48 + 16 * k) 16)) (BitVec.ofNat 32 (bitsOf b (112 + 32 * k) 32))) &&
  (bitsOf b 11 1 == 0 || match s.dwordVa x.ctx (bitsOf b 240 54 * 8) with
    | some v => v == 0 || v.getLsbD 63
    | none => false)

/-- Have all groups that tasks of a context formed triggered, with no task left to push or to place (R141, R158)? -/
def State.tasksTriggered (s : State) (j : Job) : Bool :=
  let done (g : Group) : Bool := !(g.task && g.ctx == j.ctx) || decide (g.waves ≤ (lanesOf g.triggered).length)
  j.left == 0 && (match s.ctx? j.ctx with
    | some x => x.pool.isEmpty
    | none => true) && s.allGroups.all done && s.sched.places.all fun (p : Placing) => done p.group

/-- Does the barrier bit let the packet start (R106, R158)? Every packet that the queue has started comes earlier; one whose work was terminated
never completes, and holds nothing back (DEDUCED, log 138). -/
def State.barrierMet (s : State) (x : Queue) (b : List Byte) : Bool :=
  bitsOf b 4 1 == 0 || s.jobs.all fun (j : Job) =>
    j.q != x.q || j.dead || (j.kind == 0 && j.untriggered == 0) || (j.kind == 1 && s.tasksTriggered j)

/-- The private slots of a descriptor in use (R189). -/
def State.freePriv (s : State) (p : Nat) (kdesc : VA) (slots : Nat) : Option Nat :=
  let mine := s.sched.privs.filter fun e => e.1 == p
  let used := (mine.filter fun e => e.2.1 == kdesc).map (·.2.2)
  if used.isEmpty ∧ 64 ≤ ((mine.map (·.2.1)).dedup).length then none
  else (List.range (Nat.max 1 slots)).find? fun k => !used.contains k

/-- Fields of a kernel descriptor (R365). -/
structure KDesc where
  flags : Nat
  regs : Nat
  wide : Nat
  priv : Nat
  tags : Nat
  waves : Nat
  privslots : Nat
  scratch : Nat
  privbase : Nat
  privstride : Nat
  bad : Bool

def readKDesc (b : List Byte) : KDesc :=
  let fld (lo n : Nat) : Nat := bitsOf b (8 * lo) (8 * n)
  let d : KDesc := { flags := fld 1 1, regs := fld 2 2, wide := fld 4 2, priv := fld 6 2, tags := fld 8 1, waves := fld 9 1, privslots := fld 10 1,
                     scratch := fld 0x10 4, privbase := fld 0x18 8, privstride := fld 0x30 8, bad := false }
  let task := d.flags % 2 = 1
  { d with bad := fld 0 1 != 1 || decide (2 ≤ d.flags) || decide (d.regs < 8) || decide (256 < d.regs) || decide (d.regs < d.wide)
      || d.priv % 4 != 0 || decide (16384 < d.priv) || decide (64 < d.tags) || decide (32 < d.waves) || decide (64 < d.privslots)
      || fld 11 5 != 0 || decide (1048576 < d.scratch) || fld 0x14 4 != 0 || d.privbase % 128 != 0 || fld 0x20 8 % 16 != 0
      || d.privstride % 128 != 0 || fld 0x38 200 != 0 || decide (task ∧ d.priv ≠ 0)
      || decide (d.priv = 0 ∧ (d.privslots ≠ 0 ∨ d.privbase ≠ 0 ∨ d.privstride ≠ 0)) }

/-- The partition that a context's work runs in. -/
def State.kernelSlot (s : State) (x : Queue) (b : List Byte) : Option (Option Nat) :=
  let kdesc := bitsOf b 348 49 * 256
  match s.readVa x.ctx kdesc 64 with
  | none => some none
  | some d => if bitsOf d (8 * 6) 16 = 0 then some none
              else (s.freePriv (s.partOf x.ctx) (BitVec.ofNat 57 kdesc) (bitsOf d 80 8)).map some

/-- May the packet start now? -/
def State.startable (s : State) (x : Queue) (b : List Byte) : Bool :=
  s.depsMet x b && s.barrierMet x b && (bitsOf b 0 4 != 0 || (s.kernelSlot x b).isSome)

/-- Look at the next packet of a queue: read its chain once (R144), stop the queue on an error (R105), or start it when it may. -/
def State.pokeQueue (s : State) (q : Nat) : State :=
  match s.queue? q with
  | none => s
  | some x =>
    if !s.consumes x then s
    else
      match s.headPacket x with
      | none => s.stopQueue q 4
      | some b =>
        match packetErr x b with
        | some e => s.stopQueue q e
        | none =>
          let read := if x.chain.isSome then .ok (x.chain, s)
                      else match s.readChain x.ctx x.rcb.toNat with
                        | .error e => Except.error e
                        | .ok (c, t) => .ok (some c, t.modQueue q fun x => { x with chain := some c })
          match read with
          | .error e => s.stopQueue q e
          | .ok (_, s) =>
            if bitsOf b 11 1 = 1 ∧ (s.dwordVa x.ctx (bitsOf b 240 54 * 8)).isNone then s.stopQueue q 4
            else
              let e := startOf (bitsOf b 0 4) q
              if s.startable x b && !s.todo.contains e then s.due e else s

/-- Look at every queue. -/
def State.pokeQueues (s : State) : State := (s.queues.map (·.q)).foldl (fun (s : State) q => s.pokeQueue q) s

/-! ## Waits on events (R155-R157) -/

/-- The home of a location. -/
def homeOfKey (k : Nat) : Option Oct := if k < 2 ^ 52 then some (homeOf k) else none

/-- A device acquire that a wave makes without a word of its own: the global lines of its core go (R183), and its later memory words wait for what
the access waits for (R306). -/
def State.waveFence (s : State) (w : Wave) (waits : List Nat) : State :=
  let s := s.modCore (coreOfSlot w.slot) Core.l1Acquire
  if waits.isEmpty then s
  else
    let a : Access := { id := s.serial, kind := .fence, pc := w.parkPc, instr := .fence .acq .dev, issued := s.tick, lanes := 0, acquire := some .dev, waits := waits }
    { s with serial := s.serial + 1 }.modWave w.uid fun v => { v with accs := v.accs ++ [a] }

/-- The acquire of a wave whose condition on a location holds (R155, R388): what the location's home knows comes with a matrix reply, as R33 has it (R307). -/
def State.acquireAt (s : State) (uid : Nat) (home : Option Oct) : State :=
  match s.wave? uid, home with
  | some w, some h =>
    let r : Req := { id := s.serial, kind := .mreq, wave := uid, slot := w.slot, core := coreOfSlot w.slot, site := octOfCore (coreOfSlot w.slot), home := h
                     ctx := w.ctx, part := s.partOf w.ctx, line := 0, job := ((s.group? w.gid).map (·.job)).getD 0, seq := s.serial, born := s.tick
                     acc := some (s.serial + 1), acquire := true, fillL1 := false }
    (s.send r).waveFence w [r.id]
  | some w, none => s.waveFence w []
  | none, _ => s

/-- The start of a wave as an acquire (R315, R316): its memory words wait for the writes that stood stamped and not applied when it was seated (DEDUCED, log 28). -/
def State.startFence (s : State) (uid : Nat) : State :=
  match s.wave? uid with
  | none => s
  | some w => s.waveFence w ((s.reqs.filter fun (r : Req) => r.kind.isWrite && r.target == Target.device && (r.stage == .wire || r.stage == .early)).map (·.id))

/-- Put a wave's wait on an event into the list (R156), or raise EVENT_OVERFLOW (R157). -/
def State.registerWait (s : State) (uid : Nat) (name : BitVec 16) (thr : Word) : State :=
  match s.wave? uid with
  | none => s
  | some w =>
    let p := s.partOf w.ctx
    let waits := s.sched.waits
    let add (s : State) (pl : WaitPlace) : State :=
      { s with sched := { s.sched with waits := s.sched.waits ++ [{ wave := uid, ctx := w.ctx, part := p, name := name, thr := thr, place := pl }] } }
    if waits.countP (fun e => e.part == p && e.place == .reserved) < Config.waitReserved then add s .reserved
    else if waits.countP (fun e => e.place == .shared) < Config.waitShared then add s .shared
    else
      let used (i : Nat) : Bool := waits.any fun e => e.ctx == w.ctx && e.place == .overflow i
      match (List.range Config.overflowEntries).find? fun i => !used i with
      | some i =>
        let at_ := ((s.ctx? w.ctx).map (·.evover.toNat * 65536)).getD 0 + 16 * i
        (add s (.overflow i)).putVa w.ctx at_
          (bytesOfNat ((Config.waiterHandle uid).toNat + 2 ^ 78 + 2 ^ 80 * name.toNat + 2 ^ 96 * thr.toNat) 16)
      | none =>
        match s.group? w.gid with
        | some g => s.waveFault w g .eventOverflow w.parkPc (.ofPolicy g.policy g.rcb.toNat)
        | none => s

/-- A wait-list entry leaves (R157). -/
def State.leaveWait (s : State) (e : WaitEntry) : State :=
  let s := { s with sched := { s.sched with waits := s.sched.waits.filter fun (x : WaitEntry) => x.wave != e.wave } }
  match e.place with
  | .overflow i => s.putVa e.ctx (((s.ctx? e.ctx).map (·.evover.toNat * 65536)).getD 0 + 16 * i) (List.replicate 16 0)
  | .reserved => s
  | .shared => s

/-- A wave whose rows went to its save unit wants them again (R170): it waits in the placement list as a one-wave entry. -/
def State.wantRows (s : State) (uid : Nat) (cond : YieldCond) : State :=
  match s.wave? uid with
  | none => s
  | some w =>
    match s.group? w.gid with
    | none => s
    | some g =>
      let e : Placing := { group := g, rowsFor := some uid, since := s.tick }
      let s := s.modWave uid fun w => { w with park := .rows cond }
      ({ s with sched := { s.sched with places := s.sched.places ++ [e] } }).due (.groupPlacement (Fin.ofNat 8 (s.partOf w.ctx)))

/-- A wave's `yield` is over (R170, R388). -/
def State.yieldOver (s : State) (w : Wave) (cond : YieldCond) : State :=
  if w.spilled then s.wantRows w.uid cond
  else s.modWave w.uid fun w => { w with park := .none, mayIssue := s.tick + 1 }

/-- Release a wave that waited for an event, with the device acquire (R155, R315, R427). -/
def State.eventRelease (s : State) (e : WaitEntry) : State :=
  let s := s.leaveWait e
  match s.wave? e.wave with
  | none => s
  | some w =>
    let home := (s.eventKey e.ctx e.name).bind homeOfKey
    let s := s.acquireAt w.uid home
    match w.park with
    | .event _ _ => s.modWave e.wave fun w => { w with park := .none, mayIssue := s.tick + 1 }
    | .yield cond _ => s.yieldOver w cond
    | _ => s

/-- An event changed (R155-R157): waits of the list are met at once, overflow entries by a scan; packets are looked at again (R107) (DEDUCED, log 104). -/
def State.eventChanged (s : State) (ctx : Nat) (name : BitVec 16) : State :=
  let mine := s.sched.waits.filter fun e => e.ctx == ctx && e.name == name
  let inList (e : WaitEntry) : Bool := match e.place with
    | .overflow _ => false
    | .reserved => true
    | .shared => true
  let s := (mine.filter fun e => inList e && s.eventMeets ctx name e.thr).foldl (fun (s : State) e => s.eventRelease e) s
  let s := if mine.any fun e => !inList e then
      ({ s with sched := { s.sched with scans := s.sched.scans ++ [(ctx, name, s.tick)] } }).due (.eventOverflowScan ctx name)
    else s
  s.pokeQueues

/-- An atomic was performed at its home: waits on the events whose words it names are evaluated again, and packets are looked at again
(R107, R155) (DEDUCED, log 104). -/
def State.homeAtomic (s : State) (line : Nat) (mask : BitVec 128) : State :=
  let hit (e : WaitEntry) : Bool := match s.eventKey e.ctx e.name with
    | some k => k / 128 == line && mask.getLsbD (k % 128)
    | none => false
  let names := ((s.sched.waits.filter hit).map fun (e : WaitEntry) => (e.ctx, e.name)).dedup
  (names.foldl (fun (s : State) n => s.eventChanged n.1 n.2) s).pokeQueues

/-- Add to an event at its home (R155). A poisoned sector is not changed (R83). -/
def State.eventAdd (s : State) (ctx : Nat) (name : BitVec 16) (n : Nat) : State :=
  match s.eventKey ctx name with
  | none => s
  | some k =>
    if s.mem.isBad (k / 32) then s
    else (s.putKey ctx k (bytesOfNat (((s.mem.word k).toNat + n) % 2 ^ 32) 4)).eventChanged ctx name

/-- Add to a signal at its home (R109). -/
def State.signalAdd (s : State) (ctx va : Nat) (n : DWord) : State :=
  match s.place ctx va with
  | none => s
  | some (_, k) => if s.mem.isBad (k / 32) then s else (s.putKey ctx k (bytesOfNat (s.mem.dword k + n).toNat 8)).pokeQueues

/-! ## Tasks (R151, R152) -/

/-- The chain of RCBs of a region, as the group or the packet has it. -/
def Chain.rcbs (c : Chain) : List Nat := c.budgets.map (·.rcb)

/-- The pooled tasks of a context that stand in no wave of the placement list; a task stays pooled until its wave is placed. -/
def State.unformed (s : State) (x : Ctx) : List Task :=
  ((s.sched.places.filter fun (p : Placing) => p.group.ctx == x.id && !p.saved).flatMap (·.tasks)).foldl (fun (l : List Task) t => l.erase t) x.pool

/-- Form waves of pooled tasks: of every 32 with one entry and region at once; of fewer when `partly` and their time is up, or when the pool holds
no other task (R152). A wave's group enters the placement list with the age of its oldest task. The policy is the region's at this time
(DESIGN CHOICE, log 139). -/
def State.bin (s : State) (ctx : Nat) (partly : Bool) : State :=
  match s.ctx? ctx with
  | none => s
  | some x =>
    let keys := (x.pool.map fun (t : Task) => (t.entry, t.rcb)).dedup
    keys.foldl (fun (s : State) k =>
      match s.ctx? ctx with
      | none => s
      | some x =>
        let free := s.unformed x
        let mine := free.filter fun (t : Task) => t.entry == k.1 && t.rcb == k.2
        let full := mine.length / 32
        let rest := mine.drop (32 * full)
        let due := !rest.isEmpty && ((partly && decide ((rest.head?.map (·.tick)).getD 0 + 512 ≤ s.tick)) || mine.length == free.length)
        let r := s.region ctx k.2
        let wave (l : List Task) : Placing :=
          let t := l.headD { entry := 0, data := [], rcb := 0, chain := [], tick := 0 }
          { group := { ctx := ctx, kdesc := k.1 - 0x100, rcb := BitVec.ofNat 57 k.2, chain := t.chain, waves := 1, age := t.tick,
                       prio := r.prio, policy := r.policy, octmask := r.octmask, task := true, job := t.job }
            since := s.tick, tasks := l }
        let new := ((List.range full).map fun i => wave ((mine.drop (32 * i)).take 32)) ++ (if due then [wave rest] else [])
        if new.isEmpty then s
        else ({ s with sched := { s.sched with places := s.sched.places ++ new } }).due (.groupPlacement (Fin.ofNat 8 x.part))) s

/-- Push a task: its entry is written into the ring at taskbase; answers none when the pool is full (R151) (DESIGN CHOICE, log 36). -/
def State.pushTask (s : State) (ctx : Nat) (t : Task) : Option State :=
  match s.ctx? ctx with
  | none => none
  | some x => if x.pool.length < 2 ^ x.tasklg then
      some ((s.modCtx ctx fun x => { x with pool := x.pool ++ [t], pushed := x.pushed + 1 }).putVa ctx
        (x.taskbase.toNat * 65536 + 64 * (x.pushed % 2 ^ x.tasklg)) ((Config.poolEntry t.entry.toNat t.rcb t.data).take 64))
    else none

/-! ## Starts (R104, R106) -/

/-- A started packet: what it has read of its chain comes into force (R146), rptr moves on, and the chain is read anew for the next packet. -/
def State.startJob (s : State) (x : Queue) (b : List Byte) (c : Chain) : Job × State :=
  let f := bitsOf b
  let j : Job := { id := s.serial, q := x.q, index := x.rptr, kind := f 0 4, ctx := x.ctx, rcb := c.rcb, chain := c.rcbs,
                   compsig := BitVec.ofNat 57 (f 294 54 * 8), cev := if f 6 1 = 1 then some (BitVec.ofNat 16 (f 28 16)) else none
                   msix := if f 5 1 = 1 then some (f 17 11) else none }
  (j, ((({ s with serial := s.serial + 1 }).noteChain c).modQueue x.q fun y => { y with rptr := y.rptr + 1, chain := none }).syncQueue x.q)

/-- The packet that a start happening of type `t` finds, when it may start. -/
def State.startHead (s : State) (q t : Nat) : Option (Queue × List Byte × Chain) :=
  match s.queue? q with
  | none => none
  | some x =>
    if !s.consumes x then none
    else match s.headPacket x, x.chain with
      | some b, some c => if bitsOf b 0 4 = t ∧ packetErr x b = none ∧ s.startable x b then some (x, b, c) else none
      | _, _ => none

/-- Does an address translate for a write? -/
def State.writable (s : State) (ctx va : Nat) : Bool :=
  match s.walk ctx va with
  | .leaf e => e.allows .write
  | .absent _ => false

/-- Does a completion signal translate, for the write that it needs (R105)? -/
def State.signalOk (s : State) (ctx va : Nat) : Bool := va == 0 || s.writable ctx va

/-- Add a job and look at the queue again. -/
def State.addJob (s : State) (j : Job) : State := ({ s with jobs := s.jobs ++ [j] }).pokeQueue j.q

/-- The cores of a partition that lie in an allowed octant of the package (R56). -/
def State.coresFor (s : State) (p : Nat) (octmask : BitVec 8) : List Nat :=
  (List.range 320).filter fun n => (s.parts[Fin.ofNat 8 p]).force.cores.getLsbD n && octmask.getLsbD (n / 40) && !s.octs[octOfCore n].cf.removed

/-- The groups of one need that an empty core holds (R149, R173). -/
def perCore (w regs wide scratch tags : Nat) : Nat :=
  let by_ (cap need : Nat) : Nat := if need = 0 then cap else cap / need
  [by_ 64 w, by_ 1048576 ((scratch + 4095) / 4096 * 4096), by_ 64 tags, by_ 8192 (w * wide), by_ 131072 (w * regs * 8)].foldl Nat.min 64

/-- Could a co-resident grid of n groups fit on empty cores and in the budgets (R150)? -/
def State.couldFit (s : State) (c : Chain) (p n w : Nat) (d : KDesc) : Bool :=
  decide (n ≤ (s.coresFor p c.octmask).length * perCore w d.regs d.wide d.scratch d.tags)
    && c.budgets.all fun b => decide (n * w ≤ b.waves) && decide (n * ((d.scratch + 4095) / 4096 * 4) ≤ b.scratch) && decide (n * w * d.wide ≤ b.wide)
        && decide (n ≤ b.cores * perCore w d.regs d.wide d.scratch d.tags)

/-- KERNEL (R104, R148-R150, R189, R366). The policy of its groups is the one read at this start (DESIGN CHOICE, log 139). -/
def execKernel (q : Nat) (s : State) : Out1 :=
  match s.startHead q 0 with
  | none => .next s
  | some (x, b, c) =>
    let f := bitsOf b
    let kdesc := f 348 49 * 256
    match s.readVa x.ctx kdesc 128, s.readVa x.ctx (kdesc + 128) 128 with
    | some lo, some hi =>
      let d := readKDesc (lo ++ hi)
      let w := f 12 5 + 1
      let gx := f 451 21 + 1
      let gy := f 472 20 + 1
      let gz := f 492 20 + 1
      let n := gx * gy * gz
      let p := s.partOf x.ctx
      if !s.signalOk x.ctx (f 294 54 * 8) then .next (s.stopQueue q 4)
      else if d.bad then .next (s.stopQueue q 6)
      else if d.waves ≠ 0 ∧ d.waves ≠ w then .next (s.stopQueue q 2)
      else if d.priv ≠ 0 ∧ d.privstride < n * w * d.priv * 32 then .next (s.stopQueue q 2)
      else if f 7 1 = 1 ∧ !s.couldFit c p n w d then .next (s.stopQueue q 5)
      else
        let slot := if d.priv = 0 then none else s.freePriv p (BitVec.ofNat 57 kdesc) d.privslots
        let st := s.startJob x b c
        let j := { st.1 with left := n, untriggered := n, kdesc := BitVec.ofNat 57 kdesc, privSlot := slot, args := BitVec.ofNat 57 (f 397 54 * 8),
                             grid := (gx, gy, gz), coresident := f 7 1 == 1 }
        let g : Group := { ctx := x.ctx, kdesc := j.kdesc, rcb := BitVec.ofNat 57 c.rcb, chain := c.rcbs, waves := w, age := s.tick, prio := c.prio,
                           policy := c.policy
                           scratch := (d.scratch + 4095) / 4096 * 4096, tags := List.replicate d.tags 0, privSlot := slot
                           privBytes := d.priv, privBase := d.privbase + slot.getD 0 * d.privstride, job := j.id
                           coresident := j.coresident, octmask := c.octmask, regs := d.regs, wideEach := d.wide, sysAcquire := f 11 1 == 1 }
        let s := st.2
        let s := { s with sched := { s.sched with
          privs := match slot with
            | some k => s.sched.privs ++ [(p, j.kdesc, k)]
            | none => s.sched.privs
          places := s.sched.places ++ [({ group := g, since := s.tick, count := n } : Placing)] } }
        .next ((s.addJob j).due (.groupPlacement (Fin.ofNat 8 p)))
    | _, _ => .next (s.stopQueue q 4)

/-- Push what the pool takes of a TASKPOOL packet's tasks, in record order: `args` are its records, `kdesc` the entry, `left` the tasks to
push and `grid` their count (R104, R151). -/
def State.feedJob (s : State) (id : Nat) : State :=
  match s.jobs.find? fun (j : Job) => j.id == id with
  | none => s
  | some j =>
    let t (n : Nat) : Task := { entry := j.kdesc, data := (s.readVa j.ctx (j.args.toNat + 32 * n) 32).getD (List.replicate 32 0), rcb := j.rcb,
                                chain := j.chain, tick := s.tick, job := j.id }
    let room := match s.ctx? j.ctx with
      | some y => 2 ^ y.tasklg - y.pool.length
      | none => 0
    let n := Nat.min room j.left
    let first := j.grid.1 - j.left
    let s := (List.range n).foldl (fun (s : State) k => (s.pushTask j.ctx (t (first + k))).getD s) s
    { s with jobs := s.jobs.map fun (k : Job) => if k.id = id then { k with left := j.left - n } else k }

/-- The pool of a context has room: TASKPOOL packets push on. -/
def State.feedPool (s : State) (ctx : Nat) : State :=
  ((s.jobs.filter fun (j : Job) => j.kind == 1 && j.ctx == ctx && j.left != 0 && !j.dead).map (·.id)).foldl (fun (s : State) id => s.feedJob id) s

/-- Does every page translate that the argument records of a TASKPOOL packet lie in (R105)? -/
def State.recordsOk (s : State) (ctx recs count : Nat) : Bool :=
  (List.range (count / 2048 + 1)).all fun k => (s.place ctx (recs + Nat.min (65536 * k) (32 * (count - 1)))).isSome && (s.place ctx (recs + 32 * (count - 1))).isSome

/-- TASKPOOL (R104, R151). -/
def execTaskpool (q : Nat) (s : State) : Out1 :=
  match s.startHead q 1 with
  | none => .next s
  | some (x, b, c) =>
    let f := bitsOf b
    let recs := f 401 52 * 32
    let count := f 453 32 + 1
    if !s.signalOk x.ctx (f 294 54 * 8) || !s.recordsOk x.ctx recs count then .next (s.stopQueue q 4)
    else
      let st := s.startJob x b c
      let j := { st.1 with args := BitVec.ofNat 57 recs, kdesc := BitVec.ofNat 57 (f 348 53 * 16), left := count, grid := (count, 1, 1) }
      .next ((((st.2.addJob j).feedJob j.id).bin x.ctx false).due (.binnerTimeout x.ctx))

/-- SIGNAL (R104, R109). -/
def execSignal (q : Nat) (s : State) : Out1 :=
  match s.startHead q 2 with
  | none => .next s
  | some (x, b, c) =>
    let f := bitsOf b
    if !s.signalOk x.ctx (f 294 54 * 8) || !s.writable x.ctx (f 348 54 * 8) then .next (s.stopQueue q 4)
    else
      let st := s.startJob x b c
      let s := (st.2.signalAdd x.ctx (f 348 54 * 8) (BitVec.ofNat 64 (f 402 64))).addJob { st.1 with coldone := true }
      .next (s.due (.packetCompletion st.1.id))

/-- EVENT (R104, R155). -/
def execEvent (q : Nat) (s : State) : Out1 :=
  match s.startHead q 3 with
  | none => .next s
  | some (x, b, c) =>
    let f := bitsOf b
    if !s.signalOk x.ctx (f 294 54 * 8) then .next (s.stopQueue q 4)
    else
      let st := s.startJob x b c
      let s := (st.2.eventAdd x.ctx (BitVec.ofNat 16 (f 348 16)) (f 364 32)).addJob { st.1 with coldone := true }
      .next (s.due (.packetCompletion st.1.id))

/-- WAIT (R104). -/
def execWait (q : Nat) (s : State) : Out1 :=
  match s.startHead q 4 with
  | none => .next s
  | some (x, b, c) =>
    if !s.signalOk x.ctx (bitsOf b 294 54 * 8) then .next (s.stopQueue q 4)
    else
      let st := s.startJob x b c
      .next ((st.2.addJob { st.1 with coldone := true }).due (.packetCompletion st.1.id))

/-- A blocked packet's dependence signal is read again (R107). -/
def execDependenceSignalPoll (q : Nat) (s : State) : Out1 := .next (s.pokeQueue q)

/-! ## Completion (R108) -/

/-- Is a request of a packet's work? The tasks of a context are the work of its TASKPOOL packets, whoever pushed them (R104, R108). -/
def State.worksFor (s : State) (r : Req) (j : Job) : Bool :=
  if j.kind = 1 then r.ctx == j.ctx && !(s.jobs.any fun (k : Job) => k.id == r.job && k.kind == 0) else r.job == j.id

/-- Is a job's work done, with every write it made applied? -/
def State.jobDone (s : State) (j : Job) : Bool :=
  (match j.kind with
    | 0 => j.left == 0
    | 1 => j.left == 0 && (match s.ctx? j.ctx with
      | some x => x.pool.isEmpty
      | none => true) && !(s.allGroups.any fun g => g.task && g.ctx == j.ctx)
        && !(s.sched.places.any fun p => p.group.task && p.group.ctx == j.ctx)
    | _ => j.coldone)
  && !(s.reqs.any fun (r : Req) => s.worksFor r j && r.kind.isWrite && !(r.stage == .applied && r.quiet))

/-- A packet completes: its writes are visible, then the signal, the event and the interrupt, in this order (R108). -/
def execPacketCompletion (job : Nat) (s : State) : Out1 :=
  match s.jobs.find? fun (j : Job) => j.id == job with
  | none => .next s
  | some j =>
    if j.dead || !s.jobDone j then .next s
    else
      let s := { s with jobs := s.jobs.filter fun (k : Job) => k.id != job }
      let s := match j.privSlot with
        | some k => { s with sched := { s.sched with privs := s.sched.privs.filter fun e => !(e.2.1 == j.kdesc && e.2.2 == k && e.1 == s.partOf j.ctx) } }
        | none => s
      let s := if j.compsig = 0 then s else s.signalAdd j.ctx j.compsig.toNat (BitVec.allOnes 64)
      let s := match j.cev with
        | some n => s.eventAdd j.ctx n 1
        | none => s
      let s := match j.msix, s.queue? j.q with
        | some v, some x => s.raiseQueue x v
        | _, _ => s
      .next s.pokeQueues

/-! ## QCTL and doorbells (R100, R101) -/

/-- The function of a port that a queue's interrupts go to (R111): the virtual one of its partition when the port has it enabled (PRESUMED, log 39). -/
def State.irqFn (s : State) (port : Port) (q : Nat) : Nat :=
  match s.partOfQueue q with
  | some p => if (s.window.vfs[port]).getLsbD p.val then p.val + 1 else 0
  | none => 0

/-- Read a queue's record; says whether an enable of it succeeds (R99, R100, R457). A base beyond the 57-bit space fails like an unaligned one
(DESIGN CHOICE, log 140). -/
def State.readQueue (s : State) (q : Nat) : Queue × Bool :=
  let f := bitsOf (s.mem.bytes (s.recordPa q) 64)
  let x : Queue := { q := q, base := BitVec.ofNat 57 (f 320 64), rcb := BitVec.ofNat 57 (f 270 50 * 128), ctx := f 258 12, lgsize := f 253 5, kind := f 250 3
                     errvec := f 227 11, irqport := Fin.ofNat 2 (f 226 1), irqfn := s.irqFn (Fin.ofNat 2 (f 226 1)) q }
  (x, f 320 64 % 64 == 0 && decide (f 320 64 < 2 ^ 57) && decide (6 ≤ x.lgsize) && decide (x.lgsize ≤ 16) && decide (x.kind ≤ 3) && decide (f 246 4 ≤ 2)
      && f 0 226 == 0 && !(x.irqfn == 0 && decide (2043 ≤ x.errvec)))

/-- Enable a queue: `keep` are the pointers of a resume. -/
def State.enableQueue (s : State) (q : Nat) (keep : Option (Nat × Nat)) : State :=
  let r := s.readQueue q
  let s := s.loadCtx r.1.ctx
  let chain : Except Nat (Chain × State) := match s.rootOf r.1.ctx with
    | none => .error 6
    | some _ => s.readChain r.1.ctx r.1.rcb.toNat
  let ok : Bool := match chain with
    | .ok (c, _) => r.2 && (c.rcbs.head?.bind fun v => (s.place r.1.ctx v).map (·.2)) == s.rootOf r.1.ctx
    | .error _ => false
  let x := { r.1 with rptr := (keep.getD (0, 0)).1, wptr := (keep.getD (0, 0)).2
                      rcbs := match chain with
                        | .ok (c, _) => c.rcbs
                        | .error _ => [] }
  let put (s : State) (x : Queue) : State := { s with queues := (s.queues.filter fun (y : Queue) => y.q != q) ++ [x] }
  if ok then
    let s := match chain with
      | .ok (_, t) => t
      | .error _ => s
    (((put s { x with state := 1 }).modCtx x.ctx fun y => { y with dead := false }).syncQueue q).pokeQueue q
  else ((put s { x with state := 2, err := 6 }).syncQueue q).raiseQueue x x.errvec

/-- QCTL enable, resume 0. -/
def execQueueEnable (q : Nat) (s : State) : Out1 := .next (if q < 4096 then s.enableQueue q none else s)

/-- QCTL enable, resume 1: only of a queue in state 2. -/
def execQueueResume (q : Nat) (s : State) : Out1 :=
  match s.queue? q with
  | some x => .next (if x.state = 2 then s.enableQueue q (some (x.rptr, x.wptr)) else s)
  | none => .next s

/-- QCTL disable. -/
def execQueueDisable (q : Nat) (s : State) : Out1 :=
  .next ((s.modQueue q fun x => { x with state := 0, chain := none }).syncQueue q)

/-- A doorbell value (R101). -/
def State.ring (s : State) (q : Nat) (v : Nat) : State :=
  match s.queue? q with
  | none => s
  | some x =>
    if x.state ≠ 1 ∨ v ≤ x.wptr then s.pokeQueue q
    else if 2 ^ x.lgsize < v - x.rptr then s.stopQueue q 3
    else ((s.modQueue q fun x => { x with wptr := v }).syncQueue q).pokeQueue q

/-- DOORBELL (R101). -/
def execDoorbell (q : Nat) (value : DWord) (s : State) : Out1 := .next (s.ring q value.toNat)

end Machine
end Sys2Proof
end

