-- ==== Sys2Proof/Machine/Sync.lean ====
section
/-! DEFINITION. Fences (R305-R309, R424), barriers (R163, R425, R426), events and signals (R155, R427, R428). -/

namespace Sys2Proof
namespace Machine

/-! ## Fences -/

/-- The octants of a mask. -/
def octsOf (m : BitVec 8) : List Oct := (List.finRange 8).filter fun o => m.getLsbD o.val

/-- Send one matrix request to each home that served a load of the wave since its last acquire (R307); answers the requests. -/
def State.sendMreqs (s : State) (acc : Nat) : State :=
  (octsOf s.w.homes).foldl (fun (s : State) (h : Oct) =>
    let r := { s.newReq .mreq .device 0 with home := h, acc := some acc, acquire := true, fillL1 := false }
    let s := s.modW fun w => w.modAcc acc fun a => { a with waits := a.waits ++ [r.id] }
    s.send r) s

/-- The acquire side of a fence at `.dev` or `.sys`: the L1 is invalidated and the matrix requests go out; with an empty home mask it has
completed (DEDUCED, log 20). -/
def State.fenceAcquire (s : State) (i : Instr) (sc : Scope) : State :=
  let s := s.modC Core.l1Acquire
  if s.w.homes = 0 then s
  else
    let a := { s.newAccess i .fence s.cur.active none 0 none with acquire := some sc }
    ((s.addAccess a).sendMreqs a.id).modW fun w => { w with homes := 0 }

/-- The release side at `.dev` or `.sys`: the next store to each home is a release write (R307), and so are the next `sts` and the next store to
host or peer memory (R298) (DEDUCED, log 134). -/
def State.fenceRelease (s : State) (sc : Scope) : State :=
  let wider (o : Option Scope) : Option Scope := if o = some .sys then o else some sc
  s.modW fun w => { w with relHomes := BitVec.allOnes 8, relSys := sc == Scope.sys || (w.relSys && w.relHomes != 0)
                           relSts := wider w.relSts, relOut := wider w.relOut }

/-- `fence.O.S` (R424). An acquire side waits until the wave's earlier loads have read, since it stands for the last of them (R298) (DEDUCED, log 21)
(DEDUCED, log 22). -/
def execFence (o : Order) (sc : Scope) (s : State) : Out1 :=
  word (.fence o sc)
    { accept := !s.w.acquiring && s.releaseOk o sc && (!Order.acquires o || !s.w.reading) }
    (fun u =>
      let u := if Order.releases o && Scope.wide sc then u.fenceRelease sc else u
      if Order.acquires o && Scope.wide sc then u.fenceAcquire (.fence o sc) sc else u) s

/-- `fence.sc` (R309, R424): a ticket, and the work of `fence.ar.dev`. -/
def execFenceSc (s : State) : Out1 :=
  word .fenceSc { accept := !s.w.acquiring }
    (fun u =>
      let u := u.fenceRelease .dev
      let a := { u.newAccess .fenceSc .fence u.cur.active none 0 none with acquire := some .dev, since := u.serial, ticket := some 0 }
      let u := (((u.addAccess a).modC Core.l1Acquire).sendMreqs a.id).modW fun w => { w with homes := 0 }
      let u := { u with seq := { u.seq with tickets := u.seq.tickets ++ [({ wave := u.w.uid, slot := u.w.slot, acc := a.id, asked := u.tick } : Ticket)] } }
      (u.due .ticketGrant).due (.fenceScComplete u.w.slot)) s

/-! ## Barriers -/

/-- A wave of a group by its index. -/
def State.waveAt (s : State) (gid index : Nat) : Option Wave := s.allWaves.find? fun (w : Wave) => w.gid == gid && w.index == index

/-- May an arrival be counted (R426): tick Q is reached, the wave's earlier loads have read and its earlier stores have completed? (DEDUCED, log 103) -/
def State.arrivalReady (s : State) (gid : Nat) (a : Nat × Nat × Nat) : Bool :=
  decide (a.2.1 ≤ s.tick) && match s.waveAt gid a.1 with
    | none => true
    | some w =>
      !(w.accs.any fun (x : Access) => (x.kind == .load || x.kind == .atom) && decide (x.id < a.2.2))
        && !s.storingBefore w.uid a.2.2

/-- Release the waves of a group that wait for phase `p` of a barrier (R163). -/
def State.releaseBar (s : State) (gid : Nat) (b : Fin 16) (p : Word) : State :=
  let go (w : Wave) : Wave :=
    if w.gid = gid ∧ w.live ∧ (w.park = .bar b p ∨ w.park = .barw b p) then { w with park := .none, mayIssue := s.tick + 1 } else w
  { s with w := go s.w, waves := s.waves.map go }

/-- Count the arrivals of a barrier that may be counted; a full phase completes and the next one begins (R163). -/
def State.countArrivals (s : State) (gid : Nat) (b : Fin 16) : State :=
  match s.group? gid with
  | none => s
  | some g =>
    let bar := g.bars[b]
    let now := bar.arriving.filter fun a => s.arrivalReady gid a
    if now.isEmpty then s
    else
      let arrived := now.foldl (fun (m : Mask) a => m ||| (1#32 <<< a.1)) bar.arrived
      let left := bar.arriving.filter fun a => !s.arrivalReady gid a
      if g.waves ≤ (lanesOf arrived).length then
        let s := s.modGroup gid fun g => { g with bars := g.bars.set b { phase := bar.phase + 1, arriving := left, barto := s.bartoNow g.ctx g.rcb.toNat } }
        s.releaseBar gid b bar.phase
      else
        let first := match bar.first with
          | some t => some t
          | none => some s.tick
        let next : Barrier := { bar with arrived := arrived, first := first, arriving := left }
        s.modGroup gid fun g => { g with bars := g.bars.set b next }

/-- Count the arrivals of every barrier of every group. -/
def State.countAll (s : State) : State :=
  (s.allGroups.filter fun g => (List.finRange 16).any fun (b : Fin 16) => !(g.bars[b]).arriving.isEmpty).foldl (fun (s : State) g =>
    (List.finRange 16).foldl (fun (s : State) (b : Fin 16) => s.countArrivals g.gid b) s) s

/-- The phase in which the wave last arrived at a barrier. -/
def Wave.lastPhase (w : Wave) (n : Fin 16) : Option Word := (w.arrivedIn.find? fun p => p.1 == n).map (·.2)

/-- A second arrival waits until the phase of the first completes (R426). -/
def State.mayArrive (s : State) (n : Fin 16) : Bool := s.w.lastPhase n != some (s.g.bars[n]).phase

/-- An arrival of the wave at issue. -/
def State.arriveBar (s : State) (n : Fin 16) : State :=
  let bar := s.g.bars[n]
  let s := s.modW fun w => { w with arrivedIn := (w.arrivedIn.filter fun p => p.1 != n) ++ [(n, bar.phase)] }
  let next : Barrier := { bar with arriving := bar.arriving ++ [(s.w.index, s.c.q[subOfSlot s.w.slot], s.serial)] }
  s.modG fun g => { g with bars := g.bars.set n next }

/-- `bar n` (R425): arrives and waits. -/
def execBar (n : Fin 16) (s : State) : Out1 :=
  word (.bar n) { accept := s.mayArrive n }
    (fun u => ((u.arriveBar n).park (.bar n (s.g.bars[n]).phase)).countArrivals s.g.gid n) s

/-- `barr n` (R425): arrives. -/
def execBarr (n : Fin 16) (s : State) : Out1 :=
  word (.barr n) { accept := s.mayArrive n } (fun u => (u.arriveBar n).countArrivals s.g.gid n) s

/-- `barw n` (R425): waits for the phase in which the wave last arrived, or for the current one. -/
def execBarw (n : Fin 16) (s : State) : Out1 :=
  let phase := (s.w.lastPhase n).getD (s.g.bars[n]).phase
  word (.barw n) {}
    (fun u => if phase = (s.g.bars[n]).phase then u.park (.barw n phase) else u) s

/-! ## Events and signals -/

/-- The address of event n of the wave's context (R155). -/
def State.eventVa (s : State) (name : BitVec 16) : Nat := eventAddr s.x.evbase name

/-- The name that a scalar gives. -/
def eventName (v : Word) : BitVec 16 := v.setWidth 16

/-- Send the addition of `evsig` (R427): a device-scope release (DEDUCED, log 30) (DESIGN CHOICE, log 58). -/
def State.sendEvent (s : State) (name : BitVec 16) : State :=
  match s.c.keyAt s.w.ctx (s.eventVa name) with
  | none => s
  | some (t, k) =>
    s.send { s.newReq (.event name) t (k / 128) with
      offset := k % 128, size := 4, mask := byteMask (k % 128) 4, release := true, va := BitVec.ofNat 57 (s.eventVa name / 128 * 128) }

/-- `evsig` (R427). -/
def execEvsig (a : SReg) (s : State) : Out1 :=
  let name := eventName (s.latch.sget a)
  let miss := (s.c.look s.w.ctx .write (s.eventVa name)).isNone
  word (.evsig a) { accept := s.memAccept (.evsig a) (if miss then s.cur.active else 0) }
    (fun u => if miss then u.hold (.evsig a) s.cur.active .write (s.eventVa name) none else u.sendEvent name) s

/-- The read of an event's count at its home, for lane 0 of an access. -/
def State.readEvent (s : State) (acc : Nat) (name : BitVec 16) (acquire : Bool) : State :=
  s.loadLanes acc { acquire := acquire, home := true } 1#32 fun _ => [{ va := s.eventVa name, n := 4, place := 0 }]

/-- Start `evwait` or `evq`: one read for the wave, which parks until it is decided. -/
def State.startEvent (s : State) (i : Instr) (kind : AccKind) (name : BitVec 16) (thr : Word) (d : Option SReg) (acquire : Bool) : State :=
  let a := { s.newAccess i kind 1#32 none 0 none with sdst := d, event := some (name, thr) }
  let s := s.addAccess a
  let s := match kind with
    | .evwait => s.park (.event name thr)
    | _ => s.park (.value a.id)
  if (s.c.look s.w.ctx .read (s.eventVa name)).isNone then s.hold i 1#32 .read (s.eventVa name) (some a.id)
  else s.readEvent a.id name acquire

/-- `evwait` (R427). -/
def execEvwait (a b : SReg) (s : State) : Out1 :=
  let name := eventName (s.latch.sget a)
  let miss := (s.c.look s.w.ctx .read (s.eventVa name)).isNone
  word (.evwait a b) { accept := s.memAccept (.evwait a b) (if miss then 1#32 else 0) }
    (fun u => u.startEvent (.evwait a b) .evwait name (s.latch.sget b) none true) s

/-- `evq` (R427). -/
def execEvq (d a : SReg) (s : State) : Out1 :=
  let name := eventName (s.latch.sget a)
  let miss := (s.c.look s.w.ctx .read (s.eventVa name)).isNone
  word (.evq d a) { accept := s.memAccept (.evq d a) (if miss then 1#32 else 0) }
    (fun u => u.startEvent (.evq d a) .evq name 0 (some d) false) s

/-- `sigdec` as an atomic (R428): minus 1 at the home, a system-scope release. -/
def sigdecOf (p : SPair) (r : Regs) : AtomWord :=
  { op := .add, addr := fun _ => (r.pair p).toNat % 2 ^ 57 / 8 * 8, val := fun _ => 2 ^ 64 - 1, n := 8, order := .rel, scope := .sys, hreduce := true, signal := true }

/-- `sigdec` (R428): once for the wave. -/
def execSigdec (p : SPair) (s : State) : Out1 :=
  let w := sigdecOf p s.latch
  let miss := (s.c.look s.w.ctx .write (w.addr 0)).isNone
  word (.sigdec p) { accept := s.memAccept (.sigdec p) (if miss then s.cur.active else 0) }
    (fun u => if miss then u.hold (.sigdec p) s.cur.active .write (w.addr 0) none else u.sendAtom w none 0 (2 ^ 64 - 1)) s

end Machine
end Sys2Proof
end

