-- ==== Sys2Proof/Machine/Control.lean ====
section
/-! DEFINITION. Branches, calls, ends and parks (R381-R388), tasks and launches (R389, R390), traps (R447, R448) and `replay` (R453). -/

namespace Sys2Proof
namespace Machine

/-! ## Branches (R360, R381, R382) -/

/-- The PC of a branch's target: slot 1 of the packet `off` packets away. -/
def branchTarget (pc : VA) (off : BitVec 19) : VA := (BitVec.ofNat 57 (packetVa pc) + off.signExtend 57 * 16) ||| 4#57

/-- Split the issuing entry (R381): the lanes of `t` go to a PC. -/
def State.split (s : State) (t : Mask) (pc : VA) : State :=
  let act := s.cur.active
  let t := t &&& act
  if t = act then s.goto pc
  else if t = 0 then s
  else s.modW fun w => { w with front := w.front.flatMap fun e =>
    if e.mask = act then [{ e with mask := act &&& ~~~t }, { e with pc := pc, mask := t }] else [e] }

/-- `br` (R381). -/
def execBr (off : BitVec 19) (s : State) : Out1 := word (.br off) {} (fun u => u.goto (branchTarget s.cur.pc off)) s

/-- `bc` (R381). -/
def execBc (k : KReg) (off : BitVec 19) (s : State) : Out1 :=
  word (.bc k off) {} (fun u => u.split (s.latch.kget k) (branchTarget s.cur.pc off)) s

/-- `bv.any` (R381): the entry moves whole. -/
def execBvAny (k : KReg) (off : BitVec 19) (s : State) : Out1 :=
  word (.bvAny k off) {} (fun u => if s.latch.kget k &&& s.cur.active ≠ 0 then u.goto (branchTarget s.cur.pc off) else u) s

/-- `bv.all` (R381). -/
def execBvAll (k : KReg) (off : BitVec 19) (s : State) : Out1 :=
  word (.bvAll k off) {}
    (fun u => if s.latch.kget k &&& s.cur.active = s.cur.active then u.goto (branchTarget s.cur.pc off) else u) s

/-- The PC that a pair holds (R345, R382). -/
def pairPc (v : DWord) : VA := enterPc (v.extractLsb' 0 57)

/-- `jr` (R382). -/
def execJr (a : SPair) (s : State) : Out1 := word (.jr a) {} (fun u => u.goto (pairPc (s.latch.pair a))) s

/-- `ret` (R382). -/
def execRet (a : SPair) (s : State) : Out1 := word (.ret a) {} (fun u => u.goto (pairPc (s.latch.pair a))) s

/-- `call` (R382): the PC behind the unit goes to the pair s(2c):s(2c + 1). -/
def execCall (link : Fin 16) (off : BitVec 19) (s : State) : Out1 :=
  let p : SPair := Fin.ofNat 32 link.val
  let v : DWord := s.cur.next.zeroExtend 64
  word (.call link off) {}
    (fun u => ((u.resultS (lo p) (v.extractLsb' 0 32) .scalar).resultS (hi p) (v.extractLsb' 32 32) .scalar).goto (branchTarget s.cur.pc off)) s

/-! ## Ends and triggers (R158, R384-R386) -/

/-- `nop` (R386). -/
def execNop (s : State) : Out1 := word .nop {} (fun u => u) s

/-- Is it a store, an atomic, a copy or a launch (R384, R458)? -/
def owesPoison : AccKind → Bool
  | .load => false
  | .probe => false
  | .atom => true
  | .red => true
  | .accr => false
  | .fence => false
  | .evq => false
  | .evwait => false
  | .tlget => false
  | .wfill => false
  | .copy => true
  | .iord => true
  | .mgix => false

/-- Do held lanes of the issuing entry keep it from ending (R384)? A held word without an access is a store, a reduction, a copy or a
launch. -/
def State.heldLanes (s : State) : Bool :=
  s.c.held.any fun (h : Held) => h.wave == s.w.uid && h.mask &&& s.cur.active != 0 && match h.acc with
    | none => true
    | some id => match s.w.acc? id with
      | some a => owesPoison a.kind
      | none => true

/-- Change an engine. -/
def Core.modEngine (c : Core) (e : Fin 4) (f : Engine → Engine) : Core := { c with engines := c.engines.set e (f c.engines[e]) }

/-- The group at issue has ended: its armed and held engines stop and are released, and the counts of the armed ones fall; a number partly moved is
neither published nor acknowledged (R295). A `cpt` runs on (R384). -/
def State.stopEngines (s : State) : State :=
  (List.finRange 4).foldl (fun (s : State) (e : Fin 4) =>
    let x := s.c.engines[e]
    if x.gid ≠ s.g.gid ∨ (x.kind ≠ .armed ∧ x.kind ≠ .held) then s
    else
      let s := s.modC fun c => c.modEngine e fun _ => {}
      if x.kind = .armed then s.modG fun g => { g with tags := g.tags.set x.tag (g.tags.getD x.tag 0 - 1) } else s) s

/-- The wave's last entry has ended (R384). -/
def State.waveExit (s : State) : State :=
  let bit : Mask := 1#32 <<< s.w.index
  let s := s.modW fun w => { w with exited := true, triggered := true, trigAt := if w.triggered then w.trigAt else s.serial }
  let s := s.modC fun c => { c with l1 := c.l1.filter fun (l : L1Line) => !(l.priv && l.owner == s.w.uid) }
  let s := s.modG fun g => { g with exited := g.exited ||| bit, exitPcs := g.exitPcs ++ [(s.w.index, s.cur.pc)] }
  let ended := decide (s.g.waves ≤ (lanesOf s.g.exited).length)
  let s := if ended then s.stopEngines else s
  if ended ∧ s.g.runs ≠ [] then
    (s.waveFault s.w s.g .accLeak s.cur.pc (.ofPolicy s.g.policy s.g.rcb.toNat))
  else (s.due (.triggerCount s.w.slot)).due (.waveSlotFree s.w.slot)

/-- `exit` (R384). -/
def execExit (s : State) : Out1 :=
  word .exit { accept := !s.heldLanes }
    (fun u =>
      let u := u.modW fun w => { w with front := w.front.filter fun e => e.mask != s.cur.active }
      if u.w.front.isEmpty then u.waveExit else u) s

/-- `trig` (R385): counted once the wave's earlier stores are stamped. -/
def execTrig (s : State) : Out1 :=
  word .trig {} (fun u => if s.w.triggered then u else (u.modW fun w => { w with triggered := true, trigAt := s.serial }).due (.triggerCount s.w.slot)) s

/-! ## Parks: `sleep`, `yield`, `replay` (R387, R388, R453) -/

/-- `sleep` (R387). -/
def execSleep (a : SReg) (imm : Word) (s : State) : Out1 :=
  let n := s.latch.sget a + imm
  word (.sleep a imm) {} (fun u => if n = 0 then u else u.park (.sleep (s.tick + n.toNat))) s

/-- The record of I/O context n of a partition. -/
def State.io? (s : State) (n : Nat) : Option IoCtx := s.ios.find? fun (x : IoCtx) => x.n == n

/-- The context that may use an I/O context (R117). -/
def IoCtx.owner (x : IoCtx) : Nat := (x.regs[(3 : Fin 8)]).toNat / 2 ^ 52

/-- The I/O context that a scalar names, for the wave at issue. -/
def State.ioNum (s : State) (v : Word) : Nat := s.x.part * 64 + v.toNat

/-- Does a word on I/O context v raise ILLEGAL_INSTR (R388, R433)? -/
def State.ioIllegal (s : State) (v : Word) : Bool :=
  decide (64 ≤ v.toNat) || match s.io? (s.ioNum v) with
    | some x => !x.valid || x.owner != s.w.ctx
    | none => true

/-- The bits of a group's tag window (R282): bit i is 1 when count i is 0. -/
def Group.tagBits (g : Group) : DWord :=
  BitVec.ofNat 64 ((List.range g.tags.length).foldl (fun v i => if g.tags.getD i 0 = 0 then v + 2 ^ i else v) 0)

/-- Does the condition of a `yield` hold for a wave (R388)? (DESIGN CHOICE, log 41) -/
def State.condHolds (s : State) (w : Wave) (cond : YieldCond) : Bool :=
  match cond with
  | .tags m => match s.group? w.gid with
    | some g => m &&& ~~~g.tagBits == 0
    | none => true
  | .timeline n v => match s.io? n with
    | some x => decide (v.toNat ≤ x.timeline.toNat)
    | none => false
  | .event name thr => s.eventMeets w.ctx name thr
  | .tick t => decide (t.toNat ≤ s.tick)

/-- The acquire that a condition makes when it holds (R388). -/
def State.condAcquire (s : State) (w : Wave) (cond : YieldCond) : State :=
  match cond with
  | .tags _ => s
  | .timeline _ _ => s.acquireAt w.uid none
  | .event name _ => s.acquireAt w.uid ((s.eventKey w.ctx name).bind homeOfKey)
  | .tick _ => s

/-! ### The save area's units (R233, R234) -/

/-- The address of a unit of a context's save area. -/
def unitVa (x : Ctx) (u : Nat) : Nat := x.save.toNat * 4096 + u * 65536

/-- The lowest run of n free units. -/
def State.freeUnits (s : State) (ctx n : Nat) : Option Nat :=
  match s.ctx? ctx with
  | none => none
  | some x =>
    let units := Nat.min 65536 ((s.dwordVa ctx (unitVa x 0)).getD 0).toNat
    (List.range units).find? fun u => 1 ≤ u && decide (u + n ≤ units) && (List.range n).all fun k => !x.units.contains (u + k)

/-- Mark units in use or free, in the directory too. -/
def State.markUnits (s : State) (ctx first n : Nat) (used : Bool) : State :=
  let s := s.modCtx ctx fun x => { x with units := if used then x.units ++ (List.range n).map (first + ·)
                                                   else x.units.filter fun u => !(decide (first ≤ u) && decide (u < first + n)) }
  match s.ctx? ctx with
  | none => s
  | some x =>
    (((List.range n).map fun k => (first + k) / 8).dedup).foldl (fun (s : State) b =>
      let byte := (List.range 8).foldl (fun v k => if x.units.contains (b * 8 + k) then v + 2 ^ k else v) 0
      s.putVa ctx (unitVa x 0 + 0x10 + b) [BitVec.ofNat 8 byte]) s

/-- A register's 128 bytes, lane L at 4L. -/
def rowBytes (r : VReg) : List Byte := allLanes.flatMap fun L => bytesOfNat (r.lane L).toNat 4

/-- A register read back from 128 bytes (DEDUCED, log 86). -/
def rowOf (b : List Byte) : VReg := .g (Vector.ofFn fun (L : Lane) => BitVec.ofNat 32 (natOfBytes ((b.drop (4 * L.val)).take 4)))

/-- The registers of a wave in shape G. -/
def Wave.wideRegs (w : Wave) : List (Fin 256) := (List.finRange 256).filter fun n => decide (n.val < w.nregs) && (w.regs.v[n]).isG

/-- The spill of `yield .sp` (R236): the G registers go to a unit, the rows are free; without a free unit the word acts without `.sp`. -/
def State.spillYield (s : State) (uid : Nat) : State :=
  match s.wave? uid with
  | none => s
  | some w =>
    match w.park, s.ctx? w.ctx with
    | .yield cond true, some x =>
      if w.spilled || w.outstanding then s
      else
        match s.freeUnits w.ctx 1 with
        | none => s.modWave uid fun w => { w with park := .yield cond false }
        | some u =>
          let s := s.markUnits w.ctx u 1 true
          let s := w.wideRegs.foldl (fun (s : State) n => s.putVa w.ctx (unitVa x u + 0x8000 + 128 * n.val) (rowBytes w.regs.v[n])) s
          (s.putVa w.ctx (unitVa x u + 0x38) [1, 0, 0, 0]).modWave uid fun w => { w with spilled := true, unit := some u }
    | _, _ => s

/-- The refill when a spilled wave has its rows again (R170, R236): it issues from the next tick. -/
def State.refill (s : State) (uid : Nat) : State :=
  match s.wave? uid with
  | none => s
  | some w =>
    match w.unit, s.ctx? w.ctx with
    | some u, some x =>
      let s := s.modWave uid fun w => w.wideRegs.foldl (fun (w : Wave) n =>
        w.setV n (rowOf ((s.readVa w.ctx (unitVa x u + 0x8000 + 128 * n.val) 128).getD (rowBytes w.regs.v[n])))) w
      (s.markUnits w.ctx u 1 false).modWave uid fun w =>
        { w with spilled := false, unit := none, park := .none, mayIssue := s.tick + 1 }
    | _, _ => s.modWave uid fun w => { w with spilled := false, unit := none, park := .none, mayIssue := s.tick + 1 }

/-- A `yield` of any condition: tested at issue; else the wave parks, registers its wait and spills. -/
def runYield (i : Instr) (illegal : Bool) (cond : YieldCond) (sp : Bool) (s : State) : Out1 :=
  word i { illegal := illegal }
    (fun u =>
      if u.condHolds u.w cond then u.condAcquire u.w cond
      else
        let u := u.park (.yield cond sp)
        let u := match cond with
          | .event name thr => u.registerWait u.w.uid name thr
          | .tags _ => u
          | .timeline _ _ => u
          | .tick _ => u
        u.spillYield s.w.uid) s

/-- `yield.tags` (R388). -/
def execYieldTags (a : SPair) (sp : Bool) (s : State) : Out1 :=
  let m := s.latch.pair a
  runYield (.yieldTags a sp) (m.toNat / 2 ^ s.g.tags.length != 0) (.tags m) sp s

/-- `yield.tl` (R388). -/
def execYieldTl (a : SPair) (b : SReg) (sp : Bool) (s : State) : Out1 :=
  runYield (.yieldTl a b sp) (s.ioIllegal (s.latch.sget b)) (.timeline (s.ioNum (s.latch.sget b)) (s.latch.pair a)) sp s

/-- `yield.ev` (R388). -/
def execYieldEv (a b : SReg) (sp : Bool) (s : State) : Out1 :=
  runYield (.yieldEv a b sp) false (.event (eventName (s.latch.sget a)) (s.latch.sget b)) sp s

/-- `yield.tick` (R388). -/
def execYieldTick (a : SPair) (sp : Bool) (s : State) : Out1 := runYield (.yieldTick a sp) false (.tick (s.latch.pair a)) sp s

/-- Release the waves whose tag or timeline wait holds now (R283, R388, R432, R434). -/
def State.recheck (s : State) : State :=
  s.allWaves.foldl (fun (s : State) w =>
    match w.park with
    | .tag i => if s.condHolds w (.tags (1#64 <<< i.val)) then s.modWave w.uid fun w => { w with park := .none, mayIssue := s.tick + 1 } else s
    | .timeline n v =>
      if s.condHolds w (.timeline n v) then
        (s.condAcquire w (.timeline n v)).modWave w.uid fun w => { w with park := .none, mayIssue := s.tick + 1 }
      else s
    | .yield (.tags m) _ => if s.condHolds w (.tags m) then s.yieldOver w (.tags m) else s
    | .yield (.timeline n v) _ =>
      if s.condHolds w (.timeline n v) then (s.condAcquire w (.timeline n v)).yieldOver w (.timeline n v) else s
    | _ => s) s

/-- Change a count of a group's tag window; waits on it are tested again. -/
def State.modTag (s : State) (gid i : Nat) (f : Nat → Nat) : State :=
  (s.modGroup gid fun g => { g with tags := g.tags.set i (f (g.tags.getD i 0)) }).recheck

/-- `replay` (R453): parks while the wave holds a replay entry or an access reissued from one. -/
def execReplay (s : State) : Out1 :=
  word .replay {}
    (fun u =>
      if (u.c.held.any fun (h : Held) => h.wave == u.w.uid) || u.w.accs.any (·.fromHold) then u.park .replay else u) s

/-! ## Tasks and launches (R389, R390) -/

/-- Push tasks of a wave while the pool has room; the rest is answered. -/
def State.pushAll (s : State) (w : Wave) (g : Group) : List (VA × List Byte) → State × List (VA × List Byte)
  | [] => (s, [])
  | p :: rest =>
    match s.pushTask w.ctx { entry := p.1, data := p.2, rcb := g.rcb.toNat, chain := g.chain, tick := s.tick } with
    | some t => t.pushAll w g rest
    | none => (s, p :: rest)

/-- Push what a wave's `spawn` has left; it goes on when nothing is left (R151). -/
def State.spawnOn (s : State) (uid : Nat) (left : List (VA × List Byte)) : State :=
  match s.wave? uid with
  | none => s
  | some w =>
    match s.group? w.gid with
    | none => s
    | some g =>
      let r := s.pushAll w g left
      let s := if r.2.isEmpty then r.1.modWave uid fun w => { w with park := .none, mayIssue := Nat.max w.mayIssue (s.tick + 1) }
               else r.1.modWave uid fun w => { w with park := .spawn r.2 }
      (s.bin w.ctx false).due (.binnerTimeout w.ctx)

/-- The pool of a context has room again: TASKPOOL packets and waves at a `spawn` push on (DESIGN CHOICE, log 36). -/
def State.poolRoom (s : State) (ctx : Nat) : State :=
  let s := s.feedPool ctx
  s.allWaves.foldl (fun (s : State) w =>
    match w.park with
    | .spawn left => if w.ctx = ctx then s.spawnOn w.uid left else s
    | _ => s) s

/-- The 32-byte record of a lane (R389). -/
def spawnRecord (r : Regs) (a : VOp) (L : Lane) : List Byte := (List.range 8).flatMap fun i => bytesOfNat (readAt r a i L).toNat 4

/-- `spawn` (R389): each push is a release, so it waits for the wave's earlier accesses. -/
def execSpawn (a : VOp) (b : SPair) (s : State) : Out1 :=
  let e := s.latch.pair b
  word (.spawn a b) { illegal := e.toNat % 256 ≠ 0, accept := !s.w.reading && !s.unstamped s.w.uid }
    (fun u =>
      let tasks := (lanesOf s.cur.active).map fun L => (e.extractLsb' 0 57, spawnRecord s.latch a L)
      let r := u.pushAll s.w s.g tasks
      let u := if r.2.isEmpty then r.1 else r.1.park (.spawn r.2)
      (u.bin s.w.ctx false).due (.binnerTimeout s.w.ctx)) s

/-- Put a launch packet that has been read into a queue (R390). -/
def State.putLaunch (s : State) (q : Nat) (b : List Byte) : State :=
  match s.queue? q with
  | none => s
  | some x => (s.putVa x.ctx (x.base.toNat + 64 * (x.wptr % 2 ^ x.lgsize)) b).ring q (x.wptr + 1)

/-- Perform a `launch` whose page translates: a packet that reads a poisoned sector owes POISON and nothing is queued (DEDUCED, log 43). -/
def State.doLaunch (s : State) (q : Nat) (va : Nat) (pc : VA) (lanes : Mask) : State :=
  match s.c.keyAt s.w.ctx va with
  | none => s
  | some (_, k) =>
    if s.mem.isBad (k / 32) || s.mem.isBad (k / 32 + 1) then s.modW fun w => { w with owed := w.owed ++ [{ pc := pc, mask := lanes }] }
    else s.putLaunch q (s.mem.bytes k 64)

/-- Does `launch` raise ILLEGAL_INSTR (R390)? -/
def State.launchIllegal (s : State) (q : Nat) (va : Nat) : Bool :=
  decide (4096 ≤ q) || va % 64 != 0 || match s.queue? q with
    | none => true
    | some x => x.kind != 3 || x.ctx != s.w.ctx || x.state != 1 || (s.partOfQueue q).isNone || (s.partOfQueue q).map (·.val) != some s.x.part

/-- Has the ring no room (R390)? -/
def State.ringFull (s : State) (q : Nat) : Bool :=
  match s.queue? q with
  | some x => decide (2 ^ x.lgsize ≤ x.wptr - x.rptr)
  | none => false

/-- `launch` (R390): a device release of the wave's earlier accesses first (DEDUCED, log 43). -/
def execLaunch (q : SReg) (p : SPair) (s : State) : Out1 :=
  let n := (s.latch.sget q).toNat
  let va := (s.latch.pair p).toNat % 2 ^ 57
  let miss := (s.c.look s.w.ctx .read va).isNone
  word (.launch q p)
    { illegal := s.launchIllegal n (s.latch.pair p).toNat
      accept := !s.w.reading && !s.unapplied s.w.uid && !s.ringFull n && !s.noReplay (if miss then s.cur.active else 0) && !s.heldConflict (.launch q p) }
    (fun u => if miss then u.hold (.launch q p) s.cur.active .read va none else u.doLaunch n va s.cur.pc s.cur.active) s

/-! ## Traps (R447, R448) -/

/-- `trap` (R447). -/
def execTrap (s : State) : Out1 := word .trap { own := some .trap } (fun u => u) s

/-- Is brkhalt set in the context's debug entry (R341)? -/
def State.brkHalts (s : State) : Bool := (regsGet s.xlate.dbg (s.w.ctx * 16 + 8)).getLsbD 0

/-- A debug halt of the wave at issue, with its reason (R339, R341) (DEDUCED, log 44). -/
def State.haltHere (s : State) (reason : BitVec 2) : State :=
  let s := s.modW fun w => { w with halted := true, window := [] }
  { s with xlate := { s.xlate with dbgReason := reason, dbgWave := BitVec.ofNat 15 s.w.slot } }.raiseBoth 2046

/-- `brk` (R341, R447) (DEDUCED, log 44). -/
def execBrk (s : State) : Out1 :=
  if s.brkHalts then word .brk {} (fun u => u.haltHere 2) s
  else word .brk { own := some .brk } (fun u => u) s

/-- `rti` (R336, R448). -/
def execRti (s : State) : Out1 :=
  word .rti { illegal := !s.w.regs.busy } (fun u => u.returnFromTrap) s

end Machine
end Sys2Proof
end

