-- ==== Sys2Proof/Machine/Engines.lean ====
section
/-! DEFINITION. Copies, tensor copies, streams and completion tags (R282-R296, R429-R432), storage requests and timelines (R117-R122, R433,
R434). -/

namespace Sys2Proof
namespace Machine

/-! ## Completion tags (R282, R283, R432) -/

/-- Does a tag index lie outside the group's window? -/
def State.tagIllegal (s : State) (i : Fin 64) : Bool := decide (s.g.tags.length ≤ i.val)

/-- May a tag take n more counts? -/
def State.tagRoom (s : State) (i : Fin 64) (n : Nat) : Bool := decide (s.g.tags.getD i.val 0 + n ≤ 65535)

/-- `tagw` (R432). -/
def execTagw (i : Fin 64) (s : State) : Out1 :=
  word (.tagw i) { illegal := s.tagIllegal i }
    (fun u => if s.g.tags.getD i.val 0 = 0 then u else u.park (.tag i)) s

/-- `taga` (R432). -/
def execTaga (i : Fin 64) (m : BitVec 8) (s : State) : Out1 :=
  word (.taga i m) { illegal := s.tagIllegal i, accept := s.tagRoom i m.toNat }
    (fun u => u.modTag s.g.gid i.val (· + m.toNat)) s

/-- `tagf` (R283, R432): a group-scope release of the wave's earlier writes first. -/
def execTagf (i : Fin 64) (s : State) : Out1 :=
  word (.tagf i) { illegal := s.tagIllegal i, accept := s.fullRelease .group }
    (fun u => u.modTag s.g.gid i.val (· - 1)) s

/-- Write a scalar pair as a fixed-latency result. -/
def State.resultPair (s : State) (p : SPair) (v : DWord) (l : Latency) : State :=
  (s.resultS (lo p) (v.extractLsb' 0 32) l).resultS (hi p) (v.extractLsb' 32 32) l

/-- `tagc` (R432). -/
def execTagc (d : SPair) (s : State) : Out1 := word (.tagc d) {} (fun u => u.resultPair d s.g.tagBits .scalar) s

/-! ## `cpa` (R284-R288, R429) -/

/-- One `cpa`: its direction, its size in bytes, and its two addresses by lane. -/
structure CopyWord where
  toGlobal : Bool
  n : Nat
  policy : Policy
  ps : Lane → List Piece
  off : Lane → Nat

def copyOf (toGlobal : Bool) (size : Size) (policy : Policy) (o a : VOp) (b sp : SPair) (r : Regs) : CopyWord :=
  { toGlobal := toGlobal, n := sizeBytes size, policy := policy
    ps := fun L => linePieces (laneAddr r a b L) (sizeBytes size), off := laneOffset r o sp }

/-- What a `cpa` needs of its pages (R323). -/
def CopyWord.need (w : CopyWord) : Need := if w.toGlobal then .write else .read

/-- Mark a scratchpad sector poisoned (R83). -/
def Group.badPad (g : Group) (o n : Nat) : Group :=
  (List.range n).foldl (fun (g : Group) k =>
    if o + k < g.scratch ∧ !g.padBad.contains ((o + k) / 32) then { g with padBad := insertNat g.padBad ((o + k) / 32) } else g) g

/-- Move the lanes of a mask, all of whose pages translate. -/
def State.doCopy (s : State) (i : Instr) (w : CopyWord) (tag : Nat) (m : Mask) : State :=
  let a := { s.newAccess i .copy m none 0 none with tag := some tag, place := Vector.ofFn fun L => w.off L, since := s.serial, latch := some s.latch }
  let s := (s.addAccess a).takeLooks (lineCount m w.ps)
  if w.toGlobal then
    let ws := s.lineWrites m w.ps fun L => (s.g.engineView s.tick).padNat (w.off L) w.n
    let s := ws.foldl (fun (s : State) x =>
      let bad := (lanesOf m).foldl (fun (v : BitVec 4) L =>
        if s.g.padPoison (w.off L) w.n then (w.ps L).foldl (fun (v : BitVec 4) p =>
          match s.c.keyAt s.w.ctx p.va with
          | some (_, k) => if k / 128 = x.line then v ||| touchedSectors (byteMask (k % 128) p.n) else v
          | none => v) v else v) 0
      let id := s.serial
      let s := s.postWrite { policy := w.policy, acc := some a.id, bad := bad } x
      s.modW fun v => v.modAcc a.id fun a => { a with waits := a.waits ++ [id] }) s
    s.due (.copyComplete s.w.slot a.id)
  else
    (s.loadLanes a.id { policy := w.policy } m w.ps).due (.copyComplete s.w.slot a.id)

/-- `cpa` (R284-R288, R429). When a page misses no byte moves: the word is held and the wave parks at it. -/
def execCpa (toGlobal : Bool) (size : Size) (policy : Policy) (o a : VOp) (b sp : SPair) (tag : Fin 64) (s : State) : Out1 :=
  let i : Instr := .cpa toGlobal size policy o a b sp tag
  let w := copyOf toGlobal size policy o a b sp s.latch
  let act := s.cur.active
  let miss := act &&& ~~~(s.c.hitLanes s.w.ctx w.need act w.ps)
  word i
    { illegal := s.tagIllegal tag
      accept := s.memAccept i miss && (toGlobal || s.trackerRoom (s.missCount { k := { policy := policy }, ps := w.ps } (act &&& ~~~miss)))
                  && !s.storing s.w.uid && decide (s.cur.q ≤ s.tick) && s.tagRoom tag 1 }
    (fun u =>
      let u := u.modTag s.g.gid tag.val (· + 1)
      if miss ≠ 0 then (u.hold i act w.need ((w.ps (lowest miss)).headD { va := 0, n := 0, place := 0 }).va none).park .replay
      else u.doCopy i w tag.val act) s

/-! ## Tensors (R289-R291) -/

/-- A tensor layout record (R289). -/
structure Tensor where
  noring : Bool
  dir : Nat
  ndims : Nat
  esize : Nat                        -- bytes of an element
  slot : Nat                         -- bytes of a slot
  slots : Nat
  ringbase : Nat
  base : Nat
  dims : List (Nat × Int)            -- size and stride of the used dimensions
  policy : Policy                    -- of its memory accesses (R410)
  bad : Bool                         -- R290, for `srec` and `cpt` alike

def readTensor (b : List Byte) : Tensor :=
  let f := bitsOf b
  let nd := f 681 4
  let dim (k : Nat) : Nat × Int := (f (64 * k + 40) 24, (BitVec.ofNat 40 (f (64 * k) 40)).toInt)
  let noring := f 689 1 == 1
  { noring := noring, dir := f 685 2, ndims := nd, esize := 2 ^ f 678 3, slot := (f 666 12 + 1) * 16, slots := f 660 6 + 1, ringbase := f 640 20
    base := f 576 57, dims := (List.range nd).map dim
    policy := if f 687 2 = 1 then .stream else if f 687 2 = 2 then .keep else .dflt
    bad := f 690 334 != 0 || f 687 2 == 3 || f 685 2 == 3 || nd == 0 || decide (9 < nd) || decide (4 < f 678 3) || f 633 7 != 0
      || f 640 20 % 16 != 0 || f 666 12 == 0
      || (List.range 9).any fun k => if k < nd then (dim k).1 == 0 else f (64 * k) 64 != 0 }

/-- N, the number of elements, and the bytes of the tensor. -/
def Tensor.count (t : Tensor) : Nat := t.dims.foldl (fun n d => n * d.1) 1
def Tensor.bytes (t : Tensor) : Nat := t.count * t.esize

/-- Addr(e) (R291). -/
def Tensor.addr (t : Tensor) (e : Nat) : Nat :=
  let r := t.dims.foldl (fun (p : Nat × Int) d => (p.1 / d.1, p.2 + (p.1 % d.1 : Nat) * d.2)) (e, (t.base : Int))
  (r.2 % (2 ^ 57 : Int)).toNat

/-- Payload bytes of a slot, the offset of the slot of a number, and the numbers of the tensor. -/
def Tensor.pay (t : Tensor) : Nat := t.slot - 16
def Tensor.slotAt (t : Tensor) (n : Nat) : Nat := t.ringbase + t.slot * ((n - 1) % t.slots)
def Tensor.numbers (t : Tensor) : Nat := (t.bytes + t.pay - 1) / t.pay

/-- Would the record be rejected in `srec` or in `cpt` (R288, R290, R430)? -/
def Tensor.badStream (t : Tensor) : Bool := t.bad || t.noring || t.dir == 2 || decide (Config.tensorMax < t.bytes)
def Tensor.badCpt (t : Tensor) (v : SPair) : Bool := t.bad || !t.noring || decide (Config.tensorMax < t.bytes) || (t.dir == 2) == (v == 0)

/-- Does a page translate, in the core's TLB or by a walk (R288)? -/
def State.probeOk (s : State) (need : Need) (va : Nat) : Bool :=
  (s.c.look s.w.ctx need va).isSome || match s.walk s.w.ctx va with
    | .leaf e => e.allows need
    | .absent _ => false

/-- The first element address whose page does not translate. -/
def State.probeTensor (s : State) (t : Tensor) (move : Nat) : Option (Need × Nat) :=
  let need : Need := if t.dir = 1 then .write else .read
  let pages := ((List.range t.count).flatMap fun e => [t.addr e / 65536, (t.addr e + t.esize - 1) % 2 ^ 57 / 65536]).dedup
  match pages.find? fun p => !s.probeOk need (p * 65536) with
  | some p => some (need, p * 65536)
  | none =>
    if t.dir = 2 then
      match (((List.range ((t.bytes + 65535) / 65536 + 1)).map fun k => (move + Nat.min (k * 65536) (t.bytes - 1)) % 2 ^ 57).find? fun va => !s.probeOk .write va) with
      | some va => some (.write, va)
      | none => none
    else none

/-- The lowest free engine of the core. -/
def Core.freeEngine (c : Core) : Option (Fin 4) := (List.finRange 4).find? fun (e : Fin 4) => (c.engines[e]).kind == .free

/-- Start a `cpt` on a free engine. -/
def State.startCpt (s : State) (rec_ : List Byte) (tag move : Nat) (pc : VA) : State :=
  match s.c.freeEngine with
  | none => s
  | some e =>
    (s.modC fun c => c.modEngine e fun _ => { kind := .cpt, gid := s.g.gid, rec_ := rec_, tag := tag, move := move, pc := pc, wave := s.w.uid, since := s.serial }).due
      (.cptComplete s.c.id e)

/-- `cpt` (R288, R291, R430). -/
def execCpt (a : SReg) (v : SPair) (tag : Fin 64) (s : State) : Out1 :=
  let o := (s.latch.sget a).toNat
  let t := readTensor (s.g.tensorAt o)
  let move := (s.latch.pair v).toNat % 2 ^ 57
  let miss := if t.badCpt v || s.tagIllegal tag || o % 16 != 0 then none else s.probeTensor t move
  word (.cpt a v tag)
    { illegal := s.tagIllegal tag || o % 16 != 0 || t.badCpt v
      accept := !s.w.acquiring && decide (s.cur.q ≤ s.tick) && s.c.freeEngine.isSome && s.tagRoom tag 1
        && !s.noReplay (if miss.isSome then s.cur.active else 0) && !s.heldConflict (.cpt a v tag) }
    (fun u =>
      let u := ((u.wavePort 1).2).modTag s.g.gid tag.val (· + 1)
      match miss with
      | some (need, va) => (u.hold (.cpt a v tag) s.cur.active need va none).park .replay
      | none => u.startCpt (s.g.tensorAt o) tag.val move s.cur.pc) s

/-- `srec` (R289, R295, R431): waits while no engine is free (DEDUCED, log 34). -/
def execSrec (d a : SReg) (s : State) : Out1 :=
  let o := (s.latch.sget a).toNat
  word (.srec d a)
    { illegal := o % 16 != 0 || (readTensor (s.g.tensorAt o)).badStream
      accept := !s.w.acquiring && decide (s.cur.q ≤ s.tick) && s.c.freeEngine.isSome }
    (fun u =>
      match u.c.freeEngine with
      | none => u
      | some e =>
        let u := (u.wavePort 1).2
        (u.modC fun c => c.modEngine e fun _ => { kind := .held, gid := s.g.gid, rec_ := s.g.tensorAt o }).resultS d (BitVec.ofNat 32 e.val) .scalar) s

/-- The engine that a scalar names, when the group holds it. -/
def State.engineOf (s : State) (v : Word) : Option (Fin 4 × Engine) :=
  if v.toNat < 4 then
    let e := Fin.ofNat 4 v.toNat
    let x := s.c.engines[e]
    if x.gid = s.g.gid ∧ (x.kind = .held ∨ x.kind = .armed) then some (e, x) else none
  else none

/-- Arm a stream: every header of its ring is 0 and number 1 is next (R292, R431). -/
def State.arm (s : State) (e : Fin 4) (tag : Nat) (pc : VA) : State :=
  let t := readTensor (s.c.engines[e]).rec_
  let s := s.modG fun g => (List.range t.slots).foldl (fun (g : Group) k => (g.putPad (t.slotAt (k + 1)) (List.replicate 16 0)).clearPad (t.slotAt (k + 1)) 16) g
  (s.modC fun c => c.modEngine e fun x => { x with kind := .armed, tag := tag, num := 1, next := 0, published := 0, acked := 0, pc := pc, wave := s.w.uid, since := s.serial }).due
    (.streamHeaderPoll s.c.id e)

/-- `sarm` (R288, R295, R431). -/
def execSarm (e : SReg) (tag : Fin 64) (s : State) : Out1 :=
  let x := s.engineOf (s.latch.sget e)
  let ok := match x with
    | some (_, y) => y.kind == .held
    | none => false
  let miss := match x with
    | some (_, y) => if ok then s.probeTensor (readTensor y.rec_) 0 else none
    | none => none
  word (.sarm e tag)
    { illegal := s.tagIllegal tag || !ok
      accept := !s.w.acquiring && s.tagRoom tag 1 && !s.noReplay (if miss.isSome then s.cur.active else 0) && !s.heldConflict (.sarm e tag) }
    (fun u =>
      match miss, x with
      | some (need, va), _ => ((u.modTag s.g.gid tag.val (· + 1)).hold (.sarm e tag) s.cur.active need va none).park .replay
      | none, some (k, _) => (u.modTag s.g.gid tag.val (· + 1)).arm k tag.val s.cur.pc
      | none, none => u) s

/-- `sstop` (R295, R431): an armed engine's tag count falls; the engine is free. -/
def execSstop (e : SReg) (s : State) : Out1 :=
  let x := s.engineOf (s.latch.sget e)
  word (.sstop e) { illegal := x.isNone }
    (fun u =>
      match x with
      | none => u
      | some (k, y) =>
        let u := u.modC fun c => c.modEngine k fun _ => {}
        if y.kind = .armed then u.modTag s.g.gid y.tag (· - 1) else u) s

/-! ## Storage (R117-R122, R433) -/

/-- Fields of an I/O context record: word k holds bits 64k to 64k + 63 (R117). -/
def IoCtx.field (x : IoCtx) (lo w : Nat) : Nat := (x.regs[Fin.ofNat 8 (lo / 64)]).toNat / 2 ^ (lo % 64) % 2 ^ w

def IoCtx.lbads (x : IoCtx) : Nat := x.field 256 4
def IoCtx.depth (x : IoCtx) : Nat := x.field 260 12 + 1

/-- Change an I/O context. -/
def State.modIo (s : State) (n : Nat) (f : IoCtx → IoCtx) : State := { s with ios := s.ios.map fun (x : IoCtx) => if x.n = n then f x else x }

/-- Advance a timeline past the requests that are done (R120). -/
def advance (done : List Nat) : Nat → Nat → Nat
  | 0, t => t
  | n + 1, t => if done.contains (t + 1) then advance done n (t + 1) else t

/-- A request is done; a number is marked, the timeline advances and waits are tested (R120). -/
def State.ioDone (s : State) (n num : Nat) : State :=
  (s.modIo n fun x =>
    let reqs := x.reqs.map fun (r : IoReq) => if r.num = num then { r with done := true } else r
    let t := advance ((reqs.filter (·.done)).map (·.num)) reqs.length x.timeline.toNat
    { x with reqs := reqs.filter fun (r : IoReq) => !(r.done && decide (r.num ≤ t)) || r.late, timeline := BitVec.ofNat 64 t }).recheck

/-- A failed read writes the poison pattern to the sectors of a piece of its buffer, at their homes (R121). -/
def State.poisonRange (s : State) (key n : Nat) : State :=
  (keyPieces key (n + 1) n).foldl (fun (s : State) p =>
    let s := (s.noteOutside (p.va / 128)).homeStore (p.va / 128) 0 0
    { s with mem := s.mem.setLineBad (p.va / 128) (touchedSectors (byteMask (p.va % 128) p.n)) true }) s

/-- A request fails (R121): the destination of a read is poisoned, the status and the lowest failed number are kept. -/
def State.ioFail (s : State) (n num : Nat) (status : BitVec 8) : State :=
  match (s.io? n).bind fun (x : IoCtx) => x.reqs.find? fun (r : IoReq) => r.num == num with
  | none => s
  | some r =>
    let s := if r.write then s else r.pages.foldl (fun (s : State) p => s.poisonRange p.1 p.2) s
    let s := s.modIo n fun x => { x with status := status, firstfail := if x.firstfail = 0 ∨ num < x.firstfail.toNat then BitVec.ofNat 64 num else x.firstfail }
    s.ioDone n num

/-- The pages of a buffer that lie in device memory and allow the access, as device addresses and bytes; and is that all of it? -/
def State.bufferPages (s : State) (need : Need) (va n : Nat) : List (Nat × Nat) × Bool :=
  let first := 65536 - va % 65536
  let cuts := (0, Nat.min first n) :: (List.range ((n - Nat.min first n + 65535) / 65536)).map fun k =>
    (first + 65536 * k, Nat.min 65536 (n - (first + 65536 * k)))
  cuts.foldl (fun (l : List (Nat × Nat) × Bool) p =>
    match s.walk s.w.ctx ((va + p.1) % 2 ^ 57) with
    | .leaf e => if e.target = .device ∧ e.allows need then (l.1 ++ [(e.key ((va + p.1) % 2 ^ 57), p.2)], l.2) else (l.1, false)
    | .absent _ => (l.1, false)) ([], true)

/-- The five registers of a lane's request (R433): buffer, first block, blocks. -/
def ioLane (r : Regs) (a : VOp) (L : Lane) : Nat × Nat × Nat :=
  (((readAt r a 1 L ++ readAt r a 0 L : BitVec 64)).toNat, ((readAt r a 3 L ++ readAt r a 2 L : BitVec 64)).toNat, (readAt r a 4 L).toNat)

/-- The first page of a lane's buffer that does not translate (R433). -/
def State.ioMiss (s : State) (r : Regs) (a : VOp) (x : IoCtx) (need : Need) (L : Lane) : Option Nat :=
  let q := ioLane r a L
  let n := q.2.2 * 2 ^ x.lbads
  if n = 0 ∨ 1048576 < n ∨ 2 ^ 57 ≤ q.1 then none
  else ((List.range ((n + 65535) / 65536 + 1)).map fun k => (q.1 + Nat.min (k * 65536) (n - 1)) % 2 ^ 57).find? fun va => !s.probeOk need va

/-- Number the requests of the lanes of a mask, in lane order, and write the numbers (R119, R433) (DEDUCED, log 32). A request that fails at once
poisons what its buffer has of device memory (R121). -/
def State.numberIo (s : State) (n : Nat) (write : Bool) (r : Regs) (d a : VOp) (m : Mask) : State :=
  let first := ((s.io? n).map fun (x : IoCtx) => x.issued.toNat).getD 0
  let lbads := ((s.io? n).map IoCtx.lbads).getD 0
  let valid := ((s.io? n).map (·.valid)).getD false
  let nth (L : Lane) : Nat := first + 1 + (lanesOf m).countP fun K => decide (K.val < L.val)
  let s := (lanesOf m).foldl (fun (s : State) L =>
    let q := ioLane r a L
    let bytes := q.2.2 * 2 ^ lbads
    let pages := s.bufferPages (if write then .read else .write) (q.1 % 2 ^ 57) bytes
    let bad := !valid || q.2.2 == 0 || decide (1048576 < bytes) || q.1 % 4 != 0 || decide (2 ^ 57 ≤ q.1) || !pages.2
    let req : IoReq := { num := nth L, write := write, ctx := s.w.ctx, buf := q.1, pages := if 2 ^ 57 ≤ q.1 then [] else pages.1
                         lba := BitVec.ofNat 64 q.2.1, blocks := q.2.2 }
    let s := s.modIo n fun x => { x with issued := BitVec.ofNat 64 (nth L), reqs := x.reqs ++ [req] }
    if bad then s.ioFail n (nth L) 2 else s) s
  let s := s.modW fun w => w.write r m d 0 (fun L => BitVec.ofNat 32 (nth L)) .g
  let s := s.modW fun w => w.write r m d 1 (fun L => BitVec.ofNat 32 (nth L / 2 ^ 32)) .g
  s.due (.ioSubmission n)

/-- The lanes of the words of a partition that the I/O engine has not numbered yet. -/
def State.ioArriving (s : State) (p : Nat) : Nat :=
  ((s.allWaves.filter fun (w : Wave) => s.partOf w.ctx == p).map fun (w : Wave) =>
    ((w.accs.filter fun (a : Access) => a.kind == .iord).map fun (a : Access) => (lanesOf a.lanes).length).sum).sum

/-- Has the partition's submission buffer room for the lanes (R119)? -/
def State.ioRoom (s : State) (lanes : Nat) : Bool :=
  let mine := s.ios.filter fun (x : IoCtx) => x.n / 64 == s.x.part
  decide ((mine.map fun (x : IoCtx) => x.reqs.countP fun (r : IoReq) => r.submitted.isNone && !r.done).sum + s.ioArriving s.x.part + lanes
    ≤ Config.submissionBuffer)

/-- Hand the lanes of a word to the I/O engine: the wave parks until it has numbered them (R433). -/
def State.orderIo (s : State) (i : Instr) (m : Mask) : State :=
  let a := { s.newAccess i .iord m none 0 none with latch := some s.latch }
  ((s.addAccess a).park (.value a.id)).due (.valueArrival s.w.slot a.id)

/-- The I/O context of an `iord` or `iowr` with the registers it was issued with. -/
def Access.ioNum (a : Access) (s : State) : Nat :=
  match a.instr, a.latch with
  | .iord _ _ b, some r => s.ioNum (r.sget b)
  | .iowr _ _ b, some r => s.ioNum (r.sget b)
  | _, _ => 0

/-- Is another word ahead of an access at the I/O engine: one that arrived in an earlier tick, or from a lower wave slot in the same (R119)? -/
def State.ioAhead (s : State) (w : Wave) (a : Access) : Bool :=
  s.allWaves.any fun (v : Wave) => s.partOf v.ctx == s.partOf w.ctx && v.accs.any fun (b : Access) =>
    b.kind == .iord && (decide (b.issued < a.issued) || (b.issued == a.issued && decide (v.slot < w.slot)))

/-- `iord` and `iowr` (R433) (DEDUCED, log 32). -/
def runIo (i : Instr) (write : Bool) (a : VOp) (b : SReg) (s : State) : Out1 :=
  let v := s.latch.sget b
  let n := s.ioNum v
  let act := s.cur.active
  let need : Need := if write then .read else .write
  let miss := match s.io? n with
    | some x => (lanesOf act).findSome? fun L => s.ioMiss s.latch a x need L
    | none => none
  word i
    { illegal := s.ioIllegal v
      accept := !s.w.acquiring && s.ioRoom (lanesOf act).length && (!write || s.fullRelease .sys)
        && !s.noReplay (if miss.isSome then act else 0) && !s.heldConflict i }
    (fun u =>
      match miss with
      | some va => (u.hold i act need va none).park .replay
      | none => u.orderIo i act) s

/-- `iord` (R433). -/
def execIord (d a : VOp) (b : SReg) (s : State) : Out1 := runIo (.iord d a b) false a b s

/-- `iowr` (R122, R433). -/
def execIowr (d a : VOp) (b : SReg) (s : State) : Out1 := runIo (.iowr d a b) true a b s

/-- `tlw` (R434). -/
def execTlw (i : SReg) (v : SPair) (s : State) : Out1 :=
  let cond : YieldCond := .timeline (s.ioNum (s.latch.sget i)) (s.latch.pair v)
  word (.tlw i v) { illegal := s.ioIllegal (s.latch.sget i) }
    (fun u => if u.condHolds u.w cond then u.condAcquire u.w cond else u.park (.timeline (s.ioNum (s.latch.sget i)) (s.latch.pair v))) s

/-- `tlget` (R434): the read reaches the engine at once (DESIGN CHOICE, log 33). -/
def execTlget (d : SPair) (i : SReg) (s : State) : Out1 :=
  word (.tlget d i) { illegal := s.ioIllegal (s.latch.sget i) }
    (fun u => u.modW fun w => w.writePair d (((s.io? (s.ioNum (s.latch.sget i))).map (·.timeline)).getD 0)) s

end Machine
end Sys2Proof
end

