-- ==== Sys2Proof/Machine/Matrix.lean ====
section
/-! DEFINITION. The matrix engine (R251-R281) and its instructions (R436-R446): accumulator runs and the accumulator port, queued loops, the
values of a step, and the Bow's happenings. -/

namespace Sys2Proof
namespace Machine

/-! ## Accumulator runs (R187, R268, R438, R439) -/

/-- The run of the group whose first bank is h. -/
def Group.run? (g : Group) (h : Nat) : Option (Nat × Nat) := g.runs.find? fun p => p.1 == h

/-- The banks in use on a core: those of its groups, and those that an entry of a terminated group still names (R275). -/
def State.banksUsed (s : State) (core : Nat) : List Nat :=
  ((s.allGroups.filter fun g => g.core == core).flatMap fun g => g.runs.flatMap fun p => (List.range p.2).map (p.1 + ·))
    ++ ((s.core core).mq.filter fun e => (s.group? e.gid).isNone).flatMap fun e =>
      (List.range 32).flatMap fun k => if e.isScacc then [e.bank + k, e.src + k] else [e.bank + k]

/-- The lowest aligned run of n free banks. -/
def State.freeRun (s : State) (core n : Nat) : Option Nat :=
  let used := s.banksUsed core
  ((List.range (128 / n)).map (· * n)).find? fun f => (List.range n).all fun k => !used.contains (f + k)

/-- Accumulator banks that a region and its descendants hold (R145). -/
def State.accUsage (s : State) (ctx rcb : Nat) : Nat :=
  (s.allGroups.filter fun g => g.ctx == ctx && g.chain.contains rcb).foldl (fun n g => n + g.runs.foldl (fun k p => k + p.2) 0) 0

/-- Do the budgets of the group's chain allow n more banks (R145)? -/
def State.accAllowed (s : State) (g : Group) (n : Nat) : Bool :=
  g.chain.all fun r => decide (s.accUsage g.ctx r + n ≤ ((s.region g.ctx r).budgets.getLast?.map (·.acc)).getD 0)

/-- The number of banks that the next word of a waiting wave asks for at an `acca`. -/
def State.waitsAcca (s : State) (w : Wave) : Option Nat :=
  match w.waiting, s.pickEntry (s.core (coreOfSlot w.slot)) w with
  | some _, .entry e p _ => (unitAt p e.pc).instrs.findSome? fun i => match i with
    | .acca _ n => some n.toNat
    | _ => none
  | _, _ => none

/-- Is another wave of the core longer at an `acca` whose grant is possible now (R438)? -/
def State.accaBehind (s : State) : Bool :=
  s.allWaves.any fun v => v.uid != s.w.uid && coreOfSlot v.slot == s.c.id && match v.waiting, s.waitsAcca v, s.group? v.gid with
    | some t, some n, some g =>
      (match s.w.waiting with
        | some mine => decide (t < mine) || (t == mine && decide ((subOfSlot v.slot).val < (subOfSlot s.w.slot).val))
        | none => true) && (s.freeRun s.c.id n).isSome && s.accAllowed g n && !v.halted
    | _, _, _ => false

/-- `acca` (R438). -/
def execAcca (d : SReg) (n : BitVec 6) (s : State) : Out1 :=
  let k := n.toNat
  let f := s.freeRun s.c.id k
  word (.acca d n) { accept := f.isSome && s.accAllowed s.g k && !s.accaBehind }
    (fun u => (u.modG fun g => { g with runs := g.runs ++ [(f.getD 0, k)] }).resultS d (BitVec.ofNat 32 (f.getD 0)) .scalar) s

/-- Does a waiting accumulator access name a run? -/
def AccOp.names (o : AccOp) (f n : Nat) : Bool :=
  match o with
  | .zero b _ => decide (f ≤ b) && decide (b < f + n)
  | .read _ _ b _ _ => decide (f ≤ b) && decide (b < f + n)
  | .write b _ _ _ => decide (f ≤ b) && decide (b < f + n)

/-- Does a queued entry of the group name a run? -/
def Core.entryNames (c : Core) (gid f n : Nat) : Bool :=
  c.mq.any fun e => e.gid == gid && ((decide (f ≤ e.bank) && decide (e.bank < f + n)) || (e.isScacc && decide (f ≤ e.src) && decide (e.src < f + n)))

/-- `accf` (R439). -/
def execAccf (h : SReg) (s : State) : Out1 :=
  let f := (s.latch.sget h).toNat
  let run := s.g.run? f
  let n := (run.map (·.2)).getD 0
  word (.accf h)
    { illegal := run.isNone
      accept := !s.c.entryNames s.g.gid f n && !(s.c.accWaits.any fun a => a.gid == s.g.gid && decide (s.tick < a.start) && a.op.names f n) }
    (fun u => u.modG fun g => { g with runs := g.runs.filter fun p => p.1 != f }) s

/-! ## The accumulator port (R267, R269, R439, R441) -/

/-- The word number of word L of segment n of a run (R267). -/
def segWord (first seg L : Nat) : Nat := (first + seg / 16) * 512 + seg % 16 * 32 + L

/-- Take the port: Start. -/
def State.accPort (s : State) : Nat × State :=
  let start := Nat.max (s.tick + s.cycle) s.c.qa
  (start, s.modC fun c => { c with qa := start + s.cycle })

/-- Queue an access at the port. -/
def State.accWait (s : State) (o : AccOp) : State :=
  let p := s.accPort
  p.2.modC fun c => { c with accWaits := c.accWaits ++ [{ start := p.1, gid := s.g.gid, op := o }] }

/-- `accz` (R439). -/
def execAccz (h : SReg) (s : State) : Out1 :=
  let f := (s.latch.sget h).toNat
  word (.accz h) { illegal := (s.g.run? f).isNone }
    (fun u => u.accWait (.zero f (((s.g.run? f).map (·.2)).getD 0))) s

/-- Does the segment lie in a run of the group (R441)? -/
def State.segIllegal (s : State) (f n : Nat) : Bool :=
  match s.g.run? f with
  | some p => decide (16 * p.2 ≤ n)
  | none => true

/-- `accr` (R441). -/
def execAccr (d : VOp) (h n : SReg) (t : TOp) (s : State) : Out1 :=
  let f := (s.latch.sget h).toNat
  let k := (s.latch.sget n).toNat
  let act := s.cur.active
  word (.accr d h n t) { illegal := s.segIllegal f k }
    (fun u =>
      let start := u.accPort.1
      let promise := start + 16 * u.cycle
      let u := u.modW fun w => w.toG s.latch act d 0
      let a := { u.newAccess (.accr d h n t) .accr act (some d) 1 (some t) with at_ := some promise }
      let u := (u.addAccess a).modW fun w => w.claimTime a.id a.treg act fun _ => BitVec.ofNat 64 promise
      u.accWait (.read u.w.uid a.id (f + k / 16) (k % 16) act)) s

/-- `accw` (R441). -/
def execAccw (a : VOp) (h n : SReg) (s : State) : Out1 :=
  let f := (s.latch.sget h).toNat
  let k := (s.latch.sget n).toNat
  word (.accw a h n) { illegal := s.segIllegal f k }
    (fun u => u.accWait (.write (f + k / 16) (k % 16) s.cur.active (Vector.ofFn fun L => readV s.latch a L))) s

/-- Zero the accumulator words of banks. -/
def wordsZero (l : List (Nat × Word)) (first n : Nat) : List (Nat × Word) :=
  l.filter fun p => !(decide (first ≤ p.1) && decide (p.1 < first + n))

/-- Serve one access of the port (DEDUCED, log 106). -/
def State.serveAcc (s : State) (core : Nat) (a : AccWait) : State :=
  match a.op with
  | .zero b n => s.modCore core fun c => { c with acc := wordsZero c.acc (b * 512) (n * 512) }
  | .write b k lanes vals =>
    s.modCore core fun c => { c with acc := (lanesOf lanes).foldl (fun l L => wordsSet l (segWord b k L.val) vals[L]) c.acc }
  | .read uid acc b k lanes =>
    let c := s.core core
    s.modWave uid fun w => w.modAcc acc fun x => (lanesOf lanes).foldl (fun (x : Access) L =>
      x.deposit L 0 (wordsGet c.acc (segWord b k L.val)).toNat false) x

/-! ## Descriptors (R271, R272) -/

/-- A field of 20 bits in two's complement. -/
def int20 (n : Nat) : Int := (BitVec.ofNat 20 n).toInt

/-- A matrix descriptor. -/
structure MxDesc where
  abase : Nat
  bbase : Nat
  sabase : Nat
  sbbase : Nat
  astride : Nat
  bstride : Nat
  ainc : Int
  binc : Int
  sainc : Int
  sbinc : Int
  gather : Bool
  init : Bool
  gix : Nat                          -- offset of the index vector
  bad : Bool
  badScales : Bool                   -- of the fields that an unscaled loop ignores (R272)

def readMx (b : List Byte) : MxDesc :=
  let f := bitsOf b
  { abase := f 0 20, bbase := f 32 20, sabase := f 64 20, sbbase := f 96 20, astride := f 128 16, bstride := f 144 16
    ainc := int20 (f 160 20), binc := int20 (f 192 20), sainc := int20 (f 224 20), sbinc := int20 (f 256 20)
    gather := f 288 1 == 1, init := f 289 1 == 1, gix := f 304 16 * 16
    bad := f 20 12 != 0 || f 52 12 != 0 || f 84 12 != 0 || f 116 12 != 0 || f 180 12 != 0 || f 212 12 != 0 || f 244 12 != 0 || f 276 12 != 0
      || f 290 14 != 0 || f 320 192 != 0 || f 0 20 % 8 != 0 || f 32 20 % 8 != 0 || f 128 16 % 8 != 0 || f 144 16 % 8 != 0
      || f 160 20 % 8 != 0 || f 192 20 % 8 != 0
    badScales := f 64 20 % 4 != 0 || f 96 20 % 4 != 0 || f 224 20 % 4 != 0 || f 256 20 % 4 != 0 }

/-- Residue-path formats, and the pairings of R257. -/
def MxFmt.residue : MxFmt → Bool
  | .e2m1 => true
  | .e2m3 => true
  | .i8 => true
  | .i4 => true
  | .e4m3 => false
  | .e5m2 => false
  | .e3m2 => false
  | .bf16 => false

def pairs (a b : MxFmt) : Bool := MxFmt.residue a == MxFmt.residue b && (a == .bf16) == (b == .bf16)

/-- Ticks of a step (R255). -/
def stepTicks (a : MxFmt) : Nat := if MxFmt.residue a then 4 else if a = .bf16 then 16 else 8

/-- Bits of an element. -/
def MxFmt.bits : MxFmt → Nat
  | .e2m1 => 4
  | .e2m3 => 6
  | .i8 => 8
  | .i4 => 4
  | .e4m3 => 8
  | .e5m2 => 8
  | .e3m2 => 6
  | .bf16 => 16

/-! ## The values of a step (R251-R262) -/

/-- A byte of the scratchpad at an offset that may be negative (R256). -/
def Group.byteAt (g : Group) (o : Int) : Nat := if o < 0 then 0 else (g.padByte o.toNat).toNat

/-- The 32 elements from an offset: an element that reaches outside the allocation reads 0. -/
def Group.elems (g : Group) (fm : MxFmt) (o : Int) : List Nat :=
  let w := MxFmt.bits fm
  let all := (List.range (4 * w)).foldl (fun (v : Nat) (k : Nat) => v + g.byteAt (o + (k : Int)) * 256 ^ k) 0
  (List.range 32).map fun k =>
    let first := o + (w * k / 8 : Nat)
    let last := o + ((w * k + w - 1) / 8 : Nat)
    if first < 0 ∨ (g.scratch : Int) ≤ last then 0 else all / 2 ^ (w * k) % 2 ^ w

/-- q of an element of the residue path, and the exponent of its unit: the unit is 2 to the minus that (R251). -/
def residueOf (fm : MxFmt) (v : Nat) : Int :=
  let fixed (f : FloatFmt) (unit : Int) : Int :=
    match f.decode v with
    | .fin neg m e => sgn neg m * (2 : Int) ^ (e + unit).toNat
    | .inf _ => 0
    | .nan => 0
  match fm with
  | .e2m1 => fixed fmtE2M1 1
  | .e2m3 => fixed fmtE2M3 3
  | .i8 => intOf true 8 v
  | .i4 => intOf true 4 v
  | .e4m3 => 0
  | .e5m2 => 0
  | .e3m2 => 0
  | .bf16 => 0

def unitExp : MxFmt → Nat
  | .e2m1 => 1
  | .e2m3 => 3
  | .i8 => 0
  | .i4 => 0
  | .e4m3 => 0
  | .e5m2 => 0
  | .e3m2 => 0
  | .bf16 => 0

/-- The value of an element of the float path. -/
def floatOf (fm : MxFmt) (v : Nat) : Num :=
  match fm with
  | .e4m3 => fmtE4M3.decode v
  | .e5m2 => fmtE5M2.decode v
  | .e3m2 => fmtE3M2.decode v
  | .bf16 => fmtBF16.decode v
  | .e2m1 => fmtE2M1.decode v
  | .e2m3 => fmtE2M3.decode v
  | .i8 => numOfInt (intOf true 8 v) 0 false
  | .i4 => numOfInt (intOf true 4 v) 0 false

/-- The block value on the residue path (R258). -/
def residueBlock (fa fb : MxFmt) (a b : List Nat) : Nat :=
  let p := ((a.zip b).map fun q => residueOf fa q.1 * residueOf fb q.2).foldl (· + ·) 0
  fmtF32.arith .rne (numOfInt p (-((unitExp fa + unitExp fb : Nat) : Int)) false)

/-- floor(log2) of a finite number that is not 0. -/
def topBit (m : Nat) (e : Int) : Int := (bitLen m : Int) - 1 + e

/-- A number truncated toward zero on the grid 2^g, in units of it. -/
def truncTo (neg : Bool) (m : Nat) (e g : Int) : Int :=
  let v : Nat := if g ≤ e then m * 2 ^ (e - g).toNat else m / 2 ^ (g - e).toNat
  sgn neg v

/-- FloatBlock (R259), of the products. -/
def floatBlock (ps : List Num) : Nat :=
  let nans := ps.any fun p => p == .nan
  let pos := ps.any fun p => p == .inf false
  let neg := ps.any fun p => p == .inf true
  if nans || (pos && neg) then 0x7FC00000
  else if pos then fmtF32.infBits
  else if neg then fmtF32.signed true fmtF32.infBits
  else
    let tops := ps.filterMap fun p => match p with
      | .fin _ m e => if m = 0 then none else some (topBit m e)
      | .inf _ => none
      | .nan => none
    match tops with
    | [] => 0
    | t :: rest =>
      let g := rest.foldl max t - 47
      let sum := (ps.map fun p => match p with
        | .fin n m e => truncTo n m e g
        | .inf _ => 0
        | .nan => 0).foldl (· + ·) 0
      fmtF32.arith .rne (numOfInt sum g false)

/-- The block value X of two rows of elements. -/
def blockValue (fa fb : MxFmt) (a b : List Nat) : Nat :=
  if MxFmt.residue fa then residueBlock fa fb a b
  else floatBlock ((a.zip b).map fun q => Num.mul (floatOf fa q.1) (floatOf fb q.2))

/-- A number times 2^k. -/
def Num.scale (x : Num) (k : Int) : Num :=
  match x with
  | .nan => .nan
  | .inf neg => .inf neg
  | .fin neg m e => .fin neg m (e + k)

/-- The update of a C element (R261). -/
def updateC (sf : Option ScFmt) (x sa sb old : Nat) : Nat :=
  match sf with
  | none => fmtF32.fadd .rne old x
  | some .e8m0 =>
    if sa = 0xFF ∨ sb = 0xFF then 0x7FC00000
    else fmtF32.arith .rne (Num.add .rne (fmtF32.decode old) (Num.scale (fmtF32.decode x) ((sa : Int) + sb - 254)))
  | some .f32 => fmtF32.fadd .rne old (fmtF32.fmul .rne (fmtF32.fmul .rne x sa) sb)

/-- w of R260. -/
def ScFmt.width : ScFmt → Nat
  | .e8m0 => 1
  | .f32 => 4

/-- A scale: one that reaches outside the allocation reads 0. -/
def Group.scaleAt (g : Group) (sf : Option ScFmt) (o : Int) : Nat :=
  match sf with
  | none => 0
  | some f =>
    let w := ScFmt.width f
    if o < 0 ∨ (g.scratch : Int) < o + w then 0 else natOfBytes ((List.range w).map fun k => g.padByte (o.toNat + k))

/-- The word number of C[i][j] (R267). -/
def tileWord (first i j : Nat) : Nat := (first + i / 4) * 512 + i % 4 * 128 + j

/-- The index vector at an offset: 128 numbers of 16 bits. -/
def Group.indexVec (g : Group) (o : Nat) : List Nat := (List.range 128).map fun i => g.padNat (o + 2 * i) 2

/-- Update every element of a tile: `x i j` the block values, `sa i` and `sb j` the scales. -/
def updateTile (acc : List (Nat × Word)) (bank : Nat) (sf : Option ScFmt) (x : Nat → Nat → Nat) (sa sb : Nat → Nat) :
    List (Nat × Word) :=
  (List.range 128).foldl (fun acc i => (List.range 128).foldl (fun (acc : List (Nat × Word)) j =>
    let k := tileWord bank i j
    wordsSet acc k (BitVec.ofNat 32 (updateC sf (x i j) (sa i) (sb j) (wordsGet acc k).toNat))) acc) acc

/-- The scratchpad that a step's fetch read (R279) (DEDUCED, log 40). -/
def MxEntry.fetched (e : MxEntry) : Group := { pad := e.snap, scratch := e.room }

/-- A step of an entry (R256-R262), on the operands that its fetch read. -/
def stepAcc (e : MxEntry) (acc : List (Nat × Word)) : List (Nat × Word) :=
  let g := e.fetched
  if e.isScacc then
    let w := (e.scales.map ScFmt.width).getD 0
    updateTile acc e.bank e.scales (fun i j => (wordsGet acc (tileWord e.src i j)).toNat)
      (fun i => g.scaleAt e.scales (e.so + i * w : Nat)) (fun j => g.scaleAt e.scales (e.so + 128 * w + j * w : Nat))
  else
    let d := readMx e.desc
    let s : Int := e.done
    let w := (e.scales.map ScFmt.width).getD 0
    let row (i : Nat) : Int := if d.gather then (e.rows.getD i 0 : Nat) else (i : Int)
    let as_ := (List.range 128).map fun (i : Nat) => g.elems e.fa ((d.abase : Int) + s * d.ainc + row i * d.astride)
    let bs := (List.range 128).map fun (j : Nat) => g.elems e.fb ((d.bbase : Int) + s * d.binc + (j : Int) * d.bstride)
    updateTile acc e.bank e.scales (fun i j => blockValue e.fa e.fb (as_.getD i []) (bs.getD j []))
      (fun i => g.scaleAt e.scales ((d.sabase : Int) + s * d.sainc + row i * w))
      (fun j => g.scaleAt e.scales ((d.sbbase : Int) + s * d.sbinc + (j : Int) * w))

/-! ## Fetch times (R266) -/

/-- The 16-byte words that n bytes from an offset name. -/
def wordsAt (o : Int) (n : Nat) : List Int := (List.range ((n + 30) / 16)).filterMap fun (k : Nat) =>
  let w := o / 16 + (k : Int)
  if w * 16 < o + n then some w else none

/-- F(s): the largest number of distinct words in one bank. -/
def fetchTicks (g : Group) (cached : Bool) (e : MxEntry) (s : Nat) (rows : List Nat) : Nat :=
  let w := (e.scales.map ScFmt.width).getD 0
  let words : List Int :=
    if e.isScacc then
      wordsAt e.so (256 * w)
    else
      let d := readMx e.desc
      let row (i : Nat) : Int := if d.gather then (rows.getD i 0 : Nat) else (i : Int)
      (List.range 128).flatMap (fun i =>
        wordsAt ((d.abase : Int) + s * d.ainc + row i * d.astride) (4 * MxFmt.bits e.fa)
          ++ wordsAt ((d.bbase : Int) + s * d.binc + (i : Int) * d.bstride) (4 * MxFmt.bits e.fb)
          ++ (if w = 0 then [] else wordsAt ((d.sabase : Int) + s * d.sainc + row i * w) w ++ wordsAt ((d.sbbase : Int) + s * d.sbinc + (i : Int) * w) w))
        ++ (if d.gather && !cached then wordsAt d.gix 256 else [])
  let distinct := words.dedup
  let _ := g
  (List.range 128).foldl (fun m (b : Nat) => Nat.max m (distinct.countP fun x => x % 128 == (b : Int))) 0

/-- Is the index vector of an entry in the gather cache (R265)? -/
def Core.cachedVec (c : Core) (g : Group) (off : Nat) : Bool :=
  g.gathered.contains off && c.gather.any fun v => v.gid == g.gid && v.off == off

/-! ## The Bow (R273-R280) -/

/-- Do the engines of a partition run narrow (R134, R135)? (DEDUCED, log 46) -/
def State.narrowFor (s : State) (p : Nat) : Bool := (s.power.alarm || (s.power.auto && s.power.exceeded)) && !s.power.exempt.getLsbD p

/-- Change the head entry. -/
def Core.modHead (c : Core) (f : MxEntry → MxEntry) : Core :=
  match c.mq with
  | e :: rest => { c with mq := f e :: rest }
  | [] => c

/-- Begin the fetch of the head entry, or go idle. The index vector and the operands are read as they stand now (R265, R279). -/
def State.bowFetch (s : State) (core : Nat) : State :=
  let c := s.core core
  match c.mq with
  | [] => s.modCore core fun c => { c with bow := { state := .idle, idleSince := s.tick } }
  | e :: _ =>
    match s.group? e.gid with
    | none => s
    | some g =>
      let off := (readMx e.desc).gix
      let rows := g.indexVec off
      let f := if e.steps = 0 && !e.isScacc then fetchTicks g (c.cachedVec g off) e 0 rows else fetchTicks g (c.cachedVec g off) e e.done rows
      s.modCore core fun c => (c.modHead fun e => { e with rows := rows, snap := (g.engineView s.tick).pad, room := g.scratch }) |> fun c =>
        { c with bow := { c.bow with state := .fetch, leave := s.tick + f * s.cycle, gated := false, narrow := false } }

/-- Begin a step: it lasts its ticks or the next step's fetch, whichever is longer; the next step's index vector and operands are read now (R265,
R279) (DEDUCED, log 40) (DESIGN CHOICE, log 136). -/
def State.bowStep (s : State) (core : Nat) : State :=
  let c := s.core core
  match c.mq with
  | [] => s
  | e :: _ =>
    match s.group? e.gid with
    | none => s
    | some g =>
      let off := (readMx e.desc).gix
      let next := g.indexVec off
      let narrow := s.narrowFor (s.partOf g.ctx)
      let ticks := (if e.isScacc then 16 else stepTicks e.fa) * (if narrow then 2 else 1)
      let last := e.isScacc || decide (e.steps ≤ e.done + 1)
      let d := if last then ticks else Nat.max ticks (fetchTicks g (c.cachedVec g off) e (e.done + 1) next)
      s.modCore core fun c => (c.modHead fun e => { e with nextRows := next, nextSnap := (g.engineView s.tick).pad }) |> fun c =>
        { c with bow := { c.bow with state := .step, leave := s.tick + d * s.cycle, narrow := narrow } }

/-- An entry enters the queue: an idle Bow has it at the head one core cycle later, and starts; a gated one wakes (R133, R274) (DEDUCED, log 105). -/
def State.bowArrive (s : State) (core : Nat) : State :=
  let c := s.core core
  match c.bow.state with
  | .idle =>
    if c.bow.gated then s.modCore core fun c => { c with bow := { c.bow with state := .wake, leave := s.tick + (1 + Config.mxWake) * s.cycle } }
    else (s.bowFetch core).modCore core fun c => { c with bow := { c.bow with leave := c.bow.leave + s.cycle } }
  | _ => s

/-- Does the Bow stand in a state whose end is reached? -/
def State.bowAt (s : State) (core : Nat) (st : BowState) : Bool :=
  let b := (s.core core).bow
  b.state == st && decide (b.leave ≤ s.tick) && s.tick % s.cycle == 0

/-- Is it a read? -/
def AccOp.isRead (o : AccOp) : Bool :=
  match o with
  | .zero _ _ => false
  | .read _ _ _ _ _ => true
  | .write _ _ _ _ => false

/-- ACCUMULATOR_ACCESS: the accesses whose Start is reached are served, in order. In the tick of a step's results an `accr` comes before them, an
`accz` or `accw` after them (R269, R281) (DEDUCED, log 106). -/
def execAccumulatorAccess (core : Nat) (s : State) : Out1 :=
  let c := s.core core
  let now (a : AccWait) : Bool := decide (a.start < s.tick) || (a.start == s.tick && (a.op.isRead || !s.bowAt core .step))
  let t := (c.accWaits.filter now).foldl (fun (s : State) a => s.serveAcc core a) s
  .next (t.modCore core fun c => { c with accWaits := c.accWaits.filter fun a => !now a })

/-- BOW_WAKE_END. -/
def execBowWakeEnd (core : Nat) (s : State) : Out1 := .next (if s.bowAt core .wake && !s.power.busy then s.bowFetch core else s)

/-- BOW_FETCH_END: the first step starts, after C has become +0 where init asks for it (R261); an entry of no step drains. A step does not start
while a power-state transition waits for its boundary (R278). -/
def execBowFetchEnd (core : Nat) (s : State) : Out1 :=
  if s.bowAt core .fetch && !s.power.busy then
    match (s.core core).mq with
    | [] => .next s
    | e :: _ =>
      if e.steps = 0 && !e.isScacc then .next (s.modCore core fun c => { c with bow := { c.bow with state := .drain, leave := s.tick + 6 * s.cycle } })
      else
        let s := if e.init && e.done == 0 then s.modCore core fun c => { c with acc := wordsZero c.acc (e.bank * 512) (32 * 512) } else s
        .next (s.bowStep core)
  else .next s

/-- BOW_STEP_END (R274, R275): the step's results are in C, after an `accr` of this tick (R281); then the next step, a stop, or the drain. While a
power-state transition waits, the next step stands fetched at its boundary (R278). -/
def execBowStepEnd (core : Nat) (s : State) : Out1 :=
  if s.bowAt core .step && !((s.core core).accWaits.any fun a => decide (a.start < s.tick) || (a.start == s.tick && a.op.isRead)) then
    match (s.core core).mq with
    | [] => .next s
    | e :: _ =>
      let s := s.modCore core fun c => ({ c with acc := stepAcc e c.acc }).modHead fun e =>
        { e with done := e.done + 1, rows := e.nextRows, snap := e.nextSnap }
      if e.isScacc || decide (e.steps ≤ e.done + 1) then
        .next (s.modCore core fun c => { c with bow := { c.bow with state := .drain, leave := s.tick + 6 * s.cycle, narrow := false, stopFor := none } })
      else if (s.core core).bow.stopFor = some e.gid then
        .next (s.modCore core fun c => { c with bow := { c.bow with state := .stop, leave := s.tick + 2 * s.cycle, narrow := false } })
      else if s.power.busy then .next (s.modCore core fun c => { c with bow := { c.bow with state := .fetch, leave := s.tick, narrow := false } })
      else .next (s.bowStep core)
  else .next s

/-- BOW_DRAIN_END: the tag falls, the next entry is fetched (R273, R274). -/
def execBowDrainEnd (core : Nat) (s : State) : Out1 :=
  if s.bowAt core .drain then
    match (s.core core).mq with
    | [] => .next s
    | e :: _ =>
      let s := s.modCore core fun c => { c with mq := c.mq.drop 1 }
      .next ((s.bowFetch core).modTag e.gid e.tag (· - 1))
  else .next s

/-- A group's entries leave the queue whole, in queue order, for its save (R275) (DEDUCED, log 88). -/
def State.takeLoops (s : State) (core gid : Nat) : State :=
  let mine := (s.core core).mq.filter fun e => e.gid == gid
  let s := s.modGroup gid fun g => { g with loops := g.loops ++ mine }
  s.modCore core fun c => { c with mq := c.mq.filter fun e => e.gid != gid }

/-- BOW_STOP_END: the stopped entry is recorded or discarded, and the next one is fetched (R275). -/
def execBowStopEnd (core : Nat) (s : State) : Out1 :=
  if s.bowAt core .stop then
    let s := match (s.core core).bow.stopFor with
      | some gid => s.takeLoops core gid
      | none => s
    .next ((s.modCore core fun c => { c with bow := { c.bow with stopFor := none } }).bowFetch core)
  else .next s

/-- Ask the Bow to stop a group's entry: a fetch stops at once, with no step performed (R281), a step at its end (R275) (DEDUCED, log 87). -/
def Bow.stopAsked (b : Bow) (gid tick cycle : Nat) : Bow :=
  match b.state with
  | .fetch => { b with state := .stop, leave := tick + 2 * cycle, stopFor := some gid }
  | _ => { b with stopFor := some gid }

/-- Take a group's matrix entries from the queue, or ask the Bow to stop the one it works on (R275) (DEDUCED, log 88). -/
def State.stopLoops (s : State) (g : Group) : State :=
  let c := s.core g.core
  match c.mq with
  | [] => s
  | e :: rest =>
    if e.gid ≠ g.gid ∨ c.bow.state.busy = false ∨ (c.bow.state = .stop ∧ c.bow.stopFor ≠ some g.gid) then s.takeLoops g.core g.gid
    else match c.bow.state with
      | .drain =>
        (s.modGroup g.gid fun g => { g with loops := g.loops ++ rest.filter fun (m : MxEntry) => m.gid == g.gid }).modCore g.core fun c =>
          { c with mq := e :: rest.filter fun (m : MxEntry) => m.gid != g.gid }
      | .stop => s
      | _ => s.modCore g.core fun c => { c with bow := c.bow.stopAsked g.gid s.tick s.cycle }

/-- MATRIX_GATE (R133, R280): an engine idle for thr ticks of a working state is gated (DEDUCED, log 82). -/
def execMatrixGate (core : Nat) (s : State) : Out1 :=
  let b := (s.core core).bow
  if s.power.cur.toNat ≤ 1 ∧ s.power.held = false ∧ b.state = .idle ∧ b.gated = false ∧ s.power.mxgate ≠ 0 ∧ s.power.mxgate.toNat ≤ s.tick - Nat.max b.idleSince s.power.since then
    .next (s.modCore core fun c => { c with bow := { c.bow with gated := true } })
  else .next s

/-! ## The instructions -/

/-- The checks that `mma`, `mloop` and `scacc` share; `illegal` their own (R272, R273, R283). They are made when the wait for tick Q is over. -/
def State.mxChecks (s : State) (illegal : Bool) (tag : Fin 64) (bank : Nat) : Checks :=
  { illegal := decide (s.cur.q ≤ s.tick) && (illegal || s.tagIllegal tag || (s.g.run? bank).map (·.2) != some 32)
    accept := decide (s.cur.q ≤ s.tick) && decide (s.c.mq.length < Config.matrixQueue) && s.tagRoom tag 1 }

/-- Append an entry: its tag's count rises (DEDUCED, log 105). -/
def State.enqueue (s : State) (e : MxEntry) : State :=
  ((s.modC fun c => { c with mq := c.mq ++ [e] }).modTag s.g.gid e.tag (· + 1)).bowArrive s.c.id

/-- The descriptor at an offset. -/
def Group.descAt (g : Group) (o : Nat) : List Byte := (List.range 64).map fun k => g.padByte (o + k)

/-- A loop of n steps (R444). -/
def runLoop (i : Instr) (fa fb : MxFmt) (sf : Option ScFmt) (c : SReg) (n : Nat) (d : SReg) (tag : Fin 64) (s : State) : Out1 :=
  let o := (s.latch.sget d).toNat
  let bank := (s.latch.sget c).toNat
  let desc := s.g.descAt o
  word i (s.mxChecks ((readMx desc).bad || (sf.isSome && (readMx desc).badScales) || o % 16 != 0 || decide (16777215 < n) || !pairs fa fb) tag bank)
    (fun u => ((u.wavePort 1).2).enqueue
      { gid := s.g.gid, desc := desc, fa := fa, fb := fb, scales := sf, steps := n, bank := bank, tag := tag.val, init := (readMx desc).init }) s

/-- `mma` (R444). -/
def execMma (fa fb : MxFmt) (c d : SReg) (tag : Fin 64) (s : State) : Out1 := runLoop (.mma fa fb c d tag) fa fb none c 1 d tag s

/-- `mloop` (R444). -/
def execMloop (fa fb : MxFmt) (c n d : SReg) (tag : Fin 64) (s : State) : Out1 :=
  runLoop (.mloop fa fb c n d tag) fa fb none c (s.latch.sget n).toNat d tag s

/-- `mloop.sc` (R444). -/
def execMloopSc (fa fb : MxFmt) (sf : ScFmt) (c n d : SReg) (tag : Fin 64) (s : State) : Out1 :=
  runLoop (.mloopSc fa fb sf c n d tag) fa fb (some sf) c (s.latch.sget n).toNat d tag s

/-- `scacc` (R262, R446). -/
def execScacc (sf : ScFmt) (c p so : SReg) (tag : Fin 64) (s : State) : Out1 :=
  let bank := (s.latch.sget c).toNat
  let src := (s.latch.sget p).toNat
  let o := (s.latch.sget so).toNat
  word (.scacc sf c p so tag) (s.mxChecks ((s.g.run? src).map (·.2) != some 32 || o % ScFmt.width sf != 0) tag bank)
    (fun u => u.enqueue { gid := s.g.gid, scales := some sf, steps := 1, bank := bank, tag := tag.val, isScacc := true, src := src, so := o }) s

/-- Read a block into the gather cache, first in, first out; entries that a write has touched have left it (R265), and a store of this tick
comes after the reading (R281). -/
def State.gatherBlock (s : State) (o : Nat) : State :=
  let kept := s.c.gather.filter fun v => (s.group? v.gid).any (fun g => g.gathered.contains v.off) && !(v.gid == s.g.gid && v.off == o)
  (s.modC fun (c : Core) => { c with gather := (kept ++ [({ gid := s.g.gid, off := o } : GatherVec)]).drop (kept.length - 7) }).modG fun g =>
    let stored := g.fresh.1 == s.tick && g.fresh.2.any fun c => decide (o ≤ c.1) && decide (c.1 < o + 256)
    { g with gathered := (if stored then [] else [o]) ++ g.gathered.filter (· != o) }

/-- `mgix` (R265, R442). -/
def execMgix (a : SReg) (s : State) : Out1 :=
  let o := (s.latch.sget a).toNat
  word (.mgix a) { illegal := o % 16 ≠ 0 } (fun u => if o + 256 ≤ s.g.scratch then u.gatherBlock o else u) s

end Machine
end Sys2Proof
end

