-- ==== Sys2Proof/Machine/System.lean ====
section
/-! DEFINITION. The system registers that `sysr` and `sysw` name (R26, R190, R204, R449-R452). -/

namespace Sys2Proof
namespace Machine

/-- CAP_BOUND_L1 (R451). -/
def State.capL1Reg (s : State) : Nat := s.cycle * 256 + 27 * s.cycle

/-- The value of a system register of the wave at issue; WSTAT and MXPOWER as the tick found them (R449), PRIVLIM (R190) at number 3 (DEDUCED, log 46)
(DEDUCED, log 47). -/
def State.sysValue (s : State) (n : Nat) : Nat :=
  let w := s.w
  let g := s.g
  match n with
  | 0 => w.seen.late.toNat + 2 * w.seen.cancel.toNat + 2 ^ 48 * w.seen.latecount.toNat
  | 1 => w.nregs + 2 ^ 9 * w.wide + 2 ^ 18 * g.waves + 2 ^ 24 * w.index + 2 ^ 29 * w.task.toNat
  | 2 => if g.tags.isEmpty then 0 else g.tagFirst + 2 ^ 6 * g.tags.length
  | 3 => w.segbase.toNat / 128 + 2 ^ 50 * w.limit
  | 4 => s.bartoNow w.ctx g.rcb.toNat
  | 5 => w.ctx + 2 ^ 12 * s.x.part
  | 6 => let o := (octOfCore (coreOfSlot w.slot)).val; o + o / 4 * 8
  | 7 =>
    let c := coreOfSlot w.slot
    w.slot % 16 + 2 ^ 4 * (subOfSlot w.slot).val + 2 ^ 6 * (c % 40) + 2 ^ 12 * (octOfCore c).val + 2 ^ 15 * c
  | 8 => s.x.handler.toNat * 16
  | 9 => s.c.bow.was.1.toNat + 2 * s.c.bow.was.2.toNat
  | 0x10 => Config.mxWake * s.cycle
  | 0x11 => s.capL1Reg
  | 0x12 => s.capL2 s.x.part
  | 0x13 => s.capL3 s.x.part
  | 0x14 => s.capHbm s.x.part
  | 0x15 => s.capHold
  | _ => 0

/-- `sysr` (R449-R451): the value as it stands at the issue tick. -/
def execSysr (d : SPair) (n : BitVec 12) (s : State) : Out1 :=
  word (.sysr d n) {} (fun u => u.resultPair d (BitVec.ofNat 64 (s.sysValue n.toNat)) .system) s

/-- `sysw` (R452): only WSTAT can be written; the notices and cancellations of the tick come after the write. -/
def execSysw (a : SPair) (n : BitVec 12) (s : State) : Out1 :=
  let v := s.latch.pair a
  word (.sysw a n) {}
    (fun u => u.modW fun w =>
      { w with latecount := BitVec.ofNat 16 (Nat.min 65535 ((v.extractLsb' 48 16).toNat + w.news))
               late := (w.late && !v.getLsbD 0) || w.news != 0, cancel := (w.cancel && !v.getLsbD 1) || w.newCancel }) s

end Machine
end Sys2Proof
end

