-- ==== Sys2Proof/Machine/Replay.lean ====
section
/-! DEFINITION. Held words (R168, R212, R325-R330): the end of a translation, page requests and their answers, the reissue of a held word,
and instruction fetches (R383, R458). -/

namespace Sys2Proof
namespace Machine

/-! ## Bringing translations into the TLBs (R323, R324) -/

/-- Put a translation into a list of at most `n`, the oldest leaving (its order is not architectural, R324) (DESIGN CHOICE, log 38). -/
def putTlb (l : List Tlb) (e : Tlb) (n : Nat) : List Tlb :=
  let kept := l.filter fun (x : Tlb) => !(x.ctx == e.ctx && x.base == e.base)
  kept.drop (kept.length + 1 - n) ++ [e]

/-- Does a cached table pointer stand for the table of its level that an address of a context uses? -/
def Pwc.covers (p : Pwc) (ctx va : Nat) : Bool := p.ctx == ctx && p.base == va / 2 ^ levelBit (p.level + 1) * 2 ^ levelBit (p.level + 1)

/-- Where a walk of an address begins: at the lowest table that the page-walk cache of the die holds, or at the root; none when the context is not
live (R324). -/
def State.walkStart (s : State) (o : Oct) (ctx va : Nat) : Option (Nat × Nat) :=
  (s.ctx? ctx).map fun x =>
    (s.octs[o].pwc.filter fun (p : Pwc) => p.covers ctx va).foldl
      (fun (b : Nat × Nat) p => if p.level < b.1 then (p.level, p.table) else b) (4, x.ptroot.toNat * 4096)

/-- The page-walk cache keeps the table pointers that a walk passed, at most 1,024, the oldest leaving (R324) (DESIGN CHOICE, log 38). -/
def putPwc (l : List Pwc) (ctx va : Nat) (path : List (Nat × Nat)) : List Pwc :=
  let new := path.map fun p => ({ ctx := ctx, base := va / 2 ^ levelBit (p.1 + 1) * 2 ^ levelBit (p.1 + 1), level := p.1, table := p.2 } : Pwc)
  let all := (l.filter fun (x : Pwc) => !(new.any fun y => y.ctx == x.ctx && y.base == x.base && y.level == x.level)) ++ new
  all.drop (all.length - Config.walkCache)

/-- The leaf for an address: from the core's TLB, its die's, or a walk, which starts in the page-walk cache; the TLBs keep the leaf, and the
page-walk cache the pointers passed (R324). Answers whether it allows the access, and whether the walk met a malformed entry. -/
def State.tlbLoad (s : State) (need : Need) (va : Nat) : (Bool × Bool) × State :=
  let ctx := s.w.ctx
  let o := octOfCore s.c.id
  match s.c.tlbFind ctx va with
  | some e => ((e.allows need, false), s)
  | none =>
    match s.octs[o].tlb2.find? fun (e : Tlb) => e.ctx == ctx && decide (e.base ≤ va) && decide (va < e.base + e.size) with
    | some e => ((e.allows need, false), s.modC fun c => { c with tlb := putTlb c.tlb e Config.l1Tlb })
    | none =>
      match s.walkStart o ctx va with
      | none => ((false, false), s)
      | some (level, table) =>
      let s' := s.modOct o fun x => { x with pwc := putPwc x.pwc ctx va (walkPath s.mem va level table) }
      match walkFrom s.mem ctx va level table with
      | .absent bad => ((false, bad), s')
      | .leaf e =>
        ((e.allows need, false),
          (s'.modC fun c => { c with tlb := putTlb c.tlb e Config.l1Tlb }).modOct o fun x => { x with tlb2 := putTlb x.tlb2 e Config.l2Tlb })

/-- The same for several addresses; answers the granules that are not present for their kind of access. -/
def State.tlbLoads (s : State) (vas : List (Need × Nat)) : List ((Need × Nat) × Bool) × State :=
  ((vas.map fun v => (v.1, v.2 / 65536)).dedup).foldl (fun (p : List ((Need × Nat) × Bool) × State) g =>
    let r := p.2.tlbLoad g.1 (g.2 * 65536)
    (if r.1.1 then p.1 else p.1 ++ [(g, r.1.2)], r.2)) ([], s)

/-! ## Page requests (R325, R327) -/

/-- Announce a page-request entry in the notification ring (R327). -/
def State.announce (s : State) (index : Nat) : State :=
  let x := s.xlate
  let used := (x.prqHead + 4096 - x.prqTail) % 4096
  if used = 2048 then { s with xlate := { x with prqLost := if x.prqLost = BitVec.allOnes 16 then x.prqLost else x.prqLost + 1 } }
  else
    let n := x.prqHead % 2048
    let s := { s with xlate := { x with notify := (x.notify.filter fun p => p.1 != n) ++ [(n, BitVec.ofNat 32 index)], prqHead := (x.prqHead + 1) % 4096 } }
    if used = 0 then s.raiseBoth 2045 else s

/-- A page request: it joins an entry or takes one; none when it must wait. -/
def State.askPage (s : State) (ctx part core va : Nat) (need : Need) (bad : Bool) : Option Nat × State :=
  let l := s.xlate.prq
  match l.find? fun (p : Prq) => p.ctx == ctx && p.va.toNat / 65536 == va / 65536 && p.need == need with
  | some p =>
    (some p.index, { s with xlate := { s.xlate with prq := l.map fun (q : Prq) => if q.index = p.index then { q with waiters := Nat.min 65535 (q.waiters + 1) } else q } })
  | none =>
    let free (i : Nat) : Bool := !(l.any fun (p : Prq) => p.index == i)
    let i := match (List.range 1024).find? free with
      | some i => some i
      | none => ((List.range 32).map fun k => 1024 + 32 * part + k).find? free
    match i with
    | none => (none, s)
    | some i =>
      let p : Prq := { index := i, va := BitVec.ofNat 57 va, ctx := ctx, part := part, need := need, bad := bad, core := core, tick := s.tick, waiters := 1 }
      (some i, ({ s with xlate := { s.xlate with prq := l ++ [p] } }).announce i)

/-! ## What a held word still has to do -/

/-- A held word: are its lanes performed only together, what does it need of its pages, which addresses does each lane need, can its unit
take it now, and how are lanes performed that translate. -/
structure HeldWord where
  whole : Bool := false
  vas : Lane → List (Need × Nat)
  ready : State → Bool := fun _ => true
  run : State → Mask → State

def Held.ofLoad (h : Held) (lw : LoadWord) : HeldWord :=
  { vas := fun L => (lw.ps L).map fun p => (lw.need, p.va)
    ready := fun s => s.trackerRoom (lineCount h.mask lw.ps)
    run := fun s m => match h.acc with
      | some id => s.readLanes id lw m
      | none => s }

def Held.ofStore (sw : StoreWord) : HeldWord :=
  { vas := fun L => (sw.ps L).map fun p => (.write, p.va), run := fun s m => s.storeLanes sw m }

def Held.ofAtom (h : Held) (w : AtomWord) : HeldWord :=
  { vas := fun L => (w.ps L).map fun p => (.write, p.va), run := fun s m => s.atomLanes w h.acc m }

/-- A word whose pages must all translate before it acts. -/
def Held.all (need : Need) (vas : List Nat) (run : State → State) : HeldWord :=
  { whole := true, vas := fun _ => vas.map fun v => (need, v), run := fun s _ => run s }

/-- The 64 KiB granules that a tensor's elements touch, as addresses. -/
def Tensor.vas (t : Tensor) : List Nat :=
  (((List.range t.count).flatMap fun e => [t.addr e / 65536, (t.addr e + t.esize - 1) % 2 ^ 57 / 65536]).dedup).map (· * 65536)

/-- An I/O request's addresses. -/
def ioVas (r : Regs) (a : VOp) (m : Mask) (lbads : Nat) : List Nat :=
  (lanesOf m).flatMap fun L =>
    let q := ioLane r a L
    let n := q.2.2 * 2 ^ lbads
    if n = 0 ∨ 1048576 < n ∨ 2 ^ 57 ≤ q.1 then []
    else (List.range ((n + 65535) / 65536 + 1)).map fun k => (q.1 + Nat.min (k * 65536) (n - 1)) % 2 ^ 57

/-- The word of a held entry, for its wave at issue. -/
def heldWord (h : Held) (s : State) : HeldWord :=
  let r := h.latch
  match h.instr with
  | .ld m _ a b _ => h.ofLoad (loadOf m a b false r h.mask)
  | .sld m _ a b _ => h.ofLoad (loadOf m a b true r h.mask)
  | .ldp m _ a b _ => h.ofLoad (ldpOf m a b r s.w.segbase)
  | .ldt m _ a b key _ => h.ofLoad (ldtOf m a b key r)
  | .probe m a b _ => h.ofLoad (probeOf m a b r)
  | .st m d a b key => Held.ofStore (storeOf m d a b key false r)
  | .sst m d a b key => Held.ofStore (storeOf m d a b key true r)
  | .stp m d a b => Held.ofStore (stpOf m d a b r s.w.segbase)
  | .atom op m d a b _ => h.ofAtom (atomOf op m d a b r)
  | .cas m d a b e _ => h.ofAtom (casOf m d a b e r)
  | .atsc op m d a b _ => h.ofAtom (atscOf op m d a b r)
  | .red op m d a b => h.ofAtom (atomOf op m d a b r)
  | .hred op m d a b => h.ofAtom { atomOf op m d a b r with hreduce := true }
  | .cpa g size pol o a b sp tag =>
    let w := copyOf g size pol o a b sp r
    Held.all w.need ((lanesOf h.mask).flatMap fun L => (w.ps L).map (·.va)) fun s => s.doCopy h.instr w tag.val h.mask
  | .cpt _ v tag =>
    let t := readTensor h.rec_
    let move := (r.pair v).toNat % 2 ^ 57
    let dst := if t.dir = 2 then (List.range ((t.bytes + 65535) / 65536 + 1)).map fun k => (move + Nat.min (k * 65536) (t.bytes - 1)) % 2 ^ 57 else []
    let need : Need := if t.dir = 1 then .write else .read
    { whole := true, vas := fun _ => (t.vas.map fun v => (need, v)) ++ dst.map fun v => (.write, v)
      ready := fun s => s.c.freeEngine.isSome, run := fun s _ => s.startCpt h.rec_ tag.val move h.pc }
  | .sarm e tag =>
    match s.engineOf (r.sget e) with
    | some (k, x) => Held.all (if (readTensor x.rec_).dir = 1 then .write else .read) (readTensor x.rec_).vas fun s => s.arm k tag.val h.pc
    | none => Held.all .read [] fun s => s.modTag s.g.gid tag.val (· - 1)
  | .iord _ a b =>
    let n := s.ioNum (r.sget b)
    let w := Held.all .write (ioVas r a h.mask (((s.io? n).map IoCtx.lbads).getD 0)) fun s => s.orderIo h.instr h.mask
    { w with ready := fun s => s.ioRoom (lanesOf h.mask).length }
  | .iowr _ a b =>
    let n := s.ioNum (r.sget b)
    let w := Held.all .read (ioVas r a h.mask (((s.io? n).map IoCtx.lbads).getD 0)) fun s => s.orderIo h.instr h.mask
    { w with ready := fun s => s.ioRoom (lanesOf h.mask).length }
  | .wspill a b => Held.all .write ((runPieces (r.pair a) (runCount (r.sget b))).map (·.va)) fun s => s.spillRun r a b
  | .wfill a b =>
    Held.all .read ((runPieces (r.pair a) (runCount (r.sget b))).map (·.va)) fun s =>
      let first := s.serial
      (s.fillRun h.instr r a b).modW fun w => { w with park := .value first }
  | .evsig a => Held.all .write [s.eventVa (eventName (r.sget a))] fun s => s.sendEvent (eventName (r.sget a))
  | .evwait a _ =>
    Held.all .read [s.eventVa (eventName (r.sget a))] fun s => match h.acc with
      | some id => s.readEvent id (eventName (r.sget a)) true
      | none => s
  | .evq _ a =>
    Held.all .read [s.eventVa (eventName (r.sget a))] fun s => match h.acc with
      | some id => s.readEvent id (eventName (r.sget a)) false
      | none => s
  | .sigdec p => Held.all .write [(sigdecOf p r).addr 0] fun s => s.sendAtom (sigdecOf p r) none 0 (2 ^ 64 - 1)
  | .launch q p =>
    let va := (r.pair p).toNat % 2 ^ 57
    let w := Held.all .read [va] fun s => s.doLaunch (r.sget q).toNat va h.pc h.mask
    { w with ready := fun s => !s.ringFull (r.sget q).toNat }
  | _ =>
    -- an instruction fetch
    Held.all .fetch [h.va.toNat] fun s => s.modW fun w =>
      { w with front := w.front.map fun e => if e.pc = h.pc then { e with fetching := false } else e }

/-! ## Time registers of held lanes -/

/-- Write an access's value anew in lanes: on a reissue, or FAULT (R212). -/
def Wave.startTimes (w : Wave) (a : Access) (m : Mask) (f : Lane → DWord) : Wave :=
  let m := a.timeLanes m
  let w := w.modAcc a.id fun x => { x with own := Vector.ofFn fun L => if m.getLsbD L.val then f L else x.own[L] }
  (List.finRange 16).foldl (fun (w : Wave) (n : Fin 16) =>
    let ms := m &&& a.tlanes &&& maskOf fun L => a.treg[L] = n
    if ms = 0 then w else w.writeT n ms f) w

/-- The value of a lane whose pages translate, from the issue tick of its word and the bounds published then (R197, R198). -/
def State.startValue (s : State) (h : Held) (L : Lane) : DWord :=
  let slow : DWord := BitVec.ofNat 64 (h.issued + capHbmOf h.g + s.capHold)
  let load (lw : LoadWord) : DWord :=
    if (lw.ps L).any fun p => (s.c.keyAt s.w.ctx p.va).elim true fun q => q.1 != Target.device then noPromise
    else if (lw.ps L).all fun p => s.pieceHit p lw.k.priv lw.k.acquire then
      let n := lineCount (if lw.one then h.mask else h.active ||| h.mask) lw.ps
      BitVec.ofNat 64 (s.lookTick n + s.capL1 n)
    else slow
  let atom (w : AtomWord) : DWord :=
    if w.ticket || (w.ps L).any fun p => (s.c.keyAt s.w.ctx p.va).elim true fun q => q.1 != Target.device then noPromise else slow
  let r := h.latch
  match h.instr with
  | .ld m _ a b _ => load (loadOf m a b false r h.mask)
  | .sld m _ a b _ => load (loadOf m a b true r h.mask)
  | .ldp m _ a b _ => load (ldpOf m a b r s.w.segbase)
  | .ldt m _ a b key _ => load (ldtOf m a b key r)
  | .probe m a b _ => load (probeOf m a b r)
  | .atom op m d a b _ => atom (atomOf op m d a b r)
  | .cas m d a b e _ => atom (casOf m d a b e r)
  | _ => noPromise

/-- Give time registers their values for lanes that translate: a refinement after the first translation, or the initial value of a
reissue. -/
def State.startHeldTimes (s : State) (h : Held) (m : Mask) (again : Bool) : State :=
  match h.acc.bind s.w.acc? with
  | none => s
  | some a =>
    if again then
      s.modW fun w => (w.startTimes a m fun L => s.startValue h (if a.uniform then lowest m else L)).modAcc a.id fun x => { x with fromHold := true }
    else
      (lanesOf m).foldl (fun (s : State) L =>
        let v := s.startValue h L
        if v = noPromise then s
        else match s.w.acc? a.id with
          | some b => s.modW fun w => w.refine b (a.timeLanes (1#32 <<< L.val)) v.toNat
          | none => s) s

/-! ## Translating and performing held lanes -/

/-- Change a held entry of the core at issue. -/
def Core.modHeld (c : Core) (id : Nat) (f : Held → Held) : Core := { c with held := c.held.map fun (h : Held) => if h.id = id then f h else h }

/-- Lanes of a held word that wait on a page-request entry. -/
def Held.asking (h : Held) : Mask := h.asks.foldl (fun (m : Mask) p => m ||| p.2) 0

/-- Request the pages that lanes of a held word lack: one request for each granule (R325) (DEDUCED, log 48). -/
def State.askFor (s : State) (h : Held) (hw : HeldWord) (m : Mask) (bad : Need × Nat → Bool) : State :=
  let lacks (v : Need × Nat) : Bool := (s.c.look s.w.ctx v.1 v.2).isNone
  let vas := (lanesOf m).flatMap fun L => (hw.vas L).filter lacks
  ((vas.map fun v => (v.1, v.2 / 65536)).dedup).foldl (fun (s : State) g =>
    let va := (vas.find? fun v => v.1 == g.1 && v.2 / 65536 == g.2).elim 0 (·.2)
    let lanes := m &&& maskOf fun L => ((hw.vas L).filter lacks).any fun v => v.1 == g.1 && v.2 / 65536 == g.2
    match s.askPage s.w.ctx s.x.part s.c.id va g.1 (bad g) with
    | (some i, s) => s.modC fun c => c.modHeld h.id fun h => { h with asks := h.asks ++ [(i, lanes)] }
    | (none, s) => s) s

/-- Put a held word's wave at issue, with the operands it was issued with. -/
def State.focusHeld (s : State) (h : Held) : State :=
  let s := s.focus h.wave
  { s with latch := h.latch, cur := { active := h.mask, pc := h.pc, next := h.pc + 4, unit := h.pc, seq := some h.id, since := some (h.issued, h.g) } }

/-- Does the wave hold a replay entry? -/
def Core.holding (c : Core) (uid : Nat) : Bool := c.held.any fun (h : Held) => h.wave == uid

/-- Test a wave's parks again. -/
def State.releaseWave (s : State) (uid : Nat) : State :=
  match s.wave? uid with
  | none => s
  | some w => let held := (s.core (coreOfSlot w.slot)).holding uid; s.modWave uid fun w => w.release s.tick held

/-- A wave parked at a held word goes on (its word has been performed or has failed). -/
def Wave.unpark (w : Wave) (pc : VA) (tick : Nat) : Wave :=
  match w.park with
  | .replay => if w.parkPc = pc then { w with park := .none, mayIssue := tick + 1 } else w
  | .event _ _ => if w.parkPc = pc then { w with park := .none, mayIssue := tick + 1 } else w
  | .value _ => if w.parkPc = pc then { w with park := .none, mayIssue := tick + 1 } else w
  | _ => w

/-- Does performing a held word release the park of its wave? -/
def parksWhole (i : Instr) : Bool :=
  match i with
  | .cpa _ _ _ _ _ _ _ _ => true
  | .cpt _ _ _ => true
  | .sarm _ _ => true
  | .wspill _ _ => true
  | _ => false

/-- Translate lanes of a held word: those whose pages are present are performed, the others become FAULT and request their pages. -/
def State.translate (s : State) (h : Held) (m : Mask) (again : Bool) : State :=
  let s := s.focusHeld h
  let hw := heldWord h s
  let r := s.tlbLoads ((lanesOf m).flatMap hw.vas)
  let s := r.2
  let full := m &&& maskOf fun L => (hw.vas L).all fun v => (s.c.look s.w.ctx v.1 v.2).isSome
  let ok := if hw.whole then (if full = m ∧ m = h.mask then m else 0) else full
  if ok ≠ 0 && !hw.ready s then s.modC fun c => c.modHeld h.id fun x =>
    let walk := x.walk &&& ~~~m
    { x with state := if walk = 0 then .retry else .walking, walk := walk, again := x.again ||| m }
  else
    let s := if ok = 0 then s else hw.run (s.startHeldTimes h ok again) ok
    let left := h.mask &&& ~~~ok
    let lost := m &&& ~~~ok
    if left = 0 then
      let s := s.modC fun c => { c with held := c.held.filter fun (x : Held) => x.id != h.id }
      let s := if parksWhole h.instr then s.modW fun w => w.unpark h.pc s.tick else s
      s.releaseWave h.wave
    else
      let s := match h.acc.bind s.w.acc? with
        | some a => if lost = 0 then s else s.modW fun w => w.startTimes a lost fun _ => faultTime
        | none => s
      let first := (((lanesOf lost).flatMap hw.vas).find? fun v => (s.c.look s.w.ctx v.1 v.2).isNone).getD (h.need, h.va.toNat)
      let s := s.modC fun c => c.modHeld h.id fun x =>
        let walk := x.walk &&& ~~~m
        { x with mask := left, again := x.again &&& ~~~m, walk := walk, state := if walk = 0 then .waiting else .walking, since := s.tick, need := first.1, va := BitVec.ofNat 57 first.2 }
      s.askFor h hw lost fun g => r.1.any fun p => p.1 == g && p.2

/-- A held word by its id, on the core of a slot. -/
def State.held? (s : State) (slot id : Nat) : Option Held :=
  (s.core (coreOfSlot slot)).held.find? fun (h : Held) => h.id == id && (s.wave? h.wave).isSome

/-- The lanes of a held word whose translation runs. -/
def Held.walkLanes (h : Held) : Mask := if h.state = .walking then (if h.walk = 0 then h.mask else h.walk) else 0

/-- A translation completes (R198, R329): the refinement or FAULT, and the page requests. -/
def execTranslationComplete (slot id : Nat) (s : State) : Out1 :=
  match s.held? slot id with
  | none => .next s
  | some h => .next (if h.state = .walking then s.translate h h.walkLanes false else s)

/-- Could a held word be reissued in this tick (R212)? (DEDUCED, log 51) -/
def State.mayReissue (s : State) (h : Held) : Bool :=
  match s.wave? h.wave with
  | none => false
  | some w =>
    let core := s.core (coreOfSlot w.slot)
    h.again != 0 && !w.halted && !w.exited && decide (w.mayIssue ≤ s.tick) && !s.sched.evicting.contains w.gid && s.coreRuns core.id && !s.memStopped core.id
      && core.issuedAt[subOfSlot w.slot] != some s.tick

/-- Issue a held word again (R197, R212): lanes that the L1 TLB holds are performed with the value of an access issued now; the translation of the
others runs, and their value is NOPROMISE meanwhile. -/
def State.reissue (s : State) (h : Held) : State :=
  let s := s.focusHeld h
  let h := { h with issued := s.tick, g := s.publishedG s.x.part }
  let s := (s.focusHeld h).modC fun c => c.modHeld h.id fun x => { x with issued := h.issued, g := h.g }
  let hw := heldWord h s
  let found := h.again &&& maskOf fun L => (hw.vas L).all fun v => (s.c.look s.w.ctx v.1 v.2).isSome
  let hits := if hw.whole && found != h.again then 0 else found
  let walk := h.again &&& ~~~hits
  let s := if walk = 0 then s
    else
      let s := match h.acc.bind s.w.acc? with
        | some a => s.modW fun w => (w.startTimes a walk fun _ => noPromise).modAcc a.id fun x => { x with fromHold := true }
        | none => s
      (s.modC fun c => c.modHeld h.id fun x => { x with again := hits, walk := walk, state := .walking }).due (.translationComplete h.slot h.id)
  if hits = 0 then s else s.translate h hits true

/-- A held word is issued again (R168, R212): ahead of the wave's other words, in its tick. -/
def execReplayIssue (slot id : Nat) (s : State) : Out1 :=
  match s.held? slot id with
  | none => .next s
  | some h =>
    if !s.mayReissue h then .next s
    else
      let s := s.modCore (coreOfSlot h.slot) fun c => { c with issuedAt := c.issuedAt.set (subOfSlot h.slot) (some s.tick) }
      .next (s.reissue h)

/-! ## Answers (R328) -/

/-- Every held word, resident or saved, changed by a function. -/
def State.mapHeld (s : State) (f : Held → Held) : State :=
  let one (c : Core) : Core := { c with held := c.held.map f }
  { s with c := one s.c, cores := s.cores.map one
           sched := { s.sched with places := s.sched.places.map fun (p : Placing) => { p with held := p.held.map f } } }

/-- Every resident held word. -/
def State.allHeld (s : State) : List Held := s.allCores.flatMap fun (c : Core) => c.held

/-- Lanes of a held word that wait for a page-request entry to become free. -/
def Held.waitingLanes (h : Held) : Mask := if h.state = .retry then 0 else h.mask &&& ~~~(h.asking ||| h.again ||| h.failed ||| h.walkLanes)

/-- Requests that wait take the entries that have become free, the oldest first (R327). -/
def State.askWaiting (s : State) : State :=
  let l := (s.allHeld.filter fun (h : Held) => h.waitingLanes != 0 && (s.wave? h.wave).isSome).mergeSort fun a b => decide (a.since ≤ b.since)
  l.foldl (fun (s : State) h =>
    let s := s.focusHeld h
    s.askFor h (heldWord h s) h.waitingLanes fun _ => false) s

/-- A page-request entry is answered with retry: the lanes that now wait on no entry are issued again (DEDUCED, log 48). -/
def Held.retried (h : Held) (index : Nat) : Held :=
  let mine := (h.asks.filter fun p => p.1 == index).foldl (fun (m : Mask) p => m ||| p.2) 0
  let asks := h.asks.filter fun p => p.1 != index
  let h := { h with asks := asks }
  { h with again := h.again ||| (mine &&& ~~~h.asking) }

/-- A valid entry leaves the queue. -/
def State.freePrq (s : State) (index : Nat) : State :=
  { s with xlate := { s.xlate with prq := s.xlate.prq.filter fun (p : Prq) => p.index != index } }

/-- PRQ_RESP code 1 (R328). -/
def execPrqRetry (index : Nat) (s : State) : Out1 :=
  if s.xlate.prq.any fun (p : Prq) => p.index == index then
    let s := (s.freePrq index).mapHeld fun h => h.retried index
    let s := (s.allHeld.filter fun (h : Held) => h.again != 0).foldl (fun (s : State) h => s.due (.replayIssue h.slot h.id)) s
    .next s.askWaiting
  else .next s

/-- The tag whose count a failed word had raised. -/
def heldTag (i : Instr) : Option (Fin 64) :=
  match i with
  | .cpa _ _ _ _ _ _ _ t => some t
  | .cpt _ _ t => some t
  | .sarm _ t => some t
  | _ => none

/-- How a held word completes as poisoned: a load by its time register alone; an atomic by that and a trap; a word that waited for a value,
and a fetch, by a trap of its entry; the others by a trap of the entries that hold its lanes (R213, R328, R458). -/
inductive FailKind where
  | load | atom | waiter | fetch | plain
deriving DecidableEq, Repr

def failKind (i : Instr) : FailKind :=
  match i with
  | .ld _ _ _ _ _ => .load
  | .sld _ _ _ _ _ => .load
  | .ldp _ _ _ _ _ => .load
  | .ldt _ _ _ _ _ _ => .load
  | .probe _ _ _ _ => .load
  | .atom _ _ _ _ _ _ => .atom
  | .cas _ _ _ _ _ _ => .atom
  | .atsc _ _ _ _ _ _ => .atom
  | .evwait _ _ => .waiter
  | .evq _ _ => .waiter
  | .wfill _ _ => .waiter
  | .wspill _ _ => .waiter
  | .nop => .fetch
  | _ => .plain

/-- A trap that entries owe (R458) (DEDUCED, log 49). -/
def Wave.owe (w : Wave) (pc : VA) (m : Mask) : Wave := { w with owed := w.owed ++ [{ pc := pc, mask := m }] }

/-- Lanes of an access end as POISON (R213). -/
def Wave.poison (w : Wave) (a : Access) (m : Mask) : Wave := (w.markPoison a m).endLanes a m fun _ _ => poisonTime

/-- Does the entry at a PC fetch the first packet of the trap handler (R337)? -/
def State.atHandler (s : State) (pc : VA) : Bool := s.w.regs.busy && packetVa pc == s.x.handler.toNat * 16

/-- The lanes of a held word complete as poisoned (DEDUCED, log 49). -/
def State.failHeld (s : State) (h : Held) : State :=
  let s := s.focusHeld h
  let m := h.failed
  let keep := h.mask &&& ~~~m
  let less (x : Held) : Held := { x with mask := keep, failed := 0, asks := x.asks.map fun p => (p.1, p.2 &&& keep) }
  let s := s.modC fun c => { c with held := (c.held.map fun (x : Held) => if x.id = h.id then less x else x).filter fun (x : Held) => x.mask != 0 }
  let acc := h.acc.bind s.w.acc?
  let gone (s : State) : State := match h.acc with
    | some id => s.modW fun w => { w with accs := w.accs.filter fun (a : Access) => a.id != id }
    | none => s
  let s := match failKind h.instr, acc with
    | .load, some a => s.modW fun w => w.poison a m
    | .atom, some a => s.modW fun w => (w.poison a m).owe h.pc m
    | .waiter, _ => (gone s).modW fun w => (w.owe h.pc w.parkLanes).unpark h.pc s.tick
    | .fetch, _ =>
      if s.atHandler h.pc then s.waveFault s.w s.g .handlerFetch (((s.w.regs.s[59] ++ s.w.regs.s[58]) : DWord).extractLsb' 0 57) .context
      else s.modW fun w =>
        let lanes := (w.front.filter fun (e : Entry) => e.pc == h.pc).foldl (fun (m : Mask) (e : Entry) => m ||| e.mask) 0
        let w := { w with front := w.front.map fun (e : Entry) => if e.pc = h.pc then { e with fetching := false } else e }
        w.owe h.pc lanes
    | _, _ => s.modW fun w => (w.owe h.pc m).unpark h.pc s.tick
  let s := match heldTag h.instr with
    | some t => s.modTag s.g.gid t.val (· - 1)
    | none => s
  s.releaseWave h.wave

/-- PRQ_RESP code 2 (R328): at once for resident waves, at their resume for saved ones. -/
def execPrqFail (index : Nat) (s : State) : Out1 :=
  if s.xlate.prq.any fun (p : Prq) => p.index == index then
    let s := (s.freePrq index).mapHeld fun h =>
      let mine := (h.asks.filter fun p => p.1 == index).foldl (fun (m : Mask) p => m ||| p.2) 0
      { h with failed := h.failed ||| mine, again := h.again &&& ~~~mine, asks := (h.asks.filter fun p => p.1 != index).map fun p => (p.1, p.2 &&& ~~~mine) }
    let s := (s.allHeld.filter fun (h : Held) => h.failed != 0 && (s.wave? h.wave).isSome).foldl (fun (s : State) h => s.failHeld h) s
    .next s.askWaiting
  else .next s

/-- PRQ_RESP code 0 or 3 (R328): no effect. -/
def execPrqRespNoEffect (_ : DWord) (s : State) : Out1 := .next s

/-- PRQ_TAIL (R327): a value more than 2,048 behind head is ignored. -/
def execPrqTail (value : Word) (s : State) : Out1 :=
  let v := value.toNat % 4096
  .next (if (s.xlate.prqHead + 4096 - v) % 4096 ≤ 2048 then { s with xlate := { s.xlate with prqTail := v } } else s)

/-! ## Instruction fetch (R337, R343, R383) -/

/-- A fetch completes, or its page is requested; the handler's first packet is never requested (R337). A fetch that finds no replay entry
free is made again (DEDUCED, log 50). -/
def execInstructionFetch (slot : Nat) (pc : VA) (s : State) : Out1 :=
  match s.atSlot slot with
  | none => .next s
  | some w =>
    if !(w.front.any fun e => e.pc == pc && e.fetching) then .next s
    else
      let s := s.focus w.uid
      let r := s.tlbLoad .fetch (packetVa pc)
      let s := r.2
      let done (s : State) : State := s.modW fun w => { w with front := w.front.map fun e => if e.pc = pc then { e with fetching := false } else e }
      if r.1.1 then .next (done s)
      else if s.atHandler pc then .next (s.waveFault s.w s.g .handlerFetch (((s.w.regs.s[59] ++ s.w.regs.s[58]) : DWord).extractLsb' 0 57) .context)
      else if s.c.held.any fun (h : Held) => h.wave == s.w.uid && h.pc == pc && h.need == .fetch then .next s
      else if Config.replayEntries ≤ s.c.held.length then .next s
      else
        let m := (s.w.front.filter fun e => e.pc == pc).foldl (fun (m : Mask) e => m ||| e.mask) 0
        let h : Held := { id := s.serial, wave := s.w.uid, slot := s.w.slot, pc := pc, instr := .nop, mask := m, latch := s.w.regs, need := .fetch
                          va := BitVec.ofNat 57 (packetVa pc), state := .waiting, since := s.tick }
        let s := ({ s with serial := s.serial + 1 }).modC fun c => { c with held := c.held ++ [h] }
        .next (s.askFor h (heldWord h s) m fun _ => r.1.2)

end Machine
end Sys2Proof
end

