-- ==== Sys2Proof/Machine/EvCore.lean ====
section
/-! DEFINITION. What arrives at a core and what comes due in it: values (R195, R200-R205), fixed-latency results (R177), parks that end (R202,
R387, R388), triggers and ends of waves (R384, R385), and copies (R286, R296). -/

namespace Sys2Proof
namespace Machine

/-- The access of a wave slot's wave. -/
def State.accessOf (s : State) (slot acc : Nat) : Option (Wave × Access) :=
  (s.atSlot slot).bind fun w => (w.acc? acc).map fun a => (w, a)

/-- Lanes of an access that a replay entry still holds. -/
def Core.heldFor (c : Core) (acc : Nat) : Mask :=
  (c.held.filter fun (h : Held) => h.acc == some acc).foldl (fun (m : Mask) h => m ||| h.mask) 0

/-- The lanes of an access that have not ended and whose parts have all arrived. -/
def State.arrivedLanes (s : State) (a : Access) : Mask := a.lanes &&& ~~~(s.c.heldFor a.id) &&& maskOf fun L => a.whole L

/-- Count unannounced late arrivals of an access, and log them (R205) (DEDUCED, log 52). -/
def State.countLate (s : State) (a : Access) (n : Nat) : State :=
  if n = 0 then s
  else
    let p := s.parts[Fin.ofNat 8 s.x.part]
    { s with
      parts := s.parts.set (Fin.ofNat 8 s.x.part)
        { p with pmiss := if 65535 < p.pmiss.toNat + n then BitVec.allOnes 16 else p.pmiss + BitVec.ofNat 16 n, pmissTick := BitVec.ofNat 48 s.tick }
      errorLog := s.errorLog ++ [{ tick := s.tick, part := s.x.part, core := s.c.id, pc := a.pc }] }

/-- After an access of the wave at issue has ended: arrivals, spills and parks are tested again. -/
def State.afterAccess (s : State) : State := ((s.countAll).spillYield s.w.uid).releaseWave s.w.uid

/-- The value that a late notice gives in place of an old one (R203). -/
def Late.value (l : Late) (old : Nat) : Nat :=
  match l with
  | .add n => old + n
  | .retry t => Nat.min t (old + 512)
  | .anew t => t

/-- A late notice for a request reaches its access (R203). It raises the value, and WSTAT counts it, only where the new value lies after the old one. -/
def Wave.late_ (w : Wave) (a : Access) (id : Nat) (l : Late) (tick : Nat) : Wave :=
  let new (L : Lane) : Nat := l.value (a.own[L]).toNat
  let raises := (a.timeLanes (a.lanesOfReq id)) &&& maskOf fun L => a.going L && isPromise a.own[L] && decide ((a.own[L]).toNat < new L)
  if raises = 0 then w
  else
    let w := w.modAcc a.id fun a =>
      { a with own := Vector.ofFn fun L => if raises.getLsbD L.val then BitVec.ofNat 64 (new L) else a.own[L]
               lineTimes := a.lineTimes.map fun p => if p.1 = id then (id, Nat.max p.2 (l.value p.2)) else p
               noticedAt := some tick }
    let w := (List.finRange 16).foldl (fun (w : Wave) (n : Fin 16) =>
      let ms := raises &&& a.tlanes &&& maskOf fun L => a.treg[L] = n
      if ms = 0 then w else w.writeT n ms fun L => BitVec.ofNat 64 (new L)) w
    { w with late := true, news := w.news + 1, latecount := if w.latecount = BitVec.allOnes 16 then w.latecount else w.latecount + 1 }

/-- LATE_NOTICE (R203): the oldest notice on its way to the access. -/
def execLateNotice (slot acc : Nat) (s : State) : Out1 :=
  match s.accessOf slot acc with
  | none => .next s
  | some (w, a) =>
    match a.notices with
    | [] => .next s
    | (id, l) :: rest => .next (s.modWave w.uid fun w => (w.modAcc acc fun a => { a with notices := rest }).late_ a id l s.tick)

/-- The notices of an access reach it before its value does (R203). -/
def State.noticesFirst (s : State) (a : Access) : State :=
  if a.notices.isEmpty then s
  else s.modW fun w =>
    a.notices.foldl (fun (w : Wave) p => match w.acc? a.id with
      | some b => w.late_ b p.1 p.2 s.tick
      | none => w) (w.modAcc a.id fun b => { b with notices := [] })

/-- Values arrive (R195, R201, R205, R213): good lanes are written, poisoned ones end as POISON. An acquire at device or system scope
invalidates the L1 again before the wave's later memory words (R183, R306). -/
def State.landAccess (s : State) (a : Access) : State :=
  let m := s.arrivedLanes a
  if m = 0 then s
  else
    let s := s.noticesFirst a
    let a := (s.w.acc? a.id).getD a
    let bad := m &&& a.bad
    let good := m &&& ~~~bad
    let late := (lanesOf m).countP fun L => isPromise a.own[L] && decide ((a.own[L]).toNat < s.tick)
    let s := s.countLate a late
    let s := s.modW fun w => (w.land a good).endLanes a good fun _ v => if v = noPromise then BitVec.ofNat 64 s.tick else v
    let s := if bad = 0 then s else s.modW fun w => w.poison a bad
    let s := if (s.w.acc? a.id).isNone && (a.acquire == some .dev || a.acquire == some .sys) then s.modC Core.l1Acquire else s
    s.afterAccess

/-- The lanes of a probe that name a line which is not valid in the L1 of the core (R195). -/
def State.probeLacks (s : State) (a : Access) : Mask :=
  match a.instr, a.latch with
  | .probe m x b _, some r =>
    s.arrivedLanes a &&& ~~~a.bad &&& maskOf fun L => ((probeOf m x b r).ps L).any fun p => match s.c.keyAt s.w.ctx p.va with
      | some (.device, k) => match s.c.l1Find (k / 128) with
        | some l => !l.priv && l.valid != 15
        | none => true
      | _ => false
  | _, _ => 0

/-- A `probe` ends where every line that a lane names is valid in the L1; the others are looked up again (R195). -/
def State.landProbe (s : State) (a : Access) : State :=
  let lack := s.probeLacks a
  match a.instr, a.latch with
  | .probe m x b _, some r =>
    if lack = 0 then s.landAccess a
    else
      let s := s.readLanes a.id (probeOf m x b r) lack
      match s.w.acc? a.id with
      | some a => s.landAccess a
      | none => s
  | _, _ => s.landAccess a

/-- An access of the wave is over. -/
def State.dropAccess (s : State) (id : Nat) : State := s.modW fun w => { w with accs := w.accs.filter fun (a : Access) => a.id != id }

/-- `evq` and `evwait` are decided (R155, R427, R458) (DEDUCED, log 42). -/
def State.decideEvent (s : State) (a : Access) (name : BitVec 16) (thr : Word) : State :=
  let s := s.dropAccess a.id
  if a.bad ≠ 0 then s.modW fun w => (w.owe a.pc w.parkLanes).unpark a.pc s.tick
  else if a.kind = .evq then
    let s := match a.sdst with
      | some d => s.modW fun w => w.writeS d (a.wordOf 0 0)
      | none => s
    s.modW fun w => w.unpark a.pc s.tick
  else if reached (a.wordOf 0 0) thr then (s.modC Core.l1Acquire).modW fun w => w.unpark a.pc s.tick
  else if s.eventMeets s.w.ctx name thr then
    (s.acquireAt s.w.uid ((s.eventKey s.w.ctx name).bind homeOfKey)).modW fun w => w.unpark a.pc s.tick
  else s.registerWait s.w.uid name thr

/-- A register of a `wfill` has arrived (R455). -/
def State.landFill (s : State) (a : Access) : State :=
  let good := a.lanes &&& ~~~a.bad
  let s := (s.modW fun w => w.land a good).dropAccess a.id
  let s := if a.bad = 0 || s.w.owed.any (fun (o : Owed) => o.pc == a.pc) then s else s.modW fun w => w.owe a.pc w.parkLanes
  s.afterAccess

/-- A word reaches the I/O engine: from the tick after its issue on, when no other is ahead of it, its lanes are numbered (R119, R433) (DEDUCED, log 32). -/
def State.numberAccess (s : State) (a : Access) : State :=
  if s.tick ≤ a.issued || s.ioAhead s.w a then s
  else
    let n := a.ioNum s
    let s := match a.instr, a.latch with
      | .iord d v _, some r => s.numberIo n false r d v a.lanes
      | .iowr d v _, some r => s.numberIo n true r d v a.lanes
      | _, _ => s
    (s.dropAccess a.id).afterAccess

/-- VALUE_ARRIVAL (R195, R201) (DEDUCED, log 42). -/
def execValueArrival (slot acc : Nat) (s : State) : Out1 :=
  match s.accessOf slot acc with
  | none => .next s
  | some (w, a) =>
    if (match a.at_ with
        | some t => decide (s.tick < t)
        | none => false) then .next s
    else
      let s := s.focus w.uid
      let done := s.arrivedLanes a == a.lanes
      match a.kind, a.event with
      | .load, _ => .next (s.landAccess a)
      | .probe, _ => .next (if a.at_.isSome then s.landAccess a else s.landProbe a)
      | .atom, _ => .next (s.landAccess a)
      | .accr, _ => .next (s.landAccess a)
      | .fence, _ =>
        if a.waits.isEmpty && a.ticket.isNone then .next (((s.dropAccess acc).modC Core.l1Acquire).afterAccess) else .next s
      | .evq, some (n, t) => .next (if done then s.decideEvent a n t else s)
      | .evwait, some (n, t) => .next (if done then s.decideEvent a n t else s)
      | .wfill, _ => .next (if done then s.landFill a else s)
      | .iord, _ => .next (s.numberAccess a)
      | _, _ => .next s

/-- REFINEMENT (R200): the oldest refinement on its way to the access. -/
def execRefinement (slot acc : Nat) (s : State) : Out1 :=
  match s.accessOf slot acc with
  | none => .next s
  | some (w, a) =>
    match a.refines with
    | [] => .next s
    | (id, t) :: rest =>
      .next (if a.noticedAt = some s.tick then s else s.modWave w.uid fun w => (w.modAcc acc fun a => { a with refines := rest }).refineLanes acc id t)

/-- PROMISE_MATURES (R202): `twait` and `tyield` are tested again. -/
def execPromiseMatures (slot : Nat) (s : State) : Out1 :=
  match s.atSlot slot with
  | none => .next s
  | some w => .next (s.releaseWave w.uid)

/-- FIXED_LATENCY_RESULT (R177): results that are ready leave the window. -/
def execFixedLatencyResult (slot : Nat) (s : State) : Out1 :=
  match s.atSlot slot with
  | none => .next s
  | some w => .next (s.modWave w.uid fun w => { w with window := w.window.filter fun (p : Pending) => decide (s.tick < p.ready) })

/-- SLEEP_EXPIRY (R387): the wave issues again from the next tick. -/
def execSleepExpiry (slot : Nat) (s : State) : Out1 :=
  match s.atSlot slot with
  | none => .next s
  | some w =>
    match w.park with
    | .sleep t => .next (if t ≤ s.tick then s.modWave w.uid fun w => { w with park := .none, mayIssue := s.tick + 1 } else s)
    | _ => .next s

/-- YIELD_TICK_EXPIRY (R388). -/
def execYieldTickExpiry (slot : Nat) (s : State) : Out1 :=
  match s.atSlot slot with
  | none => .next s
  | some w =>
    match w.park with
    | .yield (.tick t) _ => .next (if t.toNat ≤ s.tick then s.yieldOver w (.tick t) else s)
    | _ => .next s

/-! ## Triggers and ends (R384, R385) -/

/-- Has a wave a store, issued before serial n, that is not stamped, or not accepted by its port? -/
def State.unstampedBefore (s : State) (uid n : Nat) : Bool :=
  s.storesHeld uid n || s.reqs.any fun (r : Req) => r.wave == uid && !r.quiet && decide (r.seq < n) && r.kind.isWrite
    && (r.stage == .l2 || (r.target == Target.device && r.stage == .stamp))

/-- A group has triggered (R158): its grid's count falls, and barrier bits are looked at again. -/
def State.groupTriggered (s : State) (job : Nat) : State :=
  ({ s with jobs := s.jobs.map fun (j : Job) => if j.id = job then { j with untriggered := j.untriggered - 1 } else j }).pokeQueues

/-- TRIGGER_COUNT (R385). -/
def execTriggerCount (slot : Nat) (s : State) : Out1 :=
  match s.atSlot slot with
  | none => .next s
  | some w =>
    match s.group? w.gid with
    | none => .next s
    | some g =>
      let bit : Mask := 1#32 <<< w.index
      if !w.triggered || g.triggered &&& bit != 0 || s.unstampedBefore w.uid w.trigAt then .next s
      else
        let t := g.triggered ||| bit
        let s := s.modGroup w.gid fun g => { g with triggered := t }
        .next (if g.waves ≤ (lanesOf t).length then (if g.task then s.pokeQueues else s.groupTriggered g.job) else s)

/-- The packets whose work may now be complete (R108). -/
def State.dueJobs (s : State) (g : Group) : State :=
  (s.jobs.filter fun (j : Job) => j.id == g.job || (g.task && j.kind == 1 && j.ctx == g.ctx)).foldl (fun (s : State) j => s.due (.packetCompletion j.id)) s

/-- Tagged operations of a group that run: its copies, matrix entries and armed or copying engines (R384). -/
def State.tagged (s : State) (g : Group) : Bool :=
  let c := s.core g.core
  (c.mq.any fun (e : MxEntry) => e.gid == g.gid) || (List.finRange 4).any fun (e : Fin 4) =>
    (c.engines[e]).gid == g.gid && ((c.engines[e]).kind == .armed || (c.engines[e]).kind == .cpt)

/-- WAVE_SLOT_FREE (R384): with the last wave's slot the group's resources are freed. -/
def execWaveSlotFree (slot : Nat) (s : State) : Out1 :=
  match s.atSlot slot with
  | none => .next s
  | some w =>
    match s.group? w.gid with
    | none => .next s
    | some g =>
      let bit : Mask := 1#32 <<< w.index
      let last := decide ((s.allWaves.countP fun v => v.gid == w.gid) ≤ 1) && decide (g.waves ≤ (lanesOf g.exited).length)
      if !w.exited || !w.accs.isEmpty || s.storing w.uid || g.triggered &&& bit == 0
          || ((s.core (coreOfSlot slot)).holding w.uid) || (last && s.tagged g) then .next s
      else if last then
        let s := s.dropGroups [g.gid]
        let s := { s with jobs := s.jobs.map fun (j : Job) => if j.id = g.job && !g.task then { j with left := j.left - 1 } else j }
        .next ((s.dueJobs g).due (.groupPlacement (Fin.ofNat 8 (s.partOf g.ctx))))
      else
        let s := { s with waves := s.waves.filter fun v => v.uid != w.uid, w := if s.w.uid = w.uid then {} else s.w }
        .next (s.due (.groupPlacement (Fin.ofNat 8 (s.partOf g.ctx))))

/-! ## Copies (R286, R296) -/

/-- Write a copied lane into the scratchpad (R83, R285). -/
def Group.putLane (g : Group) (a : Access) (n : Nat) (L : Lane) : Group :=
  let o := a.place[L]
  let g := g.putPad o (bytesOfNat (a.data[L]).toNat n)
  if a.bad.getLsbD L.val then g.badPad o n else g

/-- Write the lanes of a copy that have arrived, in increasing order. -/
def State.putCopy (s : State) (a : Access) (n : Nat) (m : Mask) : State :=
  s.enginePad s.w.gid fun g => (lanesOf m).foldl (fun (g : Group) L => g.putLane a n L) (g.clearLanes m (fun L => a.place[L]) n)

/-- COPY_COMPLETE (R286): every byte is written, and the tag count falls. -/
def execCopyComplete (slot acc : Nat) (s : State) : Out1 :=
  match s.accessOf slot acc with
  | none => .next s
  | some (w, a) =>
    if a.kind ≠ .copy || !a.waits.isEmpty then .next s
    else
      let s := s.focus w.uid
      let s := match a.instr with
        | .cpa false size _ _ _ _ _ _ => s.putCopy a (sizeBytes size) a.lanes
        | _ => s
      let s := s.dropAccess acc
      let s := match a.tag with
        | some t => s.modTag s.g.gid t (· - 1)
        | none => s
      .next s.afterAccess

/-- CPA_EVICTION_TIMEOUT (R296): 4,096 ticks into an eviction a copy that still moves becomes a replay entry of its unmoved lanes, whose tag
count falls when they have moved. While the core has no free entry it moves on (R168). -/
def execCpaEvictionTimeout (slot acc : Nat) (s : State) : Out1 :=
  match s.accessOf slot acc with
  | none => .next s
  | some (w, a) =>
    let s := s.focus w.uid
    let s0 := s
    match s.g.evictAt, a.instr, a.latch with
    | some t, .cpa g size pol o va b sp tag, some r =>
      if a.kind ≠ .copy || decide (s.tick < t + 4096) then .next s
      else
        let cw := copyOf g size pol o va b sp r
        let mine := s.reqs.filter fun (q : Req) => q.acc == some acc && q.stage == .l2
        let moved := if g then
            a.lanes &&& maskOf fun L => !((cw.ps L).any fun p => match s.c.keyAt s.w.ctx p.va with
              | some (_, k) => mine.any fun q => q.line == k / 128
              | none => true)
          else s.arrivedLanes a
        let left := a.lanes &&& ~~~moved
        let s := if g then s else s.putCopy a (sizeBytes size) moved
        let s := { s with reqs := s.reqs.filter fun (q : Req) => !(q.acc == some acc && (!g || q.stage == Stage.l2)) }
        let s := s.dropAccess acc
        if left ≠ 0 ∧ Config.replayEntries ≤ s0.c.held.length then .next s0
        else if left = 0 then .next ((s.modTag s.g.gid tag.val (· - 1)).afterAccess)
        else
          let h : Held := { id := s.serial, wave := s.w.uid, slot := s.w.slot, pc := a.pc, instr := a.instr, mask := left, latch := r, need := cw.need
                            va := BitVec.ofNat 57 ((cw.ps (lowest left)).headD { va := 0, n := 0, place := 0 }).va, state := .retry, again := left, since := s.tick }
          .next (({ s with serial := s.serial + 1 }).modC fun c => { c with held := c.held ++ [h] })
    | _, _, _ => .next s

end Machine
end Sys2Proof
end

