-- ==== Sys2Proof/Machine/EvStream.lean ====
section
/-! DEFINITION. The stream engines at work (R291-R296), and the ticket sequencer (R309, R310). -/

namespace Sys2Proof
namespace Machine

/-! ## An engine's memory accesses (R83, R294) -/

/-- The program order that the requests of an engine are in. -/
def engineUid (core : Nat) (e : Fin 4) : Nat := 2 ^ 64 + 4 * core + e.val

/-- A request of an engine for a line: it bypasses the L1, and goes to the L2 and the stamper as a wave's does (R294). -/
def State.engineReq (s : State) (core : Nat) (e : Fin 4) (g : Group) (policy : Policy) (kind : ReqKind) (t : Target) (line va : Nat) : Req :=
  { id := s.serial, kind := kind, wave := engineUid core e, slot := 2 ^ 20, core := core, site := octOfCore core, home := homeOf (linePa t line), ctx := g.ctx
    part := s.partOf g.ctx, line := line, job := g.job, target := t, seq := s.serial, va := BitVec.ofNat 57 (va * 128), policy := policy, mask := BitVec.allOnes 128
    fillL1 := false, born := s.tick, eng := some e }

/-- The lines of byte ranges in a context's memory: target, line, virtual line. -/
def State.linesOf (s : State) (ctx n : Nat) (vas : List Nat) : List (Target × Nat × Nat) :=
  (vas.flatMap fun va => (linePieces va n).filterMap fun p => (s.place ctx p.va).map fun q => (q.1, q.2 / 128, p.va / 128)).dedup

/-- Send an engine's reads; it waits for them. -/
def State.engineReads (s : State) (core : Nat) (e : Fin 4) (g : Group) (policy : Policy) (lines : List (Target × Nat × Nat)) : State :=
  let s := s.modCore core fun c => c.modEngine e fun x => { x with busy := true, waits := [], lines := [] }
  lines.foldl (fun (s : State) l =>
    let r := s.engineReq core e g policy (.read false) l.1 l.2.1 l.2.2
    (s.send r).modCore core fun c => c.modEngine e fun x => { x with waits := x.waits ++ [r.id] }) s

/-- Bytes that an engine has read, with whether a sector of them is poisoned; what does not translate is 0. -/
def State.engineBytes (s : State) (x : Engine) (ctx va n : Nat) : List Byte × Bool :=
  (linePieces va n).foldl (fun (r : List Byte × Bool) p =>
    match (s.place ctx p.va).bind fun q => (x.lines.find? fun l => l.1 == q.2 / 128).map fun l => (q.2 % 128, l.2) with
    | some (b, d, bad) => (r.1 ++ bytesOfNat (lineNat d b p.n) p.n, r.2 || badBytes bad b p.n)
    | none => (r.1 ++ List.replicate p.n 0, r.2)) ([], false)

/-- The writes of a line that an engine makes: a later byte stands over an earlier one, and bytes of a poisoned source poison their sectors. -/
structure EngineWrite where
  target : Target
  line : Nat
  vline : Nat
  mask : BitVec 128
  data : BitVec 1024
  bad : BitVec 4

/-- Add bytes of a context's memory to the writes. -/
def State.engineAdd (s : State) (ctx va : Nat) (b : List Byte) (bad : Bool) (ws : List EngineWrite) : List EngineWrite :=
  (linePieces va b.length).foldl (fun (ws : List EngineWrite) p =>
    match s.place ctx p.va with
    | none => ws
    | some (t, k) =>
      let mask := byteMask (k % 128) p.n
      let d := lineAt (natOfBytes ((b.drop p.place).take p.n)) (k % 128)
      let sect := if bad then touchedSectors mask else 0
      if ws.any fun w => w.line == k / 128 then
        ws.map fun w => if w.line = k / 128 then { w with mask := w.mask ||| mask, data := mergeLine w.data d mask, bad := (w.bad &&& ~~~(fullSectors mask)) ||| sect } else w
      else ws ++ [{ target := t, line := k / 128, vline := p.va / 128, mask := mask, data := d, bad := sect }]) ws

/-- Send an engine's writes; it waits until the L2 slices have accepted them (R293, R294). -/
def State.engineWrites (s : State) (core : Nat) (e : Fin 4) (g : Group) (policy : Policy) (ws : List EngineWrite) : State :=
  let s := s.modCore core fun c => c.modEngine e fun x => { x with busy := true, waits := [], lines := [] }
  ws.foldl (fun (s : State) w =>
    let r := { s.engineReq core e g policy .write w.target w.line w.vline with mask := w.mask, data := w.data, bad := w.bad }
    (s.send r).modCore core fun c => c.modEngine e fun x => { x with waits := x.waits ++ [r.id] }) s

/-- What an engine waits for is over: its next happening is due. -/
def State.engineDue (s : State) (core : Nat) (e : Fin 4) : State :=
  let x := (s.core core).engines[e]
  if !x.busy || !x.waits.isEmpty then s
  else match x.kind with
    | .armed => if (readTensor x.rec_).dir = 1 then s.due (.streamAck core e) else s.due (.streamPublish core e)
    | .cpt => s.due (.cptComplete core e)
    | .free => s
    | .held => s

/-- A read of an engine has arrived, or its write is accepted. -/
def State.engineDone (s : State) (r : Req) (e : Fin 4) : State :=
  if ((s.core r.core).engines[e]).waits.contains r.id then
    (s.modCore r.core fun c => c.modEngine e fun x =>
      { x with waits := x.waits.filter (· != r.id)
               lines := if r.kind.isRead then x.lines ++ [(r.line, r.data, r.bad)] else x.lines }).engineDue r.core e
  else s

/-- The elements of number n of a ring. -/
def Tensor.elementsOf (t : Tensor) (n : Nat) : List Nat :=
  let per := t.pay / t.esize
  (List.range per).filterMap fun k => if (n - 1) * per + k < t.count then some ((n - 1) * per + k) else none

/-- The bytes of number n. -/
def Tensor.bytesOf (t : Tensor) (n : Nat) : Nat := (t.elementsOf n).length * t.esize

/-- The armed engine e of a core, its tensor and its group, which is not being evicted. -/
def State.engine? (s : State) (core : Nat) (e : Fin 4) (kind : EngineKind) : Option (Engine × Tensor × Group) :=
  let x := (s.core core).engines[e]
  if x.kind ≠ kind then none
  else match s.group? x.gid with
    | some g => if g.evictAt.isSome then none else some (x, readTensor x.rec_, g)
    | none => none

/-- A field of a slot's header (R292). -/
def Group.header (g : Group) (t : Tensor) (n byte : Nat) : Nat := g.padNat (t.slotAt n + byte) 4

/-- May a fill engine write number n (R293)? -/
def State.fillReady (_ : State) (_ : Nat) (x : Engine) (t : Tensor) (g : Group) : Bool :=
  t.dir == 0 && (decide (x.num ≤ t.slots) || g.header t x.num 8 == (x.num - t.slots) % 2 ^ 32)

/-- May a drain engine read number n? -/
def drainReady (x : Engine) (t : Tensor) (g : Group) : Bool := t.dir == 1 && g.header t x.num 0 == x.num % 2 ^ 32

/-- STREAM_HEADER_POLL (R293): the engine reads the header of its number, and begins to move it when it may. -/
def execStreamHeaderPoll (core : Nat) (e : Fin 4) (s : State) : Out1 :=
  match s.engine? core e .armed with
  | none => .next s
  | some (x, t, g) =>
    if x.busy then .next s
    else if s.fillReady core x t g then
      .next ((s.engineReads core e g t.policy (s.linesOf g.ctx t.esize ((t.elementsOf x.num).map t.addr))).engineDue core e)
    else if drainReady x t g then .next (s.due (.streamAck core e))
    else .next s

/-- The engine goes on to the next number, or its tag count falls (R294). -/
def State.numberDone (s : State) (core : Nat) (e : Fin 4) (x : Engine) (t : Tensor) : State :=
  if x.num < t.numbers then
    (s.modCore core fun c => c.modEngine e fun y => { y with num := y.num + 1, next := y.num * (t.pay / t.esize), busy := false, lines := [] }).due (.streamHeaderPoll core e)
  else
    (s.modCore core fun c => c.modEngine e fun y => { y with kind := .held, next := t.count, busy := false, lines := [] }).modTag x.gid x.tag (· - 1)

/-- STREAM_PUBLISH (R293): once the reads of the number have arrived, the payload, then seq, count, last and poison; ack stands. -/
def execStreamPublish (core : Nat) (e : Fin 4) (s : State) : Out1 :=
  match s.engine? core e .armed with
  | none => .next s
  | some (x, t, g) =>
    if !s.fillReady core x t g || !x.busy || !x.waits.isEmpty then .next s
    else
      let n := x.num
      let slot := t.slotAt n
      let bad := (t.elementsOf n).any fun k => (s.engineBytes x g.ctx (t.addr k) t.esize).2
      let flags := (if n = t.numbers then 1 else 0) + (if bad then 2 else 0)
      let payload (g : Group) : Group := (t.elementsOf n).foldl (fun (g : Group) k =>
        let v := s.engineBytes x g.ctx (t.addr k) t.esize
        let o := slot + 16 + k * t.esize % t.pay
        let g := g.putPad o v.1
        if v.2 then g.badPad o t.esize else g) (g.clearPad (slot + 16) (t.bytesOf n))
      let s := s.enginePad x.gid fun g =>
        (((payload g).putPad slot (bytesOfNat (n % 2 ^ 32) 4)).putPad (slot + 4) (bytesOfNat (t.bytesOf n) 4)).putPad (slot + 12) (bytesOfNat flags 4)
      let s := s.modCore core fun c => c.modEngine e fun y => { y with published := n }
      .next (s.numberDone core e x t)

/-- STREAM_ACK (R293): the number's memory writes are sent, and once they are accepted ack is written. -/
def execStreamAck (core : Nat) (e : Fin 4) (s : State) : Out1 :=
  match s.engine? core e .armed with
  | none => .next s
  | some (x, t, g) =>
    if !drainReady x t g || !x.waits.isEmpty then .next s
    else
      let n := x.num
      let slot := t.slotAt n
      if !x.busy then
        let ws := (t.elementsOf n).foldl (fun (ws : List EngineWrite) k =>
          let o := slot + 16 + k * t.esize % t.pay
          s.engineAdd g.ctx (t.addr k) (bytesOfNat ((g.engineView s.tick).padNat o t.esize) t.esize) (g.padPoison o t.esize) ws) []
        .next ((s.engineWrites core e g t.policy ws).engineDue core e)
      else
        let s := s.enginePad x.gid fun g => g.putPad (slot + 8) (bytesOfNat (n % 2 ^ 32) 4)
        let s := s.modCore core fun c => c.modEngine e fun y => { y with acked := n }
        .next (s.numberDone core e x t)

/-- The writes of a `cpt`: a drain's bytes stand in the scratchpad, a move's have been read (DESIGN CHOICE, log 31). -/
def State.copyWrites (s : State) (x : Engine) (t : Tensor) (g : Group) : List EngineWrite :=
  (List.range (t.count - x.next)).foldl (fun (ws : List EngineWrite) i =>
    let k := x.next + i
    if t.dir = 1 then
      let o := t.ringbase + k * t.esize
      s.engineAdd g.ctx (t.addr k) (bytesOfNat ((g.engineView s.tick).padNat o t.esize) t.esize) (g.padPoison o t.esize) ws
    else
      let v := s.engineBytes x g.ctx (t.addr k) t.esize
      s.engineAdd g.ctx ((x.move + k * t.esize) % 2 ^ 57) v.1 v.2 ws) []

/-- A filled tensor in the scratchpad (R83, R291). -/
def State.copyFill (s : State) (x : Engine) (t : Tensor) (g : Group) : Group :=
  (List.range (t.count - x.next)).foldl (fun (g : Group) i =>
    let k := x.next + i
    let o := t.ringbase + k * t.esize
    let v := s.engineBytes x g.ctx (t.addr k) t.esize
    let g := g.putPad o v.1
    if v.2 then g.badPad o t.esize else g) (g.clearPad (t.ringbase + x.next * t.esize) ((t.count - x.next) * t.esize))

/-- A `cpt` has moved everything that it reads: its last writes are out, or it ends. -/
def State.copySent (s : State) (core : Nat) (e : Fin 4) (x : Engine) (t : Tensor) (g : Group) : State :=
  ((s.engineWrites core e g t.policy (s.copyWrites x t g)).modCore core fun c => c.modEngine e fun y => { y with next := t.count }).engineDue core e

/-- CPT_COMPLETE (R291, R294): the reads go out; what they brought is written, to the scratchpad or by writes that the L2 slices accept; then the tag
count falls and the engine is free (DESIGN CHOICE, log 31). -/
def execCptComplete (core : Nat) (e : Fin 4) (s : State) : Out1 :=
  match s.engine? core e .cpt with
  | none => .next s
  | some (x, t, g) =>
    if !x.waits.isEmpty then .next s
    else if x.next < t.count && !x.busy then
      if t.dir = 1 then .next (s.copySent core e x t g)
      else .next ((s.engineReads core e g t.policy (s.linesOf g.ctx t.esize ((List.range (t.count - x.next)).map fun i => t.addr (x.next + i)))).engineDue core e)
    else if x.next < t.count && t.dir == 2 then .next (s.copySent core e x t g)
    else
      let s := if x.next < t.count then s.enginePad x.gid fun g => s.copyFill x t g else s
      .next ((s.modCore core fun c => c.modEngine e fun _ => {}).modTag x.gid x.tag (· - 1))

/-! ## Tickets (R309, R310) -/

/-- Is the ticket that of a request? -/
def Ticket.isOf (t : Ticket) (r : Req) : Bool := t.wave == r.wave && some t.acc == r.acc && t.lane == r.lane

/-- Does a waiting ticket go before another: the earlier request, then the lower global wave slot? -/
def Ticket.before (a b : Ticket) : Bool := decide (a.asked < b.asked) || (a.asked == b.asked && decide (a.slot < b.slot))

/-- May a waiting ticket be granted: its home has fewer than 4,096 outstanding? -/
def State.grantable (s : State) (t : Ticket) : Bool :=
  t.g == 0 && match t.home with
    | none => true
    | some h => decide ((s.seq.tickets.countP fun u => u.g != 0 && u.home == some h) < Config.ticketsPerHome)

/-- Grant one ticket: its number, and its sub-number at the home, whose request may then be stamped. -/
def State.grant (s : State) (t : Ticket) : State :=
  let g := s.seq.next
  let sub : BitVec 16 := match t.home with
    | some h => s.seq.sub[h]
    | none => 0
  let same (u : Ticket) : Bool := u.wave == t.wave && u.acc == t.acc && u.lane == t.lane
  let s := { s with seq := { s.seq with
    next := g + 1, granted := s.seq.granted + 1
    sub := match t.home with
      | some h => s.seq.sub.set h (s.seq.sub[h] + 1)
      | none => s.seq.sub
    tickets := s.seq.tickets.map fun u => if same u then { u with g := g, sub := sub } else u } }
  match t.home with
  | none => s.due (.fenceScComplete t.slot)
  | some _ =>
    match s.reqs.find? fun (r : Req) => r.ticketed && t.isOf r with
    | some r => (s.modReq r.id fun r => { r with waitFor := sub.toNat }).due (.stampWrite r.id)
    | none => s

/-- Grant up to n tickets. -/
def State.grantAll : Nat → State → State
  | 0, s => s
  | n + 1, s =>
    let pick := (s.seq.tickets.filter s.grantable).foldl (fun (b : Option Ticket) t =>
      match b with
      | none => some t
      | some u => if t.before u then some t else some u) none
    match pick with
    | some t => State.grantAll n (s.grant t)
    | none => s

/-- Has the operation of a ticket ended? -/
def State.ticketOver (s : State) (t : Ticket) : Bool := !(s.reqs.any fun (r : Req) => r.ticketed && t.isOf r)

/-- TICKET_GRANT (R310): at most 8 in a tick, none during an epoch change. Tickets asked for by work that has since been terminated are
dropped with their requests; a granted one stays until its operation, which goes on, has ended. -/
def execTicketGrant (s : State) : Out1 :=
  if s.epoch.running then .next s
  else
    let dead := s.seq.tickets.filter fun t => t.g == 0 && t.done
    let s := { s with
      reqs := s.reqs.filter fun (r : Req) => !(r.ticketed && dead.any fun t => t.isOf r)
      seq := { s.seq with tickets := s.seq.tickets.filter fun t => !(t.done && (t.g == 0 || s.ticketOver t)) } }
    let s := if s.seq.tick = s.tick then s else { s with seq := { s.seq with tick := s.tick, granted := 0 } }
    .next (s.grantAll (Config.ticketsPerTick - s.seq.granted))

/-- Have the earlier writes of a wave, those before serial n, been applied at their homes or acknowledged by their targets (R305, R309)? -/
def State.appliedBefore (s : State) (uid n : Nat) : Bool :=
  !s.storesHeld uid n && !(s.reqs.any fun (r : Req) => r.wave == uid && !r.quiet && decide (r.seq < n) && r.kind.isWrite && r.stage != .applied
      && r.stage != .alu && r.stage != .reply)

/-- Has a `fence.sc` done all of R309? -/
def State.fenceScDone (s : State) (w : Wave) (a : Access) : Bool :=
  a.waits.isEmpty && !(w.accs.any fun (x : Access) => (x.kind == .load || x.kind == .atom) && decide (x.id < a.id))
    && s.appliedBefore w.uid a.since
    && s.seq.tickets.any fun t => t.wave == w.uid && t.acc == a.id && t.g != 0
        && s.seq.tickets.all fun u => u.g == 0 || (u.done && s.ticketOver u) || decide (t.g ≤ u.g)

/-- FENCE_SC_COMPLETE (R309). -/
def execFenceScComplete (slot : Nat) (s : State) : Out1 :=
  match s.atSlot slot with
  | none => .next s
  | some w =>
    match w.accs.find? fun (a : Access) => a.kind == .fence && a.ticket.isSome && s.fenceScDone w a with
    | none => .next s
    | some a =>
      let s := (s.focus w.uid).modC Core.l1Acquire
      let s := { s with seq := { s.seq with tickets := s.seq.tickets.filter fun t => !(t.wave == w.uid && t.acc == a.id) } }
      .next ((s.dropAccess a.id).afterAccess)

end Machine
end Sys2Proof
end

