-- ==== Sys2Proof/Machine/Fabric.lean ====
section
/-! DEFINITION. What the causal fabric and the homes do with requests (R30-R63, R77, R83, R87, R88): replies and fills, writes applied and
buffered, held reads served, losses, and the fault-address queue. -/

namespace Sys2Proof
namespace Machine

/-! ## The fault-address queue and the bad-page list (R87, R88) -/

/-- An entry of the fault-address queue. -/
structure FaqRec where
  cls : Nat
  octant : Oct
  slice : Nat := 0
  pc : Nat := 0
  bank : Nat := 0
  row : Nat := 0
  sectors : BitVec 4 := 0
  ctx : Nat := 0
  pa : Nat := 0
  pages : List (BitVec 36) := []

def FaqRec.bits (f : FaqRec) (tick : Nat) : BitVec 512 :=
  let pages := f.pages.take 8
  let frames := (List.range pages.length).foldl (fun v k => v + fieldAt (pages.getD k 0).toNat (224 + 36 * k)) 0
  BitVec.ofNat 512 (frames + fieldAt pages.length 220 + fieldAt (tick % 2 ^ 64) 128 + fieldAt (f.pa / 128 * 128) 64 + fieldAt f.ctx 52
    + fieldAt f.sectors.toNat 48 + fieldAt f.row 30 + fieldAt f.bank 26 + fieldAt f.pc 16 + fieldAt f.slice 8 + fieldAt f.octant.val 5
    + fieldAt f.cls 1 + 1)

/-- Write an entry; into an empty queue it raises vector 2,044. -/
def State.faqPush (s : State) (f : FaqRec) : State :=
  let r := s.repair.faq.push (f.bits s.tick)
  let s := { s with repair := { s.repair with faq := r.1 } }
  if r.2 then s.raiseBoth 2044 else s

/-- Append pages to the bad-page list, while it has room; a page that the list has is appended again (R88) (DESIGN CHOICE, log 148). -/
def State.listBad (s : State) (cls : BitVec 4) (pages : List (BitVec 36)) : State :=
  pages.foldl (fun (s : State) p =>
    if s.repair.bpl.length < 4096 then { s with repair := { s.repair with bpl := s.repair.bpl ++ [(cls, p)] } } else s) s

/-- The 64 KiB frame of a line. -/
def frameOf (line : Nat) : BitVec 36 := BitVec.ofNat 36 (line * 128 / 65536)

/-- The global L3 slice of a line. -/
def globalSlice (line : Nat) : Nat := (homeOf (line * 128)).val * 32 + l3Slice (line * 128)

/-! ## Values on their way to a wave -/

/-- A number inside bounds that the manual leaves open, no earlier than the current tick (log 9). -/
def State.freeTick (s : State) (hi : Nat) : Nat × State :=
  if hi ≤ s.tick then (s.tick, s)
  else (s.tick + (Config.freeWord s.free).toNat % (hi - s.tick + 1), { s with free := s.free + 1 })

/-- The accesses that a request brings a part of: its own, or those that wait for the fetch of a private line's sectors (R184). -/
def State.waiters (s : State) (r : Req) : List (Wave × Access) :=
  if r.priv && r.quiet then
    s.allWaves.flatMap fun (w : Wave) => (w.accs.filter fun (a : Access) => a.waits.contains r.id).map fun a => (w, a)
  else match r.acc, s.wave? r.wave with
    | some id, some w => ((w.acc? id).map fun a => (w, a)).toList
    | _, _ => []

/-- The accesses of a request that have a promise. -/
def State.promised (s : State) (r : Req) : List (Wave × Access) :=
  (s.waiters r).filter fun p => p.2.kind == .load || p.2.kind == .probe || p.2.kind == .atom

/-- Send a refinement of a request to its accesses (DESIGN CHOICE, log 115). -/
def State.refineTo (s : State) (r : Req) (tick : Nat) : State :=
  (s.promised r).foldl (fun (s : State) p =>
    (s.modWave p.1.uid fun w => w.modAcc p.2.id fun a => { a with refines := a.refines ++ [(r.id, tick)] }).due (.refinement p.1.slot p.2.id)) s

/-- An exact refinement, no later than a bound from the issue tick, as published then (R197-R199) (DESIGN CHOICE, log 115). -/
def State.refineExact (s : State) (r : Req) (bound : Nat) : State :=
  if (s.promised r).isEmpty then s
  else
    let t := s.freeTick (r.issued + bound + (if r.heldAt.isSome then s.capHold else 0))
    t.2.refineTo r t.1

/-- An access receives its parts of a line. -/
def Access.receive (a : Access) (id : Nat) (d : BitVec 1024) (bad : BitVec 4) : Access :=
  let a := (lanesOf (a.lanesOfReq id)).foldl (fun (a : Access) L =>
    ((a.sources[L]).filter fun p => p.1 == id).foldl (fun (a : Access) p =>
      a.deposit L p.2.2.2 (lineNat d p.2.1 p.2.2.1) (badBytes bad p.2.1 p.2.2.1)) a) a
  { a with waits := a.waits.filter (· != id) }

/-- Bring a line to the accesses that wait for it. -/
def State.deliver (s : State) (r : Req) (d : BitVec 1024) (bad : BitVec 4) : State :=
  (s.waiters r).foldl (fun (s : State) p =>
    (s.modWave p.1.uid fun w => w.modAcc p.2.id fun a => a.receive r.id d bad).due
      (if p.2.kind = .copy then .copyComplete p.1.slot p.2.id else .valueArrival p.1.slot p.2.id)) s

/-- An earlier request of the same wave for the same line that a test holds of (DEDUCED, log 54). -/
def State.earlier (s : State) (r : Req) (p : Req → Bool) : Bool :=
  s.reqs.any fun (q : Req) => q.wave == r.wave && q.line == r.line && q.before r && p q

/-- Is a read that has not read its value? -/
def Req.unread (r : Req) : Bool :=
  (match r.kind with
    | .read _ => true
    | .take _ => true
    | .write => false
    | .atomic _ _ => false
    | .mreq => false
    | .event _ => false) && r.stage != .reply && r.stage != .fill

/-- Is a write that is not stamped? -/
def Req.unstamped (r : Req) : Bool := r.kind.isWrite && (r.stage == .l2 || r.stage == .stamp)

/-! ## Losses (R52, R54) -/

/-- Psihel takes HSEM (R97). -/
def State.takeHsem (s : State) : State :=
  let h := s.hsem
  { s with hsem := { h with owner := 3, preempted := h.preempted || h.owner == 1 || h.owner == 2
                            last := if h.owner = 1 then false else if h.owner = 2 then true else h.last } }

/-- Start an epoch change (R54). While one runs a further loss starts none (DESIGN CHOICE, log 124). -/
def State.startEpoch (s : State) (cause : Oct) (remove : Option Oct) : State :=
  if s.epoch.running then s
  else
    let s := { s.takeHsem with epoch := { running := true, cause := cause, remove := remove } }
    (List.finRange 8).foldl (fun (s : State) (o : Oct) => s.due (.stop o)) s

/-- An octant detects n losses (R52): each is counted, and they start an epoch change. -/
def State.lossN (s : State) (o : Oct) (n : Nat) : State :=
  (s.modOct o fun x => { x with cf := { x.cf with losses := BitVec.ofNat 8 (Nat.min 255 (x.cf.losses.toNat + n)) } }).startEpoch o none

/-- An octant detects a loss. -/
def State.loss (s : State) (o : Oct) : State := s.lossN o 1

/-! ## Packets -/

/-- Put a packet on its path (DESIGN CHOICE, log 25). -/
def State.post (s : State) (src dst : Oct) (wire : Wire) (e : Instr) : State :=
  ({ s with flights := s.flights ++ [({ src := src, dst := dst, epoch := s.octs[src].cf.epoch, wire := wire } : Flight)] }).due e

/-- Does a packet have a reserved control subtype (R40)? STOP, STOPPED, DRAINED and RESUME have happenings of their own and are on no path between octants. -/
def Wire.reservedSub : Wire → Bool
  | .ctl sub => decide (7 ≤ sub.toNat)
  | _ => false

/-- Take the oldest packet of a path when it is of a kind (R22, R40): answers what it carries and the state without it. A packet of another
epoch, with a non-zero reserved field or of a reserved subtype is discarded, and counted as stale or as a loss. -/
def State.take (s : State) (src dst : Oct) (kind : Wire → Bool) : Option Wire × State :=
  match s.flights.find? fun (f : Flight) => f.src == src && f.dst == dst with
  | none => (none, s)
  | some f =>
    let ill := f.reserved != 0 || f.wire.reservedSub
    if !kind f.wire && !ill then (none, s)
    else
      let n := s.flights.findIdx fun (f : Flight) => f.src == src && f.dst == dst
      let s := { s with flights := s.flights.eraseIdx n }
      let own := s.octs[dst].cf.epoch
      if f.epoch = own ∧ !ill then (some f.wire, s)
      else if f.epoch + 1 = own then
        (none, s.modOct dst fun x => { x with cf := { x.cf with stale := if x.cf.stale = BitVec.allOnes 8 then x.cf.stale else x.cf.stale + 1 } })
      else (none, s.loss dst)

/-- The type and the control subtype of a packet (R40). An invalidation of an L2 copy (R63) is no packet of that table. -/
def Wire.code : Wire → Option (Nat × Nat)
  | .wr _ => some (0, 0)
  | .wrel _ => some (1, 0)
  | .rd _ => some (2, 0)
  | .racq _ => some (3, 0)
  | .rply _ _ => some (4, 0)
  | .aply _ _ _ => some (5, 0)
  | .bcn _ => some (6, 0)
  | .refuse _ => some (7, 0)
  | .mreq _ => some (7, 5)
  | .mrply _ _ _ => some (7, 6)
  | .inval _ => none
  | .ctl sub => some (7, sub.toNat)

/-- The request that a packet belongs to. -/
def Wire.request (s : State) : Wire → Option Req
  | .wr r => s.req? r
  | .wrel r => s.req? r
  | .rd r => s.req? r
  | .racq r => s.req? r
  | .rply r _ => s.req? r
  | .aply r _ _ => s.req? r
  | .bcn _ => none
  | .refuse _ => none
  | .mreq r => s.req? r
  | .mrply r _ _ => s.req? r
  | .inval _ => none
  | .ctl _ => none

/-- The vector of a packet's header: the column it was stamped with, or the home's applied vector (R39). -/
def Wire.vector (s : State) (w : Wire) : CVec :=
  match w with
  | .rply _ v => v
  | .aply _ v _ => v
  | .bcn v => v
  | .refuse v => v
  | .mrply _ v _ => v
  | _ => ((w.request s).map (·.vec)).getD CVec.zero

/-- The matrix behind a packet's header (R36, R39, R40): with a release write, an acquire reply and a matrix reply. -/
def Wire.matrix (s : State) (w : Wire) : Option CMat :=
  match w with
  | .wrel r => (s.req? r).bind (·.mat)
  | .aply _ _ m => some m
  | .mrply _ _ m => some m
  | _ => none

/-- The sector mask of the line in a packet's header, or its control subtype (R39). -/
def Wire.sub (s : State) (w : Wire) : Nat :=
  match w.code with
  | some (t, sub) => if t ≤ 3 then (((w.request s).map fun (r : Req) => touchedSectors r.mask).getD 0).toNat else sub
  | none => 0

/-- The causal header of a packet (R39). -/
def Flight.header (f : Flight) (s : State) : BitVec 128 :=
  let vec := ((List.finRange 8).map fun (k : Fin 8) => ((f.wire.vector s)[k]).toNat * 2 ^ (12 * k.val)).sum
  BitVec.ofNat 128 (f.epoch.toNat * 2 ^ 126 + ((f.wire.code.map (·.1)).getD 0) * 2 ^ 123 + f.src.val * 2 ^ 120 + f.dst.val * 2 ^ 117
    + ((f.wire.request s).map (·.ctx)).getD 0 * 2 ^ 105 + f.wire.sub s * 2 ^ 101 + f.reserved.toNat * 2 ^ 97
    + (f.wire.matrix s).isSome.toNat * 2 ^ 96 + vec)

/-- The matrix block that follows a header with mx = 1, and the address word of a line (R39). -/
def matrixBlock (m : CMat) : BitVec 768 :=
  BitVec.ofNat 768 (((List.finRange 8).map fun (i : Fin 8) => ((List.finRange 8).map fun (j : Fin 8) => ((m[i])[j]).toNat * 2 ^ (96 * i.val + 12 * j.val)).sum).sum)
def addressWord (r : Req) : DWord := BitVec.ofNat 64 (linePa r.target r.line)

/-- A beacon from a home to every site (R49). -/
def State.beacon (s : State) (h : Oct) : State :=
  if s.octs[h].cf.removed then s
  else
    let v := s.octs[h].a
    let s := s.modOct h fun x => { x with sentA := v }
    (List.finRange 8).foldl (fun (s : State) (o : Oct) => s.post h o (.bcn v) (.bcn h o)) s

/-! ## Replies -/

/-- Send a reply from the home: the line as it stands, and what the home knows (R47). -/
def State.sendReply (s : State) (r : Req) (d : BitVec 1024) (bad : BitVec 4) (cacheable : Bool) : State :=
  let h := s.octs[r.home]
  let s := s.modReq r.id fun r => { r with data := d, bad := bad, cacheable := cacheable && r.cacheable, stage := .reply, readAt := s.serial }
  let s := { s with serial := s.serial + 1 }
  let s := s.modWave r.wave fun w => { w with homes := w.homes ||| (1#8 <<< r.home.val) }
  if r.acquire then s.post r.home r.site (.aply r.id h.a h.h) (.aply r.home r.site) else s.post r.home r.site (.rply r.id h.a) (.rply r.home r.site)

/-- A read that the home may serve goes on to the L3 (R46); a matrix request is answered at once (R307). -/
def State.serveRead (s : State) (id : Nat) : State :=
  match s.req? id with
  | none => s
  | some r =>
    match r.kind with
    | .mreq =>
      let h := s.octs[r.home]
      (s.modReq id fun r => { r with stage := .reply }).post r.home r.site (.mrply id h.a h.h) (.mrply r.home r.site)
    | _ => (s.modReq id fun r => { r with stage := .l3 }).due (.l3ReadAccept id 0)

/-- Serve every held read of a home whose column is met, in arrival order. -/
def State.serveHeld (s : State) (h : Oct) : State :=
  let o := s.octs[h]
  let ok := o.held.filter fun id => match s.req? id with
    | some r => meets o.a r.vec
    | none => true
  let s := s.modOct h fun x => { x with held := x.held.filter fun id => !ok.contains id }
  ok.foldl (fun (s : State) id => s.serveRead id) s

/-- A late notice for the access of a request (R203) (DESIGN CHOICE, log 53). -/
def State.notice (s : State) (r : Req) (l : Late) : State :=
  (s.promised r).foldl (fun (s : State) p =>
    (s.modWave p.1.uid fun w => w.modAcc p.2.id fun a => { a with notices := a.notices ++ [(r.id, l)] }).due (.lateNotice p.1.slot p.2.id)) s

/-- The tick to which a link retry delays a write that a read held at its home waits for (R48). -/
def State.delayFor (s : State) (r : Req) : Option Nat :=
  (s.reqs.filter fun (w : Req) => w.kind.isWrite && w.stage == .wire && w.home == r.home && ge12 r.vec[w.site] w.seqNo
    && !ge12 (s.octs[r.home].a)[w.site] w.seqNo).foldl (fun (b : Option Nat) w => match w.delayed, b with
      | some t, some u => some (Nat.max t u)
      | some t, none => some t
      | none, b => b) none

/-- A read arrives at its home (R46). One that waits for a write which a link retry delays is given notice (R48). -/
def State.arriveRead (s : State) (id : Nat) : State :=
  match s.req? id with
  | none => s
  | some r =>
    if meets s.octs[r.home].a r.vec then s.serveRead id
    else
      let s := match s.delayFor r with
        | some t => s.notice r (.retry t)
        | none => s
      (s.modReq id fun r => { r with stage := .held, heldAt := some s.tick }).modOct r.home fun x => { x with held := x.held ++ [id] }

/-! ## Writes at a home (R41, R42) -/

/-- Applicable(W) (R41). -/
def State.applicable (s : State) (r : Req) : Bool :=
  let a := s.octs[r.home].a
  r.seqNo == a[r.site] + 1 && (List.finRange 8).all fun (k : Fin 8) => k == r.site || ge12 a[k] r.vec[k]

/-- May an applicable write be applied now: no snoop of a host cache is due or out for its line (R116), and a ticketed operation is the next of
its home (R310)? -/
def State.mayApply (s : State) (r : Req) : Bool :=
  s.applicable r && !s.hostHolds.contains r.line
    && (!r.ticketed || s.octs[r.home].atscNext == BitVec.ofNat 16 r.waitFor)

/-- Send the back-invalidate snoop that an applicable write waits for (R116) (DESIGN CHOICE, log 57). -/
def State.snoopFor (s : State) (r : Req) : State :=
  if s.applicable r && s.hostHolds.contains r.line && !r.snooped then
    { s.modReq r.id (fun r => { r with snooped := true }) with out := s.out ++ [.snoop r.id] }
  else s

/-- The old value of an atomic's location, and its new one, none when it is not performed (R83, R311, R419). -/
def State.atomicResult (s : State) (r : Req) (op : AtomOp) (cmp : Option DWord) : Nat × Option Nat :=
  let old := lineNat (s.mem.line r.line) r.offset r.size
  if badBytes (s.mem.lineBad r.line) r.offset r.size then (old, none)
  else match cmp with
    | some c => (old, if c.toNat % 2 ^ (8 * r.size) = old then some (r.data.toNat % 2 ^ (8 * r.size)) else some old)
    | none => (old, some (newValue op (8 * r.size) old (r.data.toNat % 2 ^ (8 * r.size))))

/-- A write of a core is performed: reads of the core that have read the line before it fill no L1 (R303, R319). -/
def State.staleFills (s : State) (r : Req) : State :=
  { s with reqs := s.reqs.map fun (q : Req) =>
      if q.core == r.core && q.line == r.line && q.kind.isRead && (q.stage == .reply || q.stage == .fill) then { q with fillL1 := false } else q }

/-- A home passes over the sub-numbers of ticketed operations that an epoch change discarded (R54, R310) (DEDUCED, log 147). -/
def Octant.skipLost (o : Octant) : Octant :=
  (List.range o.atscLost.length).foldl (fun (x : Octant) _ =>
    if x.atscLost.contains x.atscNext then { x with atscNext := x.atscNext + 1, atscLost := x.atscLost.erase x.atscNext } else x) o

/-- Perform a write's effect on memory at its home (R41, R63, R77, R83). -/
def State.perform (s : State) (r : Req) : State :=
  let s := if r.quiet then s else s.staleFills r
  match r.kind with
  | .write =>
    let s := (s.noteWrite r.home r.line r.ctx r.policy r.key).homeStore r.line r.mask r.data
    let s := if r.bad = 0 then s else { s with mem := s.mem.setLineBad r.line r.bad true }
    (s.modReq r.id fun r => { r with stage := .applied }).due (.homeAcknowledgement r.id)
  | .atomic op cmp =>
    let v := s.atomicResult r op cmp
    let s := match v.2 with
      | some n => ((s.recallL2 r.home r.line).noteWrite r.home r.line r.ctx r.policy none).homeStore r.line r.mask (lineAt n r.offset)
      | none => s
    let s := if r.ticketed then s.modOct r.home fun x => Octant.skipLost { x with atscNext := x.atscNext + 1 } else s
    (s.modReq r.id fun r => { r with stage := .alu, data := lineAt v.1 r.offset, refused := v.2.isNone, readAt := s.serial }).due (.homeAluAccept r.id)
  | .event _ =>
    let s := if badBytes (s.mem.lineBad r.line) r.offset 4 then s
      else
        let n := (lineNat (s.mem.line r.line) r.offset 4 + 1) % 2 ^ 32
        ((s.recallL2 r.home r.line).noteWrite r.home r.line r.ctx .dflt none).homeStore r.line r.mask (lineAt n r.offset)
    (s.modReq r.id fun r => { r with stage := .applied }).due (.eventAddAtHome r.id)
  | _ => s

/-- Has some count of a home advanced by 512 since its last beacon (R49)? -/
def Octant.mustBeacon (o : Octant) : Bool := (List.finRange 8).any fun (k : Fin 8) => decide (512 ≤ (o.a[k] - o.sentA[k]).toNat)

/-- Writes are applied, or lost: the waves that were seated while they stood stamped no longer wait for them (R316) (DEDUCED, log 28). -/
def State.unfence (s : State) (ids : List Nat) : State :=
  let waits (a : Access) : Bool := a.kind == .fence && a.waits.any ids.contains
  let to_ := s.allWaves.filter fun (w : Wave) => w.accs.any waits
  to_.foldl (fun (s : State) w => (w.accs.filter waits).foldl (fun (s : State) a =>
    (s.modWave w.uid fun w => w.modAcc a.id fun a => { a with waits := a.waits.filter fun n => !ids.contains n }).due (.valueArrival w.slot a.id)) s) s

/-- Apply(W) (R41): its bytes, its count and, for a release, its matrix, together. -/
def State.applyWrite (s : State) (r : Req) : State :=
  let s := s.modOct r.home fun x =>
    { x with a := x.a.set r.site r.seqNo, h := match r.mat with
        | some m => mergeMat x.h m
        | none => x.h }
  let s := (s.perform r).unfence [r.id]
  let s := if s.octs[r.home].mustBeacon then s.beacon r.home else s
  s.serveHeld r.home

/-- Rescan (R42): the oldest buffered write that may be applied, again and again. -/
def State.rescan (h : Oct) : Nat → State → State
  | 0, s => s
  | n + 1, s =>
    let buffered := s.octs[h].early.filterMap s.req?
    let s := buffered.foldl (fun (s : State) r => s.snoopFor r) s
    match buffered.find? fun r => s.mayApply r with
    | none => s
    | some r =>
      let s := s.modOct h fun x => { x with early := x.early.filter (· != r.id) }
      State.rescan h n (s.applyWrite r)

/-- Rescan a home's whole early buffer. -/
def State.rescanAll (s : State) (h : Oct) : State := State.rescan h (s.octs[h].early.length + 1) s

/-- Does a home turn a write away, because it refused an earlier one of its site that has not come again (R42)? -/
def Octant.turnsAway (o : Octant) (r : Req) : Bool :=
  match o.refusing[r.site] with
  | some q => q != r.seqNo
  | none => false

/-- A write arrives at its home (R42). One that has been applied, or waits already, was sent again and is discarded. -/
def State.arriveWrite (s : State) (id : Nat) : State :=
  match s.req? id with
  | none => s
  | some r =>
    let o := s.octs[r.home]
    if r.stage ≠ .wire then s
    else
      if o.turnsAway r then s
      else
        let s := s.modOct r.home fun x => { x with refusing := x.refusing.set r.site none }
        if s.mayApply r then (s.applyWrite r).rescanAll r.home
        else if o.early.length < 512 then
          let s := (s.modReq id fun r => { r with stage := .early }).modOct r.home fun x =>
            { x with early := x.early ++ [id], cf := { x.cf with ebufmax :=
                if x.cf.ebufmax.toNat < x.early.length + 1 then BitVec.ofNat 10 (x.early.length + 1) else x.cf.ebufmax } }
          s.snoopFor r
        else
          let s := s.modOct r.home fun x =>
            { x with refusing := x.refusing.set r.site (some r.seqNo)
                     cf := { x.cf with refusals := if x.cf.refusals = BitVec.allOnes 16 then x.cf.refusals else x.cf.refusals + 1 } }
          s.post r.home r.site (.refuse s.octs[r.home].a) (.refuse r.home r.site)

end Machine
end Sys2Proof
end

