-- ==== Sys2Proof/Machine/EvFabric.lean ====
section
/-! DEFINITION. The happenings of the causal fabric: stamping (R34-R38, R45), packets (R39-R47), beacons and losses (R48-R52, R203), and the
epoch change (R54-R56). -/

namespace Sys2Proof
namespace Machine

/-! ## Stamping (R34-R38, R45) -/

/-- The wave's loads and atomics before serial n have read their values (R305). -/
def State.readBefore (s : State) (uid n : Nat) : Bool :=
  match s.wave? uid with
  | some w => !(w.accs.any fun (a : Access) => (a.kind == .load || a.kind == .atom) && decide (a.id < n))
  | none => true

/-- Does an earlier word of the wave hold back the stamping of a write (R35, R302): a write that is not stamped, or lanes in a replay entry? -/
def State.stampBehind (s : State) (r : Req) : Bool :=
  (s.reqs.any fun (q : Req) => q.wave == r.wave && q.before r && q.unstamped
    && ((r.release && (q.target == Target.device || q.stage == .l2)) || q.release || q.line == r.line))
  || s.heldBy r.wave r.seq (fun h => releasesWord h.instr || (r.release && storesWord h.instr))
  || s.heldLine r.wave r.seq (r.va.toNat / 128)

/-- Has the ticketed operation its ticket, and has every lower ticket of its home been stamped (R310)? -/
def State.ticketOk (s : State) (r : Req) : Bool :=
  !r.ticketed || s.seq.tickets.any fun t => t.isOf r && t.g != 0
    && !(s.reqs.any fun (q : Req) => q.ticketed && q.home == r.home && q.unstamped && q.id != r.id
      && s.seq.tickets.any fun u => u.isOf q && u.g != 0 && decide (u.g < t.g))

/-- Has the window of R45, and the retry buffer of R44, room for a write to a home to which the site sends? -/
def State.windowOpen (s : State) (r : Req) : Bool :=
  let o := s.octs[r.site]
  decide ((((o.k[r.site])[r.home]) - o.shown[r.home]).toNat < 1024) && decide (o.retry.length < 4096) && o.refusedAt[r.home].isNone

/-- Is the write first among those that the stamper holds at the site for its home: they are stamped in their order (R45)? -/
def State.windowFirst (s : State) (r : Req) : Bool :=
  !(s.reqs.any fun (q : Req) => q.site == r.site && q.home == r.home && q.id != r.id && q.unstamped && match q.winHeld, r.winHeld with
    | some a, some b => decide (a < b)
    | some _, none => true
    | none, _ => false)

/-- Is a write ready to be stamped, but for the window of R45? (DEDUCED, log 54) -/
def State.stampReady (s : State) (r : Req) : Bool :=
  r.kind.isWrite && (r.stage == .stamp || (r.stage == .l2 && r.kind != .write)) && !s.octs[r.site].stopped && !s.stampBehind r
    && !(s.earlier r Req.unread && r.kind != .write) && (!r.release || s.readBefore r.wave (r.acc.getD r.seq))
    && (!r.sys || s.appliedBefore r.wave r.seq) && s.ticketOk r

/-- May a write be stamped? -/
def State.mayStamp (s : State) (r : Req) : Bool := s.stampReady r && s.windowOpen r && s.windowFirst r

/-- The stamper holds a write (R45). -/
def State.holdStamp (s : State) (r : Req) : State :=
  if s.stampReady r ∧ r.winHeld = none then { s with serial := s.serial + 1 }.modReq r.id fun q => { q with winHeld := some s.serial } else s

/-- An atomic or an addition that is stamped for a remote home: the site's copy of the line is old then, and what is on its way to the site fills
no L2 (R303). -/
def State.dropCopy (s : State) (r : Req) : State :=
  if r.kind = .write ∨ r.site = r.home then s
  else
    { s.modOct r.site fun x => { x with l2 := x.l2.filter fun (l : L2Line) => l.line != r.line } with
      reqs := s.reqs.map fun (q : Req) => if q.site == r.site && q.line == r.line && q.kind.isRead then { q with cacheable := false } else q }

/-- The ticket of a request ends (R310). -/
def State.dropTicket (s : State) (r : Req) : State :=
  { s with seq := { s.seq with tickets := s.seq.tickets.filter fun (t : Ticket) => !(r.ticketed && t.isOf r) } }

/-- A store to a line whose octant was removed is discarded and reported (R56); an atomic there ends as POISON (DEDUCED, log 60). -/
def State.noHome (s : State) (r : Req) : State :=
  let s := s.dropTicket r
  let s := s.faqPush { cls := 6, octant := r.site, sectors := touchedSectors r.mask, ctx := r.ctx, pa := linePa r.target r.line, pages := [frameOf r.line] }
  (s.deliver r 0 15).dropReq r.id

/-- STAMP_WRITE (R34): the count of the path rises, and the write takes its column, a release the whole matrix. One homed at the site itself stands
at its home at once (R38). -/
def execStampWrite (req : Nat) (s : State) : Out1 :=
  match s.req? req with
  | none => .next s
  | some r =>
    if r.target ≠ .device then .next s
    else if !s.mayStamp r then .next (s.holdStamp r)
    else if s.octs[r.home].cf.removed then .next (s.noHome r)
    else
      let s := s.modOct r.site fun o =>
        { o with k := o.k.set r.site ((o.k[r.site]).set r.home ((o.k[r.site])[r.home] + 1)), retry := o.retry ++ [(req, s.tick)] }
      let k := s.octs[r.site].k
      let s := (s.modReq req fun r => { r with stage := .wire, vec := columnOf k r.home, mat := if r.release then some k else none }).dropCopy r
      let s := if r.site = r.home then s.arriveWrite req
        else if r.release then s.post r.site r.home (.wrel req) (.wrel r.site r.home) else s.post r.site r.home (.wr req) (.wr r.site r.home)
      .next (s.due (.triggerCount r.slot))

/-- Is a read's column covered at its site (R46, R50, R198)? -/
def State.coveredAt (s : State) (site home : Oct) : Bool :=
  let o := s.octs[site]
  if site = home then meets o.a (columnOf o.k home)
  else (List.finRange 8).all fun (k : Fin 8) => k == site || ge12 (o.bcn[home])[k] (o.k[k])[home]

/-- Must a read wait at the stamper: for the wave's own earlier writes to the home (R45, R303), or for a write of another wave to its line that the
site's L2 has accepted, that is ready to be stamped and that no window holds (R300) (DEDUCED, log 54)? -/
def State.readStampBehind (s : State) (r : Req) : Bool :=
  s.reqs.any fun (q : Req) => q.unstamped && q.home == r.home && q.target == Target.device &&
    ((q.wave == r.wave && q.before r) || (q.site == r.site && q.line == r.line && q.kind == .write && s.stampReady q && q.winHeld.isNone))

/-- STAMP_READ (R34, R45): the column without an increment, behind the writes to the home that the read waits for. -/
def execStampRead (req : Nat) (s : State) : Out1 :=
  match s.req? req with
  | none => .next s
  | some r =>
    let mreq := r.kind == .mreq
    if r.kind.isWrite || !(r.stage == .stamp || (mreq && r.stage == .l2)) || s.octs[r.site].stopped || s.readStampBehind r then .next s
    else if s.octs[r.home].cf.removed then
      if mreq then .next ((s.deliver r 0 0).dropReq req)
      else .next ((s.modReq req fun r => { r with stage := .fill, bad := 15, cacheable := false, fillL1 := false }).due (.l1Fill req))
    else
      let col := columnOf s.octs[r.site].k r.home
      let s := s.modReq req fun r => { r with stage := .wire, vec := col }
      let s := if s.coveredAt r.site r.home && !mreq then s.refineTo r (r.issued + capHbmOf r.g) else s
      .next (if mreq then s.post r.site r.home (.mreq req) (.mreq r.site r.home)
        else if r.acquire then s.post r.site r.home (.racq req) (.racq r.site r.home)
        else s.post r.site r.home (.rd req) (.rd r.site r.home))

/-! ## Arrivals at a home -/

def isWr : Wire → Bool
  | .wr _ => true
  | _ => false
def isWrel : Wire → Bool
  | .wrel _ => true
  | _ => false
def isRd : Wire → Bool
  | .rd _ => true
  | _ => false
def isRacq : Wire → Bool
  | .racq _ => true
  | _ => false
def isRply : Wire → Bool
  | .rply _ _ => true
  | _ => false
def isAply : Wire → Bool
  | .aply _ _ _ => true
  | _ => false
def isBcn : Wire → Bool
  | .bcn _ => true
  | _ => false
def isRefuse : Wire → Bool
  | .refuse _ => true
  | _ => false
def isMreq : Wire → Bool
  | .mreq _ => true
  | _ => false
def isMrply : Wire → Bool
  | .mrply _ _ _ => true
  | _ => false

/-- WR (R42). -/
def execWr (src dst : Oct) (s : State) : Out1 :=
  match s.take src dst isWr with
  | (some (.wr id), s) => .next (s.arriveWrite id)
  | (_, s) => .next s

/-- WREL (R42). -/
def execWrel (src dst : Oct) (s : State) : Out1 :=
  match s.take src dst isWrel with
  | (some (.wrel id), s) => .next (s.arriveWrite id)
  | (_, s) => .next s

/-- RD (R46). -/
def execRd (src dst : Oct) (s : State) : Out1 :=
  match s.take src dst isRd with
  | (some (.rd id), s) => .next (s.arriveRead id)
  | (_, s) => .next s

/-- RACQ (R46). -/
def execRacq (src dst : Oct) (s : State) : Out1 :=
  match s.take src dst isRacq with
  | (some (.racq id), s) => .next (s.arriveRead id)
  | (_, s) => .next s

/-- MREQ (R307). -/
def execMreq (src dst : Oct) (s : State) : Out1 :=
  match s.take src dst isMreq with
  | (some (.mreq id), s) => .next (s.arriveRead id)
  | (_, s) => .next s

/-! ## Arrivals at a site -/

/-- A reply with a line reaches the site: the L2 may keep a copy that no later write has made old and whose line the home's L3 still holds
(R61, R62), and the line goes to the core; an atomic's value goes to its access, and its ticket is done (R310). -/
def State.arriveReply (s : State) (id : Nat) : State :=
  match s.req? id with
  | none => s
  | some r =>
    match r.kind with
    | .atomic _ _ =>
      let s := s.dropTicket r
      let s := s.deliver r r.data (if r.refused then 15 else 0)
      let left := s.octs[r.site].retry.any fun p => p.1 == id
      if left then s.modReq id fun r => { r with stage := .applied, quiet := true, acc := none } else s.dropReq id
    | _ =>
      let keep := r.cacheable && (s.octs[r.home].l3Find r.line).isSome
      let s := if !keep then s
        else if (s.octs[r.site].l2Find r.line).isSome then
          if r.site = r.home then s
          else s.modOct r.site fun x => x.modL2 r.line fun l => { l with data := r.data, bad := r.bad, age := hitAge r.policy l.age }
        else
          let t := s.l2Insert r.site r.part { line := r.line, way := 0, age := fillAge r.policy, owner := r.ctx, data := r.data, bad := r.bad }
          if t.2 then t.1.modOct r.home fun x => x.modL3 r.line fun l => { l with sharers := l.sharers ||| (1#8 <<< r.site.val) } else t.1
      (s.modReq id fun r => { r with stage := .fill }).due (.l1Fill id)

/-- RPLY (R33). -/
def execRply (src dst : Oct) (s : State) : Out1 :=
  match s.take src dst isRply with
  | (some (.rply id v), s) => .next ((s.learn dst src v).arriveReply id)
  | (_, s) => .next s

/-- APLY (R33, R47): the matrix and the vector. -/
def execAply (src dst : Oct) (s : State) : Out1 :=
  match s.take src dst isAply with
  | (some (.aply id v m), s) => .next (((s.learnMat dst m).learn dst src v).arriveReply id)
  | (_, s) => .next s

/-- MRPLY (R307). -/
def execMrply (src dst : Oct) (s : State) : Out1 :=
  match s.take src dst isMrply with
  | (some (.mrply id v m), s) =>
    let s := (s.learnMat dst m).learn dst src v
    match s.req? id with
    | some r => .next ((s.deliver r 0 0).dropReq id)
    | none => .next s
  | (_, s) => .next s

/-- BCN (R51). -/
def execBcn (src dst : Oct) (s : State) : Out1 :=
  match s.take src dst isBcn with
  | (some (.bcn v), s) =>
    .next ((s.learn dst src v).modOct dst fun o => { o with bcn := o.bcn.set src v, bcnTick := o.bcnTick.set src s.tick })
  | (_, s) => .next s

/-- REFUSE (R44): the site stops sending to the home. -/
def execRefuse (src dst : Oct) (s : State) : Out1 :=
  match s.take src dst isRefuse with
  | (some (.refuse v), s) => .next ((s.learn dst src v).modOct dst fun o => { o with refusedAt := o.refusedAt.set src (some (s.tick + 64)) })
  | (_, s) => .next s

/-- Send again the writes of a site's retry buffer to a home, in sequence order. -/
def State.resend (s : State) (site home : Oct) : State :=
  (s.octs[site].retry).foldl (fun (s : State) p =>
    match s.req? p.1 with
    | some r =>
      if r.home ≠ home || r.stage != .wire && r.stage != .early then s
      else if r.release then s.post site home (.wrel r.id) (.wrel site home) else s.post site home (.wr r.id) (.wr site home)
    | none => s) s

/-- RETRY_RESEND (R44). -/
def execRetryResend (site home : Oct) (s : State) : Out1 :=
  match s.octs[site].refusedAt[home] with
  | none => .next s
  | some t =>
    if s.tick < t then .next s
    else .next ((s.modOct site fun o => { o with refusedAt := o.refusedAt.set home none }).resend site home)

/-! ## Beacons and losses (R49, R52, R203) -/

/-- BEACON_SEND (R49). -/
def execBeaconSend (s : State) : Out1 :=
  if s.tick % 256 ≠ 0 then .next s else .next ((List.finRange 8).foldl (fun (s : State) (h : Oct) => s.beacon h) s)

/-- BEACON_TIMEOUT (R52). -/
def execBeaconTimeout (site home : Oct) (s : State) : Out1 :=
  let o := s.octs[site]
  if o.cf.removed || s.octs[home].cf.removed || s.tick - o.bcnTick[home] < 4096 then .next s
  else .next ((s.modOct site fun o => { o with bcnTick := o.bcnTick.set home s.tick }).loss site)

/-- RETRY_BUFFER_TIMEOUT (R52): a loss for each write that has stayed too long, counted once. -/
def execRetryBufferTimeout (site : Oct) (s : State) : Out1 :=
  let n := s.octs[site].retry.countP fun p => decide (16384 ≤ s.tick - p.2)
  if n = 0 then .next s
  else .next ((s.modOct site fun o => { o with retry := o.retry.map fun p => if 16384 ≤ s.tick - p.2 then (p.1, s.tick) else p }).lossN site n)

/-- The boundaries that a packet crosses (R21, R22), each with the direction: towards the higher octant, or down to the lower. -/
def routeOf (src dst : Oct) : List (Nat × Bool) :=
  let row := src.val / 4
  let a := src.val % 4
  let b := dst.val % 4
  let along := if a ≤ b then (List.range (b - a)).map fun k => (row * 3 + a + k, false) else (List.range (a - b)).map fun k => (row * 3 + a - 1 - k, true)
  along ++ if row = dst.val / 4 then [] else [(6 + b, row == 1)]

/-- LINK_UNRECOVERABLE_FLIT (R52): the link loses the oldest packet that crosses into the octant; a loss (DEDUCED, log 59). -/
def execLinkUnrecoverableFlit (oct : Oct) (s : State) : Out1 :=
  let hit (f : Flight) : Bool := f.dst == oct && f.src != oct
  let s := if s.flights.any hit then { s with flights := s.flights.eraseIdx (s.flights.findIdx hit) } else s
  .next (s.loss oct)

/-- The request that a packet belongs to. -/
def Wire.req : Wire → Option Nat
  | .wr r => some r
  | .wrel r => some r
  | .rd r => some r
  | .racq r => some r
  | .rply r _ => some r
  | .aply r _ _ => some r
  | .bcn _ => none
  | .refuse _ => none
  | .mreq r => some r
  | .mrply r _ _ => some r
  | .inval _ => none
  | .ctl _ => none

/-- LINK_RETRY (R48, R203): packets that cross the boundary in a direction come due at a tick; the reads among them, their replies, and the
reads held at a home for a delayed write get late notices (DESIGN CHOICE, log 53). -/
def execLinkRetry (boundary : Fin 10) (down : Bool) (ticks : Nat) (s : State) : Out1 :=
  let hit := s.flights.filter fun (f : Flight) => (routeOf f.src f.dst).contains (boundary.val, down)
  let ids := hit.filterMap fun (f : Flight) => f.wire.req
  let s : State := { s with reqs := s.reqs.map fun (r : Req) => if ids.contains r.id && r.stage == .wire && r.kind.isWrite then { r with delayed := some ticks } else r }
  let late := s.reqs.filter fun (r : Req) => (ids.contains r.id && !r.kind.isWrite) || (ids.contains r.id && r.stage == .reply)
    || (r.stage == .held && s.delayFor r == some ticks)
  .next (late.foldl (fun (s : State) r => s.notice r (.retry ticks)) s)

/-! ## The epoch change (R54) -/

/-- STOP: the site stops stamping, its cores stop issuing memory instructions; what it has stamped is sent already. -/
def execStop (site : Oct) (s : State) : Out1 :=
  if !s.epoch.running then .next s
  else .next (({ s with epoch := { s.epoch with stopSent := s.epoch.stopSent ||| (1#8 <<< site.val) } }.modOct site fun o => { o with stopped := true }).due (.stopped site))

/-- Have all octants answered? -/
def allOcts (s : State) (m : BitVec 8) : Bool := (List.finRange 8).all fun (o : Fin 8) => m.getLsbD o.val || s.octs[o].cf.removed

/-- STOPPED: with the last one every site resends its whole retry buffer. -/
def execStopped (site : Oct) (s : State) : Out1 :=
  if !s.epoch.running || !s.octs[site].stopped || s.epoch.stopped.getLsbD site.val then .next s
  else
    let s := { s with epoch := { s.epoch with stopped := s.epoch.stopped ||| (1#8 <<< site.val), reported := s.epoch.reported ||| (1#8 <<< site.val) } }
    if allOcts s s.epoch.stopped then
      .next ((List.finRange 8).foldl (fun (s : State) (o : Oct) =>
        (List.finRange 8).foldl (fun (s : State) (h : Oct) => (s.modOct o fun x => { x with refusedAt := x.refusedAt.set h none }).resend o h) s) s)
    else .next s

/-- Does nothing at a home remain to be applied, served or answered (step 2)? -/
def State.homeDrained (s : State) (h : Oct) : Bool :=
  !(s.flights.any fun (f : Flight) => (f.src == h || f.dst == h) && !isBcn f.wire)
    && !(s.reqs.any fun (r : Req) => r.home == h && (r.stage == .l3 || r.stage == .hbm || r.stage == .mem || r.stage == .alu))
    && !((s.octs[h].early.filterMap s.req?).any fun r => s.mayApply r)

/-- End lanes of a wave's accesses as CANCELLED (R54, R206). -/
def Wave.cancelLanes (w : Wave) (a : Access) (m : Mask) : Wave := { w.endLanes a m fun _ _ => cancelTime with cancel := true, newCancel := true }

/-- Cancel a read that was not served (DEDUCED, log 60). -/
def State.cancelRead (s : State) (r : Req) : State :=
  let s := (s.waiters r).foldl (fun (s : State) p => s.modWave p.1.uid fun (w : Wave) =>
    if p.2.kind = AccKind.fence then { w with accs := w.accs.filter fun (b : Access) => b.id != p.2.id } else w.cancelLanes p.2 (p.2.lanesOfReq r.id)) s
  s.dropReq r.id

/-- A context is terminated with CAUSAL_LOSS (step 4). -/
def State.causalLoss (s : State) (ctx : Nat) : State :=
  (s.terminate ctx .context).record
    { cause := causeCode .causalLoss, ctx := ctx, part := s.partOf ctx, octant := s.epoch.cause, domain := 2 }

/-- Steps 3 to 5 of R54. -/
def State.clearFabric (s : State) : State :=
  let rem (o : Oct) : Bool := s.epoch.remove == some o
  let lost (r : Req) : Bool := r.target == Target.device &&
    ((r.kind.isWrite && (r.stage == .wire || r.stage == .early || ((rem r.home || rem r.site) && (r.stage == .l2 || r.stage == .stamp)))))
  let unserved (r : Req) : Bool := r.target == Target.device && !r.kind.isWrite && (r.stage == .wire || r.stage == .held || r.stage == .reply)
  let reads := s.reqs.filter unserved
  let writes := s.reqs.filter lost
  let onDead := (s.allWaves.filter fun w => rem (octOfCore (coreOfSlot w.slot))).map (·.ctx)
    ++ (s.sched.places.filter fun (p : Placing) => p.saved && rem (octOfCore p.group.core)).map (·.group.ctx)
  let gone (o : Oct) : List (BitVec 16) :=
    (writes.filter fun (r : Req) => r.ticketed && r.home == o && s.seq.tickets.any fun t => t.isOf r && t.g != 0).map fun r => BitVec.ofNat 16 r.waitFor
  let ctxs := ((reads.map (·.ctx)) ++ (writes.map (·.ctx)) ++ onDead).dedup
  let s := reads.foldl (fun (s : State) r => s.cancelRead r) s
  let s := ({ s with reqs := s.reqs.filter fun (r : Req) => !lost r } : State).unfence (writes.map (fun (r : Req) => r.id))
  let s := ctxs.foldl (fun (s : State) c => s.causalLoss c) s
  let s := { s with
    flights := s.flights.filter fun (f : Flight) => isBcn f.wire
    reqs := s.reqs.filter fun (r : Req) => !(r.stage == Stage.applied && r.quiet)
    octs := Vector.ofFn fun (o : Oct) =>
      let x := Octant.skipLost { s.octs[o] with atscLost := s.octs[o].atscLost ++ gone o }
      { x with
        k := CMat.zero, bcn := Vector.ofFn fun _ => CVec.zero, bcnTick := Vector.ofFn fun _ => s.tick, shown := CVec.zero, retry := []
        refusedAt := Vector.ofFn fun _ => none, a := CVec.zero, h := CMat.zero, early := [], refusing := Vector.ofFn fun _ => none, held := []
        sentA := CVec.zero, l2 := x.l2.filter fun (l : L2Line) => homeOf (l.line * 128) == o
        cf := { x.cf with epoch := x.cf.epoch + 1, removed := x.cf.removed || rem o } } }
  { s with c := s.c.l1Acquire, cores := s.cores.map Core.l1Acquire }

/-- DRAINED: with the last one the fabric is cleared, and RESUME is due. -/
def execDrained (home : Oct) (s : State) : Out1 :=
  if !s.epoch.running || !allOcts s s.epoch.stopped || s.epoch.drained.getLsbD home.val || !s.homeDrained home then .next s
  else
    let s := { s with epoch := { s.epoch with drained := s.epoch.drained ||| (1#8 <<< home.val) } }
    if allOcts s s.epoch.drained then .next (s.clearFabric.due .resume) else .next s

/-- Answer a request to remove an octant (R138). -/
def State.answerRemoval (s : State) : State :=
  if s.epoch.remove.isSome && s.trust.cmd == 3 && s.trust.status == 1 then { s with trust := { s.trust with status := 0 } } else s

/-- Loads that their site had not stamped at the STOP are late by the change: each receives a notice (R55, R215) (DESIGN CHOICE, log 144). -/
def State.noticeStopped (s : State) : State :=
  (s.reqs.filter fun (r : Req) => r.target == Target.device && !r.kind.isWrite && (r.stage == .l2 || r.stage == .stamp)).foldl
    (fun (s : State) r => s.notice r (.anew (s.tick + capHbmOf r.g + s.capHold))) s

/-- RESUME: homes send beacons, cores issue again, Psihel frees HSEM (R54, R97). -/
def execResume (s : State) : Out1 :=
  if !s.epoch.running || !allOcts s s.epoch.drained then .next s
  else
    let s := s.answerRemoval.noticeStopped
    let s := { s with
      epoch := {}
      hsem := { s.hsem with owner := 0 }
      octs := Vector.ofFn fun (o : Oct) => let x := s.octs[o]; { x with stopped := false } }
    .next ((List.finRange 8).foldl (fun (s : State) (h : Oct) => s.beacon h) s)

end Machine
end Sys2Proof
end

