-- ==== Sys2Proof/Machine/EvMemory.lean ====
section
/-! DEFINITION. The happenings of the caches, the homes and the stacks: probes and fills (R61-R63, R182-R184, R198), errors and repair
(R79-R90), stores and atomics on their way (R77, R184, R305, R423), events and snoops (R116, R155). -/

namespace Sys2Proof
namespace Machine

/-! ## Errors in cache lines (R89, R90) -/

/-- A CACHE_CLEAN entry for a line. -/
def State.cacheClean (s : State) (o : Oct) (line : Nat) (bad : BitVec 4) : State :=
  s.faqPush { cls := 2, octant := o, slice := globalSlice line, sectors := bad, pa := line * 128, pages := [frameOf line] }

/-- An uncorrectable sector in a dirty line (R90): poison at memory, quarantine, the owner's context terminated, the entry and the page. -/
def State.dataLoss (s : State) (o : Oct) (l3 : Bool) (line set way owner : Nat) (bad : BitVec 4) : State :=
  let s := { s with mem := s.mem.setLineBad line bad true }
  let s := s.modOct o fun x => { x with quarantined := x.quarantined ++ [(l3, set, way)] }
  let s := (s.terminate owner .context).record
    { cause := causeCode .dataLoss, ctx := owner, part := s.partOf owner, addr := line * 128, octant := o, domain := 2 }
  (s.faqPush { cls := 3, octant := o, slice := globalSlice line, sectors := bad, ctx := owner, pa := line * 128, pages := [frameOf line] }).listBad 3 [frameOf line]

/-- An uncorrectable sector is found in the copy that a home reads (R63, R89, R90): its own L2's where that holds the line, else its L3's. A clean copy
goes and the next level is read; a dirty one is lost. -/
def State.cacheError (s : State) (home : Oct) (line : Nat) (bad : BitVec 4) : State :=
  let o := s.octs[home]
  let gone (s : State) : State :=
    (s.modOct home fun x => { x with l3 := x.l3.filter fun (m : L3Line) => m.line != line }).l2Drop line none
  if bad = 0 then s
  else match o.l2Find line, o.l3Find line with
    | some m, _ =>
      if m.dirty then (gone s).dataLoss home false line (l2SetOf line) m.way m.owner bad
      else (s.modOct home fun x => { x with l2 := x.l2.filter fun (m : L2Line) => m.line != line }).cacheClean home line bad
    | none, some l =>
      if l.dirty then (gone s).dataLoss home true line (l3SetOf line) l.way l.owner bad else (gone s).cacheClean home line bad
    | none, none => s

/-- Does a home's cache hold a line, and is the copy that it reads dirty? -/
def Octant.holds (o : Octant) (line : Nat) : Bool := (o.l2Find line).isSome || (o.l3Find line).isSome
def Octant.readsDirty (o : Octant) (line : Nat) : Bool :=
  match o.l2Find line with
  | some m => m.dirty
  | none => o.l3Dirty line

/-- Is a request an atomic or an addition that stands before its home, which reads its line first (R77)? -/
def Req.readsFirst (r : Req) : Bool :=
  r.target == Target.device && (r.stage == .wire || r.stage == .early) && (match r.kind with
    | .atomic _ _ => true
    | .event _ => true
    | .read _ => false
    | .write => false
    | .take _ => false
    | .mreq => false)

/-! ## Reads (R50, R61, R62, R89, R198) -/

/-- Must a read wait at the L2 (R300, R303): for earlier requests of its wave for the line, for earlier words of it that are held and reach the line, for
a write of another wave to a line of the octant that is accepted and ready to be stamped; an engine's read for the earlier stores of the wave that
armed it (R294) (DEDUCED, log 19) (DEDUCED, log 54)? -/
def State.readBehind (s : State) (r : Req) : Bool :=
  (s.earlier r fun q => q.unread || (q.kind.isWrite && (q.stage == .l2 || (q.stage == .stamp && r.site == r.home))))
  || s.heldLine r.wave r.seq (r.va.toNat / 128)
  || (r.site == r.home && s.reqs.any fun (q : Req) => q.site == r.site && q.line == r.line && q.kind == .write && q.wave != r.wave && s.stampReady q && q.winHeld.isNone)
  || match r.eng with
    | some e => let x := (s.core r.core).engines[e]; s.unstampedBefore x.wave x.since
    | none => false

/-- Has a read to go to its home whatever the L2 holds: an acquire, a take, a read of an event (R47)? -/
def Req.toHome (r : Req) : Bool :=
  match r.kind with
  | .read home => home
  | .take _ => true
  | .write => false
  | .atomic _ _ => true
  | .mreq => true
  | .event _ => true

/-- The L2 serves a read (DEDUCED, log 19). -/
def State.serveL2 (s : State) (r : Req) (d : BitVec 1024) (bad : BitVec 4) : State :=
  let s := s.modOct r.site fun x => x.modL2 r.line fun l => { l with age := hitAge r.policy l.age }
  let s := s.modReq r.id fun r => { r with data := d, bad := bad, stage := .fill, readAt := s.serial }
  let s := { s with serial := s.serial + 1 }
  let s := if r.site = r.home then s.modWave r.wave fun w => { w with homes := w.homes ||| (1#8 <<< r.home.val) } else s
  (s.refineExact r (capL2Of s.cycle r.g)).due (.l1Fill r.id)

/-- A read goes to the stamper. -/
def State.toStamper (s : State) (id : Nat) : State := (s.modReq id fun r => { r with stage := .stamp }).due (.stampRead id)

/-- L2_PROBE_ACCEPT (R50, R61, R89, R198) (DESIGN CHOICE, log 114). -/
def execL2ProbeAccept (req : Nat) (bad : BitVec 4) (s : State) : Out1 :=
  match s.req? req with
  | none => .next s
  | some r =>
    if r.stage ≠ .l2 || r.kind.isWrite || r.target != Target.device || s.readBehind r then .next s
    else if r.toHome then .next (s.toStamper req)
    else
      match s.octs[r.site].l2Find r.line with
      | none => .next (s.toStamper req)
      | some l =>
        if !s.coveredAt r.site r.home then .next (s.toStamper req)
        else
          if r.site = r.home then
            if bad = 0 then .next (s.serveL2 r (s.mem.line r.line) (s.mem.lineBad r.line))
            else
              let t := s.cacheError r.site r.line bad
              .next (if l.dirty then t.serveL2 r (t.mem.line r.line) (t.mem.lineBad r.line) else t.toStamper req)
          else if bad = 0 then .next (s.serveL2 r l.data l.bad)
          else .next (((s.modOct r.site fun x => { x with l2 := x.l2.filter fun (m : L2Line) => m.line != r.line }).cacheClean r.site r.line bad).toStamper req)

/-- Is a take's key the line's recorded key (R76)? -/
def takes (k : ReqKind) (l : L3Line) : Bool :=
  match k with
  | .take key => l.key == some key
  | _ => false

/-- A matching `ldt` (R76, R314): its bytes are returned; the value that memory kept stands again; no copy stays (DEDUCED, log 118). -/
def State.takeLine (s : State) (r : Req) (l : L3Line) : State :=
  let s := s.sendReply r (s.mem.line r.line) (s.mem.lineBad r.line) false
  let s := (s.modOct r.home fun x => { x with l3 := x.l3.filter fun (m : L3Line) => m.line != r.line }).l2Drop r.line none
  let s := s.l1DropAll r.line
  { s with
    mem := (s.mem.store r.line (BitVec.allOnes 128) l.below).setLineBad r.line l.belowBad true
    reqs := s.reqs.map fun (q : Req) => if q.line == r.line && q.kind.isRead then { q with cacheable := false, fillL1 := false } else q }

/-- L3_READ_ACCEPT (R61-R63, R75, R76, R89, R90, R198). The line of an atomic is checked before it is performed. -/
def execL3ReadAccept (req : Nat) (bad : BitVec 4) (s : State) : Out1 :=
  match s.req? req with
  | none => .next s
  | some r =>
    if r.readsFirst then .next (s.cacheError r.home r.line bad)
    else if r.stage ≠ .l3 then .next s
    else
      let own := match r.kind with
        | .take _ => true
        | _ => false
      if own && s.hostHolds.contains r.line then
        if r.snooped then .next s
        else .next { s.modReq req (fun r => { r with snooped := true, heldAt := some s.tick }) with out := s.out ++ [.snoop req] }
      else if bad ≠ 0 && s.octs[r.home].holds r.line then
        let t := s.cacheError r.home r.line bad
        if s.octs[r.home].readsDirty r.line then
          .next ((t.refineExact r (capL3Of r.g)).sendReply r (t.mem.line r.line) (t.mem.lineBad r.line) false)
        else .next (t.due (.l3ReadAccept req 0))
      else
        match s.octs[r.home].l3Find r.line with
        | none => .next ((s.modReq req fun r => { r with stage := .hbm }).due (.hbmReadAccept req))
        | some l =>
          if takes r.kind l then .next ((s.refineExact r (capL3Of r.g)).takeLine r l)
          else
            let s := s.modOct r.home fun x =>
              if (x.l2Find r.line).isSome then x.modL2 r.line fun m => { m with age := hitAge r.policy m.age }
              else x.modL3 r.line fun m => { m with age := hitAge r.policy m.age }
            .next ((s.refineExact r (capL3Of r.g)).sendReply r (s.mem.line r.line) (s.mem.lineBad r.line) true)

/-- HBM_READ_ACCEPT (R198). -/
def execHbmReadAccept (req : Nat) (s : State) : Out1 :=
  match s.req? req with
  | none => .next s
  | some r =>
    if r.stage ≠ .hbm then .next s
    else .next (((s.modReq req fun r => { r with stage := .mem }).refineExact r (capHbmOf r.g)).due (.hbmDataReturn req .good))

/-! ## Errors in a stack (R80-R82, R86) -/

/-- The octant of a pseudo-channel, its channel, and the key of a bank. -/
def octOfPc (pc : Nat) : Oct := Fin.ofNat 8 (pc / 128)
def bankKey (pc bank : Nat) : Nat := pc * 16 + bank
def State.sparesUsed (s : State) (b : Nat) : Nat := ((s.repair.spareRows.find? fun p => p.1 == b).map (·.2)).getD 0
def State.remapsUsed (s : State) (ch : Nat) : Nat := ((s.repair.remaps.find? fun p => p.1 == ch).map (·.2)).getD 0

/-- Has the bank of a pseudo-channel, its channel and its octant no repair left (R86)? -/
def State.repairExhausted (s : State) (pc : Nat) (a : RowAddr) : Bool :=
  decide (2 ≤ s.sparesUsed (bankKey pc a.bank.toNat)) && decide (16 ≤ s.remapsUsed (pc / 2)) && decide (256 ≤ s.repair.granules[octOfPc pc])

/-- Write a CE_STUCK or UE entry, or REPAIR_EXHAUSTED and BANK_DEGRADED in its place (R86): the address gives the pseudo-channel and the octant (R24,
R60), the controller the bank and the row. The BANK_DEGRADED entry has the fields of the row that made it (DESIGN CHOICE, log 125). -/
def State.stackError (s : State) (cls : Nat) (line : Nat) (sectors : BitVec 4) (a : RowAddr) : State :=
  let pc := pseudoChannel (line * 128)
  let base : FaqRec := { cls := cls, octant := homeOf (line * 128), pc := pc, bank := a.bank.toNat, row := a.row.toNat, sectors := sectors, pa := line * 128, pages := a.pages }
  if s.repairExhausted pc a then
    let b := bankKey pc a.bank.toNat
    let s := (s.faqPush { base with cls := 4 }).listBad 4 a.pages
    let known := s.repair.exhausted.contains (b, a.row)
    let s := if known then s else { s with repair := { s.repair with exhausted := s.repair.exhausted ++ [(b, a.row)] } }
    if 4 ≤ (s.repair.exhausted.countP fun p => p.1 == b) ∧ !s.repair.degraded.contains b then
      ({ s with repair := { s.repair with degraded := s.repair.degraded ++ [b] } }).faqPush { base with cls := 5 }
    else s
  else s.faqPush base

/-- What the sector code finds in a line that is read from its stack (R80, R82). -/
def State.stackFinding (s : State) (line : Nat) (found : EccFinding) : State :=
  match found with
  | .good => s
  | .corrected sectors again a => if again then s.stackError 0 line sectors a else s
  | .uncorrectable sectors a => (({ s with mem := s.mem.setLineBad line sectors true }).stackError 1 line sectors a).listBad 1 [frameOf line]

/-- The finding for a request: the re-read of a correctable error delays it (R80). -/
def State.requestFinding (s : State) (r : Req) (found : EccFinding) : State :=
  (match found with
    | .corrected _ _ _ => s.notice r (.add 96)
    | .good => s
    | .uncorrectable _ _ => s).stackFinding r.line found

/-- HBM_DATA_RETURN (R62, R80, R82): the sector code's finding, an L3 entry when a victim is found, and the reply. The line of an atomic that no cache
of its home holds is read before it is performed. -/
def execHbmDataReturn (req : Nat) (found : EccFinding) (s : State) : Out1 :=
  match s.req? req with
  | none => .next s
  | some r =>
    if r.readsFirst then .next (if s.octs[r.home].holds r.line then s else s.requestFinding r found)
    else if r.stage ≠ .mem then .next s
    else
      let s := s.requestFinding r found
      let p := match s.octs[r.home].l3Find r.line with
        | some _ => (s, true)
        | none => s.l3Insert r.home r.part { line := r.line, way := 0, age := fillAge r.policy, owner := r.ctx }
      .next (p.1.sendReply r (s.mem.line r.line) (s.mem.lineBad r.line) p.2)

/-! ## The fill of the L1 (R182, R184, R319) -/

/-- A private line with the sectors that were missing filled; bytes a store had written stay (R184). -/
def L1Line.fillPriv (l : L1Line) (d : BitVec 1024) (bad : BitVec 4) : L1Line :=
  let have_ : BitVec 128 := (List.range 4).foldl (fun (v : BitVec 128) n => if l.valid.getLsbD n then v ||| (0xFFFFFFFF#128 <<< (32 * n)) else v) l.dirty
  { l with data := mergeLine d l.data have_, bad := l.bad ||| (bad &&& ~~~l.valid), valid := 15 }

/-- What a fill does to the core's L1. -/
def State.fillL1 (s : State) (r : Req) : State :=
  let c := s.core r.core
  let place := r.fillL1 && (r.priv || r.l1Seq == c.l1Seq) && (r.quiet || !s.writesOut r.core r.line)
  let fresh : L1Line := { line := r.line, set := l1Set r.va.toNat, way := 0, priv := r.priv, owner := r.wave, ctx := r.ctx, va := r.va, valid := 15
                          bad := r.bad, data := r.data, age := fillAge r.policy, readAt := r.readAt }
  let s :=
    match c.l1Find r.line with
    | some l =>
      if place && r.priv && l.priv then s.modCore r.core fun c => c.l1Mod r.line fun l => l.fillPriv r.data r.bad
      else if l.priv then s
      else if place && !r.priv then
        if l.readAt ≤ r.readAt then s.modCore r.core fun c => (c.l1Mod r.line fun l => { fresh with way := l.way, set := l.set, age := l.age }).l1Filled r.line else s
      else if l.readAt < r.readAt then s.modCore r.core fun c => { c with l1 := c.l1.filter fun (m : L1Line) => m.line != r.line }
      else s
    | none =>
      if place && (r.acc.isSome || !r.priv) && (!r.priv || (s.wave? r.wave).isSome) then
        let p := c.l1Insert fresh
        let s := s.modCore r.core fun _ => p.1.l1Filled r.line
        match p.2 with
        | some old => s.writeBack r.core old
        | none => s
      else s
  { s with reqs := s.reqs.map fun (q : Req) =>
      if q.core == r.core && q.line == r.line && q.id != r.id && q.kind.isRead && (q.stage == .reply || q.stage == .fill) && decide (q.readAt < r.readAt)
      then { q with fillL1 := false } else q }

/-- L1_FILL (R181-R184): the line reaches the core; its tracker entry is free. A read of host or peer memory is answered by its port once
the wave's earlier writes to the line have been acknowledged. -/
def execL1Fill (req : Nat) (s : State) : Out1 :=
  match s.req? req with
  | none => .next s
  | some r =>
    if r.target != Target.device then
      if r.kind.isWrite || r.stage != .l2 || s.earlier r (fun q => q.kind.isWrite) then .next s
      else match r.eng with
        | some e => .next ((s.engineDone { r with data := s.mem.line r.line, bad := s.mem.lineBad r.line } e).dropReq req)
        | none => .next ((s.deliver r (s.mem.line r.line) (s.mem.lineBad r.line)).dropReq req)
    else if r.stage ≠ .fill then .next s
    else if let some e := r.eng then .next ((s.engineDone r e).dropReq req)
    else
      let s := s.fillL1 r
      let d := match (if r.quiet then (s.core r.core).l1Find r.line else none) with
        | some l => (l.data, l.bad)
        | none => (mergeLine r.data r.underData r.under, r.bad)
      .next ((s.deliver r d.1 d.2).dropReq req)

/-! ## Stores and atomics (R61, R77, R184, R305, R423) -/

/-- The accesses and barriers that wait for a store's completion. -/
def State.storeDone (s : State) (r : Req) : State :=
  let s := match r.acc, s.wave? r.wave with
    | some id, some w =>
      (s.modWave r.wave fun w => w.modAcc id fun a => { a with waits := a.waits.filter (· != r.id) }).due (.copyComplete w.slot id)
    | _, _ => s
  (match r.eng with
    | some e => s.engineDone r e
    | none => s).countAll

/-- May a request go to its port: a release waits for what is before it, as at the stamper (R298, R305)? -/
def State.portOpen (s : State) (r : Req) : Bool :=
  !r.release || (s.readBefore r.wave (r.acc.getD r.seq) && !s.unstampedBefore r.wave r.seq && (!r.sys || s.appliedBefore r.wave r.seq))

/-- STORE_ACCEPT (R61, R184): the local copy of a remote line is updated, or goes for a `.fwd` store (R75) (DESIGN CHOICE, log 114). -/
def execStoreAccept (req : Nat) (s : State) : Out1 :=
  match s.req? req with
  | none => .next s
  | some r =>
    let behind := (s.earlier r fun q => q.unread || (q.kind.isWrite && q.stage == .l2)) || s.heldLine r.wave r.seq (r.va.toNat / 128)
    if r.kind ≠ .write || r.stage != .l2 || behind then .next s
    else if r.target != Target.device then
      if !s.portOpen r then .next s
      else .next (((s.modReq req fun r => { r with stage := .wire }).storeDone r).due (.homeAcknowledgement req))
    else
      let s := if r.site = r.home then s
        else
          let s := match s.octs[r.site].l2Find r.line with
            | none => s
            | some _ =>
              if r.key.isSome then s.modOct r.site fun x => { x with l2 := x.l2.filter fun (l : L2Line) => l.line != r.line }
              else (s.l2Take r.site r.line r.ctx).modOct r.site fun x => x.modL2 r.line fun l =>
                { l with data := mergeLine l.data r.data r.mask, bad := (l.bad &&& ~~~(fullSectors r.mask)) ||| r.bad, age := hitAge r.policy l.age }
          { s with reqs := s.reqs.map fun (q : Req) => if q.site == r.site && q.line == r.line && q.kind.isRead then { q with cacheable := false } else q }
      .next (((s.modReq req fun r => { r with stage := .stamp }).storeDone r).due (.stampWrite req))

/-- A write that is acknowledged: it stays in its site's retry buffer until shown applied. -/
def State.acknowledge (s : State) (r : Req) : State :=
  if s.octs[r.site].retry.any fun p => p.1 == r.id then s.modReq r.id fun r => { r with quiet := true, stage := .applied, acc := none } else s.dropReq r.id

/-- HOME_ACKNOWLEDGEMENT (R305): a home acknowledges a write it has applied, or a port one to host or peer memory. -/
def execHomeAcknowledgement (req : Nat) (s : State) : Out1 :=
  match s.req? req with
  | none => .next s
  | some r =>
    if r.kind ≠ .write then .next s
    else if r.target != Target.device then
      if r.stage ≠ .wire then .next s
      else
        let s := { s with mem := s.mem.store r.line r.mask r.data }
        let s := if r.bad = 0 then s else { s with mem := s.mem.setLineBad r.line r.bad true }
        .next (s.dropReq req)
    else if r.stage ≠ .applied then .next s
    else .next (s.acknowledge r)

/-- May a PCIe AtomicOp carry the operation (R423)? -/
def pcieAtomic (op : AtomOp) (cmp : Option DWord) : Bool := cmp.isSome || op == .add || op == .exch

/-- HOME_ALU_ACCEPT (R77, R198, R423): the operation has been performed in its turn; its reply is sent. An operation on host or peer memory is
performed by its port, where PCIe has it and the port takes it; the decrement of a signal always is (R109). -/
def execHomeAluAccept (req : Nat) (s : State) : Out1 :=
  match s.req? req with
  | none => .next s
  | some r =>
    match r.kind with
    | .atomic op cmp =>
      if r.target != Target.device then
        if r.stage ≠ .l2 || s.earlier r (fun q => q.kind.isWrite || q.unread) || !s.portOpen r then .next s
        else if r.signal || (r.acc.isSome && pcieAtomic op cmp && Config.portTakesAtomic s.free) then
          let s := { s with free := s.free + 1 }
          let v := s.atomicResult r op cmp
          let s := match v.2 with
            | some n => { s with mem := s.mem.store r.line r.mask (lineAt n r.offset) }
            | none => s
          .next (((s.deliver r (lineAt v.1 r.offset) (if v.2.isNone then 15 else 0)).dropReq req).homeAtomic r.line r.mask)
        else .next (({ s with free := s.free + 1 }.deliver r 0 15).dropReq req)
      else if r.stage ≠ .alu then .next s
      else
        let s := s.homeAtomic r.line r.mask
        if r.acc.isNone then .next (s.acknowledge r)
        else .next ((s.refineExact r (capHbmOf r.g)).sendReply r r.data 0 false)
    | _ => .next s

/-- EVENT_ADD_AT_HOME (R155): waits on the event are evaluated again. An addition to host or peer memory is not performed, as a `red` there
(R423) (DESIGN CHOICE, log 58). -/
def execEventAddAtHome (req : Nat) (s : State) : Out1 :=
  match s.req? req with
  | none => .next s
  | some r =>
    match r.kind with
    | .event name =>
      if r.target != Target.device then .next (s.dropReq req)
      else if r.stage ≠ .applied then .next s
      else .next ((s.eventChanged r.ctx name).acknowledge r)
    | _ => .next s

/-- BACK_INVALIDATE_RESPONSE (R116): the held access proceeds (DESIGN CHOICE, log 57). -/
def execBackInvalidateResponse (req : Nat) (s : State) : Out1 :=
  match s.req? req with
  | none => .next s
  | some r =>
    if !r.snooped then .next s
    else
      let s := { s.modReq req fun r => { r with snooped := false } with hostHolds := s.hostHolds.filter (· != r.line) }
      if r.kind.isWrite then .next (s.rescanAll r.home) else .next (s.due (.l3ReadAccept req 0))

/-! ## Repair (R84, R85, R87, R88) -/

/-- A MEMREPAIR write that is taken: its fields with busy and status. -/
def State.setRepair (s : State) (value : DWord) (busy : Bool) (status : Nat) : State :=
  { s with repair := { s.repair with memrepair := BitVec.ofNat 64 (2 ^ 63 * busy.toNat + 2 ^ 60 * status + 2 ^ 21 * (value.toNat % 2 ^ 60 / 2 ^ 21)) } }

/-- Is a MEMREPAIR command running? -/
def State.repairBusy (s : State) : Bool := s.repair.memrepair.getLsbD 63

/-- Fields of a MEMREPAIR value. -/
def repairPc (v : DWord) : Nat := v.toNat / 2 ^ 48 % 1024
def repairBank (v : DWord) : Nat := v.toNat / 2 ^ 44 % 16

def repairRow (v : DWord) : Nat := v.toNat / 2 ^ 26 % 2 ^ 18
def repairSector (v : DWord) : Nat := v.toNat / 2 ^ 21 % 32
def repairKind (v : DWord) : Nat := v.toNat / 2 ^ 58 % 4

/-- The sectors of memory that a command repairs: the whole row, or one sector of it for a granule. -/
def repairSectors (v : DWord) : List Nat :=
  ((if repairKind v = 2 then [repairSector v] else List.range 32).map fun k => Config.sectorAt (repairPc v) (repairBank v) (repairRow v) k).filter fun n =>
    pseudoChannel (n * 32) == repairPc v

/-- A repaired sector reads zero until it is written (R85): in memory, under the data of a dirty line (DESIGN CHOICE, log 55). -/
def State.zeroSector (s : State) (n : Nat) : State :=
  let home := homeOf (n / 4 * 128)
  let mask := byteMask (32 * (n % 4)) 32
  if s.octs[home].l2Dirty (n / 4) || s.octs[home].l3Dirty (n / 4) then
    s.modOct home fun o => o.modL3 (n / 4) fun x => { x with below := mergeLine x.below 0 mask, belowBad := x.belowBad &&& ~~~(fullSectors mask) }
  else { s with mem := s.mem.store (n / 4) mask 0 }

/-- A repair takes effect. -/
def State.repaired (s : State) (v : DWord) : State := (repairSectors v).foldl (fun (s : State) n => s.zeroSector n) s

/-- Count one more at a key. -/
def bump (l : List (Nat × Nat)) (k : Nat) : List (Nat × Nat) :=
  if l.any fun p => p.1 == k then l.map fun p => if p.1 = k then (k, p.2 + 1) else p else l ++ [(k, 1)]

/-- SPARE_ROW (R85): pending until the next entry to PS0 or PS1 from PS2 or PS3 (DESIGN CHOICE, log 55) (DEDUCED, log 56). No target of kinds 0 to 2 is
a bad one (DESIGN CHOICE, log 126). -/
def execSpareRow (value : DWord) (s : State) : Out1 :=
  let b := bankKey (repairPc value) (repairBank value)
  if s.repairBusy then .next s
  else if 2 ≤ s.sparesUsed b then .next (s.setRepair value false 2)
  else
    let s := s.setRepair value false 1
    .next { s with repair := { s.repair with spareRows := bump s.repair.spareRows b, pendingRows := s.repair.pendingRows ++ [value] } }

/-- ROW_REMAP (R85) (DESIGN CHOICE, log 55) (DEDUCED, log 56). -/
def execRowRemap (value : DWord) (s : State) : Out1 :=
  if s.repairBusy then .next s
  else if 16 ≤ s.remapsUsed (repairPc value / 2) then .next (s.setRepair value false 2)
  else
    let s := s.setRepair value true 1
    .next { s with repair := { s.repair with due := some (s.tick + 4096), remaps := bump s.repair.remaps (repairPc value / 2) } }

/-- SPARE_GRANULE (R85). -/
def execSpareGranule (value : DWord) (s : State) : Out1 :=
  let o := octOfPc (repairPc value)
  if s.repairBusy then .next s
  else if 256 ≤ s.repair.granules[o] then .next (s.setRepair value false 2)
  else
    let s := s.setRepair value true 1
    .next { s with repair := { s.repair with due := some (s.tick + 4096), granules := s.repair.granules.set o (s.repair.granules[o] + 1) } }

/-- MEMREPAIR_RESERVED_KIND (R84): status 3. -/
def execMemrepairReservedKind (value : DWord) (s : State) : Out1 := .next (if s.repairBusy then s else s.setRepair value false 3)

/-- REPAIR_COMPLETE (R85): done, and what was repaired reads zero. -/
def execRepairComplete (s : State) : Out1 :=
  if !s.repairBusy then .next s
  else
    let s := s.setRepair s.repair.memrepair false 0
    .next ({ s with repair := { s.repair with due := none } }.repaired s.repair.memrepair)

/-- FAQ_TAIL (R87). -/
def execFaqTail (value : Word) (s : State) : Out1 :=
  let v := value.toNat % 512
  .next (if (s.repair.faq.head + 512 - v) % 512 ≤ 256 then { s with repair := { s.repair with faq := { s.repair.faq with tail := v } } } else s)

/-- BPL_ADD (R88). -/
def execBplAdd (value : DWord) (s : State) : Out1 := .next (s.listBad 15 [value.setWidth 36])

/-- FREC_TAIL (R338). -/
def execFrecTail (value : Word) (s : State) : Out1 :=
  let v := value.toNat % 512
  .next (if (s.xlate.frec.head + 512 - v) % 512 ≤ 256 then { s with xlate := { s.xlate with frec := { s.xlate.frec with tail := v } } } else s)

end Machine
end Sys2Proof
end

