-- ==== Sys2Proof/Machine/EvFault.lean ====
section
/-! DEFINITION. Shootdown (R331), and the host's debug interface: halts, steps, the selected state and watchpoints (R339-R341). -/

namespace Sys2Proof
namespace Machine

/-! ## Shootdown (R331) -/

/-- The range that SHOOT_VA and SHOOT_LEN give: first address and bytes; 0 pages stand for the whole space. -/
def State.shootRange (s : State) : Nat × Nat :=
  let n := s.xlate.shootLen.toNat % 2 ^ 24
  if n = 0 then (0, 2 ^ 57) else (s.xlate.shootVa.toNat % 2 ^ 57 / 65536 * 65536, n * 65536)

/-- Do [a, a + n) and [b, b + m) overlap? -/
def overlap (a n b m : Nat) : Bool := decide (a < b + m) && decide (b < a + n)

/-- Does a translation of a context overlap a range? -/
def Tlb.inRange (e : Tlb) (ctx : Nat) (r : Nat × Nat) : Bool := e.ctx == ctx && overlap e.base e.size r.1 r.2

/-- Does an L1 line of a context lie in a range? -/
def L1Line.inRange (l : L1Line) (ctx : Nat) (r : Nat × Nat) : Bool := l.ctx == ctx && overlap l.va.toNat 128 r.1 r.2

/-- Step 2 in one core: dirty private lines are written back, every line of the range is invalid, fills in flight included. -/
def State.shootCore (s : State) (core ctx : Nat) (r : Nat × Nat) : State :=
  let s := ((s.core core).l1.filter fun (l : L1Line) => l.inRange ctx r).foldl (fun (s : State) l => s.writeBack core l) s
  s.modCore core fun c => { c with tlb := c.tlb.filter fun (e : Tlb) => !e.inRange ctx r, l1 := c.l1.filter fun (l : L1Line) => !l.inRange ctx r }

/-- The stream engines that work on a page of the range. -/
def State.shootEnginesOf (s : State) (ctx : Nat) (r : Nat × Nat) : List (Nat × Fin 4) :=
  s.allCores.flatMap fun (c : Core) => ((List.finRange 4).filter fun (e : Fin 4) =>
    let x := c.engines[e]
    let t := readTensor x.rec_
    (x.kind == .armed || x.kind == .cpt) && ((s.group? x.gid).elim false fun g => g.ctx == ctx)
      && ((t.vas.any fun v => overlap v 65536 r.1 r.2) || (t.dir == 2 && overlap x.move t.bytes r.1 r.2))).map fun e => (c.id, e)

/-- Has a request ended, with its store applied? -/
def Req.over (r : Req) : Bool := r.kind.isWrite && (r.stage == .applied || r.stage == .alu || r.stage == .reply)

/-- SHOOTDOWN: a write of SHOOT_CTL with go = 1. A range beyond 2^57 ends at once with status 1 (DEDUCED, log 79). -/
def execShootdown (value : DWord) (s : State) : Out1 :=
  if s.xlate.shootGo || !value.getLsbD 63 then .next s
  else
    let ctx := value.toNat / 2 ^ 48 % 4096
    let r := s.shootRange
    if 2 ^ 57 < r.1 + r.2 then .next { s with xlate := { s.xlate with shootCtx := BitVec.ofNat 12 ctx, shootStatus := 1 } }
    else
      let waits := (s.reqs.filter fun (q : Req) => q.ctx == ctx && !q.over).map (·.id)
      let engines := s.shootEnginesOf ctx r
      let first := s.serial
      let s := (s.allCores.map (·.id)).foldl (fun (s : State) c => s.shootCore c ctx r) s
      let s := { s with
        octs := Vector.ofFn fun (o : Oct) => let x := s.octs[o]
          { x with tlb2 := x.tlb2.filter fun (e : Tlb) => !e.inRange ctx r, pwc := x.pwc.filter fun (p : Pwc) => p.ctx != ctx }
        reqs := s.reqs.map fun (q : Req) => if q.ctx == ctx && q.kind.isRead && overlap q.va.toNat 128 r.1 r.2 then { q with fillL1 := false } else q }
      let backs := (s.reqs.filter fun (q : Req) => decide (first ≤ q.id)).map (·.id)
      .next ({ s with xlate := { s.xlate with
        shootGo := true, shootCtx := BitVec.ofNat 12 ctx, shootWait := waits ++ backs, shootEngines := engines } }.due .shootdownComplete)

/-- Does a shootdown still wait for an access or an engine (step 3)? (DEDUCED, log 79) -/
def State.shootWaits (s : State) : Bool :=
  (s.xlate.shootWait.any fun id => (s.req? id).elim false fun r => !r.over)
    || (s.xlate.shootEngines.any fun p => let k := ((s.core p.1).engines[p.2]).kind; k == .armed || k == .cpt)

/-- SHOOTDOWN_COMPLETE (step 4). -/
def execShootdownComplete (s : State) : Out1 :=
  if !s.xlate.shootGo || s.shootWaits then .next s
  else .next { s with xlate := { s.xlate with shootGo := false, shootStatus := 0, shootWait := [], shootEngines := [] } }

/-! ## Halt, resume, step (R339) -/

/-- The waves that a DBG_CTL value names: all of a context, or one wave slot of it. -/
def State.dbgWaves (s : State) (value : DWord) : List Wave :=
  let ctx := value.toNat / 2 ^ 49 % 4096
  s.allWaves.filter fun w => w.ctx == ctx && (value.getLsbD 61 || w.slot == value.toNat % 2 ^ 15)

/-- Set the result of DBG_STATUS. -/
def State.dbgDone (s : State) (result : Nat) : State := { s with xlate := { s.xlate with dbgResult := BitVec.ofNat 3 result } }

/-- DEBUG_HALT: the waves issue no further unit and their windows are written to the banks (DEDUCED, log 78). -/
def execDebugHalt (value : DWord) (s : State) : Out1 :=
  let l := s.dbgWaves value
  match l.getLast? with
  | none => .next (s.dbgDone 1)
  | some last =>
    let s := l.foldl (fun (s : State) w => s.modWave w.uid fun w => { w with halted := true, stepping := false, window := [] }) s
    .next { s.dbgDone 0 with xlate := { (s.dbgDone 0).xlate with dbgReason := 0, dbgWave := BitVec.ofNat 15 last.slot } }

/-- Let halted waves go on; a wave that is not halted gives result 2. -/
def State.dbgGo (s : State) (value : DWord) (f : Wave → Wave) : State :=
  let l := s.dbgWaves value
  if l.isEmpty then s.dbgDone 1
  else
    let halted := l.filter (·.halted)
    if halted.isEmpty then s.dbgDone 2 else (halted.foldl (fun (s : State) w => s.modWave w.uid f) s).dbgDone 0

/-- DEBUG_RESUME. -/
def execDebugResume (value : DWord) (s : State) : Out1 := .next (s.dbgGo value fun w => { w with halted := false, poked := [] })

/-- DEBUG_STEP: one unit issues, and the wave halts again (DEDUCED, log 78). -/
def execDebugStep (value : DWord) (s : State) : Out1 := .next (s.dbgGo value fun w => { w with halted := false, stepping := true, poked := [] })

/-! ## The selected state (R340) -/

/-- Fields of DBG_SEL. -/
def selFile (v : DWord) : Nat := v.toNat / 2 ^ 60
def selNumber (v : DWord) : Nat := v.toNat / 2 ^ 52 % 256
def selLane (v : DWord) : Lane := Fin.ofNat 32 (v.toNat / 2 ^ 47)

/-- The configuration bytes of an index register (R234). -/
def XReg.config (x : XReg) : Nat := x.base.toNat + 2 ^ 16 * x.bound.toNat + 2 ^ 32 * (x.step.signExtend 8).toNat

/-- The shape code of a register (R234). -/
def VReg.code : VReg → Nat
  | .u _ => 0
  | .a _ _ => 1
  | .g _ => 2
  | .coming _ => 0

/-- WSTAT (R204). -/
def Wave.wstat (w : Wave) : Nat := w.late.toNat + 2 * w.cancel.toNat + 2 ^ 48 * w.latecount.toNat

/-- What DBG_SEL selects in a wave. -/
def Wave.selected (w : Wave) (sel : DWord) : DWord :=
  let n := selNumber sel
  let L := selLane sel
  let r := w.regs
  match selFile sel with
  | 0 => ((r.v[Fin.ofNat 256 n]).lane L).zeroExtend 64
  | 1 => (r.sget (Fin.ofNat 64 n)).zeroExtend 64
  | 2 => BitVec.ofNat 64 (r.x[Fin.ofNat 16 n]).config
  | 3 => ((r.x[Fin.ofNat 16 n]).val[L]).zeroExtend 64
  | 4 => (r.t[Fin.ofNat 16 n])[L]
  | 5 => (r.kget (Fin.ofNat 8 n)).zeroExtend 64
  | 6 =>
    match w.front[n % 128]? with
    | some e => if n < 128 then e.mask ++ 0#32 else e.pc.zeroExtend 64
    | none => 0
  | 7 => BitVec.ofNat 64 w.wstat
  | 8 => BitVec.ofNat 64 (r.v[Fin.ofNat 256 n]).code
  | _ => 0

/-- A debugger's write of one lane: the register becomes G, or U once all 32 lanes have been written with one value (R238). -/
def Wave.pokeV (w : Wave) (n : Fin 256) (L : Lane) (v : Word) : Wave :=
  let w := w.writeLanes n (1#32 <<< L.val) fun _ => v
  let m : Mask := (1#32 <<< L.val) ||| ((w.poked.find? fun p => p.1 == n && p.2.2 == v).map (·.2.1)).getD 0
  let w := { w with poked := (w.poked.filter fun p => p.1 != n) ++ [(n, m, v)] }
  if m = BitVec.allOnes 32 then w.setV n (.u v) else w

/-- The wave with its selected state written; none when the write is refused (R340). -/
def Wave.poke (w : Wave) (sel v : DWord) : Option Wave :=
  let n := selNumber sel
  let L := selLane sel
  let low : Word := v.setWidth 32
  match selFile sel with
  | 0 =>
    if w.nregs ≤ n then none
    else
      let t := w.pokeV (Fin.ofNat 256 n) L low
      if w.wide < gCount t then none else some t
  | 1 => some (w.writeS (Fin.ofNat 64 n) low)
  | 2 =>
    let x : XNum := Fin.ofNat 16 n
    some (w.setX x { w.regs.x[x] with base := v.setWidth 8, bound := v.extractLsb' 16 9, step := v.extractLsb' 32 4 })
  | 3 =>
    let x : XNum := Fin.ofNat 16 n
    some (w.setX x ((w.regs.x[x]).setVal (1#32 <<< L.val) fun _ => v.setWidth 8))
  | 4 =>
    let w := w.writeT (Fin.ofNat 16 n) (1#32 <<< L.val) fun _ => v
    some { w with seen := { w.seen with t := w.regs.t } }
  | 5 => some (w.writeK (Fin.ofNat 8 n) low)
  | 6 =>
    if n < 128 then some w
    else some { w with front := mergeEntries (w.front.mapIdx fun i (e : Entry) => if i = n % 128 then { e with pc := v.setWidth 57, fetching := false, blocked := false } else e) }
  | 7 => some { w with late := v.getLsbD 0, cancel := v.getLsbD 1, latecount := v.extractLsb' 48 16 }
  | _ => some w

/-- The wave that DBG_SEL and DBG_DATA act on: that of the last halt, while it is halted. -/
def State.dbgTarget (s : State) : Option Wave := (s.atSlot s.xlate.dbgWave.toNat).bind fun w => if w.halted then some w else none

/-- DBG_DATA as it reads. -/
def State.dbgData (s : State) : DWord := (s.dbgTarget.map fun w => w.selected s.xlate.dbgSel).getD 0

/-- DBG_DATA_READ: the value goes to the reader. -/
def execDbgDataRead (s : State) : Out1 := .next { s with out := s.out ++ [.regData 0 0 0x30058 s.dbgData] }

/-- DBG_DATA_WRITE: result 2 with no halted wave, 3 where the write is refused. -/
def execDbgDataWrite (value : DWord) (s : State) : Out1 :=
  match s.dbgTarget with
  | none => .next (s.dbgDone 2)
  | some w =>
    match w.poke s.xlate.dbgSel value with
    | none => .next (s.dbgDone 3)
    | some v => .next ((s.modWave w.uid fun _ => v).dbgDone 0)

/-! ## Watchpoints (R341) -/

/-- A memory access as a watchpoint sees it. -/
structure Touch where
  store : Bool
  load : Bool
  ps : List Piece

/-- The accesses of the active lanes of a memory word; engine accesses are not watched. -/
def touches (i : Instr) (s : State) : List Touch :=
  let r := s.latch
  let act := s.cur.active
  let of (store load one : Bool) (ps : Lane → List Piece) : List Touch :=
    [{ store := store, load := load, ps := (lanesOf (accessLanes one act)).flatMap ps }]
  match i with
  | .ld m _ a b _ => of false true false (loadOf m a b false r act).ps
  | .sld m _ a b _ => of false true true (loadOf m a b true r act).ps
  | .ldp m _ a b _ => of false true false (ldpOf m a b r s.w.segbase).ps
  | .ldt m _ a b key _ => of false true false (ldtOf m a b key r).ps
  | .probe m a b _ => of false true false (probeOf m a b r).ps
  | .st m d a b key => of true false false (storeOf m d a b key false r).ps
  | .sst m d a b key => of true false true (storeOf m d a b key true r).ps
  | .stp m d a b => of true false false (stpOf m d a b r s.w.segbase).ps
  | .atom op m d a b _ => of true true false (atomOf op m d a b r).ps
  | .cas m d a b e _ => of true true false (casOf m d a b e r).ps
  | .atsc op m d a b _ => of true true false (atscOf op m d a b r).ps
  | .red op m d a b => of true true false (atomOf op m d a b r).ps
  | .hred op m d a b => of true true false (atomOf op m d a b r).ps
  | .wspill a b => [{ store := true, load := false, ps := runPieces (r.pair a) (runCount (r.sget b)) }]
  | .wfill a b => [{ store := false, load := true, ps := runPieces (r.pair a) (runCount (r.sget b)) }]
  | _ => []

/-- Does a watchpoint of a context (k = 0 to 3) catch an access? (DEDUCED, log 61) -/
def State.watchHit (s : State) (ctx : Nat) (t : Touch) (k : Nat) : Bool :=
  let lo := (regsGet s.xlate.dbg (ctx * 16 + 2 * k)).toNat
  let va := (regsGet s.xlate.dbg (ctx * 16 + 2 * k + 1)).toNat % 2 ^ 57
  let kind := lo / 2 ^ 56 % 4
  let size := 2 ^ (lo / 2 ^ 58)
  (match kind with
    | 0 => false
    | 1 => t.store
    | 2 => t.load
    | _ => true) && t.ps.any fun p => overlap p.va p.n (va / size * size) size

/-- Does a unit of the wave at issue overlap an enabled range? (DEDUCED, log 61) -/
def State.watched (s : State) (is : List Instr) : Bool :=
  !s.xlate.dbg.isEmpty && is.any fun i => (touches i s).any fun t => (List.range 4).any fun k => s.watchHit s.w.ctx t k

end Machine
end Sys2Proof
end

