-- ==== Sys2Proof/Machine/EvHost.lean ====
section
/-! DEFINITION. The host ports: HSEM (R96-R98), the fretboard and its installs (R66-R72, R125), MSI-X (R110), reads and writes of device memory
by hosts and peers (R57, R93, R114-R117), and peer requests (R112, R113). -/

namespace Sys2Proof
namespace Machine

/-! ## The management semaphore (R96-R98) -/

/-- The owner code of a port. -/
def ownerOf (p : Port) : BitVec 2 := BitVec.ofNat 2 (p.val + 1)

/-- Does a port hold HSEM? -/
def State.holds (s : State) (p : Port) : Bool := s.hsem.owner == ownerOf p

/-- A write of a guarded register: dropped and counted when the port does not hold HSEM (R98). Cold reset holds everything (R29). -/
def State.guarded (s : State) (p : Port) (f : State → State) : State :=
  if s.power.held then s
  else if s.holds p then f { s with hsem := { s.hsem with wrote := s.tick } }
  else { s with hsem := { s.hsem with denied := if s.hsem.denied = BitVec.allOnes 16 then s.hsem.denied else s.hsem.denied + 1 } }

/-- A port takes the semaphore, `had` having been the port that last held it. -/
def State.giveHsem (s : State) (p : Port) (had : Bool) : State :=
  { s with hsem := { owner := ownerOf p, last := p.val == 1, preempted := false, denied := 0, wrote := s.tick, took := some s.tick, hadLast := had } }

/-- HSEM_ACQUIRE: `both` when both ports write op 1 in this tick. The port other than last wins, also over one that took the free semaphore earlier in
the tick (R97). A write of the owner only renews its hold (DEDUCED, log 62). -/
def execHsemAcquire (p : Port) (both : Bool) (s : State) : Out1 :=
  let h := s.hsem
  if s.power.held then .next s
  else if h.owner = 0 then .next (s.giveHsem (if both then (if h.last then 0 else 1) else p) h.last)
  else if s.holds p then .next { s with hsem := { h with wrote := s.tick } }
  else if h.took = some s.tick ∧ (h.owner = 1 ∨ h.owner = 2) ∧ h.hadLast ≠ (p.val == 1) then .next (s.giveHsem p h.hadLast)
  else .next s

/-- The owning port loses HSEM. -/
def State.dropHsem (s : State) (p : Port) : State := if s.holds p then { s with hsem := { s.hsem with owner := 0 } } else s

/-- HSEM_RELEASE. -/
def execHsemRelease (p : Port) (s : State) : Out1 := .next (s.dropHsem p)

/-- FUNCTION_LEVEL_RESET of the owning port (R97). -/
def execFunctionLevelReset (p : Port) (s : State) : Out1 := .next (s.dropHsem p)

/-- LINK_DOWN of the owning port (R97). -/
def execLinkDown (p : Port) (s : State) : Out1 := .next (s.dropHsem p)

/-- HSEM_LAPSE: one second with no write from the owning port (R97). -/
def execHsemLapse (s : State) : Out1 :=
  let h := s.hsem
  .next (if (h.owner == 1 || h.owner == 2) && decide (Config.hsemLapse ≤ s.tick - h.wrote) then { s with hsem := { h with owner := 0 } } else s)

/-! ## Maps and their bounds (R66-R71) -/

/-- The owners of the 1,024 frets of a map. -/
def fretOwners (m : Vector DWord 64) : List Nat := m.toList.flatMap fun v => (List.range 16).map fun k => v.toNat / 16 ^ k % 16

/-- The longest run of frets, in order, that are not p's, after a run of `cur`. -/
def longestGap (p : Nat) : Nat → Nat → List Nat → Nat
  | _, best, [] => best
  | cur, best, o :: rest => if o = p then longestGap p 0 best rest else longestGap p (cur + 1) (Nat.max best (cur + 1)) rest

/-- G of a partition (R71): the longest cyclic run of ticks whose frets it does not own. -/
def gapOf (m : Vector DWord 64) (p : Nat) : Nat :=
  let l := fretOwners m
  Nat.min 1024 (longestGap p 0 0 (l ++ l)) * Config.fretTicks

/-- G during a transition (R68): the schedule follows the old map before T_i and the new one from T_i (DEDUCED, log 64). -/
def gapAcross (old new : Vector DWord 64) (p : Nat) : Nat :=
  longestGap p 0 0 (fretOwners old ++ fretOwners old ++ fretOwners new ++ fretOwners new) * Config.fretTicks

/-! ## Commit, check and install (R67, R68, R72, R125) -/

/-- FRET_COMMIT: a write of 1 starts a commit while none waits for its install (DEDUCED, log 63). -/
def execFretCommit (p : Port) (value : DWord) (s : State) : Out1 :=
  .next (s.guarded p fun s =>
    if value.toNat % 4 = 1 ∧ s.fret.state ≠ 1 then ({ s with fret := { s.fret with checking := some s.tick } }).due .fretMapCheck else s)

/-- Has a configuration no queues: does its range run down (R124)? -/
def PartConf.noQueues (c : PartConf) : Bool := decide (c.qlast.toNat < c.qfirst.toNat)

/-- The queues of two configurations overlap. -/
def PartConf.sharesQueue (a b : PartConf) : Bool :=
  decide (a.qfirst.toNat ≤ a.qlast.toNat) && decide (b.qfirst.toNat ≤ b.qlast.toNat)
    && decide (a.qfirst.toNat ≤ b.qlast.toNat) && decide (b.qfirst.toNat ≤ a.qlast.toNat)

/-- Do two partitions share a core, a port or a queue? -/
def PartConf.shares (a b : PartConf) : Bool :=
  a.valid && b.valid && (a.cores &&& b.cores != 0 || a.ports &&& b.ports != 0 || a.sharesQueue b)

/-- Is a route of a partition wrong: a reserved bit set, or a port that it does not own? -/
def PartConf.badRoute (c : PartConf) : Bool :=
  (List.finRange 16).any fun (k : Fin 16) =>
    let v := c.routes[k]
    v.toNat / 65536 % 2 ^ 47 != 0 || (v.getLsbD 63 && !c.ports.getLsbD (v.toNat % 16))

/-- Would an install change the cores, ports or queues of a valid partition? (DEDUCED, log 65) -/
def PartConf.changes (old new : PartConf) : Bool :=
  old.valid && (!new.valid || old.cores != new.cores || old.ports != new.ports
    || (!(old.noQueues && new.noQueues) && (old.qfirst != new.qfirst || old.qlast != new.qlast)))

/-- Does Psihel reject the map, the quotas and the partition registers as they are stored? (DEDUCED, log 65) -/
def State.rejects (s : State) : Bool :=
  let conf (p : Fin 8) : PartConf := (s.parts[p]).stored
  let l := List.finRange 8
  (fretOwners s.fret.stored).any (fun o => decide (8 < o))
    || l.any (fun (p : Fin 8) => (conf p).valid && (conf p).cores != 0 && decide (1024 < gapOf s.fret.stored p.val))
    || decide (16 < (l.map fun (p : Fin 8) => (s.parts[p]).quota.l3ways.toNat).sum)
    || decide (16 < (l.map fun (p : Fin 8) => (s.parts[p]).quota.l2ways.toNat).sum)
    || l.any (fun (p : Fin 8) => l.any fun (q : Fin 8) => decide (p.val < q.val) && (conf p).shares (conf q))
    || l.any (fun (p : Fin 8) => (conf p).badRoute)
    || l.any (fun (p : Fin 8) => (s.parts[p]).force.changes (conf p) && !(s.parts[p]).suspended)

/-- FRET_MAP_CHECK: Psihel accepts what is stored, with its install tick, or rejects it (DEDUCED, log 63). -/
def execFretMapCheck (s : State) : Out1 :=
  match s.fret.checking with
  | none => .next s
  | some t =>
    if s.rejects then .next { s with fret := { s.fret with checking := none, state := 2 } }
    else
      .next { s with fret := { s.fret with
        checking := none, state := 1, install := (t + Config.installLead + 4095) / 4096 * 4096
        staged := s.fret.stored, stagedParts := s.parts.toList.map fun (p : Partition) => (p.stored, p.quota) } }

/-- BOUND_TRANSITION_START: at T_i - 12,288. While an earlier transition still runs the larger bound holds (DEDUCED, log 64). -/
def execBoundTransitionStart (s : State) : Out1 :=
  if s.fret.state ≠ 1 ∨ s.tick + Config.boundLead < s.fret.install ∨ s.fret.install ≤ s.tick then .next s
  else
    let running := s.fret.started && s.fret.boundEnd.isSome
    .next { s with
      fret := { s.fret with started := true }
      parts := Vector.ofFn fun (p : Fin 8) =>
        let x := s.parts[p]
        let g := gapAcross s.fret.force s.fret.staged p.val
        { x with gTransition := if running then Nat.max x.gTransition g else g } }

/-- FRET_INSTALL: at T_i the map, the quotas and the partition registers change together. -/
def execFretInstall (s : State) : Out1 :=
  if s.fret.state ≠ 1 ∨ s.tick < s.fret.install then .next s
  else
    let s := { s with
      fret := { s.fret with state := 0, force := s.fret.staged, boundEnd := some (s.fret.install + Config.boundLead), stagedParts := [] }
      parts := Vector.ofFn fun (p : Fin 8) =>
        let x := s.parts[p]
        match s.fret.stagedParts[p.val]? with
        | some (c, q) => { x with force := c, quotaForce := q }
        | none => x }
    .next ((List.finRange 8).foldl (fun (s : State) (p : Fin 8) => s.due (.groupPlacement p)) s.pokeQueues)

/-- BOUND_TRANSITION_END: at T_i + 12,288 the new bounds are published, unless the transition of a next install has begun. -/
def execBoundTransitionEnd (s : State) : Out1 :=
  match s.fret.boundEnd with
  | none => .next s
  | some t =>
    if s.tick < t then .next s
    else
      let next := decide (s.fret.state = 1 ∧ s.fret.install ≤ s.tick + Config.boundLead)
      .next { s with
        fret := { s.fret with boundEnd := none, started := next }
        parts := Vector.ofFn fun (p : Fin 8) => let x := s.parts[p]; { x with gNow := gapOf s.fret.force p.val } }

/-! ## MSI-X (R110) -/

/-- MSIX_UNMASK: a pending interrupt is delivered. -/
def execMsixUnmask (p : Port) (fn vec : Nat) (s : State) : Out1 :=
  let m := s.msiVec p fn vec
  let s := s.setMsi { m with masked := false, pending := false }
  .next (if m.pending then { s with out := s.out ++ [.msix p fn vec] } else s)

/-! ## Reads and writes from outside (R57, R93, R114-R116) -/

/-- Does [pa, pa + n) lie in installed memory? -/
def inMemory (pa n : Nat) : Bool := decide (pa + n ≤ Config.installed)

/-- Write bytes of a line from outside: device memory at its home, where every L2 copy but the home's goes (R63, R114); host or peer memory as it is. The
sectors that poisoned bytes touch become poisoned (PRESUMED, log 128). -/
def State.outsideLine (s : State) (line : Nat) (mask : BitVec 128) (d : BitVec 1024) (poisoned : Bool) : State :=
  let s := if line * 128 < 2 ^ 52 then (s.noteOutside line).storeLine line mask d else { s with mem := s.mem.store line mask d }
  if poisoned then { s with mem := s.mem.setLineBad line (touchedSectors mask) true } else s

/-- Apply a write of a string of bytes line by line (DEDUCED, log 67). -/
def State.outsideWrite (s : State) (key : Nat) (b : List Byte) (poisoned : Bool) : State :=
  ((keyPieces key (b.length + 1) b.length).foldl (fun (p : State × List Byte) q =>
    (p.1.outsideLine (q.va / 128) (byteMask (q.va % 128) q.n) (lineAt (natOfBytes (p.2.take q.n)) (q.va % 128)) poisoned, p.2.drop q.n))
    (s, b)).1

/-- The lines of a range of keys. -/
def keyLines (pa n : Nat) : List Nat := (List.range ((n + 127) / 128 + 1)).filterMap fun k => if (pa / 128 + k) * 128 < pa + n then some (pa / 128 + k) else none

/-- A write of Psihel's own to device memory: the copies that a host cache may hold are invalidated (R116) (DESIGN CHOICE, log 57). -/
def State.ownWrite (s : State) (pa : Nat) (b : List Byte) : State :=
  let out := ((keyLines pa b.length).filter fun l => s.hostHolds.contains l).map Out.snoopLine
  let s := s.outsideWrite pa b false
  { s with out := s.out ++ out, hostHolds := s.hostHolds.filter fun l => !(keyLines pa b.length).contains l }

/-- Is a sector of a range of keys poisoned? -/
def Memory.rangeBad (m : Memory) (key n : Nat) : Bool := (List.range ((n + 31) / 32 + 1)).any fun k => decide ((key / 32 + k) * 32 < key + n) && m.isBad (key / 32 + k)

/-- The device physical address of an outsider's address: an offset of the window lies DEVWIN.base GiB higher (R93). -/
def State.addressOf (s : State) (src : Outsider) (o : Nat) : Nat :=
  match src with
  | .window _ => s.window.devwin.toNat * 2 ^ 30 + o
  | .host _ => o
  | .peer _ => o

/-- HOST_WRITE: applied at the homes in arrival order; beyond installed memory it completes with Unsupported Request (R93, R114) (DEDUCED, log 67)
(DESIGN CHOICE, log 98). -/
def execHostWrite (src : Outsider) (pa : Nat) (data : OutsideStore) (s : State) : Out1 :=
  if s.power.held then .next s
  else if inMemory (s.addressOf src pa) data.bytes.length then .next (s.outsideWrite (s.addressOf src pa) data.bytes data.poisoned)
  else .next { s with out := s.out ++ [.unsupported src pa] }

/-- What a read from outside finds in its first line: in the copy that its home's caches hold (R89, R90), else in the stack (R80, R82). -/
def State.outsideFinding (s : State) (key : Nat) (bad : BitVec 4) (found : EccFinding) : State :=
  if 2 ^ 52 ≤ key then s
  else
    let line := key / 128
    let home := homeOf (line * 128)
    if bad ≠ 0 && s.octs[home].holds line then
      let t := s.cacheError home line bad
      if s.octs[home].readsDirty line || t.octs[home].holds line then t else t.stackFinding line found
    else if s.octs[home].holds line then s
    else s.stackFinding line found

/-- HOST_READ: served at the home without a column. A host may cache what it reads through CXL.mem (R116) (DEDUCED, log 67) (DESIGN CHOICE, log 98). -/
def execHostRead (src : Outsider) (pa : Nat) (n : OutsideLoad) (s : State) : Out1 :=
  let at_ := s.addressOf src pa
  if s.power.held then .next s
  else if inMemory at_ n.len then
    let s := s.outsideFinding at_ n.bad n.found
    let s := { s with out := s.out ++ [.readData src pa (s.mem.bytes at_ n.len) (s.mem.rangeBad at_ n.len)] }
    match src with
    | .host _ => .next { s with hostHolds := (s.hostHolds ++ keyLines at_ n.len).dedup }
    | .window _ => .next s
    | .peer _ => .next s
  else .next { s with out := s.out ++ [.unsupported src pa] }

/-! ## Peer requests (R112, R113) -/

/-- The lowest-numbered valid ACT entry for a peer and a context. -/
def State.actEntry (s : State) (peer ctx : Nat) : Option Nat :=
  ((List.range 256).map fun k => (regsGet s.window.act k).toNat).find? fun v =>
    v / 2 ^ 63 == 1 && v / 2 ^ 48 % 4096 == peer && v / 2 ^ 36 % 4096 == ctx && v / 8 % 512 == 0

/-- A refused request: no effect, a negative response, and a count in the partition registers (DEDUCED, log 66). -/
def State.refusePeer (s : State) (peer : BitVec 12) (p : Fin 8) : State :=
  let x := s.parts[p]
  { s with parts := s.parts.set p { x with refused := if x.refused = BitVec.allOnes 16 then x.refused else x.refused + 1 }
           out := s.out ++ [.refused peer] }

/-- The target and key of a peer's address, where the context's tree maps it and allows the access. -/
def State.peerPlace (s : State) (ctx va : Nat) (need : Need) : Option Nat :=
  match s.walk ctx va with
  | .leaf e => if e.allows need then some (e.key va) else none
  | .absent _ => none

/-- PEER_REQUEST (DEDUCED, log 66). -/
def execPeerRequest (r : PeerReq) (s : State) : Out1 :=
  let ctx := r.ctx.toNat
  if s.power.held then .next s
  else match s.actEntry r.peer.toNat ctx with
  | none => .next (s.refusePeer r.peer (Fin.ofNat 8 (s.partOf ctx)))
  | some v =>
    let p : Fin 8 := Fin.ofNat 8 (v % 8)
    let s := if (s.rootOf ctx).isSome then s.loadCtx ctx else s
    if (s.rootOf ctx).isNone then .next (s.refusePeer r.peer p)
    else
      match r.op with
      | .load va n =>
        match (if v / 2 ^ 61 % 2 = 1 then s.peerPlace ctx va .read else none) with
        | some k =>
          let s := s.outsideFinding k r.bad r.found
          .next { s with out := s.out ++ [.peerData r.peer (s.mem.bytes k n) (s.mem.rangeBad k n)] }
        | none => .next (s.refusePeer r.peer p)
      | .store va data =>
        match (if v / 2 ^ 60 % 2 = 1 then s.peerPlace ctx va .write else none) with
        | some k => .next (s.outsideWrite k data false)
        | none => .next (s.refusePeer r.peer p)
      | .doorbell q value =>
        let allowed := v / 2 ^ 62 % 2 == 1 && decide (v / 2 ^ 24 % 4096 ≤ q) && decide (q ≤ v / 2 ^ 12 % 4096)
        if allowed && (s.queue? q).elim false (fun x => x.kind == 2) then .next (s.ring q value.toNat)
        else .next (s.refusePeer r.peer p)

end Machine
end Sys2Proof
end

