-- ==== Sys2Proof/Machine/EvIo.lean ====
section
/-! DEFINITION. I/O contexts (R117-R122): bindings, submissions, completion queues, timeouts. -/

namespace Sys2Proof
namespace Machine

/-! ## Bindings (R117, R118) -/

/-- The device addresses of an I/O context's queues (R117). -/
def IoCtx.sq (x : IoCtx) : Nat := x.field 344 40 * 4096
def IoCtx.cq (x : IoCtx) : Nat := (x.field 304 16 + x.field 320 24 * 2 ^ 16) * 4096

/-- Put a record in place, new or changed. -/
def State.putIo (s : State) (x : IoCtx) : State :=
  if s.ios.any fun (y : IoCtx) => y.n == x.n then { s with ios := s.ios.map fun (y : IoCtx) => if y.n = x.n then x else y }
  else { s with ios := s.ios ++ [x] }

/-- The record of an I/O context; one never written is all 0. -/
def State.ioRec (s : State) (n : Nat) : IoCtx := (s.io? n).getD { n := n }

/-- Does a record pass the checks of a binding? -/
def IoCtx.bindable (x : IoCtx) : Bool :=
  decide (2 ≤ x.depth) && decide (9 ≤ x.lbads) && decide (x.lbads ≤ 12)
    && inMemory x.sq (64 * x.depth) && inMemory x.cq (16 * x.depth)

/-- Fail every outstanding request of an I/O context. -/
def State.ioFailAll (s : State) (n : Nat) : State :=
  (((s.ioRec n).reqs.filter fun (r : IoReq) => !r.done).map (·.num)).foldl (fun (s : State) num => s.ioFail n num 2) s

/-- IO_CONTEXT_BIND: writing valid = 1. A rejected record sets status 1 and leaves valid at 0 (DEDUCED, log 68). -/
def execIoContextBind (n : Nat) (s : State) : Out1 :=
  let s := if (s.ioRec n).valid then s.ioFailAll n else s
  let x := s.ioRec n
  if 512 ≤ n then .next s
  else if x.bindable then
    .next (s.putIo { x with valid := true, status := 0, timeline := 0, issued := 0, firstfail := 0, reqs := [], sqTail := 0, cqHead := 0 })
  else .next (s.putIo { x with valid := false, status := 1 })

/-- IO_CONTEXT_UNBIND: clearing valid fails every outstanding request (R118, R121) (DEDUCED, log 68). -/
def execIoContextUnbind (n : Nat) (s : State) : Out1 :=
  if (s.ioRec n).valid then .next ((s.ioFailAll n).modIo n fun x => { x with valid := false }) else .next s

/-! ## Submission (R119) -/

/-- The command identifier of a request: its number modulo 2^16 (log 76). -/
def IoReq.cid (r : IoReq) : Nat := r.num % 65536

/-- A free 64-bit value (DESIGN CHOICE, log 9). -/
def State.freeDword (s : State) : DWord × State :=
  (Config.freeWord s.free ++ Config.freeWord (s.free + 1), { s with free := s.free + 2 })

/-- The entries of a request's PRP list: the first byte of its translated buffer, then each further page of 4 KiB (R119) (PRESUMED, log 76). -/
def IoReq.prps (r : IoReq) : List Nat :=
  r.pages.flatMap fun p => (List.range ((p.1 % 4096 + p.2 + 4095) / 4096)).map fun k => if k = 0 then p.1 else p.1 / 4096 * 4096 + 4096 * k

/-- The second pointer of a command: none, the second page, or the address of the list of the pages after the first, which is open (log 76). -/
def IoReq.prp2 (r : IoReq) (list : DWord) : Nat :=
  match r.prps with
  | [_, b] => b
  | _ :: _ :: _ => list.toNat
  | _ => 0

/-- The 64 bytes of an NVMe Read or Write command (log 76). -/
def IoReq.command (r : IoReq) (nsid : Nat) (list : DWord) : List Byte :=
  bytesOfNat ((if r.write then 1 else 2) + 2 ^ 16 * r.cid + 2 ^ 32 * nsid + 2 ^ 192 * (r.prps.headD 0)
    + 2 ^ 256 * r.prp2 list + 2 ^ 320 * r.lba.toNat + 2 ^ 384 * ((r.blocks - 1) % 65536)) 64

/-- The request that is submitted next: the lowest number not yet submitted. -/
def IoCtx.waiting (x : IoCtx) : Option IoReq := x.reqs.find? fun (r : IoReq) => r.submitted.isNone && !r.done

/-- Has the submission queue room, and is the request's identifier free? -/
def IoCtx.room (x : IoCtx) (r : IoReq) : Bool :=
  decide (x.reqs.countP (fun (q : IoReq) => q.submitted.isSome && (!q.done || q.late)) + 1 < x.depth)
    && !(x.reqs.any fun (q : IoReq) => q.num != r.num && q.submitted.isSome && (!q.done || q.late) && q.cid == r.cid)

/-- IO_SUBMISSION: a buffered request enters the submission queue, and the tail doorbell is written. -/
def execIoSubmission (n : Nat) (s : State) : Out1 :=
  let x := s.ioRec n
  match x.waiting with
  | none => .next s
  | some r =>
    if !x.valid || !x.room r then .next s
    else
      let list := decide (2 < r.prps.length)
      let f := if list then s.freeDword else (0, s)
      let s := f.2.putKey x.owner (x.sq + 64 * x.sqTail) (r.command (x.field 272 32) f.1)
      let s := if list then { s with out := s.out ++ [Out.prpList n r.num (r.prps.drop 1)] } else s
      let tail := (x.sqTail + 1) % x.depth
      let s := s.modIo n fun x => { x with sqTail := tail, reqs := x.reqs.map fun (q : IoReq) => if q.num = r.num then { q with submitted := some s.tick } else q }
      .next ({ s with out := s.out ++ [Out.nvmeDoorbell n x.regs[(7 : Fin 8)] (BitVec.ofNat 64 tail)] }.due (.ioSubmission n))

/-! ## Completions (R120, R121) -/

/-- A completion entry for a request: with a non-zero status it fails; after a timeout it only frees the identifier. -/
def State.ioCompletion (s : State) (n num status : Nat) : State :=
  match (s.ioRec n).reqs.find? fun (r : IoReq) => r.num == num && r.submitted.isSome with
  | none => s
  | some r =>
    let s :=
      if r.done then s.modIo n fun x => { x with reqs := x.reqs.filter fun (q : IoReq) => q.num != num || !(q.late && decide (q.num ≤ x.timeline.toNat)) }
      else if status = 0 then s.ioDone n num
      else s.ioFail n num 2
    let s := s.modIo n fun x => { x with reqs := x.reqs.map fun (q : IoReq) => if q.num = num then { q with late := false } else q }
    s.due (.ioSubmission n)

/-- NVME_COMPLETION. -/
def execNvmeCompletion (n num status : Nat) (s : State) : Out1 := .next (if (s.ioRec n).valid then s.ioCompletion n num status else s)

/-- Read the completion queue while its entries carry the phase of the current pass (log 76). -/
def State.readCq (n : Nat) : Nat → State → State
  | 0, s => s
  | fuel + 1, s =>
    let x := s.ioRec n
    let e := bitsOf (s.mem.bytes (x.cq + 16 * (x.cqHead % x.depth)) 16)
    if e 112 1 ≠ 1 - x.cqHead / x.depth % 2 then s
    else
      let s := s.modIo n fun x => { x with cqHead := x.cqHead + 1 }
      let s := match x.reqs.find? fun (r : IoReq) => r.cid == e 96 16 && r.submitted.isSome && (!r.done || r.late) with
        | some r => s.ioCompletion n r.num (e 113 15)
        | none => s
      State.readCq n fuel s

/-- Read a completion queue and write its head doorbell. -/
def State.pollCq (s : State) (n : Nat) : State :=
  let x := s.ioRec n
  if !x.valid then s
  else
    let s := State.readCq n x.depth s
    let head := (s.ioRec n).cqHead
    if head = x.cqHead then s
    else { s with out := s.out ++ [Out.nvmeDoorbell n x.regs[(6 : Fin 8)] (BitVec.ofNat 64 (head % x.depth))] }

/-- IONOTIFY: the engine reads the completion queue at once. -/
def execIonotify (n : Nat) (s : State) : Out1 := .next (s.pollCq n)

/-- CQ_POLL: every 1,024 ticks. -/
def execCqPoll (n : Nat) (s : State) : Out1 := .next (if s.tick % 1024 = 0 then s.pollCq n else s)

/-- IO_REQUEST_TIMEOUT (R121). -/
def execIoRequestTimeout (n num : Nat) (s : State) : Out1 :=
  match (s.ioRec n).reqs.find? fun (r : IoReq) => r.num == num && !r.done with
  | none => .next s
  | some r =>
    match r.submitted with
    | none => .next s
    | some t =>
      if s.tick < t + Config.ioTimeout then .next s
      else
        let s := s.modIo n fun x => { x with reqs := x.reqs.map fun (q : IoReq) => if q.num = num then { q with late := true } else q }
        .next (s.ioFail n num 3)

end Machine
end Sys2Proof
end

