-- ==== Sys2Proof/Machine/EvPower.lean ====
section
/-! DEFINITION. Power states (R128-R132), the power alarm and the power cap (R134, R135), energy (R136), cold reset and boot (R28, R29, R137),
firmware requests (R138, R139), and the finaliser (R140, R368-R370). -/

namespace Sys2Proof
namespace Machine

/-! ## Power states (R128-R130) -/

/-- An octant whose dies have been switched off: counters, buffers and caches are empty; what Psihel keeps stays (DEDUCED, log 69). -/
def Octant.off (o : Octant) (tick : Nat) : Octant :=
  { id := o.id, cf := o.cf, quarantined := o.quarantined, bcnTick := Vector.ofFn fun _ => tick }

/-- A power state in which the compute dies are off and memory is lost: memory reads zero when it is next entered (R130) (DEDUCED, log 69). -/
def State.loseMemory (s : State) : State :=
  { s with
    mem := {}, hostHolds := [], reqs := [], flights := [], seq := {}
    c := {}, cores := []
    octs := Vector.ofFn fun (o : Oct) => (s.octs[o]).off s.tick }

/-- Is no queue enabled and no group resident (R130)? -/
def State.idlePackage (s : State) : Bool := (s.queues.all fun (q : Queue) => q.state == 0) && s.allGroups.isEmpty

/-- A write of PSTATE.target (R129, R130). PS2 and PS3 are refused while a queue is enabled or a group resident (DEDUCED, log 70). -/
def State.commandPower (s : State) (t : BitVec 2) : State :=
  if s.power.busy || !s.trust.booted then s
  else if 2 ≤ t.toNat ∧ !s.idlePackage then { s with power := { s.power with target := t, err := 1 } }
  else ({ s with power := { s.power with target := t, err := 0, busy := true, due := s.tick } }).due .powerTransition

def execPstatePs0 (p : Port) (s : State) : Out1 := .next (s.guarded p fun s => s.commandPower 0)
def execPstatePs1 (p : Port) (s : State) : Out1 := .next (s.guarded p fun s => s.commandPower 1)
def execPstatePs2 (p : Port) (s : State) : Out1 := .next (s.guarded p fun s => s.commandPower 2)
def execPstatePs3 (p : Port) (s : State) : Out1 := .next (s.guarded p fun s => s.commandPower 3)

/-- Does the Bow stand at a step boundary (R278): idle, or before a step whose fetch is over? -/
def Bow.atBoundary (b : Bow) (tick : Nat) : Bool :=
  match b.state with
  | .idle => true
  | .wake => decide (b.leave ≤ tick)
  | .fetch => decide (b.leave ≤ tick)
  | .step => false
  | .drain => false
  | .stop => false

/-- Has a core no replay entry of an access, no scratchpad or accumulator access on its way, and its Bow at a step boundary? -/
def Core.quiet (c : Core) (tick : Nat) : Bool :=
  (c.held.all fun (h : Held) => h.need == Need.fetch) && ((List.finRange 4).all fun (i : Fin 4) => decide (c.q[i] ≤ tick))
    && decide (c.qa ≤ tick) && c.accWaits.isEmpty && c.bow.atBoundary tick

/-- Has every access of every core landed (R129, R215), and does every Bow stand at a step boundary (R278)? (DEDUCED, log 70) -/
def State.quiet (s : State) : Bool :=
  (s.reqs.all fun (r : Req) => r.stage == .applied || r.eng.isSome) && (s.allWaves.all fun w => w.accs.isEmpty) && s.allCores.all fun c => c.quiet s.tick

/-- Pending spare rows are fused (R85). -/
def State.fuseRows (s : State) : State :=
  if s.repair.pendingRows.isEmpty then s
  else
    let v := s.repair.memrepair
    let s := s.repair.pendingRows.foldl (fun (s : State) v => s.repaired v) { s with repair := { s.repair with pendingRows := [] } }
    if v.toNat / 2 ^ 60 % 8 = 1 ∧ v.toNat / 2 ^ 58 % 4 = 0 then s.setRepair v false 0 else s

/-- The idle interval of a matrix engine begins anew when its core enters a working state (R133). -/
def Core.woken (c : Core) (tick : Nat) : Core :=
  if c.bow.state = .idle then { c with bow := { c.bow with idleSince := tick, gated := false } } else c

/-- POWER_TRANSITION: at the next multiple of 4,096 ticks after quiescence. PS2 and PS3 are refused when a queue is enabled or a group resident by
then (R130). Leaving PS2 or PS3 for a working state fuses pending spare rows, starts the idle intervals of the matrix engines (R133) and the waits
for beacons anew (DEDUCED, log 70). -/
def execPowerTransition (s : State) : Out1 :=
  if !s.power.busy || s.epoch.running || s.tick % 4096 != 0 || !s.quiet then .next s
  else if 2 ≤ s.power.target.toNat ∧ !s.idlePackage then .next { s with power := { s.power with err := 1, busy := false } }
  else
    let old := s.power.cur
    let new := s.power.target
    let wakes := decide (2 ≤ old.toNat ∧ new.toNat ≤ 1)
    let s := if old = 3 ∨ new = 3 then s.loseMemory else s
    let s := if wakes then
        let s := s.fuseRows
        { s with octs := Vector.ofFn fun (o : Oct) => let x := s.octs[o]; { x with bcnTick := Vector.ofFn fun _ => s.tick }
                 c := s.c.woken s.tick
                 cores := s.cores.map fun c => c.woken s.tick }
      else s
    let s := { s with power := { s.power with cur := new, busy := false, since := if wakes then s.tick else s.power.since } }
    .next ((List.finRange 8).foldl (fun (s : State) (p : Fin 8) => s.due (.groupPlacement p)) s)

/-! ## Gating, alarm and cap (R133-R136) -/

/-- MXGATE: thr. -/
def execMxgate (p : Port) (value : DWord) (s : State) : Out1 :=
  .next (s.guarded p fun s => { s with power := { s.power with mxgate := value.setWidth 32 } })

/-- PWRALARM: alarm and exempt. -/
def execPwralarm (p : Port) (value : DWord) (s : State) : Out1 :=
  .next (s.guarded p fun s => { s with power := { s.power with alarm := value.getLsbD 8, exempt := value.setWidth 8 } })

/-- The cap in force: 0 and values above 4,000 act as 4,000 (R135). -/
def Power.capWatts (p : Power) : Nat := if p.cap = 0 ∨ 4000 < p.cap.toNat then 4000 else p.cap.toNat

/-- POWER_WINDOW_END: at each multiple of 250,000 ticks, the average of the window that ends (R135) (DESIGN CHOICE, log 127). -/
def execPowerWindowEnd (avg : BitVec 16) (s : State) : Out1 :=
  if s.tick = 0 ∨ s.tick % Config.powerWindow ≠ 0 then .next s
  else
  let exceeded := decide (s.power.capWatts < avg.toNat)
  let was := s.power.exceeded
  let s := { s with power := { s.power with avg := avg, exceeded := exceeded } }
  .next (if exceeded && !was then s.raiseBoth 2043 else s)

/-- Add a context's share of energy to its root RCB, where one is due: every 2,500,000 ticks, or for a context that was terminated (R136, R143). -/
def State.addShare (s : State) (p : Nat × Nat) : State :=
  if s.tick % Config.energyPeriod = 0 ∨ s.power.owing.contains p.1 then
    let s := { s with power := { s.power with owing := s.power.owing.filter (· != p.1) } }
    match s.rootOf p.1 with
    | some pa => s.putKey p.1 (pa + 120) (bytesOfNat ((s.mem.dword (pa + 120)).toNat + p.2) 8)
    | none => s
  else s

/-- ENERGY_ACCOUNT: shares in microjoules (DESIGN CHOICE, log 77). -/
def execEnergyAccount (shares : List (Nat × Nat)) (s : State) : Out1 := .next (shares.foldl State.addShare s)

/-- THERMAL_ALERT and its end (R134). -/
def execThermalAlert (s : State) : Out1 := .next { s with power := { s.power with hot := true } }
def execThermalAlertDeassert (s : State) : Out1 := .next { s with power := { s.power with hot := false } }

/-- CRITICAL_TEMPERATURE_STOP: every context is terminated, PS3 is forced, FWMBOX.status reports it (DEDUCED, log 72). -/
def execCriticalTemperatureStop (s : State) : Out1 :=
  let s := ((s.x :: s.ctxs).map (·.id)).foldl (fun (s : State) c => s.terminate c .context) s
  let s := s.loseMemory
  let hsem := if s.epoch.running then { s.hsem with owner := 0 } else s.hsem
  .next { s with power := { s.power with cur := 3, target := 3, busy := false }, epoch := {}, trust := { s.trust with status := 5 }, hsem := hsem }

/-! ## Cold reset and boot (R28, R29, R137) -/

/-- What survives cold reset: repairs and the bad-page list, the flash, the fused rollback counter, and the count of free values (DEDUCED, log 73). -/
def State.cold (s : State) : State :=
  { State.reset with
    tick := s.tick, out := s.out, script := s.script, serial := s.serial, free := s.free
    power := { ({} : Power) with held := true, hot := s.power.hot }
    repair := { spareRows := s.repair.spareRows, remaps := s.repair.remaps, granules := s.repair.granules, bpl := s.repair.bpl
                exhausted := s.repair.exhausted, degraded := s.repair.degraded }
    trust := { flash := s.trust.flash, rollback := s.trust.rollback } }

/-- COLD_RESET: every octant is held in reset (DEDUCED, log 73). -/
def execColdReset (s : State) : Out1 := .next s.cold

/-- The step of R137 at which the boot of an image fails. -/
def bootFails (image : List Byte) (rollback : Nat) : Option Nat :=
  if !Config.imageSigned image then some 3 else if Config.imageVersion image < rollback then some 4 else none

/-- The 32 bytes of a digest, low byte first. -/
def digestBytes (d : BitVec 256) : List Byte := (List.range 32).map fun n => d.extractLsb' (8 * n) 8

/-- MEAS0 to MEAS7 of a boot: each register is extended with what it measures. -/
def measuresOf (image : List Byte) : Vector (BitVec 256) 8 :=
  Vector.ofFn fun i =>
    if i.val = 0 then Config.shake256 ((List.range 32).map (fun _ => (0 : Byte)) ++ digestBytes (Config.shake256 image)) else Config.stageMeasure i.val

/-- COLD_RESET_RELEASE: the tick count is zero, and Psihel boots; it holds HSEM while it brings the package up (R97, R137). A failed check leaves the
octants in reset, in PS3, and nothing but another cold reset boots them (DEDUCED, log 73). -/
def execColdResetRelease (s : State) : Out1 :=
  if !s.power.held then .next s
  else
    let s := { s with tick := 0 }
    match bootFails s.trust.flash s.trust.rollback with
    | some step => .next { s with power := { s.power with held := false }, trust := { s.trust with status := 6, arg := BitVec.ofNat 48 step } }
    | none =>
      let cache := if s.trust.running = s.trust.flash then s.trust.cache else []
      let s := s.takeHsem
      .next { s with hsem := { s.hsem with owner := 0 }
                     power := { s.power with held := false }
                     trust := { s.trust with running := s.trust.flash, booted := true, meas := measuresOf s.trust.flash, cache := cache } }

/-! ## Firmware requests (R138, R139) -/

/-- Start a request of FWMBOX: ignored while status = 1. -/
def State.firmware (s : State) (p : Port) (cmd : Nat) (arg : BitVec 48) (f : State → State) : State :=
  s.guarded p fun s =>
    if s.trust.status = 1 then s else f { s with trust := { s.trust with cmd := BitVec.ofNat 8 cmd, arg := arg } }

/-- The outcome of a request. -/
def State.fwStatus (s : State) (n : Nat) : State := { s with trust := { s.trust with status := BitVec.ofNat 8 n } }

/-- FIRMWARE_INSTALL: verified as steps 2-4 of R137 and stored. A change of image clears the finaliser's cache (R140) (DEDUCED, log 74). -/
def execFirmwareInstall (p : Port) (arg : BitVec 48) (s : State) : Out1 :=
  .next (s.firmware p 1 arg fun s =>
    let pa := arg.toNat * 16
    let n := Config.imageLength (s.mem.bytes pa 4096)
    let image := s.mem.bytes pa n
    if !inMemory pa n then s.fwStatus 4
    else match bootFails image s.trust.rollback with
      | some 3 => s.fwStatus 2
      | some _ => s.fwStatus 3
      | none => { s with trust := { s.trust with flash := image, cache := [], status := 0 } })

/-- The contents of an attestation report (R139): in the order in which the rule lists them; the numbers take 8 bytes each (DESIGN CHOICE, log 130). -/
def State.report (s : State) (nonce : List Byte) : List Byte :=
  (s.trust.meas.toList.flatMap digestBytes) ++ nonce ++ bytesOfNat s.trust.rollback 8 ++ bytesOfNat Config.generation 8 ++ bytesOfNat Config.chipId.toNat 8

/-- ATTEST: the signed report goes behind the nonce. -/
def execAttest (p : Port) (arg : BitVec 48) (s : State) : Out1 :=
  .next (s.firmware p 2 arg fun s =>
    let pa := arg.toNat * 16
    let signed := Config.signReport (s.report (s.mem.bytes pa 64))
    if inMemory pa (64 + signed.length) then (s.ownWrite (pa + 64) signed).fwStatus 0 else s.fwStatus 4)

/-- REMOVE_OCTANT: arg[2:0] names the octant; busy until the epoch change has ended (R54, R56). No octant has detected a loss: the fault records
name the octant that is removed (DESIGN CHOICE, log 129). -/
def execRemoveOctant (p : Port) (arg : BitVec 48) (s : State) : Out1 :=
  let oct : Oct := Fin.ofNat 8 arg.toNat
  .next (s.firmware p 3 arg fun s => (s.fwStatus 1).startEpoch oct (some oct))

/-- RAISE_ROLLBACK: the counter never falls. -/
def execRaiseRollback (w : RollbackWrite) (s : State) : Out1 :=
  .next (s.firmware w.port 4 w.arg fun s =>
    { s.fwStatus 0 with trust := { (s.fwStatus 0).trust with rollback := Nat.max s.trust.rollback (Config.imageVersion s.trust.running) } })

/-- FWMBOX_NO_COMMAND: cmd 0 and 5 to 255 (DEDUCED, log 75). -/
def execFwmboxNoCommand (p : Port) (value : DWord) (s : State) : Out1 :=
  .next (s.firmware p (value.toNat / 2 ^ 56) (value.setWidth 48) fun s => s.fwStatus 4)

/-! ## The finaliser (R140, R368-R370) -/

/-- Fields of a Trimi word (R368). -/
def trimiKind (w : DWord) : Nat := w.toNat / 2 ^ 62
def trimiMajor (w : DWord) : Nat := w.toNat / 2 ^ 55 % 128

/-- The native word and prefix of a Trimi instruction word: lf, payload and fields; a required prefix is added (R369). -/
def trimiCode (w : DWord) : Code :=
  let m := trimiMajor w
  let lf := w.getLsbD 54 || prefixRequired m
  { payload := if lf then some (w.extractLsb' 31 23) else none, word := BitVec.ofNat 32 (m * 8388608 + w.toNat / 256 % 8388608) }

/-- The branch offset of an instruction (R368). -/
def branchOff (i : Instr) : Option (BitVec 19) :=
  match i with
  | .br o => some o
  | .bc _ o => some o
  | .bvAny _ o => some o
  | .bvAll _ o => some o
  | .call _ o => some o
  | _ => none

/-- Does an instruction name a direct register at or above `regs`? -/
def namesBeyond (regs : Nat) (i : Instr) : Bool :=
  let u := uses i
  (u.vr ++ u.vw ++ u.vn).any fun o => match o.1 with
    | .dir n => decide (regs ≤ n.val + o.2.1)
    | .idx _ => false
    | .inc _ => false
    | .dec _ => false

/-- Is word n of an object acceptable (R370)? -/
def trimiWordOk (regs : Nat) (ws : List DWord) (n : Nat) (w : DWord) : Bool :=
  match trimiKind w with
  | 0 =>
    w.toNat % 256 == 0 && (w.getLsbD 54 || w.extractLsb' 31 23 == 0#23) && trimiMajor w != 0x7E &&
      match legal (trimiCode w) with
      | none => false
      | some i => !namesBeyond regs i && match branchOff i with
        | none => true
        | some o =>
          let t := (n : Int) + o.toInt
          decide (0 ≤ t) && (ws[t.toNat]?).elim false fun v => trimiKind v == 1
  | 1 => w.toNat % 2 ^ 54 == 0
  | _ => false

/-- Does the finaliser accept an object? -/
def trimiOk (o : TrimiObj) : Bool :=
  let d := readKDesc o.desc
  o.desc.length == 256 && !d.bad && (o.words.mapIdx fun n w => trimiWordOk d.regs o.words n w).all id

/-- The bytes of an object, and the key of its native code: the digest of its bytes with the generation's 8 bytes behind them (DESIGN CHOICE, log 131). -/
def trimiBytes (o : TrimiObj) : List Byte := o.desc ++ o.words.flatMap fun w => bytesOfNat w.toNat 8
def trimiDigest (o : TrimiObj) : BitVec 256 := Config.shake256 (trimiBytes o ++ bytesOfNat Config.generation 8)

/-- TRIMI_LOAD: at its first load an object is checked, translated and cached, or rejected; later loads use the cached code. Which code the
finaliser packs is its own choice within R369 (log 71). -/
def execTrimiLoad (o : TrimiObj) (s : State) : Out1 :=
  if (s.trust.cache.any fun e => e.1 == trimiDigest o) || !trimiOk o then .next s
  else .next { s with trust := { s.trust with cache := s.trust.cache ++ [(trimiDigest o, Config.finalise (trimiBytes o))] } }

end Machine
end Sys2Proof
end

