-- ==== Sys2Proof/Machine/Save.lean ====
section
/-! DEFINITION. The save area (R233-R236): the bytes of a wave's unit, the units a group's save takes, and what a save and a resume do to a
wave (R167, R169, R214, R235, R270, R276, R277, R296). -/

namespace Sys2Proof
namespace Machine

/-! ## The bytes of a unit (R234) -/

/-- n bytes of zero. -/
def zeros (n : Nat) : List Byte := List.replicate n 0

/-- A list cut or filled with zero to n bytes. -/
def padTo (n : Nat) (b : List Byte) : List Byte := (b ++ zeros (n - b.length)).take n

/-- The code and the operand of a `yield` condition (R388). -/
def YieldCond.code : YieldCond → Nat
  | .tags _ => 0
  | .timeline _ _ => 1
  | .event _ _ => 2
  | .tick _ => 3

def YieldCond.arg : YieldCond → Nat
  | .tags m => m.toNat
  | .timeline _ v => v.toNat
  | .event n t => n.toNat + 2 ^ 32 * t.toNat
  | .tick t => t.toNat

/-- parkarg2: condition code, sp, I/O context. -/
def YieldCond.arg2 (c : YieldCond) (sp : Bool) : Nat :=
  c.code + sp.toNat * 4 + (match c with
    | .timeline n _ => n % 64 * 256
    | .tags _ => 0
    | .event _ _ => 0
    | .tick _ => 0)

/-- park, parkarg and parkarg2 of a wave (R235): `holds` says that it is parked at the point of use of a
held word. -/
def Park.saved (p : Park) (tick : Nat) (holds : Bool) : Nat × Nat × Nat :=
  match p with
  | .bar n ph => (1, n.val + 16 + 2 ^ 32 * ph.toNat, 0)
  | .barw n ph => (1, n.val + 2 ^ 32 * ph.toNat, 0)
  | .event n t => (2, n.toNat + 2 ^ 32 * t.toNat, 0)
  | .spawn _ => (3, 0, 0)
  | .sleep u => (4, u - tick, 0)
  | .yield c sp => (5, c.arg, c.arg2 sp)
  | .rows c => (7, 0, c.arg2 true)
  | .value _ => (if holds then 6 else 0, 0, 0)
  | .replay => (if holds then 6 else 0, 0, 0)
  | .none => (if holds then 6 else 0, 0, 0)
  | .twait _ => (0, 0, 0)
  | .tyield _ => (0, 0, 0)
  | .tag _ => (0, 0, 0)
  | .timeline _ _ => (0, 0, 0)

/-- A replay entry's 64 bytes (R330). -/
def Held.record (h : Held) : List Byte :=
  let kind := match h.need with
    | .read => 0
    | .write => 1
    | .fetch => 2
  let state := if h.failed ≠ 0 then 3 else if !h.asks.isEmpty then 1 else if h.again ≠ 0 then 2 else 0
  bytesOfNat (fieldAt h.va.toNat 448 + fieldAt h.pc.toNat 391 + fieldAt h.mask.toNat 359 + fieldAt ((h.asks.head?.map (·.1)).getD 2047) 348
    + fieldAt kind 346 + fieldAt state 344 + fieldAt h.stepped.toNat 328) 64

/-- The replay entry that a save writes for a `spawn` whose tasks are not all pushed: its mask is the lanes left (R235, R389). -/
def Wave.spawnEntry (w : Wave) : List Held :=
  match w.park with
  | .spawn left =>
    let lanes := lanesOf w.parkLanes
    let m := (lanes.drop (lanes.length - left.length)).foldl (fun (m : Mask) L => m ||| (1#32 <<< L.val)) 0
    [{ id := 0, wave := w.uid, slot := w.slot, pc := w.parkPc, instr := .nop, mask := m, latch := w.regs, need := .write, va := 0, state := .retry, again := m }]
  | _ => []

/-- The registers from segbase on: frontier, time registers and shapes. -/
def Entry.record (e : Entry) : List Byte := bytesOfNat (e.pc.toNat + 2 ^ 64 * e.mask.toNat + 2 ^ 96 * e.run + 2 ^ 112 * e.demoted.toNat) 16

/-- A register's compact slot (DEDUCED, log 86). -/
def VReg.compact : VReg → Nat
  | .u v => v.toNat
  | .a b s => b.toNat + 2 ^ 32 * s.toNat
  | .g _ => 0
  | .coming l => (l[(0 : Fin 32)]).toNat

/-- Sequencer records (R276): an entry of the queue with the bases advanced past its completed steps. -/
def MxEntry.sequencer (e : MxEntry) : List Byte :=
  let d := readMx e.desc
  let smode := match e.scales with
    | none => 0
    | some .e8m0 => 1
    | some .f32 => 2
  let step (b : Nat) (i : Int) : Nat := (BitVec.ofInt 20 ((b : Int) + i * e.done)).toNat
  let raw (lo w : Nat) : Nat := bitsOf e.desc lo w
  if e.isScacc then
    bytesOfNat (fieldAt smode 251 + fieldAt e.tag 239 + fieldAt e.bank 232 + fieldAt (e.so % 2 ^ 20) 64 + fieldAt e.src 24 + 1) 32
  else
    bytesOfNat (fieldAt (e.init && e.done == 0).toNat 254 + fieldAt d.gather.toNat 253 + fieldAt smode 251 + fieldAt (encMxFmt e.fb) 248
      + fieldAt (encMxFmt e.fa) 245 + fieldAt e.tag 239 + fieldAt e.bank 232 + fieldAt (raw 304 16) 216 + fieldAt (raw 256 20) 196
      + fieldAt (raw 224 20) 176 + fieldAt (raw 192 20) 156 + fieldAt (raw 160 20) 136 + fieldAt d.bstride 120 + fieldAt d.astride 104
      + fieldAt (step d.sbbase d.sbinc) 84 + fieldAt (step d.sabase d.sainc) 64 + fieldAt (step d.bbase d.binc) 44 + fieldAt (step d.abase d.ainc) 24
      + (e.steps - e.done)) 32

/-- A stream engine's record (R296). -/
def engineRecord (e : Fin 4) (x : Engine) : List Byte :=
  padTo 128 x.rec_ ++ bytesOfNat x.next 8 ++ bytesOfNat x.num 4
    ++ bytesOfNat ((x.kind == .armed).toNat + 2 * (x.kind == .cpt).toNat + x.tag * 4 + e.val * 256) 4 ++ bytesOfNat x.move 8 ++ zeros 40

/-- Sums of powers of two for the barriers' and the banks' fields. -/
def Barrier.record (b : Barrier) : List Byte := bytesOfNat (b.arrived.toNat + 2 ^ 32 * b.phase.toNat + 2 ^ 64 * b.elapsed) 16

/-- The banks of a group's runs in increasing handle order (DEDUCED, log 111). -/
def Group.banks (g : Group) : List Nat := (g.runs.mergeSort fun a b => decide (a.1 ≤ b.1)).flatMap fun p => (List.range p.2).map (p.1 + ·)

/-- The fields "wave 0", from 0x2A00 to 0x2FFF (DEDUCED, log 85). -/
def groupFields (g : Group) (u : SaveUnits) (loops : List MxEntry) (engines : List (Fin 4 × Engine)) : List Byte :=
  let units := (List.range 32).flatMap fun k => bytesOfNat (((u.waves.find? fun p => p.1 == k).map (·.2)).getD 0) 2
  let trig := bytesOfNat (g.triggered.toNat + (if g.waves ≤ (lanesOf g.triggered).length then 2 ^ 32 else 0)) 8
  let banks := bytesOfNat (g.banks.foldl (fun n b => n + 2 ^ b) 0) 16
  units ++ bytesOfNat (u.scratch.1 + 65536 * u.scratch.2) 4 ++ bytesOfNat (u.acc.1 + 65536 * u.acc.2) 4 ++ trig ++ zeros 16 ++ banks ++ zeros 16
    ++ (List.finRange 16).flatMap (fun (b : Fin 16) => (g.bars[b]).record)
    ++ (List.range 64).flatMap (fun i => bytesOfNat (g.tags.getD i 0) 2)
    ++ padTo 256 (loops.flatMap MxEntry.sequencer) ++ padTo 768 (engines.flatMap fun p => engineRecord p.1 p.2)

/-- The bytes 0x0000 to 0x37FF of a wave's unit; `w` is the wave as it is saved, `park` what its park field says. -/
def unitBytes (g : Group) (w : Wave) (park : Nat × Nat × Nat) (u : SaveUnits) (held : List Held) (loops : List MxEntry) (engines : List (Fin 4 × Engine)) :
    List Byte :=
  let unit0 := ((u.waves.find? fun p => p.1 == 0).map (·.2)).getD 0
  let r := w.regs
  let head := bytesOfNat g.kdesc.toNat 8 ++ bytesOfNat g.rcb.toNat 8 ++ bytesOfNat unit0 2 ++ bytesOfNat w.index 1 ++ bytesOfNat g.waves 1
    ++ bytesOfNat w.nregs 2 ++ bytesOfNat w.wide 2 ++ bytesOfNat g.age 8 ++ bytesOfNat w.wstat 8 ++ bytesOfNat park.1 4 ++ bytesOfNat w.front.length 4
    ++ bytesOfNat park.2.1 8 ++ bytesOfNat (w.spilled.toNat + 2 * w.halted.toNat) 4 ++ bytesOfNat park.2.2 4
  let regs := (List.finRange 64).flatMap (fun (n : Fin 64) => bytesOfNat (r.sget n).toNat 4)
    ++ (List.finRange 8).flatMap (fun (n : Fin 8) => bytesOfNat (r.kget n).toNat 4)
    ++ (List.finRange 16).flatMap (fun (n : Fin 16) => bytesOfNat (r.x[n]).config 8)
    ++ (List.finRange 16).flatMap (fun (n : Fin 16) => allLanes.map fun L => (r.x[n]).val[L])
  let front := padTo 512 (w.front.flatMap Entry.record) ++ padTo 512 (bytesOfNat w.segbase.toNat 8)
  let time := (List.finRange 16).flatMap (fun (n : Fin 16) => allLanes.flatMap fun L => bytesOfNat ((r.t[n])[L]).toNat 8)
    ++ padTo 128 ((List.finRange 16).flatMap fun (n : Fin 16) => bytesOfNat (r.arr[n]).toNat 4)
  let shown (n : Fin 256) : VReg := if n.val < w.nregs then r.v[n] else .u 0
  let shape := padTo 384 (bytesOfNat ((List.finRange 256).foldl (fun v (n : Fin 256) => v + (shown n).code * 4 ^ n.val) 0) 64)
  head ++ padTo 960 regs ++ front ++ padTo 4096 (held.flatMap Held.record) ++ time ++ shape
    ++ (if w.index = 0 then groupFields g u loops engines else zeros 1536)
    ++ (List.finRange 256).flatMap fun (n : Fin 256) => bytesOfNat (shown n).compact 8

/-! ## Units of a group's save (R233) -/

/-- Take the units that a group's save needs: one for each wave, a run for the scratchpad, a run for the banks. A spilled wave keeps its
unit. None when the area has not enough free ones. -/
def State.takeUnits (s : State) (g : Group) (ws : List Wave) : Option (SaveUnits × State) :=
  let one (acc : Option (List (Nat × Nat) × State)) (w : Wave) : Option (List (Nat × Nat) × State) :=
    match acc with
    | none => none
    | some (l, s) =>
      match w.unit with
      | some u => some (l ++ [(w.index, u)], s)
      | none => match s.freeUnits g.ctx 1 with
        | some u => some (l ++ [(w.index, u)], s.markUnits g.ctx u 1 true)
        | none => none
  let run (s : State) (n : Nat) : Option ((Nat × Nat) × State) :=
    if n = 0 then some ((0, 0), s)
    else match s.freeUnits g.ctx n with
      | some u => some ((u, n), s.markUnits g.ctx u n true)
      | none => none
  let banks := g.runs.foldl (fun n p => n + p.2) 0
  match ws.foldl one (some ([], s)) with
  | none => none
  | some (l, s) =>
    match run s ((g.scratch + 65535) / 65536) with
    | none => none
    | some (sc, s) =>
      match run s ((banks + 31) / 32) with
      | none => none
      | some (ac, s) => some ({ waves := l, scratch := sc, acc := ac }, s)

/-- The waves of a group that hold slots. -/
def State.wavesOf (s : State) (gid : Nat) : List Wave := s.allWaves.filter fun w => w.gid == gid

/-- May a group be evicted: does the save area hold enough free units (R233)? -/
def State.evictable (s : State) (g : Group) : Bool := (s.takeUnits g (s.wavesOf g.gid)).isSome

/-- A bank's 2 KiB. -/
def bankBytes (acc : List (Nat × Word)) (bank : Nat) : List Byte := (List.range 512).flatMap fun k => bytesOfNat (wordsGet acc (bank * 512 + k)).toNat 4

/-! ## A wave as it is saved and as it resumes (R169, R214, R235) -/

/-- Time registers as distances (R214). -/
def Regs.distances (r : Regs) (tick : Nat) : Regs :=
  { r with t := Vector.ofFn fun (n : Fin 16) => Vector.ofFn fun (L : Lane) =>
      let v := (r.t[n])[L]
      if isPromise v then (if (r.arr[n]).getLsbD L.val then 0 else BitVec.ofNat 64 (v.toNat - tick)) else v }

/-- Distances as promises of the resume tick. -/
def Regs.resumed (r : Regs) (tick : Nat) : Regs :=
  { r with t := Vector.ofFn fun (n : Fin 16) => Vector.ofFn fun (L : Lane) =>
      let v := (r.t[n])[L]
      if isPromise v then BitVec.ofNat 64 (tick + v.toNat) else v }

/-! ## Reading a unit at a resume (R234, R236) -/

/-- n bytes of a unit as a number. -/
def bytesAt (b : List Byte) (o n : Nat) : Nat := natOfBytes ((b.drop o).take n)

/-- A `yield` condition with the operand that a unit holds. -/
def YieldCond.readBack (c : YieldCond) (part arg arg2 : Nat) : YieldCond :=
  match c with
  | .tags _ => .tags (BitVec.ofNat 64 arg)
  | .timeline _ _ => .timeline (64 * part + arg2 / 256 % 64) (BitVec.ofNat 64 arg)
  | .event _ _ => .event (BitVec.ofNat 16 arg) (BitVec.ofNat 32 (arg / 2 ^ 32))
  | .tick _ => .tick (BitVec.ofNat 64 arg)

/-- A park with the operand that a unit holds (R235). -/
def Park.readBack (p : Park) (part arg arg2 : Nat) : Park :=
  match p with
  | .bar _ _ => .bar (Fin.ofNat 16 arg) (BitVec.ofNat 32 (arg / 2 ^ 32))
  | .barw _ _ => .barw (Fin.ofNat 16 arg) (BitVec.ofNat 32 (arg / 2 ^ 32))
  | .event _ _ => .event (BitVec.ofNat 16 arg) (BitVec.ofNat 32 (arg / 2 ^ 32))
  | .sleep _ => .sleep arg
  | .yield c _ => .yield (c.readBack part arg arg2) (arg2 / 4 % 2 == 1)
  | .rows c => .rows c
  | p => p

/-- The registers that a unit holds; `row` gives the wide field's rows. -/
def Regs.readBack (r : Regs) (nregs : Nat) (b : List Byte) (row : Fin 256 → VReg) : Regs :=
  let s := (b.drop 0x40).take 256
  let k := (b.drop 0x140).take 32
  let cfg := (b.drop 0x160).take 128
  let val := (b.drop 0x1E0).take 512
  let t := (b.drop 0x1800).take 4096
  let arr := (b.drop 0x2800).take 64
  let shape := bytesAt b 0x2880 64
  let compact := (b.drop 0x3000).take 2048
  { v := Vector.ofFn fun (n : Fin 256) =>
      let c := bytesAt compact (8 * n.val) 8
      if nregs ≤ n.val then r.v[n]
      else match shape / 4 ^ n.val % 4, r.v[n] with
        | 0, .coming l => .coming l
        | 0, _ => .u (BitVec.ofNat 32 c)
        | 1, _ => .a (BitVec.ofNat 32 c) (BitVec.ofNat 32 (c / 2 ^ 32))
        | _, _ => row n
    s := Vector.ofFn fun (n : Fin 64) => BitVec.ofNat 32 (bytesAt s (4 * n.val) 4)
    k := Vector.ofFn fun (n : Fin 8) => BitVec.ofNat 32 (bytesAt k (4 * n.val) 4)
    x := Vector.ofFn fun (n : Fin 16) =>
      let c := bytesAt cfg (8 * n.val) 8
      { base := BitVec.ofNat 8 c, bound := BitVec.ofNat 9 (c / 2 ^ 16), step := BitVec.ofNat 4 (c / 2 ^ 32)
        val := Vector.ofFn fun (L : Lane) => BitVec.ofNat 8 (bytesAt val (32 * n.val + L.val) 1) }
    t := Vector.ofFn fun (n : Fin 16) => Vector.ofFn fun (L : Lane) => BitVec.ofNat 64 (bytesAt t (256 * n.val + 8 * L.val) 8)
    arr := Vector.ofFn fun (n : Fin 16) => BitVec.ofNat 32 (bytesAt arr (4 * n.val) 4) }

/-- A frontier entry of a unit. -/
def Entry.readBack (b : List Byte) : Entry :=
  { pc := BitVec.ofNat 57 (bytesAt b 0 8), mask := BitVec.ofNat 32 (bytesAt b 8 4), run := bytesAt b 12 2, demoted := bytesAt b 14 1 != 0 }

/-- A wave with every field of its unit as memory holds it (R234); what no field holds is kept (DEDUCED, log 81). -/
def Wave.readBack (w : Wave) (part : Nat) (b : List Byte) (row : Fin 256 → VReg) : Wave :=
  let wstat := bytesAt b 0x20 8
  { w with
    index := bytesAt b 0x12 1, nregs := bytesAt b 0x14 2, wide := bytesAt b 0x16 2
    late := wstat % 2 == 1, cancel := wstat / 2 % 2 == 1, latecount := BitVec.ofNat 16 (wstat / 2 ^ 48)
    park := w.park.readBack part (bytesAt b 0x30 8) (bytesAt b 0x3C 4)
    halted := bytesAt b 0x38 4 / 2 % 2 == 1
    regs := w.regs.readBack (bytesAt b 0x14 2) b row
    front := (List.range (bytesAt b 0x2C 4)).map fun k => Entry.readBack ((b.drop (0x400 + 16 * k)).take 16)
    segbase := BitVec.ofNat 57 (bytesAt b 0x600 8) }

/-- A group with the fields of the unit of its wave 0 as memory holds them. -/
def Group.readBack (g : Group) (b : List Byte) : Group :=
  { g with
    kdesc := BitVec.ofNat 57 (bytesAt b 0 8), waves := bytesAt b 0x13 1, age := bytesAt b 0x18 8
    triggered := BitVec.ofNat 32 (bytesAt b 0x2A48 4)
    bars := Vector.ofFn fun (n : Fin 16) =>
      let c := (b.drop (0x2A80 + 16 * n.val)).take 16
      { g.bars[n] with arrived := BitVec.ofNat 32 (bytesAt c 0 4), phase := BitVec.ofNat 32 (bytesAt c 4 4), elapsed := bytesAt c 8 4 }
    tags := (List.range g.tags.length).map fun k => bytesAt b (0x2B80 + 2 * k) 2 }

/-- The first bytes of a wave's unit, where its page is present. -/
def State.unitOf (s : State) (g : Group) (u : SaveUnits) (index : Nat) : Option (Nat × Ctx × List Byte) :=
  match s.ctx? g.ctx, u.waves.find? fun p => p.1 == index with
  | some x, some p =>
    let at_ := unitVa x p.2
    if (s.place g.ctx at_).isNone then none else some (at_, x, s.readLong g.ctx at_ 0x3800)
  | _, _ => none

/-- A saved wave, and a saved group, read back from the units. -/
def State.readWave (s : State) (g : Group) (u : SaveUnits) (w : Wave) : Wave :=
  match s.unitOf g u w.index with
  | none => w
  | some (at_, x, b) =>
    w.readBack x.part b fun n => match s.readVa g.ctx (at_ + 0x8000 + 128 * n.val) 128 with
      | some r => rowOf r
      | none => w.regs.v[n]

def State.readGroup (s : State) (g : Group) (u : SaveUnits) : Group :=
  match s.unitOf g u 0 with
  | none => g
  | some (_, x, b) =>
    let g := g.readBack b
    if u.scratch.2 = 0 || (s.place g.ctx (unitVa x u.scratch.1)).isNone then g
    else
      let pad := s.readLong g.ctx (unitVa x u.scratch.1) g.scratch
      { g with pad := (pad.foldl (fun (p : List Host.Cell × Nat) v => (cellsSet p.1 p.2 v, p.2 + 1)) ([], 0)).1 }

/-- A probe that has not ended, as it is saved: its fill is forgotten, and its promises are distances (R214). -/
def Access.saved (a : Access) (tick : Nat) : Access :=
  if a.kind = .probe then
    { a with waits := [], sources := Vector.replicate _ [], refines := [], notices := []
             own := Vector.ofFn fun L => if isPromise a.own[L] then BitVec.ofNat 64 ((a.own[L]).toNat - tick) else a.own[L] }
  else a

/-- A probe as it resumes: it says nothing of the new core's L1, and ends in the lanes that no replay entry holds when their promises have come
(DESIGN CHOICE, log 145). -/
def Access.resumed (a : Access) (tick : Nat) : Access :=
  if a.kind = .probe then
    { a with own := Vector.ofFn fun L => if isPromise a.own[L] then BitVec.ofNat 64 (tick + (a.own[L]).toNat) else a.own[L]
             at_ := some ((lanesOf a.lanes).foldl (fun n L => if isPromise a.own[L] then Nat.max n (tick + (a.own[L]).toNat) else n) tick) }
  else a

/-- A wave as it is saved: the window is flushed, time registers are distances, and a park that R235 does not keep leaves the wave at its
word or behind it. `holds` says that it is parked at the point of use of a held word. -/
def Wave.save (w : Wave) (tick : Nat) (holds : Bool) : Wave :=
  let w := { w with
    regs := w.regs.distances tick, accs := w.accs.map fun (a : Access) => a.saved tick
    window := [], recent := [], switch := false, waiting := none, unit := none
    front := w.front.map fun (e : Entry) => { e with fetching := false } }
  match w.park with
  | .tag _ => w.backToWord
  | .timeline _ _ => w.backToWord
  | .twait _ => w.backToWord
  | .tyield _ => w.backToWord
  | .replay => if holds then w else w.backToWord
  | .value _ => if holds then w else { w with park := .none }
  | .sleep u => { w with park := .sleep (u - tick) }
  | .none => w
  | .bar _ _ => w
  | .barw _ _ => w
  | .event _ _ => w
  | .spawn _ => w
  | .yield _ _ => w
  | .rows _ => w

/-- A wave as it resumes in a slot. -/
def Wave.resume (w : Wave) (slot tick : Nat) : Wave :=
  let w := { w with slot := slot, regs := w.regs.resumed tick, accs := w.accs.map fun (a : Access) => a.resumed tick
                    mayIssue := tick + 1, since := tick, spilled := false, lastIssue := 0 }
  match w.park with
  | .sleep u => { w with park := .sleep (tick + u) }
  | .rows _ => { w with park := .none }
  | _ => w

end Machine
end Sys2Proof
end

