-- ==== Sys2Proof/Machine/EvSched.lean ====
section
/-! DEFINITION. The dispatcher: placement (R148-R150, R153, R169), eviction by quiescence (R166, R167), suspension of a partition (R126),
the binner (R152), barrier timeouts (R165) and scans of the event overflow areas (R156). -/

namespace Sys2Proof
namespace Machine

/-! ## Eviction by quiescence (R167) -/

/-- Begin the eviction of a group: its waves stop issuing, and the Bow is asked to stop its entry (R167, R281) (DEDUCED, log 87). -/
def State.evict (s : State) (gid : Nat) : State :=
  if s.sched.evicting.contains gid then s
  else
    let s := ({ s with sched := { s.sched with evicting := s.sched.evicting ++ [gid] } }).modGroup gid fun g => { g with evictAt := some s.tick }
    (match s.group? gid with
      | some g => s.stopLoops g
      | none => s).due (.quiescenceComplete gid)

/-- The state as it would be without some groups and without their matrix entries: what a plan of R166 looks at. -/
def State.without (s : State) (gids : List Nat) : State :=
  let strip (c : Core) : Core := { c with mq := c.mq.filter fun e => !gids.contains e.gid }
  let s := s.dropGroups gids
  { s with c := strip s.c, cores := s.cores.map strip }

/-- Does a request read a line for a `probe` of the wave? -/
def Wave.probing (w : Wave) (r : Req) : Bool := r.acc.any fun id => w.accs.any fun (a : Access) => a.id == id && a.kind == .probe

/-- Is a request one of the group's stream engines? -/
def State.ofEngine (s : State) (g : Group) (r : Req) : Bool := r.core == g.core && r.eng.any fun e => ((s.core g.core).engines[e]).gid == g.gid

/-- Has everything of a group landed or been recorded: accesses, arrivals, loops, accumulator accesses (steps 2 and 4 of R167)? An arrival that waits
for a held word is recorded with it (DEDUCED, log 80). -/
def State.settled (s : State) (g : Group) : Bool :=
  let c := s.core g.core
  (s.wavesOf g.gid).all (fun (w : Wave) =>
    w.accs.all (fun (a : Access) => a.kind == .probe || a.lanes &&& ~~~(c.heldFor a.id) == 0)
      && !(c.held.any fun (h : Held) => h.wave == w.uid && h.state == HeldState.walking)
      && !(s.reqs.any fun (r : Req) => r.wave == w.uid && !r.kind.isWrite && !w.probing r))
    && (List.finRange 16).all (fun (b : Fin 16) => (g.bars[b]).arriving.all fun a => !s.arrivalReady g.gid a)
    && !(c.mq.any fun (e : MxEntry) => e.gid == g.gid) && c.bow.stopFor != some g.gid
    && !(c.accWaits.any fun (a : AccWait) => a.gid == g.gid)

/-- Write back and drop the private lines of a group's waves (R184). -/
def State.flushPrivate (s : State) (g : Group) : State :=
  let uids := (s.wavesOf g.gid).map (·.uid)
  let mine (l : L1Line) : Bool := l.priv && uids.contains l.owner
  let s := ((s.core g.core).l1.filter mine).foldl (fun (s : State) l => s.writeBack g.core l) s
  s.modCore g.core fun c => { c with l1 := c.l1.filter fun (l : L1Line) => !mine l }

/-- Has every store of a group, and of its engines, been applied (R318)? -/
def State.groupDrained (s : State) (g : Group) : Bool :=
  (s.wavesOf g.gid).all (fun (w : Wave) => !(s.reqs.any fun (r : Req) => r.wave == w.uid && !(r.kind.isWrite && r.stage == Stage.applied) && !w.probing r))
    && !(s.reqs.any fun (r : Req) => r.kind.isWrite && r.stage != Stage.applied && s.ofEngine g r)

/-- Is a wave parked at the point of use of a held word (R212, R235)? -/
def State.atHeld (s : State) (w : Wave) : Bool :=
  let c := s.core (coreOfSlot w.slot)
  match w.park with
  | .none => c.holding w.uid && (match s.pickEntry c w with
    | .entry e p bad => !bad && !p.malformed && p.starts.contains (slotOf e.pc) && !((unitAt p e.pc).instrs.all fun i => w.ready s.tick e.mask i)
    | .none => false
    | .fetch _ => false
    | .owed _ _ _ => false)
  | _ => c.held.any fun (h : Held) => h.wave == w.uid && h.pc == w.parkPc

/-- A frontier in issue order (R161, R162) (DEDUCED, log 112). -/
def State.issueOrder (s : State) (core : Core) (ctx : Nat) (l : List Entry) : List Entry :=
  l.mergeSort fun e f =>
    match s.packetAt core ctx e.pc, s.packetAt core ctx f.pc with
    | some (p, _), some (q, _) => !before f q e p
    | _, _ => if e.demoted = f.demoted then decide (e.pc.toNat ≤ f.pc.toNat) else f.demoted

/-- Write the unit of a wave (R234): `v` is the wave as it is saved (DEDUCED, log 45) (DEDUCED, log 85) (DEDUCED, log 112). -/
def State.writeUnit (s : State) (x : Ctx) (g : Group) (w v : Wave) (u : SaveUnits) (held : List Held) (engines : List (Fin 4 × Engine)) : State :=
  let unit := ((u.waves.find? fun p => p.1 == w.index).map (·.2)).getD 0
  let at_ := unitVa x unit
  let park := w.park.saved s.tick (s.atHeld w)
  let v := { v with front := s.issueOrder (s.core (coreOfSlot w.slot)) g.ctx v.front }
  let s := s.putLong g.ctx at_ (padTo 0x8000 (unitBytes g v park u ((held.filter fun (h : Held) => h.wave == w.uid) ++ w.spawnEntry) g.loops engines))
  if w.spilled then s
  else w.wideRegs.foldl (fun (s : State) n => s.putVa g.ctx (at_ + 0x8000 + 128 * n.val) (rowBytes w.regs.v[n])) s

/-- An engine as it is saved: a number partly moved is moved again whole (R296). -/
def Engine.stopped (x : Engine) : Engine := { x with busy := false, waits := [], lines := [] }

/-- Save a quiescent group (steps 5 and 6 of R167) and put it into the placement list (R169). Without free units it waits (R233). -/
def State.saveGroup (s : State) (g : Group) : State :=
  let ws := s.wavesOf g.gid
  match s.takeUnits g ws, s.ctx? g.ctx with
  | some (u, s), some x =>
    let c := s.core g.core
    let uids := ws.map (·.uid)
    let held := c.held.filter fun (h : Held) => uids.contains h.wave
    let engines := (List.finRange 4).filterMap fun (e : Fin 4) =>
      if (c.engines[e]).gid = g.gid ∧ (c.engines[e]).kind ≠ .free then some (e, (c.engines[e]).stopped) else none
    let saved := ws.map fun (w : Wave) => (w, { w.save s.tick (s.atHeld w) with spilled := w.spilled })
    let s := saved.foldl (fun (s : State) p => s.writeUnit x g p.1 p.2 u held engines) s
    let s := if u.scratch.2 = 0 then s else s.putLong g.ctx (unitVa x u.scratch.1) ((List.range g.scratch).map fun n => g.padByte n)
    let s := if u.acc.2 = 0 then s else s.putLong g.ctx (unitVa x u.acc.1) (g.banks.flatMap fun b => bankBytes c.acc b)
    let s := (s.sched.waits.filter fun (e : WaitEntry) => uids.contains e.wave).foldl (fun (s : State) e => s.leaveWait e) s
    let p : Placing := { group := { g with evictAt := none }, waves := saved.map (·.2), held := held, engines := engines, saved := true, units := u,
                         since := s.tick }
    let s := s.dropGroups [g.gid]
    let stays (q : Placing) : Bool := match q.rowsFor with
      | some uid => !uids.contains uid
      | none => true
    let s := { s with sched := { s.sched with places := (s.sched.places.filter stays) ++ [p] } }
    let part : Fin 8 := Fin.ofNat 8 x.part
    (s.due (.groupPlacement part)).due (.suspensionComplete part)
  | _, _ => s

/-- QUIESCENCE_COMPLETE (R167). -/
def execQuiescenceComplete (gid : Nat) (s : State) : Out1 :=
  match s.group? gid with
  | none => .next s
  | some g =>
    if g.evictAt.isNone then .next s
    else
      let s := s.stopLoops g
      match s.group? gid with
      | none => .next s
      | some g =>
        if !s.settled g then .next s
        else
          let s := s.flushPrivate g
          .next (if s.groupDrained g then s.saveGroup g else s)

/-! ## Where a group fits (R145, R149) -/

/-- Accumulator banks of a group. -/
def Group.bankCount (g : Group) : Nat := g.runs.foldl (fun n p => n + p.2) 0

/-- Wide rows that the waves of some groups hold. -/
def State.wideUsed (s : State) (gids : List Nat) : Nat :=
  ((s.allWaves.filter fun (w : Wave) => gids.contains w.gid && !w.spilled).map (·.wide)).sum

/-- Do the budgets of a group's region and of its ancestors allow n more waves with `rows` rows of it on a core (R145)? `fresh` says that the
group is not resident yet. -/
def State.budgetOk (s : State) (g : Group) (n rows core : Nat) (fresh : Bool) : Bool :=
  (s.region g.ctx g.rcb.toNat).budgets.all fun (b : Budget) =>
    let gs := s.allGroups.filter fun (h : Group) => h.ctx == g.ctx && h.chain.contains b.rcb
    let gids := gs.map (·.gid)
    let more (n : Nat) : Nat := if fresh then n else 0
    decide ((core :: gs.map (·.core)).dedup.length ≤ b.cores)
      && decide ((s.allWaves.countP fun (w : Wave) => gids.contains w.gid) + more n ≤ b.waves)
      && decide ((gs.map (·.scratch)).sum + more g.scratch ≤ b.scratch * 1024)
      && decide ((gs.map Group.bankCount).sum + more g.bankCount ≤ b.acc)
      && decide (s.wideUsed gids + rows ≤ b.wide)

/-- The lowest run of n free tags of a core. -/
def State.tagRun (s : State) (core n : Nat) : Option Nat :=
  let used := (s.allGroups.filter fun (g : Group) => g.core == core).flatMap fun g => (List.range g.tags.length).map (g.tagFirst + ·)
  (List.range (65 - n)).find? fun f => (List.range n).all fun k => !used.contains (f + k)

/-- The waves that hold slots of a core. -/
def State.wavesOn (s : State) (core : Nat) : List Wave := s.allWaves.filter fun (w : Wave) => coreOfSlot w.slot == core

/-- Rows of a core in use. -/
def State.rowsUsed (s : State) (core : Nat) : Nat := ((s.wavesOn core).filter fun (w : Wave) => !w.spilled).foldl (fun n w => n + w.wide) 0

/-- Does a group fit on a core (R149)? A saved group needs the banks, engines and replay entries that it held (R268, R296) (DEDUCED, log 37). -/
def State.fitsOn (s : State) (p : Placing) (core : Nat) : Bool :=
  let g := p.group
  let n := if p.saved then p.waves.length else g.waves
  let ws := s.wavesOn core
  let gs := s.allGroups.filter fun (h : Group) => h.core == core
  let c := s.core core
  !s.octs[octOfCore core].cf.removed
    && decide (ws.length + n ≤ 64)
    && decide ((gs.map (·.scratch)).sum + g.scratch ≤ 1048576)
    && (s.tagRun core g.tags.length).isSome
    && decide (s.rowsUsed core + n * g.wideEach ≤ 8192)
    && decide ((ws.map (·.nregs)).sum * 8 + n * g.regs * 8 ≤ 131072)
    && s.budgetOk g n (n * g.wideEach) core true
    && !(gs.any fun (h : Group) => h.banks.any fun b => g.banks.contains b)
    && p.engines.all (fun e => (c.engines[e.1]).kind == EngineKind.free)
    && decide (c.held.length + p.held.length ≤ Config.replayEntries)

/-- The cores that an entry of the list may use. -/
def State.usable (s : State) (p : Placing) : List Nat := s.coresFor (s.partOf p.group.ctx) (s.region p.group.ctx p.group.rcb.toNat).octmask

/-- The core that takes an entry: of those it fits on, the one with the fewest resident waves, the lowest among equals. -/
def State.pickCore (s : State) (p : Placing) : Option Nat :=
  ((s.usable p).filter fun n => s.fitsOn p n).foldl (fun (b : Option Nat) n =>
    match b with
    | none => some n
    | some m => if (s.wavesOn n).length < (s.wavesOn m).length then some n else some m) none

/-- The next free slot of a core: of the sub-core with the most free slots, the lowest. -/
def State.freeSlot (s : State) (core : Nat) : Nat :=
  let used := (s.wavesOn core).map (·.slot)
  let free (sub : Nat) : List Nat := ((List.range 16).map (core * 64 + sub * 16 + ·)).filter fun n => !used.contains n
  let best := [1, 2, 3].foldl (fun b k => if (free b).length < (free k).length then k else b) 0
  (free best).headD (core * 64)

/-! ## Placing (R142, R149, R153, R316) -/

/-- Put a group on a core: it holds its tags from this tick, with the priority that its region has now. -/
def State.seatGroup (s : State) (g : Group) (core : Nat) : State :=
  let g := { g with core := core, tagFirst := (s.tagRun core g.tags.length).getD 0, placedAt := s.tick, prio := (s.region g.ctx g.rcb.toNat).prio }
  { s with groups := s.groups ++ [g] }

/-- Timers of a new group's barriers (R146, R163). -/
def State.newBars (s : State) (g : Group) : Vector Barrier 16 := Vector.ofFn fun _ => { barto := s.bartoNow g.ctx g.rcb.toNat }

/-- Set scalar registers from `n` on. -/
def Regs.scalars (r : Regs) (n : Nat) (l : List Nat) : Regs :=
  (l.foldl (fun (p : Regs × Nat) v => ({ p.1 with s := p.1.s.set (Fin.ofNat 64 p.2) (BitVec.ofNat 32 v) }, p.2 + 1)) (r, n)).1

/-- The number of a group in its grid (R142). -/
def Group.number (g : Group) (grid : Nat × Nat × Nat) : Nat := g.gx + grid.1 * (g.gy + grid.2.1 * g.gz)

/-- The registers of a wave of a KERNEL grid (R142). -/
def startRegs (args : VA) (grid : Nat × Nat × Nat) (g : Group) (index : Nat) : Regs :=
  let r := Regs.start.scalars 2 [args.toNat, args.toNat / 2 ^ 32, g.gx, g.gy, g.gz, index, grid.1 * grid.2.1 * grid.2.2]
  { r with v := (r.v.set 0 (.a 0 1)).set 1 (.a (BitVec.ofNat 32 ((g.number grid * g.waves + index) * 32)) 1) }

/-- A wave of a group in the next free slot of its core, with its registers and its first entry; it begins as if it had executed `fence.acq.dev`
(R316). -/
def State.seatWave (s : State) (g : Group) (core index : Nat) (r : Regs) (pc : VA) (mask : Mask) (seg : VA) : State :=
  let w : Wave :=
    { live := true, uid := s.serial, slot := s.freeSlot core, gid := g.gid, ctx := g.ctx, index := index, task := g.task, regs := r, nregs := g.regs,
      wide := g.wideEach, segbase := seg, limit := g.privBytes / 4, front := [{ pc := pc, mask := mask }], mayIssue := s.tick + 1, since := s.tick }
  ({ s with serial := s.serial + 1, waves := s.waves ++ [w] }).startFence w.uid

/-- The first slot of a kernel (R345, R365). -/
def entryPc (kdesc : VA) : VA := kdesc + 0x104

/-- Place the next group of a grid (DEDUCED, log 28). -/
def State.placeNew (s : State) (p : Placing) : Option State :=
  match s.jobs.find? fun (j : Job) => j.id == p.group.job with
  | none => none
  | some j =>
    let k := p.next
    let g := { p.group with gid := s.serial, gx := k % j.grid.1, gy := k / j.grid.1 % j.grid.2.1, gz := k / j.grid.1 / j.grid.2.1, bars := s.newBars p.group }
    match s.pickCore p with
    | none => none
    | some core =>
      let s := ({ s with serial := s.serial + 1 }).seatGroup g core
      let seg (i : Nat) : VA := if g.privBytes = 0 then 0 else BitVec.ofNat 57 (g.privBase + (g.number j.grid * g.waves + i) * g.privBytes * 32)
      some ((List.range g.waves).foldl (fun (s : State) i =>
        s.seatWave g core i (startRegs j.args j.grid g i) (entryPc g.kdesc) (BitVec.allOnes 32) (seg i)) s)

/-- The registers of a task wave (R153) (DEDUCED, log 90). -/
def taskRegs (l : List Task) : Regs :=
  let m : Mask := maskOf fun L => decide (L.val < l.length)
  let word (i : Nat) (L : Lane) : Word := BitVec.ofNat 32 (natOfBytes ((((l[L.val]?.map (·.data)).getD []).drop (4 * i)).take 4))
  let r := Regs.start
  { r with v := (List.range 8).foldl (fun (v : Vector VReg 256) i => v.set (Fin.ofNat 256 i) (.g (Vector.ofFn fun (L : Lane) => word i L))) r.v
           k := r.k.set 1 m }

/-- The descriptor of a task's kernel, when it is a good one (R152, R366). -/
def State.taskDesc (s : State) (g : Group) : Option KDesc :=
  match s.readVa g.ctx g.kdesc.toNat 128, s.readVa g.ctx (g.kdesc.toNat + 128) 128 with
  | some lo, some hi => let d := readKDesc (lo ++ hi); if d.bad then none else some d
  | _, _ => none

/-- A task wave's group with the needs of its descriptor. It has no private memory (R188). -/
def State.taskGroup (s : State) (g : Group) : Group :=
  match s.taskDesc g with
  | some d => { g with regs := d.regs, wideEach := d.wide, scratch := (d.scratch + 4095) / 4096 * 4096, tags := List.replicate d.tags 0 }
  | none => { g with regs := 8, wideEach := 8, scratch := 0, tags := [] }

/-- An entry of the list with the needs of its groups. -/
def State.sized (s : State) (p : Placing) : Placing := if p.group.task && !p.saved && p.rowsFor.isNone then { p with group := s.taskGroup p.group } else p

/-- Place a task wave: its descriptor is read now; a broken one, or too few rows, traps at its entry (R152, R153, R219, R366). Its tasks leave
the pool (DEDUCED, log 90). -/
def State.placeTasks (s : State) (p : Placing) : Option State :=
  let kdesc := p.group.kdesc
  let d := s.taskDesc p.group
  let g := s.taskGroup p.group
  let g := { g with gid := s.serial, bars := s.newBars g }
  match s.pickCore { p with group := g } with
  | none => none
  | some core =>
    let uid := s.serial + 1
    let m : Mask := maskOf fun L => decide (L.val < p.tasks.length)
    let pc := entryPc kdesc
    let s := (({ s with serial := s.serial + 1 }).seatGroup g core).seatWave g core 0 (taskRegs p.tasks) pc m 0
    let cause : Option Cause := match d with
      | none => some .illegalInstr
      | some d => if d.wide < 8 then some .wideBudget else none
    let s := match cause with
      | some c =>
        let s := s.focus uid
        ({ s with latch := s.w.regs, cur := { active := m, pc := pc, next := pc, unit := pc } }).takeTrap { cause := c, lanes := m, pc := pc, park := pc }
      | none => s
    let s := s.modCtx g.ctx fun x => { x with pool := p.tasks.foldl (fun (l : List Task) t => l.erase t) x.pool }
    some (((s.poolRoom g.ctx).bin g.ctx false).due (.binnerTimeout g.ctx))

/-! ### Resuming (R169, R235, R277, R296) -/

/-- Read the banks of a saved group back. -/
def State.restoreBanks (s : State) (p : Placing) (core : Nat) : State :=
  match s.ctx? p.group.ctx with
  | none => s
  | some x =>
    if p.units.acc.2 = 0 then s
    else
      let b := s.readLong p.group.ctx (unitVa x p.units.acc.1) (p.group.bankCount * 2048)
      let put (acc : List (Nat × Word)) (q : Nat × Nat) : List (Nat × Word) :=
        (List.range 512).foldl (fun (acc : List (Nat × Word)) k =>
          wordsSet acc (q.2 * 512 + k) (BitVec.ofNat 32 (natOfBytes ((b.drop (q.1 * 2048 + 4 * k)).take 4)))) acc
      s.modCore core fun c => { c with acc := (((List.range p.group.banks.length).zip p.group.banks).foldl put c.acc) }

/-- Free the units of a save. -/
def State.freeSave (s : State) (ctx : Nat) (u : SaveUnits) : State :=
  let s := u.waves.foldl (fun (s : State) p => s.markUnits ctx p.2 1 false) s
  (s.markUnits ctx u.scratch.1 u.scratch.2 false).markUnits ctx u.acc.1 u.acc.2 false

/-- The park of a resumed wave (R235). -/
def State.resumePark (s : State) (uid : Nat) : State :=
  match s.wave? uid with
  | none => s
  | some w =>
    let passed (b : Fin 16) (ph : Word) : Bool := match s.group? w.gid with
      | some g => (g.bars[b]).phase != ph
      | none => true
    let clear (s : State) : State := s.modWave uid fun w => { w with park := .none }
    let s := if w.exited then (s.due (.triggerCount w.slot)).due (.waveSlotFree w.slot) else s
    match w.park with
    | .bar b ph => if passed b ph then clear s else s
    | .barw b ph => if passed b ph then clear s else s
    | .event name thr =>
      if w.accs.any fun (a : Access) => a.kind == AccKind.evwait then s
      else if s.eventMeets w.ctx name thr then clear (s.acquireAt w.uid ((s.eventKey w.ctx name).bind homeOfKey))
      else s.registerWait uid name thr
    | .spawn left => s.spawnOn uid left
    | .yield cond _ =>
      if s.condHolds w cond then clear (s.condAcquire w cond)
      else match cond with
        | .event name thr => s.registerWait uid name thr
        | .tags _ => s
        | .timeline _ _ => s
        | .tick _ => s
    | .sleep _ => s.due (.sleepExpiry w.slot)
    | _ => s

/-- Resume a saved group (DEDUCED, log 81). -/
def State.placeSaved (s : State) (p : Placing) : Option State :=
  match s.pickCore p with
  | none => none
  | some core =>
    let g := s.readGroup p.group p.units
    let waves := p.waves.map fun (w : Wave) => s.readWave p.group p.units w
    let s := s.seatGroup { g with loops := [] } core
    let s := waves.foldl (fun (s : State) (w : Wave) => ({ s with waves := s.waves ++ [w.resume (s.freeSlot core) s.tick] }).startFence w.uid) s
    let s := (s.restoreBanks p core).freeSave g.ctx p.units
    let slotOfWave (uid : Nat) : Nat := ((s.wave? uid).map (·.slot)).getD 0
    let held := p.held.map fun (h : Held) => { h with slot := slotOfWave h.wave }
    let s := s.modCore core fun c =>
      let c := p.engines.foldl (fun (c : Core) e => c.modEngine e.1 fun _ => e.2) c
      { c with held := c.held ++ held, mq := c.mq ++ g.loops }
    let s := if g.loops.isEmpty then s else s.bowArrive core
    let s := (p.waves.map (·.uid)).foldl (fun (s : State) uid => s.resumePark uid) s
    let s := (held.filter fun (h : Held) => h.failed != 0).foldl (fun (s : State) h => s.failHeld h) s
    let s := (held.filter fun (h : Held) => h.again != 0).foldl (fun (s : State) h => s.due (.replayIssue h.slot h.id)) s
    some s.askWaiting

/-- Give a wave that waits for rows its rows (R170). -/
def State.placeRows (s : State) (p : Placing) (uid : Nat) : Option State :=
  match s.wave? uid with
  | none => some s
  | some w =>
    let core := coreOfSlot w.slot
    if s.rowsUsed core + w.wide ≤ 8192 ∧ s.budgetOk p.group 0 w.wide core false then some (s.refill uid) else none

/-- Place one group, one task wave, one saved group, or one wave's rows. -/
def State.placeOne (s : State) (p : Placing) : Option State :=
  match p.rowsFor with
  | some uid => s.placeRows p uid
  | none => if p.saved then s.placeSaved p else if p.group.task then s.placeTasks p else s.placeNew p

/-! ## The list (R148, R150) -/

/-- The placement priority of an entry. -/
def State.placePrio (s : State) (p : Placing) : Nat := Nat.min 15 ((s.region p.group.ctx p.group.rcb.toNat).prio + (s.tick - p.since) / 1048576)

/-- Entries of a partition in the order of R148; equal ones stay in the order in which they came (DESIGN CHOICE, log 142). -/
def State.placeOrder (s : State) (part : Fin 8) : List Placing :=
  (s.sched.places.filter fun (p : Placing) => s.partOf p.group.ctx == part.val).mergeSort fun p q =>
    decide (s.placePrio q < s.placePrio p) || (s.placePrio p == s.placePrio q && decide (p.group.age ≤ q.group.age))

/-- What an entry places: all groups of a co-resident grid, or the next one. -/
def State.partsOf (s : State) (p : Placing) : List Placing :=
  if p.group.coresident && p.saved then s.sched.places.filter fun (q : Placing) => q.saved && q.group.job == p.group.job
  else if p.group.coresident then (List.range (p.count - p.next)).map fun k => { p with next := p.next + k, count := p.next + k + 1 }
  else [p]

/-- May a saved group of a co-resident grid be looked at: is the whole grid saved? -/
def State.wholeGrid (s : State) (p : Placing) : Bool :=
  !(p.saved && p.group.coresident) || !(s.allGroups.any fun (g : Group) => g.job == p.group.job && !g.task)

/-- Place a list of parts, all or none. -/
def State.placeAll (s : State) (l : List Placing) : Option State := l.foldl (fun (o : Option State) p => o.bind fun s => s.placeOne p) (some s)

/-- Entries leave the list. -/
def State.unlist (s : State) (l : List Placing) : State := { s with sched := { s.sched with places := s.sched.places.filter fun p => !l.contains p } }

/-- Place groups of a grid, in increasing g, while they fit: what is left of the entry. -/
def State.placeMany : Nat → State → Placing → State × Placing
  | 0, s, p => (s, p)
  | n + 1, s, p =>
    if p.count ≤ p.next then (s, p)
    else match s.placeOne p with
      | none => (s, p)
      | some t => State.placeMany n t { p with next := p.next + 1 }

/-- The most waves that can be resident. -/
def maxResident : Nat := 20480

/-- Place what fits of an entry. -/
def State.placeEntry (s : State) (p : Placing) : State :=
  if !s.sched.places.contains p || !s.wholeGrid p then s
  else if p.group.coresident then
    match s.placeAll (s.partsOf p) with
    | some t => t.unlist (if p.saved then s.partsOf p else [p])
    | none => s
  else if p.saved || p.group.task || p.rowsFor.isSome then
    match s.placeOne p with
    | some t => t.unlist [p]
    | none => s
  else
    let r := State.placeMany maxResident s p
    if r.2.count ≤ r.2.next then r.1.unlist [p]
    else { r.1 with sched := { r.1.sched with places := r.1.sched.places.map fun q => if q = p then r.2 else q } }

/-! ## Whom to evict (R166) -/

/-- The groups that leave with one: all of a co-resident grid. -/
def State.leavesWith (s : State) (g : Group) : List Group :=
  if g.coresident then s.allGroups.filter fun (h : Group) => h.job == g.job && h.coresident else [g]

/-- Has the save area units for all these groups? -/
def State.unitsForAll (s : State) (gids : List Nat) : Bool :=
  (gids.foldl (fun (o : Option State) gid => o.bind fun s =>
    match s.group? gid with
    | some g => (s.takeUnits g (s.wavesOf gid)).map (·.2)
    | none => some s) (some s)).isSome

/-- Groups of a core of lower priority, the lowest first and the youngest first among equals. -/
def State.victimsOn (s : State) (core prio : Nat) : List Group :=
  (s.allGroups.filter fun (g : Group) => g.core == core && decide (g.prio < prio)).mergeSort fun g h =>
    decide (g.prio < h.prio) || (g.prio == h.prio && decide (h.age ≤ g.age))

/-- Evict from a core until an entry fits on it: `all` is the package as it is, `s` without the groups that leave, `acc` the gids chosen. -/
def evictUntil (all : State) (p : Placing) (core : Nat) (s : State) (acc : List Nat) : List Group → Option (List Nat)
  | [] => if s.fitsOn p core then some acc else none
  | g :: rest =>
    if s.fitsOn p core then some acc
    else
      let more := ((all.leavesWith g).map (·.gid)).filter fun n => !acc.contains n
      if acc.contains g.gid || !all.unitsForAll (acc ++ more) then evictUntil all p core s acc rest
      else evictUntil all p core (s.without more) (acc ++ more) rest

/-- The fewest evictions that let an entry fit on some core, the lowest core among equals (DEDUCED, log 91). -/
def State.fewest (all s : State) (p : Placing) (prio : Nat) (acc : List Nat) : Option (List Nat) :=
  (s.usable p).foldl (fun (b : Option (List Nat)) core =>
    match evictUntil all (s.sized p) core s acc (s.victimsOn core prio) with
    | none => b
    | some l => match b with
      | none => some l
      | some m => if l.length < m.length then some l else some m) none

/-- The evictions that let every part be placed, or none (DEDUCED, log 91). -/
def planParts (all : State) (prio : Nat) : List Placing → State → List Nat → Option (List Nat)
  | [], _, acc => some acc
  | p :: rest, s, acc =>
    match s.placeOne p with
    | some t => planParts all prio rest t acc
    | none =>
      match State.fewest all s p prio acc with
      | none => none
      | some l =>
        match (s.without (l.filter fun n => !acc.contains n)).placeOne p with
        | some t => planParts all prio rest t l
        | none => none

/-- Evict for the head of the list when it fits nowhere (R166). Groups under eviction count as gone. -/
def State.evictFor (s : State) (part : Fin 8) : State :=
  match s.placeOrder part with
  | [] => s
  | p :: _ =>
    if p.rowsFor.isSome || !s.wholeGrid p then s
    else
      let prio := (s.region p.group.ctx p.group.rcb.toNat).prio
      match planParts s prio (s.partsOf p) (s.without s.sched.evicting) [] with
      | none => s
      | some l => l.foldl (fun (s : State) gid => s.evict gid) s

/-- Does the dispatcher work? -/
def State.dispatches (s : State) (part : Fin 8) : Bool :=
  s.trust.booted && !s.power.held && !s.power.busy && decide (s.power.cur.toNat ≤ 1) && !(s.parts[part]).suspend

/-- GROUP_PLACEMENT (R148-R150, R166). -/
def execGroupPlacement (part : Fin 8) (s : State) : Out1 :=
  if s.dispatches part then .next (((s.placeOrder part).foldl (fun (s : State) p => s.placeEntry p) s).evictFor part) else .next s

/-! ## Suspension of a partition (R126) -/

/-- The resident groups of a partition. -/
def State.groupsIn (s : State) (part : Fin 8) : List Group := s.allGroups.filter fun (g : Group) => s.partOf g.ctx == part.val

/-- SUSPEND: the queues stop consuming packets, and every resident group is evicted (DEDUCED, log 113). -/
def execSuspend (p : Port) (part : Fin 8) (s : State) : Out1 :=
  .next (s.guarded p fun s =>
    if (s.parts[part]).suspend then s
    else
      let s := { s with parts := s.parts.set part { s.parts[part] with suspend := true } }
      ((s.groupsIn part).foldl (fun (s : State) g => s.evict g.gid) s).due (.suspensionComplete part))

/-- SUSPENSION_COMPLETE: the groups are saved and every I/O context of the partition has timeline = issued (DEDUCED, log 113). -/
def execSuspensionComplete (part : Fin 8) (s : State) : Out1 :=
  let x := s.parts[part]
  if !x.suspend || x.suspended || !(s.groupsIn part).isEmpty
      || s.ios.any (fun (i : IoCtx) => i.valid && i.n / 64 == part.val && i.timeline != i.issued) then .next s
  else .next { s with parts := s.parts.set part { x with suspended := true } }

/-- PARTITION_RESUME: suspended is cleared, the queues run, and saved groups may be placed. -/
def execPartitionResume (p : Port) (part : Fin 8) (s : State) : Out1 :=
  .next (s.guarded p fun s =>
    let s := { s with parts := s.parts.set part { s.parts[part] with suspend := false, suspended := false } }
    s.pokeQueues.due (.groupPlacement part))

/-! ## The binner, barrier timeouts, overflow scans -/

/-- BINNER_TIMEOUT (R152). -/
def execBinnerTimeout (ctx : Nat) (s : State) : Out1 := .next (s.bin ctx true)

/-- The PC that a diagnostic record gives for a wave (R165). -/
def State.diagPc (s : State) (g : Group) (index : Nat) : Nat :=
  match s.waveAt g.gid index with
  | some w =>
    if w.exited then ((g.exitPcs.find? fun p => p.1 == index).map (·.2.toNat)).getD 0
    else match w.park with
      | .bar _ _ => w.parkPc.toNat
      | .barw _ _ => w.parkPc.toNat
      | _ => match s.pickEntry (s.core g.core) w with
        | .entry e _ _ => e.pc.toNat
        | .fetch pc => pc.toNat
        | .owed e _ _ => e.pc.toNat
        | .none => ((w.front.head?).map (·.pc.toNat)).getD 0
  | none => ((g.exitPcs.find? fun p => p.1 == index).map (·.2.toNat)).getD 0

/-- The diagnostic record of a barrier (R165). -/
def State.diagRecord (s : State) (g : Group) (b : Fin 16) : List Byte :=
  let bar := g.bars[b]
  let low := fieldAt s.tick 448 + fieldAt (bar.first.getD 0) 384 + fieldAt g.gx 363 + fieldAt g.gy 343 + fieldAt g.gz 323 + fieldAt g.ctx 311
    + fieldAt g.core 302 + fieldAt b.val 298 + fieldAt g.waves 292 + fieldAt g.exited.toNat 260 + fieldAt bar.arrived.toNat 228
    + fieldAt (g.rcb.toNat / 128) 178
  bytesOfNat low 64 ++ (List.range 32).flatMap fun k => bytesOfNat (if k < g.waves then s.diagPc g k else 0) 8

/-- BAR_TIMEOUT (R165): an arrival of this tick that completes the phase comes first (DEDUCED, log 89). -/
def execBarTimeout (gid : Nat) (b : Fin 16) (s : State) : Out1 :=
  let s := s.countArrivals gid b
  match s.group? gid with
  | none => .next s
  | some g =>
    let bar := g.bars[b]
    if bar.first.isNone || decide (bar.elapsed < bar.barto) then .next s
    else
      match s.ctx? g.ctx, (List.range 32).findSome? fun k => (s.waveAt gid k).bind fun w => if w.exited then none else some w with
      | some x, some w =>
        let pc := BitVec.ofNat 57 (s.diagPc g w.index)
        .next ((s.putLong g.ctx (x.diag.toNat * 512) (s.diagRecord g b)).waveFault w g .barTimeout pc (.ofPolicy g.policy g.rcb.toNat))
      | _, _ => .next s

/-- EVENT_OVERFLOW_SCAN (R156): the waits of the overflow area that the event now meets leave. -/
def execEventOverflowScan (ctx : Nat) (name : BitVec 16) (s : State) : Out1 :=
  let spilt (e : WaitEntry) : Bool := match e.place with
    | .overflow _ => true
    | .reserved => false
    | .shared => false
  let mine := s.sched.waits.filter fun (e : WaitEntry) => e.ctx == ctx && e.name == name && spilt e && s.eventMeets ctx name e.thr
  let s := { s with sched := { s.sched with scans := s.sched.scans.filter fun p => !(p.1 == ctx && p.2.1 == name) } }
  .next (mine.foldl (fun (s : State) e => s.eventRelease e) s)

/-- Units of a context's save area that no wave and no saved group holds any more are freed: their work was terminated (R147, R233) (DEDUCED, log 92). -/
def State.reapUnits (s : State) : State :=
  (s.x :: s.ctxs).foldl (fun (s : State) (x : Ctx) =>
    let live := (s.allWaves.filter fun (w : Wave) => w.ctx == x.id).filterMap (·.unit)
    let kept := (s.sched.places.filter fun (p : Placing) => p.saved && p.group.ctx == x.id).flatMap fun p =>
      p.units.waves.map (·.2) ++ (List.range p.units.scratch.2).map (p.units.scratch.1 + ·) ++ (List.range p.units.acc.2).map (p.units.acc.1 + ·)
    (x.units.filter fun u => !live.contains u && !kept.contains u).foldl (fun (s : State) u => s.markUnits x.id u 1 false) s) s

end Machine
end Sys2Proof
end

