-- ==== Sys2Proof/Machine/Window.lean ====
section
/-! DEFINITION. The control window (R92-R95, R124, R326): what each register reads, which accesses it takes, and what a write of it does. -/

namespace Sys2Proof
namespace Machine

/-! ## What stands at an offset (R95, R124, R326) -/

/-- A register or a word of an array of the control window. -/
inductive Spot where
  | hsem | pstate | pwralarm | mxgate | fretCommit | devwin | fwmbox | pwrcap
  | quota (p : Fin 8)
  | qdescBase | qctl | memrepair | bplCount | bplAdd | faqHead | faqTail
  | cfStatus (o : Oct)
  | fretMap (n : Fin 64)
  | partCtl (p : Fin 8)
  | partCores (p : Fin 8) (k : Nat)
  | partRoute (p : Fin 8) (k : Fin 16)
  | partPmiss (p : Fin 8)
  | faqEntry (i k : Nat)             -- 64-bit word k of entry i
  | bplEntry (i : Nat)
  | act (n : Nat)
  | io (n : Nat) (k : Fin 8)
  | ionotify (n : Nat)
  | ctxRoot (c : Nat)
  | doorbell (q : Nat)
  | msixTable (v : Nat) (high : Bool)
  | msixPba (n : Nat)
  | frecHead | frecTail | prqHead | prqTail | prqResp | shootCtl | shootVa | shootLen | dbgCtl | dbgStatus | dbgSel | dbgData
  | frec (i k : Nat)
  | prq (i k : Nat)
  | notify (i : Nat)
  | dbg (n : Nat)
  | reserved
deriving DecidableEq, Repr

/-- The register of one of the first page's offsets. -/
def firstPage (o : Nat) : Spot :=
  match o with
  | 0x1000 => .hsem
  | 0x1008 => .pstate
  | 0x1010 => .pwralarm
  | 0x1018 => .mxgate
  | 0x1020 => .fretCommit
  | 0x1028 => .devwin
  | 0x1030 => .fwmbox
  | 0x1038 => .pwrcap
  | 0x1080 => .qdescBase
  | 0x1088 => .qctl
  | 0x1090 => .memrepair
  | 0x1098 => .bplCount
  | 0x10A0 => .bplAdd
  | 0x10A8 => .faqHead
  | 0x10B0 => .faqTail
  | _ =>
    if 0x1040 ≤ o ∧ o < 0x1080 then .quota (Fin.ofNat 8 ((o - 0x1040) / 8))
    else if 0x10C0 ≤ o ∧ o < 0x1100 then .cfStatus (Fin.ofNat 8 ((o - 0x10C0) / 8))
    else .reserved

/-- A partition register (R124, R205). -/
def partSpot (p : Fin 8) (r : Nat) : Spot :=
  if r = 0 then .partCtl p
  else if 0x40 ≤ r ∧ r < 0x68 then .partCores p ((r - 0x40) / 8)
  else if 0x80 ≤ r ∧ r < 0x100 then .partRoute p (Fin.ofNat 16 ((r - 0x80) / 8))
  else if r = 0x100 then .partPmiss p
  else .reserved

/-- A register of the translation and debug page. -/
def xlatePage (o : Nat) : Spot :=
  match o with
  | 0x30000 => .frecHead
  | 0x30008 => .frecTail
  | 0x30010 => .prqHead
  | 0x30018 => .prqTail
  | 0x30020 => .prqResp
  | 0x30028 => .shootCtl
  | 0x30030 => .shootVa
  | 0x30038 => .shootLen
  | 0x30040 => .dbgCtl
  | 0x30048 => .dbgStatus
  | 0x30050 => .dbgSel
  | 0x30058 => .dbgData
  | _ => .reserved

/-- What stands at an offset that is a multiple of 8. -/
def spotAt (o : Nat) : Spot :=
  if o < 0x2000 then firstPage o
  else if o < 0x2200 then .fretMap (Fin.ofNat 64 ((o - 0x2000) / 8))
  else if o < 0x3000 then .reserved
  else if o < 0x4000 then partSpot (Fin.ofNat 8 ((o - 0x3000) / 0x200)) ((o - 0x3000) % 0x200)
  else if o < 0x8000 then .faqEntry ((o - 0x4000) / 64) ((o - 0x4000) % 64 / 8)
  else if o < 0x10000 then .bplEntry ((o - 0x8000) / 8)
  else if o < 0x10800 then .act ((o - 0x10000) / 8)
  else if o < 0x20000 then .reserved
  else if o < 0x28000 then .io ((o - 0x20000) / 64) (Fin.ofNat 8 ((o - 0x20000) % 64 / 8))
  else if o < 0x29000 then .ionotify ((o - 0x28000) / 8)
  else if o < 0x30000 then .reserved
  else if o < 0x31000 then xlatePage o
  else if o < 0x35000 then .frec ((o - 0x31000) / 64) ((o - 0x31000) % 64 / 8)
  else if o < 0x38000 then .reserved
  else if o < 0x42000 then .prq ((o - 0x38000) / 32) ((o - 0x38000) % 32 / 8)
  else if o < 0x46000 then .notify ((o - 0x42000) / 8)
  else if o < 0x50000 then .reserved
  else if o < 0x58000 then .ctxRoot ((o - 0x50000) / 8)
  else if o < 0x80000 then .reserved
  else if o < 0x100000 then .dbg ((o - 0x80000) / 8)
  else if o < 0x1000000 then .reserved
  else if o < 0x2000000 then (if o % 0x1000 = 0 then .doorbell ((o - 0x1000000) / 0x1000) else .reserved)
  else if o < 0x3000000 then .reserved
  else if o < 0x3008000 then .msixTable ((o - 0x3000000) / 16) (o % 16 == 8)
  else if o < 0x3008400 then .msixPba ((o - 0x3008000) / 8)
  else .reserved

/-- The size of the control window (R93) (DEDUCED, log 97). -/
def windowSize : Nat := 64 * 2 ^ 20

/-- How wide a register is (R94): 64 bits, 32 bits, or a word of an array or a reserved offset. -/
inductive Width where
  | w64 | w32 | any
deriving DecidableEq, Repr

def Spot.width : Spot → Width
  | .hsem | .bplCount | .faqHead | .faqTail | .frecHead | .frecTail | .prqHead | .prqTail => .w32
  | .faqEntry _ _ | .bplEntry _ | .act _ | .io _ _ | .ionotify _ | .ctxRoot _ | .msixTable _ _ | .msixPba _ | .frec _ _ | .prq _ _ | .notify _
  | .dbg _ | .reserved => .any
  | .pstate | .pwralarm | .mxgate | .fretCommit | .devwin | .fwmbox | .pwrcap | .quota _ | .qdescBase | .qctl | .memrepair | .bplAdd
  | .cfStatus _ | .fretMap _ | .partCtl _ | .partCores _ _ | .partRoute _ _ | .partPmiss _ | .doorbell _ | .prqResp | .shootCtl | .shootVa
  | .shootLen | .dbgCtl | .dbgStatus | .dbgSel | .dbgData => .w64

/-- Does an offset take an access of a size, for what it is to the function (R92, R94)? (DEDUCED, log 97) -/
def takesAccess (spot : Spot) (offset size : Nat) : Bool :=
  (size == 4 || size == 8) && offset % size == 0 && decide (offset + size ≤ windowSize) && (size == 8 || spot.width != .w64)

/-- What an offset is for a function: a virtual function sees its partition's doorbells and its own MSI-X table (R92) (DEDUCED, log 39) (DEDUCED, log 93). -/
def State.spotFor (s : State) (fn : Nat) (o : Nat) : Spot :=
  if fn = 0 then spotAt o
  else match spotAt o with
    | .doorbell q => if s.partOfQueue q = some (Fin.ofNat 8 (fn - 1)) then .doorbell q else .reserved
    | .msixTable v h => .msixTable v h
    | .msixPba n => .msixPba n
    | _ => .reserved

/-! ## What a register reads -/

/-- A 64-bit word of a record. -/
def recWord (v : BitVec 512) (k : Nat) : DWord := v.extractLsb' (64 * k) 64

/-- A word of a ring of records. -/
def Ring.word (r : Ring) (i k : Nat) : DWord := recWord (((r.slots.find? fun p => p.1 == i).map (·.2)).getD 0) k

/-- A page-request entry (R327). -/
def Prq.bits (p : Prq) : BitVec 512 :=
  let kind := match p.need with
    | .read => 0
    | .write => 1
    | .fetch => 2
  BitVec.ofNat 512 (fieldAt p.va.toNat 199 + fieldAt p.ctx 187 + fieldAt p.part 184 + fieldAt kind 182 + fieldAt p.bad.toNat 181
    + fieldAt (decide (p.index < 1024)).toNat 180 + fieldAt p.core 171 + fieldAt p.tick 64 + fieldAt (Nat.min p.waiters 65535) 48 + 1)

/-- CF_STATUS (R53). -/
def State.cfWord (s : State) (o : Oct) : DWord :=
  let x := s.octs[o]
  let c := x.cf
  BitVec.ofNat 64 (fieldAt c.epoch.toNat 62 + fieldAt x.early.length 52 + fieldAt c.ebufmax.toNat 42 + fieldAt c.refusals.toNat 26
    + fieldAt c.losses.toNat 18 + fieldAt c.stale.toNat 10 + fieldAt s.epoch.running.toNat 1 + c.removed.toNat)

/-- PART_CTL (R124). -/
def Partition.ctl (x : Partition) : DWord :=
  BitVec.ofNat 64 (fieldAt x.stored.valid.toNat 63 + fieldAt x.suspend.toNat 62 + fieldAt x.suspended.toNat 61 + fieldAt x.stored.ports.toNat 45
    + fieldAt x.stored.qfirst.toNat 33 + fieldAt x.stored.qlast.toNat 21 + fieldAt x.refused.toNat 5)

/-- A word of an I/O context record (R117). -/
def IoCtx.word (x : IoCtx) (k : Fin 8) : DWord :=
  match k.val with
  | 0 => x.firstfail
  | 1 => x.issued
  | 2 => x.timeline
  | 3 => BitVec.ofNat 64 (2 ^ 51 * (x.regs[(3 : Fin 8)].toNat / 2 ^ 51) + fieldAt x.valid.toNat 50 + x.status.toNat)
  | _ => x.regs[k]

/-- An MSI-X table entry: address, then data and the mask bit (PRESUMED, log 95). -/
def MsiVec.word (m : MsiVec) (high : Bool) : DWord := if high then BitVec.ofNat 64 (m.data.toNat + fieldAt m.masked.toNat 32) else m.addr

/-- What a register reads; write-only registers and reserved offsets read 0. -/
def State.regWord (s : State) (port : Port) (fn : Nat) (spot : Spot) : DWord :=
  let n (v : Nat) : DWord := BitVec.ofNat 64 v
  match spot with
  | .hsem => n (fieldAt s.hsem.owner.toNat 30 + fieldAt s.hsem.last.toNat 29 + fieldAt s.hsem.preempted.toNat 18 + fieldAt s.hsem.denied.toNat 2)
  | .pstate => n (fieldAt s.power.err.toNat 8 + fieldAt s.power.busy.toNat 7 + fieldAt s.power.cur.toNat 4 + s.power.target.toNat)
  | .pwralarm => n (fieldAt s.power.alarm.toNat 8 + s.power.exempt.toNat)
  | .mxgate => n s.power.mxgate.toNat
  | .fretCommit => n s.fret.state.toNat
  | .devwin => n s.window.devwin.toNat
  | .fwmbox => n (fieldAt s.trust.cmd.toNat 56 + fieldAt s.trust.status.toNat 48 + s.trust.arg.toNat)
  | .pwrcap => n (fieldAt s.power.avg.toNat 32 + fieldAt s.power.exceeded.toNat 31 + fieldAt s.power.auto.toNat 30 + s.power.cap.toNat)
  | .quota p => n (fieldAt (s.parts[p]).quota.l3ways.toNat 8 + (s.parts[p]).quota.l2ways.toNat)
  | .qdescBase => n (fieldAt s.window.qdesc.toNat 12)
  | .memrepair => s.repair.memrepair
  | .bplCount => n (fieldAt (decide (4096 ≤ s.repair.bpl.length)).toNat 31 + s.repair.bpl.length)
  | .faqHead => n (fieldAt s.repair.faq.lost.toNat 16 + s.repair.faq.head)
  | .faqTail => n s.repair.faq.tail
  | .cfStatus o => s.cfWord o
  | .fretMap k => s.fret.stored[k]
  | .partCtl p => (s.parts[p]).ctl
  | .partCores p k => (s.parts[p]).stored.cores.extractLsb' (64 * k) 64
  | .partRoute p k => (s.parts[p]).stored.routes[k]
  | .partPmiss p => n (fieldAt (s.parts[p]).pmiss.toNat 48 + (s.parts[p]).pmissTick.toNat)
  | .faqEntry i k => s.repair.faq.word i k
  | .bplEntry i => match s.repair.bpl[i]? with
    | some e => n (fieldAt e.1.toNat 60 + e.2.toNat)
    | none => 0
  | .act k => regsGet s.window.act k
  | .io k w => (s.ioRec k).word w
  | .ctxRoot c => regsGet s.window.ctxRoot c
  | .msixTable v h => (s.msiVec port fn v).word h
  | .msixPba k => n ((List.range 64).foldl (fun v i => v + fieldAt (s.msiVec port fn (64 * k + i)).pending.toNat i) 0)
  | .frecHead => n (fieldAt s.xlate.frec.lost.toNat 16 + s.xlate.frec.head)
  | .frecTail => n s.xlate.frec.tail
  | .prqHead => n (fieldAt s.xlate.prqLost.toNat 16 + s.xlate.prqHead)
  | .prqTail => n s.xlate.prqTail
  | .shootCtl => n (fieldAt s.xlate.shootGo.toNat 63 + fieldAt s.xlate.shootStatus.toNat 61 + fieldAt s.xlate.shootCtx.toNat 48)
  | .shootVa => s.xlate.shootVa
  | .shootLen => s.xlate.shootLen
  | .dbgStatus => n (fieldAt s.xlate.dbgResult.toNat 60 + fieldAt s.xlate.dbgReason.toNat 58 + s.xlate.dbgWave.toNat)
  | .dbgSel => s.xlate.dbgSel
  | .dbgData => s.dbgData
  | .frec i k => s.xlate.frec.word i k
  | .prq i k => match s.xlate.prq.find? fun (p : Prq) => p.index == i with
    | some p => recWord p.bits k
    | none => 0
  | .notify i => match s.xlate.notify.find? fun p => p.1 == i with
    | some p => p.2.zeroExtend 64
    | none => 0
  | .dbg k => regsGet s.xlate.dbg k
  | .qctl | .bplAdd | .ionotify _ | .doorbell _ | .prqResp | .dbgCtl | .reserved => 0

/-- What a read of a function returns (R92, R94); none is Unsupported Request. -/
def State.regRead (s : State) (port : Port) (fn offset size : Nat) : Option DWord :=
  let spot := s.spotFor fn (offset / 8 * 8)
  if takesAccess spot offset size then
    let w := s.regWord port fn spot
    some (if size = 8 then w else BitVec.ofNat 64 (w.toNat / 2 ^ (8 * (offset % 8)) % 2 ^ 32))
  else none

/-! ## What a write does -/

/-- A 64-bit word with the bytes of a write in place. -/
def merged (old : DWord) (offset size : Nat) (value : DWord) : DWord :=
  if size = 8 then value
  else if offset % 8 = 0 then (old.extractLsb' 32 32) ++ (value.setWidth 32 : Word)
  else (value.setWidth 32 : Word) ++ (old.setWidth 32 : Word)

/-- A write of PART_CTL (R124, R125): valid, ports and queues are stored for the next install; refused and suspend take effect at once. -/
def writePartCtl (port : Port) (p : Fin 8) (v : DWord) (s : State) : Out1 :=
  if s.holds port then
    let x := s.parts[p]
    let conf := { x.stored with valid := v.getLsbD 63, ports := v.extractLsb' 45 16, qfirst := v.extractLsb' 33 12, qlast := v.extractLsb' 21 12 }
    let t := { s with parts := s.parts.set p { x with stored := conf, refused := v.extractLsb' 5 16 } }
    if v.getLsbD 62 then execSuspend port p t
    else if x.suspend then execPartitionResume port p t
    else .next (t.guarded port id)
  else .next (s.guarded port id)

/-- A write of FWMBOX (R138) (DEDUCED, log 75). -/
def writeFwmbox (port : Port) (v : DWord) (s : State) : Out1 :=
  match v.toNat / 2 ^ 56 with
  | 1 => execFirmwareInstall port (v.setWidth 48) s
  | 2 => execAttest port (v.setWidth 48) s
  | 3 => execRemoveOctant port (v.setWidth 48) s
  | 4 => execRaiseRollback ⟨port, v.setWidth 48⟩ s
  | _ => execFwmboxNoCommand port v s

/-- A write of QCTL (R100). -/
def writeQctl (v : DWord) (s : State) : Out1 :=
  let q := v.toNat % 4096
  if v.getLsbD 31 then (if v.getLsbD 30 then execQueueResume q s else execQueueEnable q s) else execQueueDisable q s

/-- A write of MEMREPAIR (R84). -/
def writeMemrepair (v : DWord) (s : State) : Out1 :=
  match v.toNat / 2 ^ 58 % 4 with
  | 0 => execSpareRow v s
  | 1 => execRowRemap v s
  | 2 => execSpareGranule v s
  | _ => execMemrepairReservedKind v s

/-- A write of an I/O context record's word (R117, R118): timeline, issued, firstfail and status are read-only (DEDUCED, log 96). -/
def writeIo (n : Nat) (k : Fin 8) (offset size : Nat) (value : DWord) (s : State) : Out1 :=
  let x := s.ioRec n
  if k.val < 3 then .next s
  else
    let v := merged x.regs[k] offset size value
    let s := s.putIo { x with regs := x.regs.set k v }
    if k.val = 3 ∧ (size = 8 ∨ offset % 8 = 4) then (if v.getLsbD 50 then execIoContextBind n s else execIoContextUnbind n s) else .next s

/-- A write of an MSI-X table word: clearing the mask bit delivers what is pending (R110) (PRESUMED, log 95). -/
def writeMsix (port : Port) (fn v : Nat) (high : Bool) (offset size : Nat) (value : DWord) (s : State) : Out1 :=
  let m := s.msiVec port fn v
  let w := merged (m.word high) offset size value
  if high then
    let s := s.setMsi { m with data := w.setWidth 32, masked := w.getLsbD 32 }
    if w.getLsbD 32 then .next s else execMsixUnmask port fn v s
  else .next (s.setMsi { m with addr := w })

/-- A write of PRQ_RESP (R328). -/
def writePrqResp (v : DWord) (s : State) : Out1 :=
  match v.toNat / 2 ^ 62 with
  | 1 => execPrqRetry (v.toNat % 2048) s
  | 2 => execPrqFail (v.toNat % 2048) s
  | _ => execPrqRespNoEffect v s

/-- A write of DBG_CTL (R339). -/
def writeDbgCtl (v : DWord) (s : State) : Out1 :=
  match v.toNat / 2 ^ 62 with
  | 1 => execDebugHalt v s
  | 2 => execDebugResume v s
  | 3 => execDebugStep v s
  | _ => .next s

/-- A write of PSTATE (R128). -/
def writePstate (port : Port) (v : DWord) (s : State) : Out1 :=
  match v.toNat % 4 with
  | 0 => execPstatePs0 port s
  | 1 => execPstatePs1 port s
  | 2 => execPstatePs2 port s
  | _ => execPstatePs3 port s

/-- A write of HSEM (R96, R97): op 0 and 3 have no effect but that the owner has written. -/
def writeHsem (port : Port) (v : DWord) (s : State) : Out1 :=
  match v.toNat % 4 with
  | 1 => execHsemAcquire port false s
  | 2 => execHsemRelease port s
  | _ => .next (if s.holds port then { s with hsem := { s.hsem with wrote := s.tick } } else s)

/-- The counters of CF_STATUS that a write sets (R53). -/
def CfStatus.write (c : CfStatus) (v : DWord) : CfStatus :=
  { c with ebufmax := v.extractLsb' 42 10, refusals := v.extractLsb' 26 16, losses := v.extractLsb' 18 8, stale := v.extractLsb' 10 8 }

/-- A change of a partition's registers. -/
def State.modPart (s : State) (p : Fin 8) (f : Partition → Partition) : State := { s with parts := s.parts.set p (f s.parts[p]) }

/-- A write of what stands at an offset (DEDUCED, log 94) (DEDUCED, log 96). -/
def writeSpot (port : Port) (fn offset size : Nat) (value : DWord) (spot : Spot) (s : State) : Out1 :=
  let v := if size = 8 then value else (value.setWidth 32).setWidth 64
  let new (old : DWord) : DWord := merged old offset size value
  match spot with
  | .hsem => writeHsem port v s
  | .pstate => writePstate port v s
  | .pwralarm => execPwralarm port v s
  | .mxgate => execMxgate port v s
  | .fretCommit => execFretCommit port v s
  | .devwin => .next { s with window := { s.window with devwin := v.setWidth 10 } }
  | .fwmbox => writeFwmbox port v s
  | .pwrcap => .next (s.guarded port fun s => { s with power := { s.power with auto := v.getLsbD 30, cap := v.setWidth 16 } })
  | .quota p => .next (s.guarded port fun s =>
      s.modPart p fun x => { x with quota := { l3ways := v.extractLsb' 8 5, l2ways := v.setWidth 5 } })
  | .qdescBase => .next { s with window := { s.window with qdesc := v.extractLsb' 12 40 } }
  | .qctl => writeQctl v s
  | .memrepair => writeMemrepair v s
  | .bplAdd => execBplAdd v s
  | .faqHead => .next { s with repair := { s.repair with faq := { s.repair.faq with lost := v.extractLsb' 16 16 } } }
  | .faqTail => execFaqTail (v.setWidth 32) s
  | .cfStatus o => .next (s.modOct o fun x => { x with cf := x.cf.write v })
  | .fretMap n => .next (s.guarded port fun s => { s with fret := { s.fret with stored := s.fret.stored.set n v } })
  | .partCtl p => writePartCtl port p v s
  | .partCores p k => .next (s.guarded port fun s => s.modPart p fun x =>
      { x with stored := { x.stored with cores :=
        x.stored.cores &&& ~~~((0xFFFFFFFFFFFFFFFF#320) <<< (64 * k)) ||| (v.zeroExtend 320) <<< (64 * k) } })
  | .partRoute p k => .next (s.guarded port fun s => s.modPart p fun x => { x with stored := { x.stored with routes := x.stored.routes.set k v } })
  | .partPmiss p => .next (s.guarded port fun s => s.modPart p fun x => { x with pmiss := v.extractLsb' 48 16 })
  | .act k => .next { s with window := { s.window with act := regsSet s.window.act k (new (regsGet s.window.act k)) } }
  | .io n k => writeIo n k offset size value s
  | .ionotify n => execIonotify n s
  | .ctxRoot c => .next (s.guarded port fun s =>
      { s with window := { s.window with ctxRoot := regsSet s.window.ctxRoot c (new (regsGet s.window.ctxRoot c)) } })
  | .doorbell q => execDoorbell q v s
  | .msixTable n h => writeMsix port fn n h offset size value s
  | .frecHead => .next { s with xlate := { s.xlate with frec := { s.xlate.frec with lost := v.extractLsb' 16 16 } } }
  | .frecTail => execFrecTail (v.setWidth 32) s
  | .prqHead => .next { s with xlate := { s.xlate with prqLost := v.extractLsb' 16 16 } }
  | .prqTail => execPrqTail (v.setWidth 32) s
  | .prqResp => writePrqResp v s
  | .shootCtl => execShootdown v s
  | .shootVa => .next { s with xlate := { s.xlate with shootVa := v &&& 0x1FFFFFFFFFF0000#64 } }
  | .shootLen => .next { s with xlate := { s.xlate with shootLen := v &&& 0xFFFFFF#64 } }
  | .dbgCtl => writeDbgCtl v s
  | .dbgSel => .next { s with xlate := { s.xlate with dbgSel := v } }
  | .dbgData => execDbgDataWrite v s
  | .dbg k => .next { s with xlate := { s.xlate with dbg := regsSet s.xlate.dbg k (new (regsGet s.xlate.dbg k)) } }
  | .bplCount | .faqEntry _ _ | .bplEntry _ | .msixPba _ | .dbgStatus | .frec _ _ | .prq _ _ | .notify _ | .reserved => .next s

/-- The upper four bytes of a 32-bit register's eight are a reserved offset. -/
def Spot.half (spot : Spot) (offset : Nat) : Spot := if spot.width = .w32 ∧ offset % 8 = 4 then .reserved else spot

/-- REGISTER_WRITE (R92-R95): a write to the control window by a function of a port, 0 for the physical one. -/
def execRegisterWrite (port : Port) (fn offset size : Nat) (value : DWord) (s : State) : Out1 :=
  let spot := s.spotFor fn (offset / 8 * 8)
  if s.power.held then .next s
  else if takesAccess spot offset size then writeSpot port fn offset size value (spot.half offset) s
  else .next { s with out := s.out ++ [.unsupported (.host port) offset] }

end Machine
end Sys2Proof
end

