-- ==== Sys2Proof/Machine/Clock.lean ====
section
/-! DEFINITION. The tick count (R27): what changes with a tick, and the happenings that the package brings about in it. A happening whose
conditions do not hold leaves the state unchanged, so it is asked for again in the next tick while what it is about stands. -/

namespace Sys2Proof
namespace Machine

/-! ## What changes with a tick -/

/-- The timers of a group's barriers: a phase that has begun counts the ticks in which the group is resident and no wave of it is halted
(R165, R342) (DEDUCED, log 89) (DEDUCED, log 110). -/
def State.runTimers (s : State) (g : Group) : Group :=
  if (s.wavesOf g.gid).any (·.halted) then g
  else { g with bars := Vector.ofFn fun (b : Fin 16) => let x := g.bars[b]; if x.first.isSome then { x with elapsed := x.elapsed + 1 } else x }

/-- The tick rises by 1; the barriers' timers run; a wave that cannot issue is not waiting to (R160); what its words read is as the tick finds it (R405,
R449); waves whose wait is over go on. -/
def State.nextTick (s : State) : State :=
  let s := s.writeRecords
  let s := { s with tick := s.tick + 1, c := s.c.l1Settle, cores := s.cores.map Core.l1Settle }
  let s := { s with g := s.runTimers s.g, groups := s.groups.map s.runTimers }
  let idle (w : Wave) : Wave := if s.eligible w && w.waiting.isNone then w else { w with since := s.tick }
  let s := { s with w := idle s.w, waves := s.waves.map idle }
  let glance (c : Core) : Core := { c with bow := { c.bow with was := (c.bow.gated, c.bow.narrow) } }
  let s := { s with w := s.w.look, waves := s.waves.map Wave.look, c := glance s.c, cores := s.cores.map glance }
  let s := s.allWaves.foldl (fun (s : State) w => s.spillYield w.uid) s
  s.reapUnits.countAll.recheck

/-! ## What is asked for in a tick -/

/-- The next happening of a request. A snoop that is out is answered in the next tick, when the script names no earlier answer. -/
def Req.wants (r : Req) : Option Instr :=
  let device := r.target == Target.device
  if r.snooped then some (.backInvalidateResponse r.id)
  else match r.stage with
  | .l2 =>
    match r.kind with
    | .read _ => if device then some (.l2ProbeAccept r.id 0) else some (.l1Fill r.id)
    | .take _ => if device then some (.l2ProbeAccept r.id 0) else some (.l1Fill r.id)
    | .write => some (.storeAccept r.id)
    | .atomic _ _ => if device then some (.stampWrite r.id) else some (.homeAluAccept r.id)
    | .event _ => if device then some (.stampWrite r.id) else some (.eventAddAtHome r.id)
    | .mreq => some (.stampRead r.id)
  | .stamp => if r.kind.isWrite then some (.stampWrite r.id) else some (.stampRead r.id)
  | .wire => if device then none else some (.homeAcknowledgement r.id)
  | .early => none
  | .held => none
  | .l3 => some (.l3ReadAccept r.id 0)
  | .hbm => some (.hbmReadAccept r.id)
  | .mem => some (.hbmDataReturn r.id .good)
  | .alu => some (.homeAluAccept r.id)
  | .reply => none
  | .fill => some (.l1Fill r.id)
  | .applied => if r.quiet then none else match r.kind with
    | .event _ => some (.eventAddAtHome r.id)
    | _ => some (.homeAcknowledgement r.id)

/-- The happening at the end of a packet's path. -/
def Flight.wants (f : Flight) : Option Instr :=
  match f.wire with
  | .wr _ => some (.wr f.src f.dst)
  | .wrel _ => some (.wrel f.src f.dst)
  | .rd _ => some (.rd f.src f.dst)
  | .racq _ => some (.racq f.src f.dst)
  | .rply _ _ => some (.rply f.src f.dst)
  | .aply _ _ _ => some (.aply f.src f.dst)
  | .bcn _ => some (.bcn f.src f.dst)
  | .refuse _ => some (.refuse f.src f.dst)
  | .mreq _ => some (.mreq f.src f.dst)
  | .mrply _ _ _ => some (.mrply f.src f.dst)
  | .inval _ => none
  | .ctl _ => none

/-- The happenings of a wave's access. -/
def Access.wants (a : Access) (slot tick : Nat) (evictAt : Option Nat) : List Instr :=
  let due := match a.at_ with
    | some t => decide (t ≤ tick)
    | none => true
  (if a.refines.isEmpty then [] else [Instr.refinement slot a.id]) ++ (if a.notices.isEmpty then [] else [Instr.lateNotice slot a.id])
    ++ (if a.kind = .copy then
          (if a.waits.isEmpty then [Instr.copyComplete slot a.id] else [])
            ++ (match evictAt with
              | some t => if t + 4096 ≤ tick then [Instr.cpaEvictionTimeout slot a.id] else []
              | none => [])
        else if due then [Instr.valueArrival slot a.id] else [])

/-- The happening that ends a wave's park. -/
def Wave.parkWants (w : Wave) (tick : Nat) : List Instr :=
  match w.park with
  | .sleep t => if t ≤ tick then [.sleepExpiry w.slot] else []
  | .yield (.tick t) _ => if t.toNat ≤ tick then [.yieldTickExpiry w.slot] else []
  | .twait _ => [.promiseMatures w.slot]
  | .tyield _ => [.promiseMatures w.slot]
  | .value _ => [.promiseMatures w.slot]
  | .replay => [.promiseMatures w.slot]
  | _ => if w.switch then [.promiseMatures w.slot] else []

/-- The happenings of a wave. -/
def State.waveWants (s : State) (w : Wave) : List Instr :=
  let evictAt := (s.group? w.gid).bind (·.evictAt)
  (if w.window.any fun (p : Pending) => decide (p.ready ≤ s.tick) then [Instr.fixedLatencyResult w.slot] else [])
    ++ w.accs.flatMap (fun (a : Access) => a.wants w.slot s.tick evictAt)
    ++ w.parkWants s.tick
    ++ (w.front.filter fun (e : Entry) => e.fetching && !((s.core (coreOfSlot w.slot)).held.any fun (h : Held) =>
          h.wave == w.uid && h.pc == e.pc && h.need == Need.fetch)).map (fun (e : Entry) => Instr.instructionFetch w.slot e.pc)
    ++ (if w.triggered then [Instr.triggerCount w.slot] else []) ++ (if w.exited then [Instr.waveSlotFree w.slot] else [])
    ++ (if w.accs.any fun (a : Access) => a.ticket.isSome && a.kind == AccKind.fence then [Instr.fenceScComplete w.slot] else [])

/-- The happening that ends the Bow's state. -/
def Bow.wants (b : Bow) (core tick : Nat) : List Instr :=
  if b.state = .idle then [.matrixGate core]
  else if tick < b.leave then []
  else match b.state with
    | .idle => []
    | .wake => [.bowWakeEnd core]
    | .fetch => [.bowFetchEnd core]
    | .step => [.bowStepEnd core]
    | .drain => [.bowDrainEnd core]
    | .stop => [.bowStopEnd core]

/-- The happenings of a core. -/
def State.coreWants (s : State) (c : Core) : List Instr :=
  (c.held.flatMap fun (h : Held) =>
      (if h.state = .walking then [Instr.translationComplete h.slot h.id] else []) ++ (if h.again ≠ 0 then [Instr.replayIssue h.slot h.id] else []))
    ++ (if c.accWaits.any (·.op.isRead) then [Instr.accumulatorAccess c.id] ++ c.bow.wants c.id s.tick
        else c.bow.wants c.id s.tick ++ (if c.accWaits.isEmpty then [] else [Instr.accumulatorAccess c.id]))
    ++ (List.finRange 4).flatMap fun (e : Fin 4) => match (c.engines[e]).kind with
      | .armed => if s.tick % 16 = 0 then [Instr.streamHeaderPoll c.id e] else []
      | .cpt => [Instr.cptComplete c.id e]
      | .free => []
      | .held => []

/-- The happening of a group under eviction. -/
def Group.wants (g : Group) : List Instr := if g.evictAt.isSome then [.quiescenceComplete g.gid] else []

/-- The barrier timeout that is due when every arrival of the tick has been counted (R165). -/
def State.timeUp (s : State) : Option Instr :=
  s.allGroups.findSome? fun g =>
    if (s.ctx? g.ctx).isNone || (s.wavesOf g.gid).all (·.exited) then none
    else ((List.finRange 16).find? fun (b : Fin 16) => (g.bars[b]).first.isSome && decide ((g.bars[b]).barto ≤ (g.bars[b]).elapsed)).map
      (Instr.barTimeout g.gid)

/-- The happenings of the scheduler, the queues and the I/O contexts. -/
def State.schedWants (s : State) : List Instr :=
  (List.finRange 8).flatMap (fun (p : Fin 8) =>
    (if s.sched.places.any fun (q : Placing) => s.partOf q.group.ctx == p.val then [Instr.groupPlacement p] else [])
      ++ (if (s.parts[p]).suspend && !(s.parts[p]).suspended then [Instr.suspensionComplete p] else []))
    ++ ((s.x :: s.ctxs).filter fun (x : Ctx) => !x.pool.isEmpty).map (fun (x : Ctx) => Instr.binnerTimeout x.id)
    ++ s.sched.scans.map (fun p => Instr.eventOverflowScan p.1 p.2.1)
    ++ (s.queues.filter fun (q : Queue) => q.state == 1 && decide (q.rptr < q.wptr) && s.tick % 4096 == 0).map (fun (q : Queue) => Instr.dependenceSignalPoll q.q)
    ++ (s.jobs.filter fun (j : Job) => !j.dead && s.jobDone j).map (fun (j : Job) => Instr.packetCompletion j.id)
    ++ (s.ios.filter fun (x : IoCtx) => x.valid).flatMap (fun (x : IoCtx) =>
      (if s.tick % 1024 = 0 then [Instr.cqPoll x.n] else []) ++ (if x.waiting.isSome then [Instr.ioSubmission x.n] else [])
        ++ x.reqs.filterMap fun (r : IoReq) => match r.submitted with
          | some t => if !r.done && decide (t + Config.ioTimeout ≤ s.tick) then some (Instr.ioRequestTimeout x.n r.num) else none
          | none => none)

/-- The happenings of the octants: beacons and losses while the fabric runs, resends, and the steps of an epoch change. -/
def State.fabricWants (s : State) : List Instr :=
  let runs := decide (s.power.cur.toNat ≤ 1) && !s.power.held
  (if runs && s.tick % 256 == 0 then [Instr.beaconSend] else [])
    ++ (List.finRange 8).flatMap (fun (o : Oct) =>
      let x := s.octs[o]
      (if x.retry.any fun p => decide (16384 ≤ s.tick - p.2) then [Instr.retryBufferTimeout o] else [])
        ++ (if s.epoch.running then
              (if x.cf.removed then [] else if !x.stopped then [Instr.stop o] else if s.epoch.stopped.getLsbD o.val then [] else [Instr.stopped o])
                ++ [Instr.drained o]
            else [])
        ++ (List.finRange 8).flatMap fun (h : Oct) =>
          (if runs && decide (4096 ≤ s.tick - x.bcnTick[h]) then [Instr.beaconTimeout o h] else [])
            ++ (match x.refusedAt[h] with
              | some t => if t ≤ s.tick then [Instr.retryResend o h] else []
              | none => []))
    ++ (if s.epoch.running && allOcts s s.epoch.drained then [Instr.resume] else [])
    ++ (if s.seq.tickets.any fun (t : Ticket) => t.g == 0 || (t.done && s.ticketOver t) then [Instr.ticketGrant] else [])

/-- The happenings of Psihel and of the host side. -/
def State.hostWants (s : State) : List Instr :=
  (match s.repair.due with
      | some t => if t ≤ s.tick then [Instr.repairComplete] else []
      | none => [])
    ++ (if s.fret.checking.isSome then [Instr.fretMapCheck] else [])
    ++ (if s.fret.state = 1 then
          (if s.tick = s.fret.install - Config.boundLead then [Instr.boundTransitionStart] else []) ++ (if s.fret.install ≤ s.tick then [Instr.fretInstall] else [])
        else [])
    ++ (match s.fret.boundEnd with
      | some t => if t ≤ s.tick then [Instr.boundTransitionEnd] else []
      | none => [])
    ++ (if (s.hsem.owner = 1 ∨ s.hsem.owner = 2) ∧ Config.hsemLapse ≤ s.tick - s.hsem.wrote then [Instr.hsemLapse] else [])
    ++ (if s.power.busy && s.tick % 4096 == 0 then [Instr.powerTransition] else [])
    ++ (if s.tick % Config.powerWindow = 0 then [Instr.powerWindowEnd (Config.inputPower s.tick)] else [])
    ++ (let due := if s.tick % Config.energyPeriod = 0 then (s.x :: s.ctxs).map (·.id) else s.power.owing
        if due.isEmpty then [] else [Instr.energyAccount (due.map fun c => (c, Config.energyShare s.tick c))])
    ++ (if s.xlate.shootGo then [Instr.shootdownComplete] else [])

/-- Every happening that the package asks for in this tick (DEDUCED, log 100). -/
def State.wants (s : State) : List Instr :=
  s.hostWants ++ s.flights.filterMap Flight.wants ++ s.reqs.filterMap Req.wants ++ s.allWaves.flatMap s.waveWants
    ++ (s.allCores.flatMap s.coreWants) ++ s.allGroups.flatMap Group.wants ++ s.schedWants ++ s.fabricWants

/-- Ask for happenings that are not asked for yet (DEDUCED, log 100). -/
def State.askAll (s : State) (l : List Instr) : State := l.foldl (fun (s : State) e => if s.todo.contains e then s else s.due e) s

/-- One tick later (DEDUCED, log 99). -/
def State.tickOn (s : State) : State := let s := s.nextTick; s.askAll s.wants

end Machine
end Sys2Proof
end

