-- ==== Sys2Proof/Machine/VectorInt.lean ====
section
/-! DEFINITION. The vector integer, bit-field, shuffle, vote and `id` instructions (R391-R395). -/

namespace Sys2Proof
namespace Machine

/-- A vector result in the lanes of Active (R377): `f` gives each lane's value, and the shape of a full write is `sh` (R220). -/
def vectorOp (i : Instr) (d : VOp) (f : Lane → Word) (sh : Shape) (l : Latency) (s : State) : Out1 :=
  word i {} (fun t => t.result s.cur.active d 0 f sh l) s

/-- An integer operation of two sources, and of the destination where it accumulates (R391). -/
def intOp (i : Instr) (op : IntOp) (ty : IntTy) (d a b : VOp) (os : List VOp) (s : State) : Out1 :=
  let r := s.latch
  let f (L : Lane) : Word := op.word ty (readV r a L) (readV r b L) (readV r d L)
  vectorOp i d f (intShape op ty r s.cur.active a b os (f (lowest s.cur.active))) .vecInt s

/-- A bitwise or bit-counting operation on 32 bits (R391). -/
def bitOp (i : Instr) (d a b : VOp) (f : Word → Word → Word) (s : State) : Out1 :=
  let r := s.latch
  let g (L : Lane) : Word := f (readV r a L) (readV r b L)
  vectorOp i d g (uniformShape r s.cur.active [a, b] (g (lowest s.cur.active))) .vecInt s

/-- `add` (R391). -/
def execAdd (ty : IntTy) (d a b : VOp) (s : State) : Out1 := intOp (.add ty d a b) .add ty d a b [a, b] s

/-- `sub` (R391). -/
def execSub (ty : IntTy) (d a b : VOp) (s : State) : Out1 := intOp (.sub ty d a b) .sub ty d a b [a, b] s

/-- `mul` (R391). -/
def execMul (ty : IntTy) (d a b : VOp) (s : State) : Out1 := intOp (.mul ty d a b) .mul ty d a b [a, b] s

/-- `mulh` (R391). -/
def execMulh (ty : IntTy) (d a b : VOp) (s : State) : Out1 := intOp (.mulh ty d a b) .mulh ty d a b [a, b] s

/-- `mad` (R391). -/
def execMad (ty : IntTy) (d a b : VOp) (s : State) : Out1 := intOp (.mad ty d a b) .mad ty d a b [d, a, b] s

/-- `shl` (R391). -/
def execShl (ty : IntTy) (d a b : VOp) (s : State) : Out1 := intOp (.shl ty d a b) .shl ty d a b [a, b] s

/-- `shr` (R391). -/
def execShr (ty : IntTy) (d a b : VOp) (s : State) : Out1 := intOp (.shr ty d a b) .shr ty d a b [a, b] s

/-- `sra` (R391). -/
def execSra (ty : IntTy) (d a b : VOp) (s : State) : Out1 := intOp (.sra ty d a b) .sra ty d a b [a, b] s

/-- `min` (R391). -/
def execMin (ty : IntTy) (d a b : VOp) (s : State) : Out1 := intOp (.min ty d a b) .min ty d a b [a, b] s

/-- `max` (R391). -/
def execMax (ty : IntTy) (d a b : VOp) (s : State) : Out1 := intOp (.max ty d a b) .max ty d a b [a, b] s

/-- `abs` (R391). -/
def execAbs (ty : IntTy) (d a : VOp) (s : State) : Out1 := intOp (.abs ty d a) .abs ty d a a [a] s

/-- `and` (R391). -/
def execAnd (d a b : VOp) (s : State) : Out1 := bitOp (.and d a b) d a b (fun x y => x &&& y) s

/-- `or` (R391). -/
def execOr (d a b : VOp) (s : State) : Out1 := bitOp (.or d a b) d a b (fun x y => x ||| y) s

/-- `xor` (R391); of one register with itself it is a U zero (R220). -/
def execXor (d a b : VOp) (s : State) : Out1 :=
  if sameReg s.latch s.cur.active a b then vectorOp (.xor d a b) d (fun _ => 0) (.u 0) .vecInt s
  else bitOp (.xor d a b) d a b (fun x y => x ^^^ y) s

/-- `popc` (R391). -/
def execPopc (d a : VOp) (s : State) : Out1 := bitOp (.popc d a) d a a (fun x _ => BitVec.ofNat 32 (popcount x)) s

/-- `clz` (R391): 32 for 0. -/
def execClz (d a : VOp) (s : State) : Out1 := bitOp (.clz d a) d a a (fun x _ => BitVec.ofNat 32 (leadingZeros x)) s

/-- `mov` (R391): the shape is the source's (R220). -/
def execMov (d a : VOp) (s : State) : Out1 :=
  vectorOp (.mov d a) d (fun L => readV s.latch a L) (srcShape s.latch s.cur.active a) .vecInt s

/-- A mask result with bit L for each active lane, and 0 for the others (R392, R396). -/
def maskResult (i : Instr) (k : KReg) (f : Lane → Bool) (l : Latency) (s : State) : Out1 :=
  word i {} (fun t => t.resultK k (s.cur.active &&& maskOf f) l) s

/-- `cmp` (R392). -/
def execCmp (c : Cond) (ty : IntTy) (k : KReg) (a b : VOp) (s : State) : Out1 :=
  maskResult (.cmp c ty k a b) k (fun L => c.word ty (readV s.latch a L) (readV s.latch b L)) .vecInt s

/-- `sel` (R392): shape G unless the mask is k0 (R220). -/
def execSel (k : Fin 4) (d a b : VOp) (s : State) : Out1 :=
  let r := s.latch
  let m := r.kget (Fin.ofNat 8 k.val)
  let f (L : Lane) : Word := if m.getLsbD L.val then readV r a L else readV r b L
  vectorOp (.sel k d a b) d f (if k = 0 then uniformShape r s.cur.active [a, b] (f (lowest s.cur.active)) else .g) .vecInt s

/-- `bfx` (R393). -/
def execBfx (uns : Bool) (d a b : VOp) (s : State) : Out1 := bitOp (.bfx uns d a b) d a b (bfxWord uns) s

/-- `bfi` (R393): accumulating. -/
def execBfi (d a b : VOp) (s : State) : Out1 :=
  let r := s.latch
  let f (L : Lane) : Word := bfiWord (readV r d L) (readV r a L) (readV r b L)
  vectorOp (.bfi d a b) d f (uniformShape r s.cur.active [d, a, b] (f (lowest s.cur.active))) .vecInt s

/-! ## Shuffles (R394) -/

/-- The source lane of each mode. -/
inductive ShflMode where
  | idx | up | down | xor
deriving DecidableEq, Repr

/-- The source lane S of lane L (R394): `.up` and `.down` outside 0-31 give L itself. -/
def ShflMode.source (m : ShflMode) (L : Lane) (v : Word) : Lane :=
  match m with
  | .idx => Fin.ofNat 32 v.toNat
  | .up => if v.toNat ≤ L.val then Fin.ofNat 32 (L.val - v.toNat) else L
  | .down => if L.val + v.toNat ≤ 31 then Fin.ofNat 32 (L.val + v.toNat) else L
  | .xor => Fin.ofNat 32 (L.val ^^^ (v.toNat % 32))

/-- The lanes read as sources. -/
def sourceLanes (m : ShflMode) (r : Regs) (act : Mask) (b : VOp) : Mask :=
  (lanesOf act).foldl (fun v L => v ||| (1#32 <<< (m.source L (readV r b L)).val)) 0

/-- A shuffle: an indirect vA is resolved and tested in each source lane and stepped in Active (R224, R394). -/
def shuffle (i : Instr) (m : ShflMode) (d a b : VOp) (s : State) : Out1 :=
  let r := s.latch
  word i { lanesA := some (sourceLanes m r s.cur.active b) }
    (fun t => t.result s.cur.active d 0 (fun L => readV r a (m.source L (readV r b L))) .g .cross) s

/-- `shfl.idx` (R394). -/
def execShflIdx (d a b : VOp) (s : State) : Out1 := shuffle (.shflIdx d a b) .idx d a b s

/-- `shfl.up` (R394). -/
def execShflUp (d a b : VOp) (s : State) : Out1 := shuffle (.shflUp d a b) .up d a b s

/-- `shfl.down` (R394). -/
def execShflDown (d a b : VOp) (s : State) : Out1 := shuffle (.shflDown d a b) .down d a b s

/-- `shfl.xor` (R394). -/
def execShflXor (d a b : VOp) (s : State) : Out1 := shuffle (.shflXor d a b) .xor d a b s

/-- All 32 lanes. -/
def everyLane : Mask := BitVec.allOnes 32

/-- One value in all 32 lanes, whatever Active holds: the destination is resolved and tested in all of them and stepped in Active
(R224, R394, R396). -/
def broadcast (i : Instr) (d : VOp) (v : Word) (s : State) : Out1 :=
  word i { lanesD := some everyLane } (fun t => t.result everyLane d 0 (fun _ => v) (.u v) .cross) s

/-- `vote.all` (R394). -/
def execVoteAll (d : VOp) (k : KReg) (s : State) : Out1 :=
  broadcast (.voteAll d k) d (flag (s.cur.active &&& ~~~(s.latch.kget k) == 0)) s

/-- `vote.any` (R394). -/
def execVoteAny (d : VOp) (k : KReg) (s : State) : Out1 :=
  broadcast (.voteAny d k) d (flag (s.cur.active &&& s.latch.kget k != 0)) s

/-- `vote.ballot` (R394). -/
def execVoteBallot (d : VOp) (k : KReg) (s : State) : Out1 := broadcast (.voteBallot d k) d (s.latch.kget k &&& s.cur.active) s

/-- The value that a selector of `id` names (R395). A task wave reads 0 for its group ids (R153). -/
def idValue (s : State) (sel : Nat) : Word :=
  let group (n : Nat) : Word := if s.w.task then 0 else BitVec.ofNat 32 n
  match sel with
  | 0 => BitVec.ofNat 32 s.w.index
  | 1 => BitVec.ofNat 32 s.g.waves
  | 2 => group s.g.gx
  | 3 => group s.g.gy
  | 4 => group s.g.gz
  | 5 => BitVec.ofNat 32 (coreOfSlot s.w.slot)
  | 6 => BitVec.ofNat 32 (subOfSlot s.w.slot).val
  | 7 => BitVec.ofNat 32 (s.w.slot % 16)
  | 8 => s.cur.active
  | n + 9 => s.latch.sget (Fin.ofNat 64 (n + 9 - 64))

/-- `id` (R395): the same value in every active lane; shape U when written in all lanes. -/
def execId (d : VOp) (sel : BitVec 9) (s : State) : Out1 :=
  let v := idValue s sel.toNat
  vectorOp (.id d sel) d (fun _ => v) (.u v) .vecInt s

end Machine
end Sys2Proof
end

