-- ==== Sys2Proof/Machine/IndexTime.lean ====
section
/-! DEFINITION. The index register operations (R402), the shape operations (R403) and the time register operations (R404, R405). -/

namespace Sys2Proof
namespace Machine

/-! ## Index registers (R222, R402) -/

/-- `xcfg` (R222, R402): the configuration for the whole wave; bound 0 means 256. -/
def execXcfg (x : XNum) (base bound : BitVec 8) (step : BitVec 4) (s : State) : Out1 :=
  let n : BitVec 9 := if bound = 0 then 256 else bound.zeroExtend 9
  word (.xcfg x base bound step) {} (fun t => t.resultX x (fun r => { r with base := base, bound := n, step := step }) .vecInt) s

/-- `xset` (R222, R402): in each active lane the value is vA mod 256. -/
def execXset (x : XNum) (a : VOp) (s : State) : Out1 :=
  word (.xset x a) {}
    (fun t => t.resultX x (fun r => r.setVal s.cur.active fun L => (readV s.latch a L).setWidth 8) .vecInt) s

/-- `xget` (R222, R402): the value, zero-extended; shape G. -/
def execXget (d : VOp) (x : XNum) (s : State) : Out1 :=
  vectorOp (.xget d x) d (fun L => (s.latch.x[x].val[L]).setWidth 32) .g .vecInt s

/-- `xadd` (R222, R402): in each active lane the value plus vA, mod 256. -/
def execXadd (x : XNum) (a : VOp) (s : State) : Out1 :=
  word (.xadd x a) {}
    (fun t => t.resultX x
      (fun r => r.setVal s.cur.active fun L => s.latch.x[x].val[L] + (readV s.latch a L).setWidth 8) .vecInt) s

/-! ## Shapes (R403) -/

/-- `shp` (R403): has the register that vA names in the lowest active lane shape G? -/
def execShp (d : SReg) (a : VOp) (s : State) : Out1 :=
  word (.shp d a) {}
    (fun t => t.resultS d (flag (s.latch.v[resolve s.latch a (lowest s.cur.active)]).isG) .vecInt) s

/-- `shpw` (R403): `.wide` and the number of registers in shape G. -/
def execShpw (d : SReg) (s : State) : Out1 :=
  word (.shpw d) {}
    (fun t => t.resultS d (BitVec.ofNat 32 (s.w.wide * 65536 + gCount { s.w with regs := s.latch })) .vecInt) s

/-! ## Time registers (R207-R210, R404) -/

/-- The value of a time operand in a lane. -/
def timeOf (r : Regs) (t : TOp) (L : Lane) : DWord := (r.t[timeReg r t L])[L]

/-- Has the access of a time operand ended in a lane (R195)? -/
def arrivedIn (r : Regs) (t : TOp) (L : Lane) : Bool := (r.arr[timeReg r t L]).getLsbD L.val

/-- A vector result in a pair, low word first. -/
def pairResult (i : Instr) (d : VOp) (f : Lane → DWord) (sh : DWord → Shape × Shape) (s : State) : Out1 :=
  let p := sh (f (lowest s.cur.active))
  word i {} (fun t =>
    (t.result s.cur.active d 0 (fun L => (f L).extractLsb' 0 32) p.1 .vecInt).result s.cur.active d 1
      (fun L => (f L).extractLsb' 32 32) p.2 .vecInt) s

/-- `tnow` (R207, R404): the tick count at issue, the same in every lane; shape U (DEDUCED, log 120). -/
def execTnow (d : VOp) (s : State) : Out1 :=
  pairResult (.tnow d) d (fun _ => BitVec.ofNat 64 s.tick) (fun v => (.u (v.extractLsb' 0 32), .u (v.extractLsb' 32 32))) s

/-- `tget` (R207, R404). -/
def execTget (d : VOp) (t : TOp) (s : State) : Out1 :=
  pairResult (.tget d t) d (fun L => timeOf s.latch t L) (fun _ => (.g, .g)) s

/-- The distance of a time value (R207). -/
def distance (v : DWord) (tick : Nat) : Word :=
  if v = poisonTime ∨ v = cancelTime then 0
  else if v = noPromise ∨ v = faultTime then 0xFFFFFFFF
  else BitVec.ofNat 32 (Nat.min (v.toNat - tick) 0xFFFFFFFF)

/-- `tdist` (R207, R404). -/
def execTdist (d : VOp) (t : TOp) (s : State) : Out1 :=
  vectorOp (.tdist d t) d (fun L => distance (timeOf s.latch t L) s.tick) .g .vecInt s

/-- `tready` (R207, R404). -/
def execTready (k : KReg) (t : TOp) (s : State) : Out1 := maskResult (.tready k t) k (fun L => arrivedIn s.latch t L) .vecInt s

/-- Has the access of a time register ended and its value been reached, so that `twait` goes on (R209)? -/
def waitOver (r : Regs) (n : Fin 16) (tick : Nat) (L : Lane) : Bool :=
  let v := (r.t[n])[L]
  (r.arr[n]).getLsbD L.val && (decide (v.toNat ≤ tick) || v == cancelTime)

/-- Has the promise of a time register matured (R202)? -/
def promiseOver (r : Regs) (n : Fin 16) (tick : Nat) (L : Lane) : Bool :=
  let v := (r.t[n])[L]
  (r.arr[n]).getLsbD L.val || (isPromise v && decide (v.toNat ≤ tick))

/-- `twait` (R209): parks until every active lane's access has ended and its value is reached; POISON traps at the `twait`. -/
def execTwait (t : TOp) (s : State) : Out1 :=
  let r := s.latch
  let m := s.cur.active
  let regs : Lanes (Fin 16) := Vector.ofFn fun L => timeReg r t L
  let bad := (lanesOf m).any fun L => timeOf r t L == poisonTime
  word (.twait t) { poison := if bad then some .t else none }
    (fun u => if (lanesOf m).all fun L => waitOver r regs[L] s.tick L then u else (u.park (.twait regs)).due (.promiseMatures s.w.slot)) s

/-- `tyield` (R210): parks until every active lane's promise has matured; a POISON lane does not trap. -/
def execTyield (t : TOp) (s : State) : Out1 :=
  let r := s.latch
  let m := s.cur.active
  let regs : Lanes (Fin 16) := Vector.ofFn fun L => timeReg r t L
  word (.tyield t) {}
    (fun u => if (lanesOf m).all fun L => promiseOver r regs[L] s.tick L then u else (u.park (.tyield regs)).due (.promiseMatures s.w.slot)) s

/-- The key by which `trank` ranks a time value (R208). -/
def rankKey (v : DWord) : Nat :=
  if v = poisonTime ∨ v = cancelTime then 0 else if v = faultTime then 2 ^ 64 - 1 else v.toNat

/-- Insert a register number behind every one of no greater key. -/
def rankInsert (key : Nat → Nat) (n : Nat) : List Nat → List Nat
  | [] => [n]
  | m :: rest => if key n < key m then n :: m :: rest else m :: rankInsert key n rest

/-- The numbers sorted by key, equal keys in the order given. -/
def rankSort (key : Nat → Nat) (l : List Nat) : List Nat := l.foldl (fun acc n => rankInsert key n acc) []

/-- The word of `trank` (R208): entry i at [4i+3:4i], the rest 0xF. -/
def rankWord (order : List Nat) : Word :=
  BitVec.ofNat 32 ((List.range 8).foldl (fun v i => v + (order.getD i 15) * 16 ^ i) 0)

/-- `trank` (R208, R404). -/
def execTrank (d : VOp) (t : Fin 16) (m : Fin 8) (s : State) : Out1 :=
  let r := s.latch
  let regs := (List.range (m.val + 1)).map fun j => t.val + j
  vectorOp (.trank d t m) d
    (fun L => rankWord (rankSort (fun n => rankKey (r.t[Fin.ofNat 16 n])[L]) regs)) .g .cross s

end Machine
end Sys2Proof
end

