-- ==== Sys2Proof/Machine/Scalar.lean ====
section
/-! DEFINITION. The scalar register operations (R378-R380) and the mask operations (R401). -/

namespace Sys2Proof
namespace Machine

/-- A scalar operation of two registers: one result for the wave, ready after the scalar latency (R176, R177). -/
def scalarOp (i : Instr) (d a b : SReg) (f : Word → Word → Word) (s : State) : Out1 :=
  word i {} (fun t => t.resultS d (f (s.latch.sget a) (s.latch.sget b)) .scalar) s

/-- A mask operation: all 32 bits of the result (R401). -/
def maskOp (i : Instr) (d a b : KReg) (f : Mask → Mask → Mask) (s : State) : Out1 :=
  word i {} (fun t => t.resultK d (f (s.latch.kget a) (s.latch.kget b)) .scalar) s

/-- `s.add` (R378): Wrap32(sA + sB). -/
def execSAdd (d a b : SReg) (s : State) : Out1 := scalarOp (.sAdd d a b) d a b (fun x y => x + y) s

/-- `s.sub` (R378): Wrap32(sA - sB). -/
def execSSub (d a b : SReg) (s : State) : Out1 := scalarOp (.sSub d a b) d a b (fun x y => x - y) s

/-- `s.mul` (R378): the low 32 bits of the product. -/
def execSMul (d a b : SReg) (s : State) : Out1 := scalarOp (.sMul d a b) d a b (fun x y => x * y) s

/-- `s.mulh` (R378): bits [63:32] of the signed product. -/
def execSMulh (d a b : SReg) (s : State) : Out1 := scalarOp (.sMulh d a b) d a b (fun x y => ((x.signExtend 64) * (y.signExtend 64)).extractLsb' 32 32) s

/-- `s.and` (R378). -/
def execSAnd (d a b : SReg) (s : State) : Out1 := scalarOp (.sAnd d a b) d a b (fun x y => x &&& y) s

/-- `s.or` (R378). -/
def execSOr (d a b : SReg) (s : State) : Out1 := scalarOp (.sOr d a b) d a b (fun x y => x ||| y) s

/-- `s.xor` (R378). -/
def execSXor (d a b : SReg) (s : State) : Out1 := scalarOp (.sXor d a b) d a b (fun x y => x ^^^ y) s

/-- `s.shl` (R378): shift amounts are sB mod 32. -/
def execSShl (d a b : SReg) (s : State) : Out1 := scalarOp (.sShl d a b) d a b (fun x y => x <<< (y.toNat % 32)) s

/-- `s.shr` (R378): sA unsigned. -/
def execSShr (d a b : SReg) (s : State) : Out1 := scalarOp (.sShr d a b) d a b (fun x y => x >>> (y.toNat % 32)) s

/-- `s.sra` (R378): sA signed. -/
def execSSra (d a b : SReg) (s : State) : Out1 := scalarOp (.sSra d a b) d a b (fun x y => x.sshiftRight (y.toNat % 32)) s

/-- `s.min` (R378): signed. -/
def execSMin (d a b : SReg) (s : State) : Out1 := scalarOp (.sMin d a b) d a b (fun x y => if x.slt y then x else y) s

/-- `s.max` (R378): signed. -/
def execSMax (d a b : SReg) (s : State) : Out1 := scalarOp (.sMax d a b) d a b (fun x y => if x.slt y then y else x) s

/-- `s.cmp.eq` (R378). -/
def execSCmpEq (d a b : SReg) (s : State) : Out1 := scalarOp (.sCmpEq d a b) d a b (fun x y => flag (x == y)) s

/-- `s.cmp.ne` (R378). -/
def execSCmpNe (d a b : SReg) (s : State) : Out1 := scalarOp (.sCmpNe d a b) d a b (fun x y => flag (x != y)) s

/-- `s.cmp.lt` (R378): signed. -/
def execSCmpLt (d a b : SReg) (s : State) : Out1 := scalarOp (.sCmpLt d a b) d a b (fun x y => flag (x.slt y)) s

/-- `s.cmp.le` (R378): signed. -/
def execSCmpLe (d a b : SReg) (s : State) : Out1 := scalarOp (.sCmpLe d a b) d a b (fun x y => flag (x.sle y)) s

/-- `s.cmp.lo` (R378): unsigned. -/
def execSCmpLo (d a b : SReg) (s : State) : Out1 := scalarOp (.sCmpLo d a b) d a b (fun x y => flag (x.ult y)) s

/-- `s.cmp.ls` (R378): unsigned. -/
def execSCmpLs (d a b : SReg) (s : State) : Out1 := scalarOp (.sCmpLs d a b) d a b (fun x y => flag (x.ule y)) s

/-- `s.sel` (R378): the old destination selects. -/
def execSSel (d a b : SReg) (s : State) : Out1 :=
  scalarOp (.sSel d a b) d a b (fun x y => if s.latch.sget d ≠ 0 then x else y) s

/-- `s.bfx` (R378): BitField, unsigned. -/
def execSBfx (d a b : SReg) (s : State) : Out1 := scalarOp (.sBfx d a b) d a b bitField s

/-- `s.popc` (R378). -/
def execSPopc (d a : SReg) (s : State) : Out1 := scalarOp (.sPopc d a) d a a (fun x _ => BitVec.ofNat 32 (popcount x)) s

/-- `s.clz` (R378): 32 for 0. -/
def execSClz (d a : SReg) (s : State) : Out1 := scalarOp (.sClz d a) d a a (fun x _ => BitVec.ofNat 32 (leadingZeros x)) s

/-- `s.mov` (R378). -/
def execSMov (d a : SReg) (s : State) : Out1 := scalarOp (.sMov d a) d a a (fun x _ => x) s

/-- `s.li` (R379). -/
def execSLi (d : SReg) (imm : Word) (s : State) : Out1 := scalarOp (.sLi d imm) d 0 0 (fun _ _ => imm) s

/-- `s.addi` (R379). -/
def execSAddi (d a : SReg) (imm : Word) (s : State) : Out1 := scalarOp (.sAddi d a imm) d a 0 (fun x _ => x + imm) s

/-- The lane that `s.rdlane` and `s.wrlane` act in: sB mod 32 (R380). -/
def laneOf (v : Word) : Lane := Fin.ofNat 32 v.toNat

/-- The mask of one lane. -/
def oneLane (L : Lane) : Mask := 1#32 <<< L.val

/-- `s.rdlane` (R380): lane l of vA, active or not; an indirect vA is resolved, tested and stepped in lane l only. -/
def execSRdlane (d : SReg) (a : VOp) (b : SReg) (s : State) : Out1 :=
  let L := laneOf (s.latch.sget b)
  word (.sRdlane d a b) { lanesA := some (oneLane L), stepIn := some (oneLane L) }
    (fun t => t.resultS d (readV s.latch a L) .cross) s

/-- `s.wrlane` (R380): lane l of vD := sA, every other lane unchanged; shape G. -/
def execSWrlane (d : VOp) (a b : SReg) (s : State) : Out1 :=
  let L := laneOf (s.latch.sget b)
  word (.sWrlane d a b) { lanesD := some (oneLane L), stepIn := some (oneLane L) }
    (fun t => t.result (oneLane L) d 0 (fun _ => s.latch.sget a) .g .cross) s

/-- `kand` (R401). -/
def execKand (d a b : KReg) (s : State) : Out1 := maskOp (.kand d a b) d a b (fun x y => x &&& y) s

/-- `kor` (R401). -/
def execKor (d a b : KReg) (s : State) : Out1 := maskOp (.kor d a b) d a b (fun x y => x ||| y) s

/-- `kxor` (R401). -/
def execKxor (d a b : KReg) (s : State) : Out1 := maskOp (.kxor d a b) d a b (fun x y => x ^^^ y) s

/-- `knot` (R401). -/
def execKnot (d a : KReg) (s : State) : Out1 := maskOp (.knot d a) d a a (fun x _ => ~~~x) s

end Machine
end Sys2Proof
end

