-- ==== Sys2Proof/Machine/VectorFloat.lean ====
section
/-! DEFINITION. The vector float instructions (R396, R397) and the conversions and packings (R398-R400). -/

namespace Sys2Proof
namespace Machine

/-- A float operation on each element (R247): three sources, of which `d` is the old destination. -/
def floatOp (i : Instr) (ty : FloTy) (d a b : VOp) (os : List VOp) (f : FloatFmt → Nat → Nat → Nat → Nat) (s : State) : Out1 :=
  let r := s.latch
  let g (L : Lane) : Word := zipElems ty.bits (f ty.fmt) (readV r a L) (readV r b L) (readV r d L)
  vectorOp i d g (uniformShape r s.cur.active os (g (lowest s.cur.active))) .vecFloat s

/-- `fadd` (R247, R396). -/
def execFadd (ty : FloTy) (r : Rnd) (d a b : VOp) (s : State) : Out1 :=
  floatOp (.fadd ty r d a b) ty d a b [a, b] (fun f x y _ => f.fadd r x y) s

/-- `fsub` (R247, R396). -/
def execFsub (ty : FloTy) (r : Rnd) (d a b : VOp) (s : State) : Out1 :=
  floatOp (.fsub ty r d a b) ty d a b [a, b] (fun f x y _ => f.fsub r x y) s

/-- `fmul` (R247, R396). -/
def execFmul (ty : FloTy) (r : Rnd) (d a b : VOp) (s : State) : Out1 :=
  floatOp (.fmul ty r d a b) ty d a b [a, b] (fun f x y _ => f.fmul r x y) s

/-- `ffma` (R247, R396): vA x vB + vD, rounded once. -/
def execFfma (ty : FloTy) (r : Rnd) (d a b : VOp) (s : State) : Out1 :=
  floatOp (.ffma ty r d a b) ty d a b [d, a, b] (fun f x y z => f.ffma r x y z) s

/-- `fmin` (R247). -/
def execFmin (ty : FloTy) (d a b : VOp) (s : State) : Out1 :=
  floatOp (.fmin ty d a b) ty d a b [a, b] (fun f x y _ => f.fmin x y) s

/-- `fmax` (R247). -/
def execFmax (ty : FloTy) (d a b : VOp) (s : State) : Out1 :=
  floatOp (.fmax ty d a b) ty d a b [a, b] (fun f x y _ => f.fmax x y) s

/-- `fcmp` (R247, R396): the condition holds for every element. -/
def execFcmp (c : FCond) (ty : FloTy) (k : KReg) (a b : VOp) (s : State) : Out1 :=
  maskResult (.fcmp c ty k a b) k
    (fun L => allElems ty.bits (ty.fmt.fcmp c) (readV s.latch a L) (readV s.latch b L)) .vecFloat s

/-- `fcls` (R397): one class bit for each element. -/
def execFcls (ty : FloTy) (d a : VOp) (s : State) : Out1 :=
  floatOp (.fcls ty d a) ty d a a [a] (fun f x _ _ => 2 ^ f.classBit x) s

/-- A transcendental operation on FP32 (R247). -/
def transOp (i : Instr) (d a : VOp) (f : Nat → Nat) (s : State) : Out1 :=
  let r := s.latch
  let g (L : Lane) : Word := BitVec.ofNat 32 (f (readV r a L).toNat)
  vectorOp i d g (uniformShape r s.cur.active [a] (g (lowest s.cur.active))) .trans s

/-- `frcp` (R247). -/
def execFrcp (d a : VOp) (s : State) : Out1 := transOp (.frcp d a) d a frcpBits s

/-- `frsq` (R247). -/
def execFrsq (d a : VOp) (s : State) : Out1 := transOp (.frsq d a) d a frsqBits s

/-- `fsqrt` (R247). -/
def execFsqrt (d a : VOp) (s : State) : Out1 := transOp (.fsqrt d a) d a fsqrtBits s

/-- `fex2` (R247). -/
def execFex2 (d a : VOp) (s : State) : Out1 := transOp (.fex2 d a) d a fex2Bits s

/-- `flg2` (R247). -/
def execFlg2 (d a : VOp) (s : State) : Out1 := transOp (.flg2 d a) d a flg2Bits s

/-- `fsin` (R247). -/
def execFsin (d a : VOp) (s : State) : Out1 := transOp (.fsin d a) d a fsinBits s

/-- `fcos` (R247). -/
def execFcos (d a : VOp) (s : State) : Out1 := transOp (.fcos d a) d a fcosBits s

/-- `fred` (R247): the fixed tree over the 32 lanes, inactive ones +0; written in all lanes. -/
def execFred (r : Rnd) (d a : VOp) (s : State) : Out1 :=
  let xs := allLanes.map fun L => if s.cur.active.getLsbD L.val then (readV s.latch a L).toNat else 0
  broadcast (.fred r d a) d (BitVec.ofNat 32 (treeSum r 5 xs)) s

/-! ## Conversions (R398-R400) -/

/-- The bits of a result; an overflow under `.trap` writes nothing. -/
def CvtRes.bits : CvtRes → Nat
  | .ok b => b
  | .trap => 0

/-- A conversion of the element in the low bits of a register (R243). -/
def cvtWord (dst src : Elt) (r : Rnd) (o : Ovf) (v : Word) : Word :=
  BitVec.ofNat 32 (convert dst src r o (v.toNat % 2 ^ src.width)).bits

/-- The lanes whose conversion overflows under `.trap` (R250). -/
def overflowLanes (dst src : Elt) (r : Rnd) (o : Ovf) (m : Mask) (f : Lane → Word) : Mask :=
  m &&& maskOf fun L => convert dst src r o ((f L).toNat % 2 ^ src.width) == .trap

/-- `cvt` (R398): widening and rounding pairs. -/
def execCvt (dst src : Elt) (r : Rnd) (d a : VOp) (s : State) : Out1 :=
  let l := s.latch
  let g (L : Lane) : Word := cvtWord dst src r .sat (readV l a L)
  vectorOp (.cvt dst src r d a) d g (uniformShape l s.cur.active [a] (g (lowest s.cur.active))) .vecFloat s

/-- `cvtn` (R398): narrowing pairs, with the overflow policy (R249); OVERFLOW under `.trap` (R250). -/
def execCvtn (dst src : Elt) (r : Rnd) (o : Ovf) (d a : VOp) (s : State) : Out1 :=
  let l := s.latch
  let g (L : Lane) : Word := cvtWord dst src r o (readV l a L)
  word (.cvtn dst src r o d a) { overflow := overflowLanes dst src r o s.cur.active (readV l a) }
    (fun t => t.result s.cur.active d 0 g (uniformShape l s.cur.active [a] (g (lowest s.cur.active))) .vecFloat) s

/-- A result in a pair of registers. -/
def pairOp (i : Instr) (d a : VOp) (f g : Word → Word) (s : State) : Out1 :=
  let l := s.latch
  let m := s.cur.active
  let sh (h : Word → Word) : Shape := uniformShape l m [a] (h (readV l a (lowest m)))
  word i {} (fun t => (t.result m d 0 (fun L => f (readV l a L)) (sh f) .vecFloat).result m d 1
    (fun L => g (readV l a L)) (sh g) .vecFloat) s

/-- Element j of a source of `cvtw` (R399): bytes, 6-bit and 4-bit elements stand packed. -/
def cvtwElem (src : Elt) (j : Nat) (v : Word) : Nat := v.toNat / 2 ^ (src.width * j) % 2 ^ src.width

/-- Two converted elements in one register. -/
def cvtwHalf (dst src : Elt) (r : Rnd) (j : Nat) (v : Word) : Word :=
  joinElems 16 fun k => (convert dst src r .sat (cvtwElem src (j + k) v)).bits

/-- `cvtw` (R399): four elements widened into a pair. -/
def execCvtw (dst src : Elt) (r : Rnd) (d a : VOp) (s : State) : Out1 :=
  pairOp (.cvtw dst src r d a) d a (cvtwHalf dst src r 0) (cvtwHalf dst src r 2) s

/-- One element of `pack` (R400): from FP32 or i32, always saturating. -/
def packOne (ty : PackTy) (r : Rnd) (v : Word) : Nat :=
  match ty with
  | .f16x2 => (convert .f16 .f32 r .sat v.toNat).bits
  | .bf16x2 => (convert .bf16 .f32 r .sat v.toNat).bits
  | .i16x2 => wrapN (max (-32768) (min 32767 v.toInt)) 16
  | .n16x2 => wrapN (max 0 (min 65535 v.toInt)) 16

/-- `pack` (R400). -/
def execPack (ty : PackTy) (r : Rnd) (d a b : VOp) (s : State) : Out1 :=
  let l := s.latch
  let g (L : Lane) : Word := joinElems 16 fun k => packOne ty r (readV l (if k = 0 then a else b) L)
  vectorOp (.pack ty r d a b) d g (uniformShape l s.cur.active [a, b] (g (lowest s.cur.active))) .vecFloat s

/-- One element of `unpack` (R400): widened exactly, sign-extended or zero-extended. -/
def unpackOne (ty : PackTy) (k : Nat) (v : Word) : Word :=
  match ty with
  | .f16x2 => BitVec.ofNat 32 (convert .f32 .f16 .rne .sat (elem 16 k v)).bits
  | .bf16x2 => BitVec.ofNat 32 (convert .f32 .bf16 .rne .sat (elem 16 k v)).bits
  | .i16x2 => BitVec.ofNat 32 (wrapN (intOf true 16 (elem 16 k v)) 32)
  | .n16x2 => BitVec.ofNat 32 (elem 16 k v)

/-- `unpack` (R400). -/
def execUnpack (ty : PackTy) (d a : VOp) (s : State) : Out1 :=
  pairOp (.unpack ty d a) d a (unpackOne ty 0) (unpackOne ty 1) s

end Machine
end Sys2Proof
end

