-- ==== Sys2Proof/Machine/Dispatch.lean ====
section
/-! DEFINITION. One arm for each constructor of Instr. -/

namespace Sys2Proof
namespace Machine

/-- The effect of an instruction or a happening on the machine. -/
def exec (i : Instr) (s : State) : Host.Outcome State Fault Refusal :=
  match i with
  | .stampWrite req => Sys2Proof.Machine.execStampWrite req s
  | .stampRead req => Sys2Proof.Machine.execStampRead req s
  | .wr src dst => Sys2Proof.Machine.execWr src dst s
  | .wrel src dst => Sys2Proof.Machine.execWrel src dst s
  | .rd src dst => Sys2Proof.Machine.execRd src dst s
  | .racq src dst => Sys2Proof.Machine.execRacq src dst s
  | .rply src dst => Sys2Proof.Machine.execRply src dst s
  | .aply src dst => Sys2Proof.Machine.execAply src dst s
  | .bcn src dst => Sys2Proof.Machine.execBcn src dst s
  | .refuse src dst => Sys2Proof.Machine.execRefuse src dst s
  | .retryResend site home => Sys2Proof.Machine.execRetryResend site home s
  | .mreq src dst => Sys2Proof.Machine.execMreq src dst s
  | .mrply src dst => Sys2Proof.Machine.execMrply src dst s
  | .beaconTimeout site home => Sys2Proof.Machine.execBeaconTimeout site home s
  | .retryBufferTimeout site => Sys2Proof.Machine.execRetryBufferTimeout site s
  | .stop site => Sys2Proof.Machine.execStop site s
  | .stopped site => Sys2Proof.Machine.execStopped site s
  | .drained home => Sys2Proof.Machine.execDrained home s
  | .l2ProbeAccept req bad => Sys2Proof.Machine.execL2ProbeAccept req bad s
  | .l3ReadAccept req bad => Sys2Proof.Machine.execL3ReadAccept req bad s
  | .hbmReadAccept req => Sys2Proof.Machine.execHbmReadAccept req s
  | .hbmDataReturn req found => Sys2Proof.Machine.execHbmDataReturn req found s
  | .homeAluAccept req => Sys2Proof.Machine.execHomeAluAccept req s
  | .translationComplete wave held => Sys2Proof.Machine.execTranslationComplete wave held s
  | .refinement wave acc => Sys2Proof.Machine.execRefinement wave acc s
  | .valueArrival wave acc => Sys2Proof.Machine.execValueArrival wave acc s
  | .lateNotice wave acc => Sys2Proof.Machine.execLateNotice wave acc s
  | .promiseMatures wave => Sys2Proof.Machine.execPromiseMatures wave s
  | .kernel q => Sys2Proof.Machine.execKernel q s
  | .taskpool q => Sys2Proof.Machine.execTaskpool q s
  | .signal q => Sys2Proof.Machine.execSignal q s
  | .event q => Sys2Proof.Machine.execEvent q s
  | .wait q => Sys2Proof.Machine.execWait q s
  | .dependenceSignalPoll q => Sys2Proof.Machine.execDependenceSignalPoll q s
  | .packetCompletion job => Sys2Proof.Machine.execPacketCompletion job s
  | .backInvalidateResponse req => Sys2Proof.Machine.execBackInvalidateResponse req s
  | .ioContextBind n => Sys2Proof.Machine.execIoContextBind n s
  | .ioContextUnbind n => Sys2Proof.Machine.execIoContextUnbind n s
  | .cqPoll n => Sys2Proof.Machine.execCqPoll n s
  | .ioRequestTimeout n num => Sys2Proof.Machine.execIoRequestTimeout n num s
  | .ioSubmission n => Sys2Proof.Machine.execIoSubmission n s
  | .suspensionComplete p => Sys2Proof.Machine.execSuspensionComplete p s
  | .matrixGate core => Sys2Proof.Machine.execMatrixGate core s
  | .groupPlacement p => Sys2Proof.Machine.execGroupPlacement p s
  | .quiescenceComplete group => Sys2Proof.Machine.execQuiescenceComplete group s
  | .binnerTimeout ctx => Sys2Proof.Machine.execBinnerTimeout ctx s
  | .barTimeout group bar => Sys2Proof.Machine.execBarTimeout group bar s
  | .eventOverflowScan ctx name => Sys2Proof.Machine.execEventOverflowScan ctx name s
  | .eventAddAtHome req => Sys2Proof.Machine.execEventAddAtHome req s
  | .triggerCount wave => Sys2Proof.Machine.execTriggerCount wave s
  | .waveSlotFree wave => Sys2Proof.Machine.execWaveSlotFree wave s
  | .sleepExpiry wave => Sys2Proof.Machine.execSleepExpiry wave s
  | .yieldTickExpiry wave => Sys2Proof.Machine.execYieldTickExpiry wave s
  | .fixedLatencyResult wave => Sys2Proof.Machine.execFixedLatencyResult wave s
  | .l1Fill req => Sys2Proof.Machine.execL1Fill req s
  | .instructionFetch wave pc => Sys2Proof.Machine.execInstructionFetch wave pc s
  | .replayIssue wave held => Sys2Proof.Machine.execReplayIssue wave held s
  | .bowWakeEnd core => Sys2Proof.Machine.execBowWakeEnd core s
  | .bowFetchEnd core => Sys2Proof.Machine.execBowFetchEnd core s
  | .bowStepEnd core => Sys2Proof.Machine.execBowStepEnd core s
  | .bowDrainEnd core => Sys2Proof.Machine.execBowDrainEnd core s
  | .bowStopEnd core => Sys2Proof.Machine.execBowStopEnd core s
  | .accumulatorAccess core => Sys2Proof.Machine.execAccumulatorAccess core s
  | .copyComplete wave acc => Sys2Proof.Machine.execCopyComplete wave acc s
  | .cpaEvictionTimeout wave acc => Sys2Proof.Machine.execCpaEvictionTimeout wave acc s
  | .streamHeaderPoll core engine => Sys2Proof.Machine.execStreamHeaderPoll core engine s
  | .streamPublish core engine => Sys2Proof.Machine.execStreamPublish core engine s
  | .streamAck core engine => Sys2Proof.Machine.execStreamAck core engine s
  | .cptComplete core engine => Sys2Proof.Machine.execCptComplete core engine s
  | .fenceScComplete wave => Sys2Proof.Machine.execFenceScComplete wave s
  | .homeAcknowledgement req => Sys2Proof.Machine.execHomeAcknowledgement req s
  | .prqRetry index => Sys2Proof.Machine.execPrqRetry index s
  | .prqFail index => Sys2Proof.Machine.execPrqFail index s
  | .sAdd d a b => Sys2Proof.Machine.execSAdd d a b s
  | .sSub d a b => Sys2Proof.Machine.execSSub d a b s
  | .sMul d a b => Sys2Proof.Machine.execSMul d a b s
  | .sMulh d a b => Sys2Proof.Machine.execSMulh d a b s
  | .sAnd d a b => Sys2Proof.Machine.execSAnd d a b s
  | .sOr d a b => Sys2Proof.Machine.execSOr d a b s
  | .sXor d a b => Sys2Proof.Machine.execSXor d a b s
  | .sShl d a b => Sys2Proof.Machine.execSShl d a b s
  | .sShr d a b => Sys2Proof.Machine.execSShr d a b s
  | .sSra d a b => Sys2Proof.Machine.execSSra d a b s
  | .sMin d a b => Sys2Proof.Machine.execSMin d a b s
  | .sMax d a b => Sys2Proof.Machine.execSMax d a b s
  | .sCmpEq d a b => Sys2Proof.Machine.execSCmpEq d a b s
  | .sCmpNe d a b => Sys2Proof.Machine.execSCmpNe d a b s
  | .sCmpLt d a b => Sys2Proof.Machine.execSCmpLt d a b s
  | .sCmpLe d a b => Sys2Proof.Machine.execSCmpLe d a b s
  | .sCmpLo d a b => Sys2Proof.Machine.execSCmpLo d a b s
  | .sCmpLs d a b => Sys2Proof.Machine.execSCmpLs d a b s
  | .sSel d a b => Sys2Proof.Machine.execSSel d a b s
  | .sBfx d a b => Sys2Proof.Machine.execSBfx d a b s
  | .sPopc d a => Sys2Proof.Machine.execSPopc d a s
  | .sClz d a => Sys2Proof.Machine.execSClz d a s
  | .sMov d a => Sys2Proof.Machine.execSMov d a s
  | .sLi d imm => Sys2Proof.Machine.execSLi d imm s
  | .sAddi d a imm => Sys2Proof.Machine.execSAddi d a imm s
  | .sRdlane d a b => Sys2Proof.Machine.execSRdlane d a b s
  | .sWrlane d a b => Sys2Proof.Machine.execSWrlane d a b s
  | .br off => Sys2Proof.Machine.execBr off s
  | .bc k off => Sys2Proof.Machine.execBc k off s
  | .bvAny k off => Sys2Proof.Machine.execBvAny k off s
  | .bvAll k off => Sys2Proof.Machine.execBvAll k off s
  | .jr a => Sys2Proof.Machine.execJr a s
  | .call link off => Sys2Proof.Machine.execCall link off s
  | .ret a => Sys2Proof.Machine.execRet a s
  | .yieldTags a sp => Sys2Proof.Machine.execYieldTags a sp s
  | .yieldTl a b sp => Sys2Proof.Machine.execYieldTl a b sp s
  | .yieldEv a b sp => Sys2Proof.Machine.execYieldEv a b sp s
  | .yieldTick a sp => Sys2Proof.Machine.execYieldTick a sp s
  | .sleep a imm => Sys2Proof.Machine.execSleep a imm s
  | .spawn a b => Sys2Proof.Machine.execSpawn a b s
  | .launch q p => Sys2Proof.Machine.execLaunch q p s
  | .add ty d a b => Sys2Proof.Machine.execAdd ty d a b s
  | .sub ty d a b => Sys2Proof.Machine.execSub ty d a b s
  | .mul ty d a b => Sys2Proof.Machine.execMul ty d a b s
  | .mulh ty d a b => Sys2Proof.Machine.execMulh ty d a b s
  | .mad ty d a b => Sys2Proof.Machine.execMad ty d a b s
  | .and d a b => Sys2Proof.Machine.execAnd d a b s
  | .or d a b => Sys2Proof.Machine.execOr d a b s
  | .xor d a b => Sys2Proof.Machine.execXor d a b s
  | .shl ty d a b => Sys2Proof.Machine.execShl ty d a b s
  | .shr ty d a b => Sys2Proof.Machine.execShr ty d a b s
  | .sra ty d a b => Sys2Proof.Machine.execSra ty d a b s
  | .min ty d a b => Sys2Proof.Machine.execMin ty d a b s
  | .max ty d a b => Sys2Proof.Machine.execMax ty d a b s
  | .abs ty d a => Sys2Proof.Machine.execAbs ty d a s
  | .cmp c ty k a b => Sys2Proof.Machine.execCmp c ty k a b s
  | .sel k d a b => Sys2Proof.Machine.execSel k d a b s
  | .bfx uns d a b => Sys2Proof.Machine.execBfx uns d a b s
  | .bfi d a b => Sys2Proof.Machine.execBfi d a b s
  | .popc d a => Sys2Proof.Machine.execPopc d a s
  | .clz d a => Sys2Proof.Machine.execClz d a s
  | .shflIdx d a b => Sys2Proof.Machine.execShflIdx d a b s
  | .shflUp d a b => Sys2Proof.Machine.execShflUp d a b s
  | .shflDown d a b => Sys2Proof.Machine.execShflDown d a b s
  | .shflXor d a b => Sys2Proof.Machine.execShflXor d a b s
  | .voteAll d k => Sys2Proof.Machine.execVoteAll d k s
  | .voteAny d k => Sys2Proof.Machine.execVoteAny d k s
  | .voteBallot d k => Sys2Proof.Machine.execVoteBallot d k s
  | .id d sel => Sys2Proof.Machine.execId d sel s
  | .mov d a => Sys2Proof.Machine.execMov d a s
  | .fadd ty r d a b => Sys2Proof.Machine.execFadd ty r d a b s
  | .fsub ty r d a b => Sys2Proof.Machine.execFsub ty r d a b s
  | .fmul ty r d a b => Sys2Proof.Machine.execFmul ty r d a b s
  | .ffma ty r d a b => Sys2Proof.Machine.execFfma ty r d a b s
  | .fmin ty d a b => Sys2Proof.Machine.execFmin ty d a b s
  | .fmax ty d a b => Sys2Proof.Machine.execFmax ty d a b s
  | .fcmp c ty k a b => Sys2Proof.Machine.execFcmp c ty k a b s
  | .fcls ty d a => Sys2Proof.Machine.execFcls ty d a s
  | .frcp d a => Sys2Proof.Machine.execFrcp d a s
  | .frsq d a => Sys2Proof.Machine.execFrsq d a s
  | .fsqrt d a => Sys2Proof.Machine.execFsqrt d a s
  | .fex2 d a => Sys2Proof.Machine.execFex2 d a s
  | .flg2 d a => Sys2Proof.Machine.execFlg2 d a s
  | .fsin d a => Sys2Proof.Machine.execFsin d a s
  | .fcos d a => Sys2Proof.Machine.execFcos d a s
  | .fred r d a => Sys2Proof.Machine.execFred r d a s
  | .cvt dst src r d a => Sys2Proof.Machine.execCvt dst src r d a s
  | .cvtn dst src r o d a => Sys2Proof.Machine.execCvtn dst src r o d a s
  | .cvtw dst src r d a => Sys2Proof.Machine.execCvtw dst src r d a s
  | .pack ty r d a b => Sys2Proof.Machine.execPack ty r d a b s
  | .unpack ty d a => Sys2Proof.Machine.execUnpack ty d a s
  | .kand d a b => Sys2Proof.Machine.execKand d a b s
  | .kor d a b => Sys2Proof.Machine.execKor d a b s
  | .kxor d a b => Sys2Proof.Machine.execKxor d a b s
  | .knot d a => Sys2Proof.Machine.execKnot d a s
  | .xcfg x base bound step => Sys2Proof.Machine.execXcfg x base bound step s
  | .xset x a => Sys2Proof.Machine.execXset x a s
  | .xget d x => Sys2Proof.Machine.execXget d x s
  | .xadd x a => Sys2Proof.Machine.execXadd x a s
  | .shp d a => Sys2Proof.Machine.execShp d a s
  | .shpw d => Sys2Proof.Machine.execShpw d s
  | .tnow d => Sys2Proof.Machine.execTnow d s
  | .tget d t => Sys2Proof.Machine.execTget d t s
  | .tdist d t => Sys2Proof.Machine.execTdist d t s
  | .tready k t => Sys2Proof.Machine.execTready k t s
  | .twait t => Sys2Proof.Machine.execTwait t s
  | .tyield t => Sys2Proof.Machine.execTyield t s
  | .trank d t m => Sys2Proof.Machine.execTrank d t m s
  | .ld m d a b t => Sys2Proof.Machine.execLd m d a b t s
  | .st m d a b key => Sys2Proof.Machine.execSt m d a b key s
  | .sld m d a b t => Sys2Proof.Machine.execSld m d a b t s
  | .sst m d a b key => Sys2Proof.Machine.execSst m d a b key s
  | .lds m d a b t => Sys2Proof.Machine.execLds m d a b t s
  | .sts m d a b => Sys2Proof.Machine.execSts m d a b s
  | .ldp m d a b t => Sys2Proof.Machine.execLdp m d a b t s
  | .stp m d a b => Sys2Proof.Machine.execStp m d a b s
  | .probe m a b t => Sys2Proof.Machine.execProbe m a b t s
  | .ldt m d a b key t => Sys2Proof.Machine.execLdt m d a b key t s
  | .atom op m d a b t => Sys2Proof.Machine.execAtom op m d a b t s
  | .cas m d a b e t => Sys2Proof.Machine.execCas m d a b e t s
  | .atsc op m d a b t => Sys2Proof.Machine.execAtsc op m d a b t s
  | .red op m d a b => Sys2Proof.Machine.execRed op m d a b s
  | .hred op m d a b => Sys2Proof.Machine.execHred op m d a b s
  | .fence o ss => Sys2Proof.Machine.execFence o ss s
  | .bar n => Sys2Proof.Machine.execBar n s
  | .barr n => Sys2Proof.Machine.execBarr n s
  | .barw n => Sys2Proof.Machine.execBarw n s
  | .evsig a => Sys2Proof.Machine.execEvsig a s
  | .evwait a b => Sys2Proof.Machine.execEvwait a b s
  | .evq d a => Sys2Proof.Machine.execEvq d a s
  | .sigdec p => Sys2Proof.Machine.execSigdec p s
  | .cpa toGlobal size policy o a b ss tag => Sys2Proof.Machine.execCpa toGlobal size policy o a b ss tag s
  | .cpt a v tag => Sys2Proof.Machine.execCpt a v tag s
  | .tagw ii => Sys2Proof.Machine.execTagw ii s
  | .taga ii m => Sys2Proof.Machine.execTaga ii m s
  | .tagf ii => Sys2Proof.Machine.execTagf ii s
  | .tagc d => Sys2Proof.Machine.execTagc d s
  | .srec d a => Sys2Proof.Machine.execSrec d a s
  | .sarm e tag => Sys2Proof.Machine.execSarm e tag s
  | .sstop e => Sys2Proof.Machine.execSstop e s
  | .iord d a b => Sys2Proof.Machine.execIord d a b s
  | .iowr d a b => Sys2Proof.Machine.execIowr d a b s
  | .tlw ii v => Sys2Proof.Machine.execTlw ii v s
  | .tlget d ii => Sys2Proof.Machine.execTlget d ii s
  | .acca d n => Sys2Proof.Machine.execAcca d n s
  | .accf h => Sys2Proof.Machine.execAccf h s
  | .accz h => Sys2Proof.Machine.execAccz h s
  | .accr d h n t => Sys2Proof.Machine.execAccr d h n t s
  | .accw a h n => Sys2Proof.Machine.execAccw a h n s
  | .mgix a => Sys2Proof.Machine.execMgix a s
  | .mma fa fb c d tag => Sys2Proof.Machine.execMma fa fb c d tag s
  | .mloop fa fb c n d tag => Sys2Proof.Machine.execMloop fa fb c n d tag s
  | .mloopSc fa fb sf c n d tag => Sys2Proof.Machine.execMloopSc fa fb sf c n d tag s
  | .scacc sf c p ss tag => Sys2Proof.Machine.execScacc sf c p ss tag s
  | .sysr d n => Sys2Proof.Machine.execSysr d n s
  | .sysw a n => Sys2Proof.Machine.execSysw a n s
  | .wspill a b => Sys2Proof.Machine.execWspill a b s
  | .wfill a b => Sys2Proof.Machine.execWfill a b s
  | .storeAccept req => Sys2Proof.Machine.execStoreAccept req s
  | .linkUnrecoverableFlit oct => Sys2Proof.Machine.execLinkUnrecoverableFlit oct s
  | .linkRetry boundary down ticks => Sys2Proof.Machine.execLinkRetry boundary down ticks s
  | .spareRow value => Sys2Proof.Machine.execSpareRow value s
  | .rowRemap value => Sys2Proof.Machine.execRowRemap value s
  | .spareGranule value => Sys2Proof.Machine.execSpareGranule value s
  | .memrepairReservedKind value => Sys2Proof.Machine.execMemrepairReservedKind value s
  | .faqTail value => Sys2Proof.Machine.execFaqTail value s
  | .bplAdd value => Sys2Proof.Machine.execBplAdd value s
  | .fretCommit port value => Sys2Proof.Machine.execFretCommit port value s
  | .hsemAcquire port both => Sys2Proof.Machine.execHsemAcquire port both s
  | .hsemRelease port => Sys2Proof.Machine.execHsemRelease port s
  | .functionLevelReset port => Sys2Proof.Machine.execFunctionLevelReset port s
  | .linkDown port => Sys2Proof.Machine.execLinkDown port s
  | .queueEnable q => Sys2Proof.Machine.execQueueEnable q s
  | .queueResume q => Sys2Proof.Machine.execQueueResume q s
  | .queueDisable q => Sys2Proof.Machine.execQueueDisable q s
  | .doorbell q value => Sys2Proof.Machine.execDoorbell q value s
  | .msixUnmask port fn vec => Sys2Proof.Machine.execMsixUnmask port fn vec s
  | .peerRequest r => Sys2Proof.Machine.execPeerRequest r s
  | .hostWrite src pa data => Sys2Proof.Machine.execHostWrite src pa data s
  | .hostRead src pa n => Sys2Proof.Machine.execHostRead src pa n s
  | .ionotify n => Sys2Proof.Machine.execIonotify n s
  | .nvmeCompletion n num status => Sys2Proof.Machine.execNvmeCompletion n num status s
  | .suspend port p => Sys2Proof.Machine.execSuspend port p s
  | .partitionResume port p => Sys2Proof.Machine.execPartitionResume port p s
  | .pstatePs0 port => Sys2Proof.Machine.execPstatePs0 port s
  | .pstatePs1 port => Sys2Proof.Machine.execPstatePs1 port s
  | .pstatePs2 port => Sys2Proof.Machine.execPstatePs2 port s
  | .pstatePs3 port => Sys2Proof.Machine.execPstatePs3 port s
  | .mxgate port value => Sys2Proof.Machine.execMxgate port value s
  | .pwralarm port value => Sys2Proof.Machine.execPwralarm port value s
  | .powerWindowEnd avg => Sys2Proof.Machine.execPowerWindowEnd avg s
  | .energyAccount shares => Sys2Proof.Machine.execEnergyAccount shares s
  | .firmwareInstall port arg => Sys2Proof.Machine.execFirmwareInstall port arg s
  | .attest port arg => Sys2Proof.Machine.execAttest port arg s
  | .removeOctant port arg => Sys2Proof.Machine.execRemoveOctant port arg s
  | .raiseRollback port => Sys2Proof.Machine.execRaiseRollback port s
  | .fwmboxNoCommand port value => Sys2Proof.Machine.execFwmboxNoCommand port value s
  | .trimiLoad obj => Sys2Proof.Machine.execTrimiLoad obj s
  | .prqRespNoEffect value => Sys2Proof.Machine.execPrqRespNoEffect value s
  | .prqTail value => Sys2Proof.Machine.execPrqTail value s
  | .frecTail value => Sys2Proof.Machine.execFrecTail value s
  | .shootdown value => Sys2Proof.Machine.execShootdown value s
  | .debugHalt value => Sys2Proof.Machine.execDebugHalt value s
  | .debugResume value => Sys2Proof.Machine.execDebugResume value s
  | .debugStep value => Sys2Proof.Machine.execDebugStep value s
  | .dbgDataWrite value => Sys2Proof.Machine.execDbgDataWrite value s
  | .registerWrite port fn offset size value => Sys2Proof.Machine.execRegisterWrite port fn offset size value s
  | .coldReset => Sys2Proof.Machine.execColdReset s
  | .coldResetRelease => Sys2Proof.Machine.execColdResetRelease s
  | .thermalAlert => Sys2Proof.Machine.execThermalAlert s
  | .criticalTemperatureStop => Sys2Proof.Machine.execCriticalTemperatureStop s
  | .beaconSend => Sys2Proof.Machine.execBeaconSend s
  | .resume => Sys2Proof.Machine.execResume s
  | .repairComplete => Sys2Proof.Machine.execRepairComplete s
  | .fretMapCheck => Sys2Proof.Machine.execFretMapCheck s
  | .fretInstall => Sys2Proof.Machine.execFretInstall s
  | .boundTransitionStart => Sys2Proof.Machine.execBoundTransitionStart s
  | .boundTransitionEnd => Sys2Proof.Machine.execBoundTransitionEnd s
  | .hsemLapse => Sys2Proof.Machine.execHsemLapse s
  | .powerTransition => Sys2Proof.Machine.execPowerTransition s
  | .ticketGrant => Sys2Proof.Machine.execTicketGrant s
  | .shootdownComplete => Sys2Proof.Machine.execShootdownComplete s
  | .dbgDataRead => Sys2Proof.Machine.execDbgDataRead s
  | .exit => Sys2Proof.Machine.execExit s
  | .trig => Sys2Proof.Machine.execTrig s
  | .nop => Sys2Proof.Machine.execNop s
  | .fenceSc => Sys2Proof.Machine.execFenceSc s
  | .trap => Sys2Proof.Machine.execTrap s
  | .brk => Sys2Proof.Machine.execBrk s
  | .rti => Sys2Proof.Machine.execRti s
  | .replay => Sys2Proof.Machine.execReplay s
  | .thermalAlertDeassert => Sys2Proof.Machine.execThermalAlertDeassert s

end Machine
end Sys2Proof
end

