-- ==== Sys2Proof/Machine/Run.lean ====
section
/-! DEFINITION. What a step does: a happening, the issue of one unit of one wave (R175), or the next tick; and how an instruction is laid
where the next step fetches it. -/

namespace Sys2Proof
namespace Machine

/-- Change the next state of an outcome. -/
def mapNext (f : State → Out1) : Out1 → Out1
  | .next s => f s
  | .fault r => .fault r
  | .refused r => .refused r

/-- When the results are ready that a word has added to a window of `before` results (R178). -/
def State.readyAfter (s : State) (before : Nat) : Nat := lastReady (s.w.window.drop before)

/-- The end of the issue of a unit. A word that overlaps a watchpoint has taken effect, and its wave halts (R341). -/
def finishUnit (u : Unit) (ready : List Nat) (s : State) : Out1 :=
  if s.cur.refused then .next s.waits
  else
    let t := s.issued ready u.switch
    .next (if s.cur.trapped.isNone && s.w.live && s.watched u.instrs then t.haltHere 1 else t)

/-- The trap of a pair's second word that only the first word's effect brings about: a wide row too many (R221), or a descriptor or record
that an `sts` before it made illegal (R272). -/
def State.pairTrap (s : State) (j : Instr) (place : Option Nat) : State :=
  let c := if place = some (trapRank .illegalInstr) then Cause.illegalInstr else .wideBudget
  s.takeTrap (s.trapOf j c .none s.cur.active s.cur.unit)

/-- A chained pair (R175, R361-R363). Both words read the registers at issue, and the second acts on the state the first leaves (R272), an
`exit` on the state its partner leaves (R362). A trap of either keeps both from taking effect. -/
def runPair (i j : Instr) (pc2 : VA) (u : Unit) (window : Nat) (s : State) : Out1 :=
  let s2 := s.stageSecond pc2
  mapNext (fun a => mapNext (fun b =>
    if a.cur.refused || b.cur.refused then .next s.back.waits
    else
      let both := if i = .exit then mapNext (fun t => exec i (t.stageSecond u.pc)) (exec j s2)
                  else mapNext (fun t => exec j (t.stageSecond pc2)) (exec i s)
      let ready := [a.readyAfter window, b.readyAfter window]
      mapNext (fun t =>
        if a.cur.trapped.isSome then finishUnit u ready ((pickTrap a b).getD a)
        else if t.cur.refused then .next s.back.waits
        else if t.cur.trapped.isNone then finishUnit u ready t
        else if b.cur.trapped = t.cur.trapped then finishUnit u ready b
        else finishUnit u ready (s2.pairTrap j t.cur.trapped)) both) (exec j s2)) (exec i s)

/-- Does the unit reserve the sub-core's issue in a first tick (R228)? -/
def State.mustReserve (s : State) (e : Entry) (u : Unit) : Bool :=
  (u.instrs.any fun i => divergentWord s.w.regs e.mask i) && s.c.reserved[subOfSlot s.w.slot] != some (s.w.slot, s.tick)

/-- Reserve it: the unit issues in the next core cycle (R132, R228). -/
def State.reserve (s : State) : State :=
  let sub := subOfSlot s.w.slot
  s.modC fun c => { c with reserved := c.reserved.set sub (some (s.w.slot, s.tick + s.cycle)), issuedAt := c.issuedAt.set sub (some s.tick) }

/-- The PC that the wave's trap record holds. -/
def trapPc (w : Wave) : VA := (w.regs.s[59] ++ w.regs.s[58]).extractLsb' 0 57

/-- The trap of R458 that an entry owes: it stands at its next word, and an `rti` goes on there (DEDUCED, log 27). -/
def State.payOwed (s : State) (e : Entry) (pc : VA) (lanes : Mask) : State :=
  let t := { s with latch := s.w.regs, cur := { active := e.mask, pc := e.pc, next := e.pc, unit := e.pc } }
  let t := t.takeTrap { cause := .poison, lanes := lanes, pc := pc, park := e.pc }
  if s.w.regs.busy then t
  else t.modW fun w => { w with owed := (w.owed.map fun (o : Owed) => if o.pc = pc then { o with mask := o.mask &&& ~~~lanes } else o).filter fun (o : Owed) => o.mask != 0 }

/-- Issue the unit of an entry of the wave at issue. -/
def runEntry (e : Entry) (p : Packet) (bad : Bool) (s : State) : Out1 :=
  let u := unitAt p e.pc
  let window := s.w.window.length
  let t := s.stage e u
  if bad && s.w.regs.busy && packetVa e.pc == s.x.handler.toNat * 16 then .next (t.waveFault t.w t.g .handlerFetch (trapPc t.w) .context)
  else if bad then
    .next ((t.takeTrap { cause := .poison, lanes := e.mask, pc := e.pc, park := e.pc }).issued [0] false)
  else if p.malformed || !p.starts.contains (slotOf e.pc) then
    .next ((t.takeTrap { cause := .malformedPacket, lanes := e.mask, pc := atSlotPc e.pc 1, park := e.pc }).issued [0] false)
  else
    match u.encodingFault with
    | some (c, pc, code) => .next ((t.encodingTrap c pc code).issued [0] false)
    | none =>
      if s.mustReserve e u then .next s.reserve
      else
        match u.first, u.second with
        | some i, none => mapNext (fun v => finishUnit u [v.readyAfter window] v) (exec i t)
        | some i, some (some j, pc, _) => runPair i j pc u window t
        | some _, some (none, _, _) => .next t
        | none, _ => .next t

/-- Issue from a wave. -/
def runWave (w : Wave) (s : State) : Out1 :=
  let s := s.focus w.uid
  match s.pickEntry s.c s.w with
  | .none => .next s
  | .fetch pc => .next (s.beginFetch pc)
  | .owed e pc lanes => .next (s.payOwed e pc lanes)
  | .entry e p bad => runEntry e p bad s

/-- The wave that issues next when no agent is named: that of the lowest core and sub-core that chooses one (R181, R268, R269) (DEDUCED, log 110). -/
def State.firstIssue (s : State) : Option Wave :=
  s.allWaves.foldl (fun (best : Option Wave) w =>
    if best.any fun v => decide (v.slot / 16 ≤ w.slot / 16) then best
    else match s.choose (coreOfSlot w.slot) (subOfSlot w.slot) with
      | some v => some v
      | none => best) none

/-- Is it a happening and no instruction word? -/
def isHappening (e : Instr) : Bool := (encode e).isNone

/-- What one step does. `script` names the agent that moves (log 11); when it is empty the happenings that are due come first, in order, then the
waves that can issue, then a barrier timeout (R165), then the next tick. -/
def State.move (s : State) : Out1 :=
  match s.script with
  | .tick :: rest => .next ({ s with script := rest }).tickOn
  | .issue core sub :: rest =>
    let s := { s with script := rest }
    match s.choose core sub with
    | some w => runWave w s
    | none => .next s
  | .happen e :: rest => if isHappening e then exec e { s with script := rest } else .next { s with script := rest }
  | [] =>
    match s.todo with
    | e :: rest => exec e { s with todo := rest }
    | [] =>
      match s.firstIssue with
      | some w => runWave w s
      | none =>
        match s.timeUp with
        | some e => exec e s
        | none => .next s.tickOn

/-- The physical address of the packet that placeWord places, and the virtual address it has there. -/
def fetchHome : Nat := 0x10000

/-- A state in which the next step fetches and runs an instruction word: the package in PS0, one wave of one lane mask resident on core 0
with its entry at slot 1 of a packet that holds the word, and the page of that packet in the core's TLB. -/
def State.placeWord (s : State) (nbits w : Nat) : State :=
  let packet := (packetOf (tableWords nbits w)).bytes
  { s with
    w := { s.w.look with
                    live := true, uid := 1, slot := 0, gid := 1, ctx := 0, nregs := 256, wide := 256, limit := 4096, exited := false
                    park := .none, switch := false, halted := false, mayIssue := 0, spilled := false
                    front := [{ pc := BitVec.ofNat 57 (fetchHome + 4), mask := BitVec.allOnes 32 }] }
    g := { s.g with gid := 1, ctx := 0, waves := 1 }
    c := { s.c with id := 0, issuedAt := Vector.ofFn fun _ => none
                    tlb := [{ ctx := 0, base := fetchHome, size := 65536, target := .device, pa := fetchHome, write := true, exec := true }] }
    x := { s.x with id := 0 }
    waves := []
    power := { s.power with held := false, busy := false, cur := 0, target := 0 }
    mem := s.mem.setBytes fetchHome packet
    script := []
    todo := [] }

end Machine
end Sys2Proof
end

