-- ==== Sys2Proof/Machine/Step.lean ====
section
/-! DEFINITION. One step of the package, and the state whose next step runs a given instruction word. -/

namespace Sys2Proof
namespace Machine

/-- One step: a happening, the issue of one unit of one wave, or the next tick. -/
def step (s : State) : Host.Outcome State Fault Refusal := s.move

/-- The state in which the next step fetches and runs an instruction word of the opcode table. -/
def State.withFetchWord (s : State) (nbits w : Nat) : State := s.placeWord nbits w

end Machine
end Sys2Proof
end

