-- ==== Sys2Proof/Safety.lean ====
section
/-! DEFINITION. What the statements rest on: safe steps, what a word needs to run, what a word leaves unchanged, and the values of the
spec's tables written on integers and on elements, apart from the meanings. -/

namespace Sys2Proof
namespace Machine

/-- A step is safe when the machine goes on: neither a fault nor a refusal. -/
def Safe (s : State) : Prop := ∃ t, step s = .next t

/-! ## What a word needs to run (R363) -/

/-- No operand of the word lies outside its registers in a lane that resolves it (R224, R227), and no source names the destination of an
access that ended as POISON (R213). -/
structure Clear (i : Instr) (ck : Checks) (s : State) : Prop where
  bound : boundFail i ck s = none
  good : poisonUse i ck s = none

/-- The wave's registers of shape G fit its wide rows (R221). -/
def RowsFit (s : State) : Prop := gCount s.w ≤ s.w.wide

/-! ## What a word leaves unchanged -/

/-- Nothing but the wave at issue changes: no memory, no other register of the machine. -/
def OnlyWave (s t : State) : Prop := t = { s with w := t.w }

/-- Of the wave only registers and their window change (R177). -/
def OnlyRegs (s t : State) : Prop := OnlyWave s t ∧ t.w = { s.w with regs := t.w.regs, window := t.w.window }

/-- Of the wave only registers, their window, and what older accesses still write (R231) change. -/
def OnlyRegsKill (s t : State) : Prop :=
  OnlyWave s t ∧ t.w = { s.w with regs := t.w.regs, window := t.w.window, accs := t.w.accs, poisoned := t.w.poisoned }

/-- An index register after the auto-steps of a word in the lanes of a mask (R223, R226): up for `+`, down for `-`. -/
def xAfter (i : Instr) (s : State) (m : Mask) (x : XNum) : XReg :=
  let old := s.w.regs.x[x]
  let from_ := s.latch.x[x]
  { old with val := Vector.ofFn fun L =>
      if m.getLsbD L.val ∧ VOp.inc x ∈ i.vops then from_.val[L] + from_.step.signExtend 8
      else if m.getLsbD L.val ∧ VOp.dec x ∈ i.vops then from_.val[L] - from_.step.signExtend 8
      else old.val[L] }

/-- The register j places above the one that an operand names in a lane (R223). -/
def named (s : State) (o : VOp) (j : Nat) (L : Lane) : Fin 256 := Fin.ofNat 256 (resolveNat s.latch o L + j)

/-- `n` registers from operand d on are written in the lanes of a mask, register j with `val j`; every other lane of every register keeps
its value (R377); operands step in the lanes of `steps`; scalar, mask and time registers are unchanged. -/
structure Written (i : Instr) (s t : State) (steps m : Mask) (d : VOp) (n : Nat) (val : Nat → Lane → Word) : Prop where
  value : ∀ (L : Lane) (j : Nat), m.getLsbD L.val = true → j < n → (t.w.regs.v[named s d j L]).lane L = val j L
  kept : ∀ (r : Fin 256) (L : Lane), (m.getLsbD L.val = true → ∀ j < n, r ≠ named s d j L) →
    (t.w.regs.v[r]).lane L = (s.w.regs.v[r]).lane L
  index : ∀ x : XNum, t.w.regs.x[x] = xAfter i s steps x
  others : t.w.regs = { s.w.regs with v := t.w.regs.v, x := t.w.regs.x }
  frame : OnlyRegsKill s t

/-- One scalar register is written; a write to s0 is discarded (R176). -/
structure ScalarWritten (i : Instr) (s t : State) (steps : Mask) (d : SReg) (v : Word) : Prop where
  value : d ≠ 0 → t.w.regs.s[d] = v
  kept : ∀ r : SReg, (r ≠ d ∨ d = 0) → t.w.regs.s[r] = s.w.regs.s[r]
  index : ∀ x : XNum, t.w.regs.x[x] = xAfter i s steps x
  others : t.w.regs = { s.w.regs with s := t.w.regs.s, x := t.w.regs.x }
  frame : OnlyRegs s t

/-- One mask register is written; a write to k0 is discarded (R216). -/
structure MaskWritten (i : Instr) (s t : State) (steps : Mask) (d : KReg) (v : Mask) : Prop where
  value : d ≠ 0 → t.w.regs.k[d] = v
  kept : ∀ r : KReg, (r ≠ d ∨ d = 0) → t.w.regs.k[r] = s.w.regs.k[r]
  index : ∀ x : XNum, t.w.regs.x[x] = xAfter i s steps x
  others : t.w.regs = { s.w.regs with k := t.w.regs.k, x := t.w.regs.x }
  frame : OnlyRegs s t

/-! ## Scalar values (R378, R379) -/

/-- 1 when a condition holds, else 0. -/
def one (p : Prop) [Decidable p] : Word := if p then 1 else 0

/-- The effect column of R378 and R379: the destination and its value. -/
def scalarValue (r : Regs) : Instr → Option (SReg × Word)
  | .sAdd d a b => some (d, BitVec.ofInt 32 ((r.sget a).toInt + (r.sget b).toInt))
  | .sSub d a b => some (d, BitVec.ofInt 32 ((r.sget a).toInt - (r.sget b).toInt))
  | .sMul d a b => some (d, BitVec.ofInt 32 ((r.sget a).toInt * (r.sget b).toInt))
  | .sMulh d a b => some (d, BitVec.ofInt 32 ((r.sget a).toInt * (r.sget b).toInt / 2 ^ 32))
  | .sAnd d a b => some (d, r.sget a &&& r.sget b)
  | .sOr d a b => some (d, r.sget a ||| r.sget b)
  | .sXor d a b => some (d, r.sget a ^^^ r.sget b)
  | .sShl d a b => some (d, BitVec.ofNat 32 ((r.sget a).toNat * 2 ^ ((r.sget b).toNat % 32)))
  | .sShr d a b => some (d, BitVec.ofNat 32 ((r.sget a).toNat / 2 ^ ((r.sget b).toNat % 32)))
  | .sSra d a b => some (d, BitVec.ofInt 32 ((r.sget a).toInt / 2 ^ ((r.sget b).toNat % 32)))
  | .sMin d a b => some (d, BitVec.ofInt 32 (min (r.sget a).toInt (r.sget b).toInt))
  | .sMax d a b => some (d, BitVec.ofInt 32 (max (r.sget a).toInt (r.sget b).toInt))
  | .sCmpEq d a b => some (d, one (r.sget a = r.sget b))
  | .sCmpNe d a b => some (d, one (r.sget a ≠ r.sget b))
  | .sCmpLt d a b => some (d, one ((r.sget a).toInt < (r.sget b).toInt))
  | .sCmpLe d a b => some (d, one ((r.sget a).toInt ≤ (r.sget b).toInt))
  | .sCmpLo d a b => some (d, one ((r.sget a).toNat < (r.sget b).toNat))
  | .sCmpLs d a b => some (d, one ((r.sget a).toNat ≤ (r.sget b).toNat))
  | .sSel d a b => some (d, if r.sget d ≠ 0 then r.sget a else r.sget b)
  | .sBfx d a b => some (d, BitVec.ofNat 32 ((r.sget a).toNat / 2 ^ ((r.sget b).extractLsb' 0 5).toNat % 2 ^ ((r.sget b).extractLsb' 8 5).toNat))
  | .sPopc d a => some (d, BitVec.ofNat 32 ((List.range 32).filter fun n => (r.sget a).getLsbD n).length)
  | .sClz d a => some (d, if r.sget a = 0 then 32 else BitVec.ofNat 32 (31 - Nat.log2 (r.sget a).toNat))
  | .sMov d a => some (d, r.sget a)
  | .sLi d imm => some (d, imm)
  | .sAddi d a imm => some (d, BitVec.ofInt 32 ((r.sget a).toInt + imm.toInt))
  | _ => none

/-! ## Vector results -/

/-- The wave after the auto-steps of a word and a write of `n` registers from operand d on, register j with `val j` and shape `sh j`. -/
def waveAfter (i : Instr) (s : State) (steps m : Mask) (d : VOp) (n : Nat) (val : Nat → Lane → Word) (sh : Nat → Shape) : Wave :=
  (List.range n).foldl (fun w j => w.write s.latch m d j (val j) (sh j)) (s.w.stepAll s.latch steps (stepOps i))

/-- Its registers of shape G fit the wave's wide rows (R221). -/
def WriteFits (i : Instr) (s : State) (steps m : Mask) (d : VOp) (n : Nat) (val : Nat → Lane → Word) (sh : Nat → Shape) : Prop :=
  gCount (waveAfter i s steps m d n val sh) ≤ s.w.wide

/-- A vector result of one register: the destination, each lane's value, and the shape of a full write (R220). -/
structure VRow where
  d : VOp
  val : Lane → Word
  sh : Shape

/-- An operation on the elements of three registers (R243). -/
def onElems (ty : IntTy) (f : (w : Nat) → BitVec w → BitVec w → BitVec w → BitVec w) (a b d : Word) : Word :=
  match ty.bits with
  | 32 => f 32 a b d
  | 16 => f 16 (a.extractLsb' 16 16) (b.extractLsb' 16 16) (d.extractLsb' 16 16) ++ f 16 (a.extractLsb' 0 16) (b.extractLsb' 0 16) (d.extractLsb' 0 16)
  | _ => f 8 (a.extractLsb' 24 8) (b.extractLsb' 24 8) (d.extractLsb' 24 8) ++ f 8 (a.extractLsb' 16 8) (b.extractLsb' 16 8) (d.extractLsb' 16 8)
      ++ f 8 (a.extractLsb' 8 8) (b.extractLsb' 8 8) (d.extractLsb' 8 8) ++ f 8 (a.extractLsb' 0 8) (b.extractLsb' 0 8) (d.extractLsb' 0 8)

/-- The number that an element is by its type (R391). -/
def number (sg : Bool) {w : Nat} (x : BitVec w) : Int := if sg then x.toInt else x.toNat

/-- The effect column of R391 on one element. -/
def intEffect (op : IntOp) (sg : Bool) (w : Nat) (a b d : BitVec w) : BitVec w :=
  match op with
  | .add => a + b
  | .sub => a - b
  | .mul => a * b
  | .mulh => BitVec.ofInt w (number sg a * number sg b / 2 ^ w)
  | .mad => a * b + d
  | .shl => a <<< (b.toNat % w)
  | .shr => a >>> (b.toNat % w)
  | .sra => if sg then a.sshiftRight (b.toNat % w) else a >>> (b.toNat % w)
  | .min => if number sg a ≤ number sg b then a else b
  | .max => if number sg a ≤ number sg b then b else a
  | .abs => if sg then BitVec.ofInt w a.toInt.natAbs else a

/-- A row of R391 for an integer type. -/
def intRow (s : State) (op : IntOp) (ty : IntTy) (d a b : VOp) (os : List VOp) : VRow :=
  let v (L : Lane) : Word := onElems ty (intEffect op ty.isSigned) (readV s.latch a L) (readV s.latch b L) (readV s.latch d L)
  { d := d, val := v, sh := intShape op ty s.latch s.cur.active a b os (v (lowest s.cur.active)) }

/-- A row for an operation on 32 bits. -/
def bitRow (s : State) (d : VOp) (os : List VOp) (v : Lane → Word) : VRow :=
  { d := d, val := v, sh := uniformShape s.latch s.cur.active os (v (lowest s.cur.active)) }

/-- BitField (R378). -/
def fieldOf (v spec : Word) : Word := BitVec.ofNat 32 (v.toNat / 2 ^ (spec.extractLsb' 0 5).toNat % 2 ^ (spec.extractLsb' 8 5).toNat)

/-- `bfx.i32` (R393): the field's top bit copied upwards. -/
def signedField (v spec : Word) : Word :=
  let w := (spec.extractLsb' 8 5).toNat
  let f := fieldOf v spec
  if 0 < w ∧ 2 ^ (w - 1) ≤ f.toNat then BitVec.ofInt 32 ((f.toNat : Int) - 2 ^ w) else f

/-- `bfi` (R393). -/
def insertField (d v spec : Word) : Word :=
  let off := (spec.extractLsb' 0 5).toNat
  let m := BitVec.ofNat 32 ((2 ^ (spec.extractLsb' 8 5).toNat - 1) * 2 ^ off)
  (d &&& ~~~m) ||| (BitVec.ofNat 32 (v.toNat * 2 ^ off) &&& m)

/-- The rows of R391-R393. `xor` of one register with itself is a U zero (R220). -/
def vectorRow (s : State) : Instr → Option VRow
  | .add ty d a b => some (intRow s .add ty d a b [a, b])
  | .sub ty d a b => some (intRow s .sub ty d a b [a, b])
  | .mul ty d a b => some (intRow s .mul ty d a b [a, b])
  | .mulh ty d a b => some (intRow s .mulh ty d a b [a, b])
  | .mad ty d a b => some (intRow s .mad ty d a b [d, a, b])
  | .shl ty d a b => some (intRow s .shl ty d a b [a, b])
  | .shr ty d a b => some (intRow s .shr ty d a b [a, b])
  | .sra ty d a b => some (intRow s .sra ty d a b [a, b])
  | .min ty d a b => some (intRow s .min ty d a b [a, b])
  | .max ty d a b => some (intRow s .max ty d a b [a, b])
  | .abs ty d a => some (intRow s .abs ty d a a [a])
  | .and d a b => some (bitRow s d [a, b] fun L => readV s.latch a L &&& readV s.latch b L)
  | .or d a b => some (bitRow s d [a, b] fun L => readV s.latch a L ||| readV s.latch b L)
  | .xor d a b =>
    some (if sameReg s.latch s.cur.active a b then { d := d, val := fun _ => 0, sh := .u 0 }
          else bitRow s d [a, b] fun L => readV s.latch a L ^^^ readV s.latch b L)
  | .popc d a => some (bitRow s d [a] fun L => BitVec.ofNat 32 ((List.range 32).filter fun n => (readV s.latch a L).getLsbD n).length)
  | .clz d a => some (bitRow s d [a] fun L => if readV s.latch a L = 0 then 32 else BitVec.ofNat 32 (31 - Nat.log2 (readV s.latch a L).toNat))
  | .mov d a => some { d := d, val := fun L => readV s.latch a L, sh := srcShape s.latch s.cur.active a }
  | .sel k d a b =>
    let v (L : Lane) : Word := if (s.latch.kget (Fin.ofNat 8 k.val)).getLsbD L.val then readV s.latch a L else readV s.latch b L
    some { d := d, val := v, sh := if k = 0 then uniformShape s.latch s.cur.active [a, b] (v (lowest s.cur.active)) else .g }
  | .bfx false d a b => some (bitRow s d [a, b] fun L => signedField (readV s.latch a L) (readV s.latch b L))
  | .bfx true d a b => some (bitRow s d [a, b] fun L => fieldOf (readV s.latch a L) (readV s.latch b L))
  | .bfi d a b => some (bitRow s d [d, a, b] fun L => insertField (readV s.latch d L) (readV s.latch a L) (readV s.latch b L))
  | _ => none

/-- A vector result of any word: what it adds to the checks, the lanes that step, the lanes written, and the registers from d on. -/
structure VWord where
  ck : Checks := {}
  steps : Mask
  lanes : Mask
  d : VOp
  n : Nat := 1
  val : Nat → Lane → Word
  sh : Nat → Shape

/-- The word completes with its registers written and nothing else, when its operands are clear and its rows fit. -/
def VWord.Completes (i : Instr) (s : State) (r : VWord) : Prop :=
  Clear i r.ck s → WriteFits i s r.steps r.lanes r.d r.n r.val r.sh →
    ∃ t, exec i s = .next t ∧ Written i s t r.steps r.lanes r.d r.n r.val

/-- A result of one register in the lanes of Active. -/
def rowWord (s : State) (r : VRow) : VWord :=
  { steps := s.cur.active, lanes := s.cur.active, d := r.d, val := fun _ => r.val, sh := fun _ => r.sh }

/-! ## Cross-lane words (R380, R394, R395) -/

/-- The source lane of a shuffle (R394). -/
def shuffleLane (m : ShflMode) (L : Lane) (v : Word) : Lane :=
  let at_ (n : Int) : Lane := if 0 ≤ n ∧ n ≤ 31 then Fin.ofNat 32 n.toNat else L
  match m with
  | .idx => Fin.ofNat 32 (v.toNat % 32)
  | .up => at_ (L.val - (v.toNat : Int))
  | .down => at_ (L.val + (v.toNat : Int))
  | .xor => Fin.ofNat 32 (L.val ^^^ (v.toNat % 32))

/-- A shuffle: lane L reads the register that vA names in its source lane S, as S's own index value gives it. -/
def shuffleWord (s : State) (m : ShflMode) (d a b : VOp) : VWord :=
  { ck := { lanesA := some (maskOf fun S => (lanesOf s.cur.active).any fun L => shuffleLane m L (readV s.latch b L) == S) }
    steps := s.cur.active, lanes := s.cur.active, d := d
    val := fun _ L => readV s.latch a (shuffleLane m L (readV s.latch b L)), sh := fun _ => .g }

/-- One value in all 32 lanes, whatever Active holds. -/
def allWord (s : State) (d : VOp) (v : Word) : VWord :=
  { ck := { lanesD := some everyLane }, steps := s.cur.active, lanes := everyLane, d := d, val := fun _ _ => v, sh := fun _ => .u v }

/-- The values of `id` (R395): of a task wave the group ids read 0 (R153). -/
def idTable (s : State) (n : Nat) : Word :=
  if n = 0 then BitVec.ofNat 32 s.w.index
  else if n = 1 then BitVec.ofNat 32 s.g.waves
  else if n = 2 then (if s.w.task then 0 else BitVec.ofNat 32 s.g.gx)
  else if n = 3 then (if s.w.task then 0 else BitVec.ofNat 32 s.g.gy)
  else if n = 4 then (if s.w.task then 0 else BitVec.ofNat 32 s.g.gz)
  else if n = 5 then BitVec.ofNat 32 (s.w.slot / 64)
  else if n = 6 then BitVec.ofNat 32 (s.w.slot / 16 % 4)
  else if n = 7 then BitVec.ofNat 32 (s.w.slot % 16)
  else if n = 8 then s.cur.active
  else s.latch.sget (Fin.ofNat 64 (n - 64))

/-- The cross-lane words and `id`. -/
def crossWord (s : State) : Instr → Option VWord
  | .shflIdx d a b => some (shuffleWord s .idx d a b)
  | .shflUp d a b => some (shuffleWord s .up d a b)
  | .shflDown d a b => some (shuffleWord s .down d a b)
  | .shflXor d a b => some (shuffleWord s .xor d a b)
  | .voteAll d k => some (allWord s d (one (∀ L : Lane, s.cur.active.getLsbD L.val = true → (s.latch.kget k).getLsbD L.val = true)))
  | .voteAny d k => some (allWord s d (one (∃ L : Lane, s.cur.active.getLsbD L.val = true ∧ (s.latch.kget k).getLsbD L.val = true)))
  | .voteBallot d k => some (allWord s d (s.latch.kget k &&& s.cur.active))
  | .id d n => some (rowWord s { d := d, val := fun _ => idTable s n.toNat, sh := .u (idTable s n.toNat) })
  | .sWrlane d a b =>
    let l := Fin.ofNat 32 ((s.latch.sget b).toNat % 32)
    some { ck := { lanesD := some (maskOf fun L => L = l), stepIn := some (maskOf fun L => L = l) }, steps := maskOf fun L => L = l,
           lanes := maskOf fun L => L = l, d := d, val := fun _ _ => s.latch.sget a, sh := fun _ => .g }
  | _ => none

/-! ## Float words and conversions (R243, R247, R396-R400) -/

/-- The element width of a float type. -/
def floatTy : FloTy → IntTy
  | .f32 => .n32
  | .f16x2 => .n16x2
  | .bf16x2 => .n16x2

/-- A float operation on each element: f gives the element's pattern. -/
def floatRow (s : State) (ty : FloTy) (d a b : VOp) (os : List VOp) (f : Nat → Nat → Nat → Nat) : VWord :=
  rowWord s (bitRow s d os fun L =>
    onElems (floatTy ty) (fun w x y z => BitVec.ofNat w (f x.toNat y.toNat z.toNat)) (readV s.latch a L) (readV s.latch b L) (readV s.latch d L))

/-- A word of FP32 alone. -/
def f32Row (s : State) (d a : VOp) (f : Nat → Nat) : VWord := rowWord s (bitRow s d [a] fun L => BitVec.ofNat 32 (f (readV s.latch a L).toNat))

/-- The fixed tree of `fred` (R247): pairs (2i, 2i + 1), then their sums in pairs, down to one value. -/
def treeOf (r : Rnd) (x : Nat → Nat) : Nat → Nat → Nat
  | 0, i => x i
  | k + 1, i => fmtF32.fadd r (treeOf r x k (2 * i)) (treeOf r x k (2 * i + 1))

/-- The float words. -/
def floatWord (s : State) : Instr → Option VWord
  | .fadd ty r d a b => some (floatRow s ty d a b [a, b] fun x y _ => ty.fmt.arith r (Num.add r (ty.fmt.decode x) (ty.fmt.decode y)))
  | .fsub ty r d a b => some (floatRow s ty d a b [a, b] fun x y _ => ty.fmt.arith r (Num.add r (ty.fmt.decode x) (ty.fmt.decode y).neg))
  | .fmul ty r d a b => some (floatRow s ty d a b [a, b] fun x y _ => ty.fmt.arith r (Num.mul (ty.fmt.decode x) (ty.fmt.decode y)))
  | .ffma ty r d a b =>
    some (floatRow s ty d a b [d, a, b] fun x y z =>
      ty.fmt.arith r (Num.add r (Num.mul (ty.fmt.decode x) (ty.fmt.decode y)) (ty.fmt.decode z)))
  | .fmin ty d a b => some (floatRow s ty d a b [a, b] fun x y _ => ty.fmt.fmin x y)
  | .fmax ty d a b => some (floatRow s ty d a b [a, b] fun x y _ => ty.fmt.fmax x y)
  | .fcls ty d a => some (floatRow s ty d a a [a] fun x _ _ => 2 ^ ty.fmt.classBit x)
  | .frcp d a => some (f32Row s d a frcpBits)
  | .frsq d a => some (f32Row s d a frsqBits)
  | .fsqrt d a => some (f32Row s d a fsqrtBits)
  | .fex2 d a => some (f32Row s d a fex2Bits)
  | .flg2 d a => some (f32Row s d a flg2Bits)
  | .fsin d a => some (f32Row s d a fsinBits)
  | .fcos d a => some (f32Row s d a fcosBits)
  | .fred r d a =>
    some (allWord s d (BitVec.ofNat 32 (treeOf r (fun n => if s.cur.active.getLsbD n then (readV s.latch a (Fin.ofNat 32 n)).toNat else 0) 5 0)))
  | _ => none

/-- A conversion of the element in the low bits of a register. -/
def convLow (dst src : Elt) (r : Rnd) (o : Ovf) (v : Word) : CvtRes := convert dst src r o (v.toNat % 2 ^ src.width)

/-- The pattern of a conversion that did not trap. -/
def CvtRes.value : CvtRes → Nat
  | .ok b => b
  | .trap => 0

/-- Two 16-bit elements, the second above the first (R243). -/
def halves (x y : Nat) : Word := BitVec.ofNat 16 y ++ BitVec.ofNat 16 x

/-- A 32-bit integer clamped to a range. -/
def clamped (lo hi : Int) (v : Word) : Nat := (BitVec.ofInt 16 (if v.toInt < lo then lo else if hi < v.toInt then hi else v.toInt)).toNat

/-- One element of `pack` (R400). -/
def packed (ty : PackTy) (r : Rnd) (v : Word) : Nat :=
  match ty with
  | .f16x2 => CvtRes.value (convert .f16 .f32 r .sat v.toNat)
  | .bf16x2 => CvtRes.value (convert .bf16 .f32 r .sat v.toNat)
  | .i16x2 => clamped (-32768) 32767 v
  | .n16x2 => clamped 0 65535 v

/-- One element of `unpack` (R400). -/
def unpacked (ty : PackTy) (x : BitVec 16) : Word :=
  match ty with
  | .f16x2 => BitVec.ofNat 32 (CvtRes.value (convert .f32 .f16 .rne .sat x.toNat))
  | .bf16x2 => BitVec.ofNat 32 (CvtRes.value (convert .f32 .bf16 .rne .sat x.toNat))
  | .i16x2 => x.signExtend 32
  | .n16x2 => x.zeroExtend 32

/-- A result of two registers in the lanes of Active. -/
def pairWord (s : State) (d : VOp) (os : List VOp) (f : Nat → Lane → Word) : VWord :=
  { steps := s.cur.active, lanes := s.cur.active, d := d, n := 2, val := f
    sh := fun j => uniformShape s.latch s.cur.active os (f j (lowest s.cur.active)) }

/-- Element j of a source of `cvtw`: bytes, 6-bit and 4-bit elements stand packed (R399). -/
def packedElem (src : Elt) (j : Nat) (v : Word) : Nat := (v.extractLsb' (src.width * j) src.width).toNat

/-- The conversions and packings. -/
def convertWord (s : State) : Instr → Option VWord
  | .cvt dst src r d a => some (rowWord s (bitRow s d [a] fun L => BitVec.ofNat 32 (CvtRes.value (convLow dst src r .sat (readV s.latch a L)))))
  | .cvtn dst src r o d a =>
    some (rowWord s (bitRow s d [a] fun L => BitVec.ofNat 32 (CvtRes.value (convLow dst src r o (readV s.latch a L)))))
  | .cvtw dst src r d a =>
    some (pairWord s d [a] fun h L =>
      halves (CvtRes.value (convert dst src r .sat (packedElem src (2 * h) (readV s.latch a L))))
        (CvtRes.value (convert dst src r .sat (packedElem src (2 * h + 1) (readV s.latch a L)))))
  | .pack ty r d a b => some (rowWord s (bitRow s d [a, b] fun L => halves (packed ty r (readV s.latch a L)) (packed ty r (readV s.latch b L))))
  | .unpack ty d a => some (pairWord s d [a] fun h L => unpacked ty ((readV s.latch a L).extractLsb' (16 * h) 16))
  | _ => none

/-- The lanes of Active that overflow under `.trap` (R250). -/
def overflows (s : State) : Instr → Mask
  | .cvtn dst src r o _ a => maskOf fun L => s.cur.active.getLsbD L.val && convLow dst src r o (readV s.latch a L) == .trap
  | _ => 0

/-! ## Index, shape and time words (R207, R208, R222, R402-R404) -/

/-- The distance of a time value (R207). -/
def distanceOf (v : DWord) (tick : Nat) : Word :=
  if v = poisonTime ∨ v = cancelTime then 0
  else if v = noPromise ∨ v = faultTime then BitVec.ofNat 32 (2 ^ 32 - 1)
  else if v.toNat ≤ tick then 0
  else if 2 ^ 32 ≤ v.toNat - tick then BitVec.ofNat 32 (2 ^ 32 - 1)
  else BitVec.ofNat 32 (v.toNat - tick)

/-- The key of `trank` (R208). -/
def timeKey (v : DWord) : Nat := if v = poisonTime ∨ v = cancelTime then 0 else if v = faultTime then 2 ^ 64 - 1 else v.toNat

/-- The words that read index and time state into vector registers. -/
def timeWord (s : State) : Instr → Option VWord
  | .xget d x => some (rowWord s { d := d, val := fun L => (s.latch.x[x].val[L]).zeroExtend 32, sh := .g })
  | .tnow d =>
    let v (j : Nat) : Word := BitVec.ofNat 32 (s.tick / 2 ^ (32 * j))
    some { steps := s.cur.active, lanes := s.cur.active, d := d, n := 2, val := fun j _ => v j, sh := fun j => .u (v j) }
  | .tget d t =>
    some { steps := s.cur.active, lanes := s.cur.active, d := d, n := 2, sh := fun _ => .g
           val := fun j L => ((s.latch.t[timeReg s.latch t L])[L]).extractLsb' (32 * j) 32 }
  | .tdist d t => some (rowWord s { d := d, val := fun L => distanceOf (s.latch.t[timeReg s.latch t L])[L] s.tick, sh := .g })
  | .trank d t m => some (rowWord s { d := d, val := fun L => BitVec.ofNat 32 (((List.range 8).map fun i => nibble t.val m.val L i * 16 ^ i).sum), sh := .g })
  | _ => none
where
  /-- The key of register t + j in a lane. -/
  key (t : Nat) (L : Lane) (j : Nat) : Nat := timeKey (s.latch.t[(Fin.ofNat 16 (t + j) : Fin 16)])[L]
  /-- How many of the m + 1 registers come before register t + j: a smaller key, or an equal key and a smaller number (R208). -/
  before (t m : Nat) (L : Lane) (j : Nat) : Nat :=
    (List.range (m + 1)).countP fun k => decide (key t L k < key t L j) || (key t L k == key t L j && decide (k < j))
  /-- Nibble i: the register at place i, or 0xF when there is none. -/
  nibble (t m : Nat) (L : Lane) (i : Nat) : Nat :=
    match (List.range (m + 1)).find? fun j => before t m L j == i with
    | some j => t + j
    | none => 15

/-- The index words: the register and what it becomes when no operand of the word steps it (R222, R402). -/
def indexRow (s : State) : Instr → Option (XNum × XReg)
  | .xcfg x base bound step => some (x, { s.w.regs.x[x] with base := base, bound := (if bound = 0 then 256 else bound.zeroExtend 9), step := step })
  | .xset x a => some (x, setTo x fun L => BitVec.ofNat 8 (readV s.latch a L).toNat)
  | .xadd x a => some (x, setTo x fun L => BitVec.ofNat 8 ((s.latch.x[x]).val[L].toNat + (readV s.latch a L).toNat))
  | _ => none
where
  /-- The register with a value in the active lanes. -/
  setTo (x : XNum) (f : Lane → BitVec 8) : XReg :=
    { s.w.regs.x[x] with val := Vector.ofFn fun L => if s.cur.active.getLsbD L.val then f L else (s.w.regs.x[x]).val[L] }

/-! ## Scalar results of other words, and masks -/

/-- A scalar result: the checks, the lanes that step, the destination and the value. -/
structure SWord where
  ck : Checks := {}
  steps : Mask
  d : SReg
  val : Word

/-- `s.rdlane`, `shp` and `shpw` (R380, R403). -/
def readWord (s : State) : Instr → Option SWord
  | .sRdlane d a b =>
    let l : Lane := Fin.ofNat 32 ((s.latch.sget b).toNat % 32)
    some { ck := { lanesA := some (maskOf fun L => L = l), stepIn := some (maskOf fun L => L = l) }, steps := maskOf fun L => L = l, d := d
           val := readV s.latch a l }
  | .shp d a => some { steps := s.cur.active, d := d, val := one ((s.latch.v[named s a 0 (lowest s.cur.active)]).isG = true) }
  | .shpw d =>
    some { steps := s.cur.active, d := d
           val := BitVec.ofNat 32 (s.w.wide * 2 ^ 16 + ((List.finRange 256).filter fun n => n.val < s.w.nregs && (s.latch.v[n]).isG).length) }
  | _ => none

/-- The mask results (R392, R396, R401, R404): a compare sets bit L for each active lane, and 0 for the others. -/
def maskValue (s : State) : Instr → Option (KReg × Mask)
  | .kand d a b => some (d, s.latch.kget a &&& s.latch.kget b)
  | .kor d a b => some (d, s.latch.kget a ||| s.latch.kget b)
  | .kxor d a b => some (d, s.latch.kget a ^^^ s.latch.kget b)
  | .knot d a => some (d, ~~~(s.latch.kget a))
  | .cmp c ty k a b =>
    some (k, maskOf fun L => s.cur.active.getLsbD L.val && (List.range (32 / ty.bits)).all fun j =>
      compare_ c ty.isSigned ((readV s.latch a L).extractLsb' (ty.bits * j) ty.bits) ((readV s.latch b L).extractLsb' (ty.bits * j) ty.bits))
  | .fcmp c ty k a b =>
    some (k, maskOf fun L => s.cur.active.getLsbD L.val && (List.range (32 / ty.bits)).all fun j =>
      ty.fmt.fcmp c ((readV s.latch a L).extractLsb' (ty.bits * j) ty.bits).toNat ((readV s.latch b L).extractLsb' (ty.bits * j) ty.bits).toNat)
  | .tready k t => some (k, maskOf fun L => s.cur.active.getLsbD L.val && (s.latch.arr[timeReg s.latch t L]).getLsbD L.val)
  | _ => none
where
  /-- A condition of `cmp` on one element (R359, R392). -/
  compare_ (c : Cond) (sg : Bool) {w : Nat} (x y : BitVec w) : Bool :=
    match c with
    | .eq => decide (x = y)
    | .ne => decide (x ≠ y)
    | .lt => decide (number sg x < number sg y)
    | .le => decide (number sg x ≤ number sg y)
    | .lo => decide (x.toNat < y.toNat)
    | .ls => decide (x.toNat ≤ y.toNat)

/-! ## Traps (R333, R334) -/

/-- The lanes of Active in which an operand of k + 1 registers lies outside (R224): a direct number beyond `.regs`; an index value at or beyond
its bound, a sum above 255, or a number beyond `.regs`. -/
def outside (s : State) (o : VOp) (k : Nat) : Mask :=
  maskOf fun L => s.cur.active.getLsbD L.val && match o with
    | .dir n => decide (s.w.nregs ≤ n.val + k)
    | .idx x => test x L
    | .inc x => test x L
    | .dec x => test x L
where
  /-- The test of an index register's value. -/
  test (x : XNum) (L : Lane) : Bool :=
    let v := (resolveNat s.latch o L : Int) - (s.latch.x[x].base).toNat + k
    decide (((s.latch.x[x].bound).toNat : Int) ≤ v) || decide (255 < resolveNat s.latch o L + k) || decide (s.w.nregs ≤ resolveNat s.latch o L + k)

/-- A class 2 trap taken (R333, R334): the record in s56-s63, the lanes of Active at slot 1 of the handler's packet, pending results dropped, and
nothing else of the wave or the machine changed. -/
structure TrapTaken (s t : State) (cause : Nat) (field : Nat) (m : Mask) (treg : Fin 16) (pc park : VA) : Prop where
  word : t.w.regs.s[(56 : SReg)] = BitVec.ofNat 32 (cause + 256 * field + 2048 + 4096 * treg.val)
  lanes : t.w.regs.s[(57 : SReg)] = m
  pc : t.w.regs.s[(59 : SReg)] ++ t.w.regs.s[(58 : SReg)] = (pc.zeroExtend 64 : DWord)
  park : t.w.regs.s[(61 : SReg)] ++ t.w.regs.s[(60 : SReg)] = (park.zeroExtend 64 : DWord)
  time : t.w.regs.s[(63 : SReg)] ++ t.w.regs.s[(62 : SReg)] = (s.w.regs.t[treg])[lowest m]
  scalars : ∀ r : SReg, r.val < 56 → t.w.regs.s[r] = s.w.regs.s[r]
  others : t.w.regs = { s.w.regs with s := t.w.regs.s }
  handler : t.w.front = moveEntry s.w.front s.cur.active (BitVec.ofNat 57 (s.x.handler.toNat * 16 + 4))
  frame : t = { s with w := { s.w with regs := t.w.regs, window := [], front := t.w.front }, cur := { s.cur with trapped := t.cur.trapped } }

/-- The wave may take a trap: no trap record is in use, and its context has a handler (R335, R337). -/
def MayTrap (s : State) : Prop := (s.w.regs.s[(56 : SReg)]).getLsbD 11 = false ∧ s.x.handler ≠ 0

/-- The time register of a word in the lowest lane of Active, 0 when it names none (R334). -/
def namedTime (s : State) (i : Instr) (m : Mask) : Fin 16 :=
  match i.tops with
  | t :: _ => timeReg s.latch t (lowest m)
  | [] => 0

/-- Register values for which a word raises ILLEGAL_INSTR; those of a matrix word are looked at when its wait for tick Q is over (R272, R273, R283, R389,
R430-R434, R438-R442, R448, R454). -/
def illegalNow (s : State) : Instr → Prop
  | .tagw i => s.g.tags.length ≤ i.val
  | .taga i _ => s.g.tags.length ≤ i.val
  | .tagf i => s.g.tags.length ≤ i.val
  | .cpa _ _ _ _ _ _ _ i => s.g.tags.length ≤ i.val
  | .spawn _ b => (s.latch.pair b).toNat % 256 ≠ 0
  | .srec _ a => (s.latch.sget a).toNat % 16 ≠ 0
  | .sarm _ i => s.g.tags.length ≤ i.val
  | .sstop e => 4 ≤ (s.latch.sget e).toNat
  | .cpt _ _ i => s.g.tags.length ≤ i.val
  | .iord _ _ b => 64 ≤ (s.latch.sget b).toNat
  | .iowr _ _ b => 64 ≤ (s.latch.sget b).toNat
  | .tlw b _ => 64 ≤ (s.latch.sget b).toNat
  | .tlget _ b => 64 ≤ (s.latch.sget b).toNat
  | .yieldTl _ b _ => 64 ≤ (s.latch.sget b).toNat
  | .yieldTags a _ => 2 ^ s.g.tags.length ≤ (s.latch.pair a).toNat
  | .accf h => ∀ p ∈ s.g.runs, p.1 ≠ (s.latch.sget h).toNat
  | .accz h => ∀ p ∈ s.g.runs, p.1 ≠ (s.latch.sget h).toNat
  | .accr _ h _ _ => ∀ p ∈ s.g.runs, p.1 ≠ (s.latch.sget h).toNat
  | .accw _ h _ => ∀ p ∈ s.g.runs, p.1 ≠ (s.latch.sget h).toNat
  | .mgix a => (s.latch.sget a).toNat % 16 ≠ 0
  | .mma _ _ _ d _ => s.cur.q ≤ s.tick ∧ (s.latch.sget d).toNat % 16 ≠ 0
  | .mloop _ _ _ n d _ => s.cur.q ≤ s.tick ∧ ((s.latch.sget d).toNat % 16 ≠ 0 ∨ 2 ^ 24 ≤ (s.latch.sget n).toNat)
  | .mloopSc _ _ _ _ n d _ => s.cur.q ≤ s.tick ∧ ((s.latch.sget d).toNat % 16 ≠ 0 ∨ 2 ^ 24 ≤ (s.latch.sget n).toNat)
  | .scacc _ c _ _ _ => s.cur.q ≤ s.tick ∧ ∀ p ∈ s.g.runs, p.1 ≠ (s.latch.sget c).toNat
  | .wspill a b => (s.latch.pair a).toNat % 128 ≠ 0 ∨ 2 ^ 14 ≤ (s.latch.sget b).toNat
  | .wfill a b => (s.latch.pair a).toNat % 128 ≠ 0 ∨ 2 ^ 14 ≤ (s.latch.sget b).toNat
  | .rti => (s.w.regs.s[(56 : SReg)]).getLsbD 11 = false
  | _ => False

/-- The context of the wave at issue has ended (R147): no group of it is resident, its queues are in state 2, its packets never complete. -/
structure ContextEnded (s t : State) : Prop where
  groups : ∀ g ∈ t.allGroups, g.ctx ≠ s.w.ctx
  queues : ∀ q ∈ t.queues, q.ctx = s.w.ctx → q.state = 2
  jobs : ∀ j ∈ t.jobs, j.ctx = s.w.ctx → j.dead = true
  tasks : ∀ p ∈ t.sched.places, p.group.ctx ≠ s.w.ctx
  mem : t.mem = s.mem

/-! ## Frontiers (R161, R381) -/

/-- Where a lane of the wave stands: the PC of the entry that has it. -/
def Wave.standsAt (w : Wave) (L : Lane) : Option VA := (w.front.find? fun e => e.mask.getLsbD L.val).map (·.pc)

/-- The masks of the frontier have no lane in common, and Active is the mask of one entry. -/
structure Frontier (s : State) : Prop where
  apart : s.w.front.Pairwise fun e f => e.mask &&& f.mask = 0
  mine : ∃ e ∈ s.w.front, e.mask = s.cur.active
  lanes : s.cur.active ≠ 0

/-- Slot 1 of the packet `off` packets from that of a PC (R360). -/
def packetAway (pc : VA) (off : BitVec 19) : VA := BitVec.ofInt 57 ((pc.toNat / 16 * 16 : Nat) + 16 * off.toInt + 4)

/-- The PC that a pair names: bits [1:0] are ignored, and slot 0 enters slot 1 (R345). -/
def enteredAt (v : DWord) : VA := BitVec.ofNat 57 (v.toNat / 4 * 4 + if v.toNat % 16 < 4 then 4 else 0)

/-- The lanes of Active that a branch moves, and where (R381, R382). -/
def branchOf (s : State) : Instr → Option (Mask × VA)
  | .br off => some (s.cur.active, packetAway s.cur.pc off)
  | .bc k off => some (s.latch.kget k &&& s.cur.active, packetAway s.cur.pc off)
  | .bvAny k off => some (if s.latch.kget k &&& s.cur.active ≠ 0 then s.cur.active else 0, packetAway s.cur.pc off)
  | .bvAll k off => some (if s.cur.active &&& ~~~(s.latch.kget k) = 0 then s.cur.active else 0, packetAway s.cur.pc off)
  | .jr a => some (s.cur.active, enteredAt (s.latch.pair a))
  | .ret a => some (s.cur.active, enteredAt (s.latch.pair a))
  | .call _ off => some (s.cur.active, packetAway s.cur.pc off)
  | _ => none

/-! ## Waits (R209, R210, R387, R388, R425, R432, R434, R453) -/

/-- A word that goes on when its condition holds and else parks. -/
structure WaitWord where
  legal : Prop := True
  holds : Prop
  park : Park

/-- Has the access of a lane ended and its time been reached (R209)? -/
def landed (s : State) (t : TOp) (L : Lane) : Prop :=
  (s.latch.arr[timeReg s.latch t L]).getLsbD L.val = true ∧
    ((s.latch.t[timeReg s.latch t L])[L].toNat ≤ s.tick ∨ (s.latch.t[timeReg s.latch t L])[L] = cancelTime)

/-- Has the access of a lane ended, or its promise matured (R210)? -/
def matured (s : State) (t : TOp) (L : Lane) : Prop :=
  (s.latch.arr[timeReg s.latch t L]).getLsbD L.val = true ∨
    (isPromise (s.latch.t[timeReg s.latch t L])[L] = true ∧ (s.latch.t[timeReg s.latch t L])[L].toNat ≤ s.tick)

/-- The words that wait. -/
def waitWord (s : State) : Instr → Option WaitWord
  | .twait t =>
    some { legal := ∀ L : Lane, s.cur.active.getLsbD L.val = true → (s.latch.t[timeReg s.latch t L])[L] ≠ poisonTime
           holds := ∀ L : Lane, s.cur.active.getLsbD L.val = true → landed s t L, park := .twait (timesOf s.latch t) }
  | .tyield t => some { holds := ∀ L : Lane, s.cur.active.getLsbD L.val = true → matured s t L, park := .tyield (timesOf s.latch t) }
  | .sleep a imm => some { holds := s.latch.sget a + imm = 0, park := .sleep (s.tick + (s.latch.sget a + imm).toNat) }
  | .replay => some { holds := (∀ h ∈ s.c.held, h.wave ≠ s.w.uid) ∧ ∀ a ∈ s.w.accs, a.fromHold = false, park := .replay }
  | .tagw i => some { legal := i.val < s.g.tags.length, holds := s.g.tags.getD i.val 0 = 0, park := .tag i }
  | .barw n =>
    let p := ((s.w.arrivedIn.find? fun q => q.1 == n).map (·.2)).getD (s.g.bars[n]).phase
    some { holds := p ≠ (s.g.bars[n]).phase, park := .barw n p }
  | .tlw i v =>
    some { legal := s.ioIllegal (s.latch.sget i) = false
           holds := ∃ x, s.io? (s.x.part * 64 + (s.latch.sget i).toNat) = some x ∧ (s.latch.pair v).toNat ≤ x.timeline.toNat
           park := .timeline (s.x.part * 64 + (s.latch.sget i).toNat) (s.latch.pair v) }
  | .yieldTags a sp =>
    some { legal := (s.latch.pair a).toNat < 2 ^ s.g.tags.length ∧ s.group? s.w.gid = some s.g
           holds := ∀ i, (s.latch.pair a).getLsbD i = true → s.g.tags.getD i 0 = 0
           park := .yield (.tags (s.latch.pair a)) sp }
  | .yieldTl a b sp =>
    some { legal := s.ioIllegal (s.latch.sget b) = false
           holds := ∃ x, s.io? (s.x.part * 64 + (s.latch.sget b).toNat) = some x ∧ (s.latch.pair a).toNat ≤ x.timeline.toNat
           park := .yield (.timeline (s.x.part * 64 + (s.latch.sget b).toNat) (s.latch.pair a)) sp }
  | .yieldEv a b sp =>
    some { legal := s.sched.waits.countP (fun e => e.part == s.partOf s.w.ctx && e.place == .reserved) < 256
           holds := s.eventMeets s.w.ctx ((s.latch.sget a).setWidth 16) (s.latch.sget b) = true
           park := .yield (.event ((s.latch.sget a).setWidth 16) (s.latch.sget b)) sp }
  | .yieldTick a sp => some { holds := (s.latch.pair a).toNat ≤ s.tick, park := .yield (.tick (s.latch.pair a)) sp }
  | _ => none

/-- Where a wave parks: a `yield .sp` that finds no free save unit waits without `.sp` (R236). -/
def parksAs (p : Park) (q : Park) : Prop := q = p ∨ ∃ c, p = .yield c true ∧ q = .yield c false

/-! ## Variable-latency words (R194, R197, R212, R220, R412) -/

/-- Does a page of the wave's context translate in the core's TLB and allow the access (R323)? -/
def translates (s : State) (need : Need) (va : Nat) : Bool := (s.c.look s.w.ctx need va).isSome

/-- Do all pieces of a lane's access translate? -/
def reaches (s : State) (need : Need) (ps : List Piece) : Bool := ps.all fun p => translates s need p.va

/-- Do all pieces of a lane's access lie in device memory? -/
def onDevice (s : State) (ps : List Piece) : Bool :=
  ps.all fun p => match s.c.keyAt s.w.ctx p.va with
    | some (.device, _) => true
    | _ => false

/-- The promise of an access that may go to the memory stacks (R71, R197): T_I + 3,600 + 3 G + 2,048. -/
def memoryPromise (s : State) : DWord := BitVec.ofNat 64 (s.tick + 3600 + 3 * s.publishedG s.x.part + 2048)

/-- The initial value of a lane's time register (R197) for the pieces it reads: `hit` when all of them hit in the L1, of a word of n lines. -/
def loadPromise (s : State) (need : Need) (ps : List Piece) (hit : Bool) (n : Nat) : DWord :=
  if reaches s need ps && onDevice s ps then
    if hit then BitVec.ofNat 64 (s.lookTick n + s.cycle * (28 + (n + 3) / 4 - 1)) else memoryPromise s
  else noPromise

/-- A word that starts an access: what it is, its lanes, its destination, its time register with the lanes that take it and their values; and what
the word waits for and needs at issue. -/
structure AccessRow where
  kind : AccKind
  ck : Checks := {}
  lanes : Mask
  dst : Option VOp
  n : Nat
  uniform : Bool := false
  time : TOp
  taken : Mask
  promise : Lane → DWord
  accept : Prop

/-- The wave after a word's steps and the shapes that its destination takes at issue (R220). -/
def AccessRow.shaped (i : Instr) (s : State) (r : AccessRow) : Wave :=
  match r.dst with
  | none => s.w.stepAll s.latch s.cur.active (stepOps i)
  | some d =>
    (List.range r.n).foldl (fun w j => if r.uniform then w.toU s.latch d j else w.toG s.latch r.taken d j)
      (s.w.stepAll s.latch s.cur.active (stepOps i))

/-- The access is outstanding with its lanes and destination; its time registers hold its initial values and are not arrived; no register's value
has changed but the stepped index registers; every byte of memory stays. -/
structure AccessIssued (i : Instr) (s t : State) (r : AccessRow) : Prop where
  access : ∃ a ∈ t.w.accs, a.id = s.serial ∧ a.kind = r.kind ∧ a.pc = s.cur.pc ∧ a.issued = s.tick ∧ a.lanes = r.lanes ∧ a.regs = r.n ∧
    ∀ d, r.dst = some d → ∀ L : Lane, a.dst[L] = named s d 0 L
  time : ∀ L : Lane, r.taken.getLsbD L.val = true →
    (t.w.regs.t[timeReg s.latch r.time L])[L] = r.promise L ∧ (t.w.regs.arr[timeReg s.latch r.time L]).getLsbD L.val = false
  timeKept : ∀ (n : Fin 16) (L : Lane), (r.taken.getLsbD L.val = true → n ≠ timeReg s.latch r.time L) →
    (t.w.regs.t[n])[L] = (s.w.regs.t[n])[L] ∧ (t.w.regs.arr[n]).getLsbD L.val = (s.w.regs.arr[n]).getLsbD L.val
  values : ∀ (n : Fin 256) (L : Lane), (t.w.regs.v[n]).lane L = (s.w.regs.v[n]).lane L
  index : ∀ x : XNum, t.w.regs.x[x] = xAfter i s s.cur.active x
  scalars : t.w.regs.s = s.w.regs.s ∧ t.w.regs.k = s.w.regs.k
  wave : t.w = { s.w with regs := t.w.regs, accs := t.w.accs, poisoned := t.w.poisoned, relHomes := t.w.relHomes, relOut := t.w.relOut }
  frame : t.mem = s.mem ∧ t.g = s.g ∧ t.x = s.x ∧ t.waves = s.waves ∧ t.groups = s.groups ∧ t.octs = s.octs

/-- Do all pieces hit in the L1 of the issuing core, with no earlier word of the wave held for their lines? -/
def hitsL1 (s : State) (lw : LoadWord) (ps : List Piece) : Bool :=
  ps.all fun p => ({ s with serial := s.serial + 1 } : State).pieceHit p lw.k.priv lw.k.acquire

/-- The row of a load. -/
def loadRow (s : State) (i : Instr) (kind : AccKind) (d : Option VOp) (n : Nat) (t : TOp) (lw : LoadWord) (inside : Prop) : AccessRow :=
  let own := accessLanes lw.one s.cur.active
  { kind := kind, lanes := own, dst := d, n := n, uniform := lw.one, time := t, taken := if lw.one then everyLane else s.cur.active
    ck := if lw.one then { lanesD := some everyLane, lanesT := some everyLane } else {}
    promise := fun L => loadPromise s lw.need (lw.ps L) (hitsL1 s lw (lw.ps L)) (lineCount own lw.ps)
    accept := inside ∧ s.memAccept i (own &&& maskOf fun L => !reaches s lw.need (lw.ps L)) = true ∧
      s.trackerRoom (s.missCount lw (own &&& maskOf fun L => reaches s lw.need (lw.ps L))) = true }

/-- The row of an atomic (R197, R420, R421): no promise for `atsc`. -/
def atomRow (s : State) (i : Instr) (d : VOp) (size : Size) (t : TOp) (w : AtomWord) : AccessRow :=
  { kind := .atom, lanes := s.cur.active, dst := some d, n := sizeRegs size + 1, time := t, taken := s.cur.active
    promise := fun L => if w.ticket then noPromise else if reaches s .write (w.ps L) && onDevice s (w.ps L) then memoryPromise s else noPromise
    accept := s.memAccept i (s.cur.active &&& maskOf fun L => !reaches s .write (w.ps L)) = true ∧ s.releaseOk w.order w.scope = true }

/-- The words that start an access with a time register. -/
def accessRow (s : State) (i : Instr) : Option AccessRow :=
  match i with
  | .ld m d a b t => some (loadRow s i .load (some d) (sizeRegs m.size + 1) t (loadOf m a b false s.latch s.cur.active) True)
  | .sld m d a b t => some (loadRow s i .load (some d) (sizeRegs m.size + 1) t (loadOf m a b true s.latch s.cur.active) True)
  | .ldp m d a b t =>
    some (loadRow s i .load (some d) (sizeRegs m.size + 1) t (ldpOf m a b s.latch s.w.segbase)
      (∀ L : Lane, s.cur.active.getLsbD L.val = true → (s.latch.pair b).toNat + (readV s.latch a L).toNat + sizeBytes m.size ≤ 4 * s.w.limit))
  | .ldt m d a b key t => some (loadRow s i .load (some d) (sizeRegs m.size + 1) t (ldtOf m a b key s.latch) True)
  | .probe m a b t => some (loadRow s i .probe none 0 t (probeOf m a b s.latch) True)
  | .lds m d a b t =>
    let depth := bankDepth s.cur.active (laneOffset s.latch a b) (sizeBytes m.size)
    some { kind := .load, lanes := s.cur.active, dst := some d, n := sizeRegs m.size + 1, time := t, taken := s.cur.active
           promise := fun _ => BitVec.ofNat 64 (Nat.max s.tick s.c.q[subOfSlot s.w.slot] + (4 * depth + 12) * s.cycle)
           accept := s.w.acquiring = false ∧ s.heldConflict i = false }
  | .atom op m d a b t => some (atomRow s i d m.size t (atomOf op m d a b s.latch))
  | .cas m d a b e t => some (atomRow s i d m.size t (casOf m d a b e s.latch))
  | .atsc op m d a b t => some (atomRow s i d m.size t (atscOf op m d a b s.latch))
  | .accr d h n t =>
    some { kind := .accr, lanes := s.cur.active, dst := some d, n := 1, time := t, taken := s.cur.active
           promise := fun _ => BitVec.ofNat 64 (Nat.max (s.tick + s.cycle) s.c.qa + 16 * s.cycle)
           accept := s.segIllegal (s.latch.sget h).toNat (s.latch.sget n).toNat = false }
  | _ => none

/-! ## Stored bytes (R300, R416) -/

/-- The byte that a piece of a lane's store puts at a key of memory. -/
def pieceByte (s : State) (sw : StoreWord) (L : Lane) (p : Piece) (key : Nat) : Option Byte :=
  match s.c.keyAt s.w.ctx p.va with
  | none => none
  | some (_, k) =>
    if k ≤ key ∧ key < k + p.n ∧ key / 128 = k / 128 then some (BitVec.ofNat 8 (sw.val L / 2 ^ (8 * (p.place + (key - k))))) else none

/-- The byte that a store word puts at a key: where several lanes write it, the highest lane's (R300). -/
def storedByte (s : State) (sw : StoreWord) (m : Mask) (key : Nat) : Option Byte :=
  ((lanesOf m).flatMap fun L => (sw.ps L).map fun p => (L, p)).reverse.findSome? fun q => pieceByte s sw q.1 q.2 key

/-- The store words: their lanes, what they store, the order and the scope, and for `stp` that its lanes stay in the private segment and that the
line-fill tracker has room (R181, R192). -/
def storeRow (s : State) : Instr → Option (Mask × StoreWord × Order × Scope × Prop)
  | .st m d a b key => some (s.cur.active, storeOf m d a b key false s.latch, m.order, m.scope, True)
  | .sst m d a b key => some (accessLanes true s.cur.active, storeOf m d a b key true s.latch, m.order, m.scope, True)
  | .stp m d a b =>
    some (s.cur.active, stpOf m d a b s.latch s.w.segbase, .wk, .dev,
      (∀ L : Lane, s.cur.active.getLsbD L.val = true → (s.latch.pair b).toNat + (readV s.latch a L).toNat + sizeBytes m.size ≤ 4 * s.w.limit) ∧
        s.trackerRoom (lineCount (s.cur.active &&& maskOf fun L => reaches s .write ((stpOf m d a b s.latch s.w.segbase).ps L))
          (stpOf m d a b s.latch s.w.segbase).ps) = true)
  | _ => none

/-- The scratchpad byte that `sts` puts at an offset: the highest lane's. -/
def scratchByte (s : State) (d : VOp) (n : Nat) (off : Lane → Nat) (o : Nat) : Option Byte :=
  (lanesOf s.cur.active).reverse.findSome? fun L =>
    if off L ≤ o ∧ o < off L + n then some (BitVec.ofNat 8 (storeVal s.latch d n L / 2 ^ (8 * (o - off L)))) else none

/-! ## Atomics (R419-R422) -/

/-- A number of w bits in two's complement. -/
def signedOf (w n : Nat) : Int := if n < 2 ^ (w - 1) then n else (n : Int) - 2 ^ w

/-- The new value of a location of w bits (R419). -/
def atomEffect (op : AtomOp) (w o v : Nat) : Nat :=
  match op with
  | .add => (o + v) % 2 ^ w
  | .min => if signedOf w o ≤ signedOf w v then o else v
  | .max => if signedOf w o ≤ signedOf w v then v else o
  | .minN => Nat.min o v
  | .maxN => Nat.max o v
  | .and => o &&& v
  | .or => o ||| v
  | .xor => o ^^^ v
  | .exch => v
  | .fadd => fmtF32.arith .rne (Num.add .rne (fmtF32.decode o) (fmtF32.decode v))
  | .fmin => fmtF32.fmin o v
  | .fmax => fmtF32.fmax o v

/-- The operand that `hred` forms of the lanes of a location (R422). -/
def joined (op : AtomOp) (w : Nat) (m : Mask) (f : Lane → Nat) : Nat :=
  match op with
  | .fadd => treeOf .rne (fun n => if m.getLsbD n then f (Fin.ofNat 32 n) else 0) 5 0
  | _ =>
    match lanesOf m with
    | [] => 0
    | L :: rest => rest.foldl (fun c K => atomEffect op w c (f K)) (f L)

/-- The atomic words: what they ask of a home, and whether lanes of one location are joined. -/
def atomAsk (s : State) : Instr → Option (AtomWord × Bool)
  | .atom op m d a b _ => some (atomOf op m d a b s.latch, false)
  | .cas m d a b e _ => some (casOf m d a b e s.latch, false)
  | .atsc op m d a b _ => some (atscOf op m d a b s.latch, false)
  | .red op m d a b => some (atomOf op m d a b s.latch, false)
  | .hred op m d a b => some (atomOf op m d a b s.latch, true)
  | _ => none

/-- The lanes of Active that name the location of lane L. -/
def sameLocation (s : State) (w : AtomWord) (L : Lane) : Mask :=
  maskOf fun K => s.cur.active.getLsbD K.val && reaches s .write (w.ps K) &&
    ((s.c.keyAt s.w.ctx (w.addr K / w.n * w.n)).map (·.2) == (s.c.keyAt s.w.ctx (w.addr L / w.n * w.n)).map (·.2))

/-! ## Scalar pairs and system registers (R26, R190, R204, R449-R452) -/

/-- A scalar pair is written, the low word in the even register; a write to s0 is discarded; nothing else changes. -/
structure PairWritten (s t : State) (p : SPair) (v : DWord) : Prop where
  low : p ≠ 0 → t.w.regs.s[(Fin.ofNat 64 (2 * p.val) : SReg)] = v.extractLsb' 0 32
  high : t.w.regs.s[(Fin.ofNat 64 (2 * p.val + 1) : SReg)] = v.extractLsb' 32 32
  kept : ∀ r : SReg, (r.val / 2 ≠ p.val ∨ r = 0) → t.w.regs.s[r] = s.w.regs.s[r]
  others : t.w.regs = { s.w.regs with s := t.w.regs.s }
  frame : OnlyRegs s t

/-- The fields of a system register: first bit and value; WSTAT and MXPOWER as the tick found them (R449). -/
def sysFields (s : State) (n : Nat) : List (Nat × Nat) :=
  let core := s.w.slot / 64
  if n = 0 then [(48, s.w.seen.latecount.toNat), (1, s.w.seen.cancel.toNat), (0, s.w.seen.late.toNat)]
  else if n = 1 then [(29, s.w.task.toNat), (24, s.w.index), (18, s.g.waves), (9, s.w.wide), (0, s.w.nregs)]
  else if n = 2 then (if s.g.tags.isEmpty then [] else [(6, s.g.tags.length), (0, s.g.tagFirst)])
  else if n = 3 then [(50, s.w.limit), (0, s.w.segbase.toNat / 128)]
  else if n = 4 then [(0, s.bartoNow s.w.ctx s.g.rcb.toNat)]
  else if n = 5 then [(12, s.x.part), (0, s.w.ctx)]
  else if n = 6 then [(3, core / 40 % 8 / 4), (0, core / 40 % 8)]
  else if n = 7 then [(15, core), (12, core / 40 % 8), (6, core % 40), (4, s.w.slot / 16 % 4), (0, s.w.slot % 16)]
  else if n = 8 then [(4, s.x.handler.toNat)]
  else if n = 9 then [(1, s.c.bow.was.2.toNat), (0, s.c.bow.was.1.toNat)]
  else if n = 16 then [(0, 160 * s.cycle)]
  else if n = 17 then [(8, s.cycle), (0, 27 * s.cycle)]
  else if n = 18 then [(0, s.cycle * (300 + s.publishedG s.x.part))]
  else if n = 19 then [(0, 1200 + 2 * s.publishedG s.x.part)]
  else if n = 20 then [(0, 3600 + 3 * s.publishedG s.x.part)]
  else [(0, 2048)]

/-- `evwait` and `evq` (R427): the event's name, the threshold, and the register that takes the count. -/
def eventAsk (s : State) : Instr → Option (BitVec 16 × Word × Option SReg)
  | .evwait a b => some ((s.latch.sget a).setWidth 16, s.latch.sget b, none)
  | .evq d a => some ((s.latch.sget a).setWidth 16, 0, some d)
  | _ => none

/-! ## Barriers (R163, R425, R426) -/

/-- The arrivals of a barrier with the one that the word at issue makes. -/
def arrivals (s : State) (n : Fin 16) : List (Nat × Nat × Nat) :=
  (s.g.bars[n]).arriving ++ [(s.w.index, s.c.q[subOfSlot s.w.slot], s.serial)]

/-- The waves that have arrived once every arrival is counted that may be (R426). -/
def arrivedNow (s : State) (n : Fin 16) : Mask :=
  ((arrivals s n).filter fun a => s.arrivalReady s.g.gid a).foldl (fun m a => m ||| (1#32 <<< a.1)) (s.g.bars[n]).arrived

/-- The wave at issue is resident in its group, and some wave of it has not arrived. -/
structure AtBarrier (s : State) (n : Fin 16) : Prop where
  live : s.w.live = true
  group : s.g.gid = s.w.gid ∧ s.g.gid ≠ 0
  open_ : (lanesOf (s.g.bars[n]).arrived).length < s.g.waves
  first : s.mayArrive n = true

/-- What an arrival leaves: the wave has arrived in the phase; a phase in which every wave has arrived completes and releases its waits. -/
structure Arrived (s t : State) (n : Fin 16) : Prop where
  noted : (n, (s.g.bars[n]).phase) ∈ t.w.arrivedIn
  full : s.g.waves ≤ (lanesOf (arrivedNow s n)).length →
    (t.g.bars[n]).phase = (s.g.bars[n]).phase + 1 ∧ (t.g.bars[n]).arrived = 0 ∧
      ∀ w ∈ t.waves, w.gid = s.g.gid → w.live = true →
        w.park ≠ .bar n (s.g.bars[n]).phase ∧ w.park ≠ .barw n (s.g.bars[n]).phase
  partly : (lanesOf (arrivedNow s n)).length < s.g.waves →
    (t.g.bars[n]).phase = (s.g.bars[n]).phase ∧ (t.g.bars[n]).arrived = arrivedNow s n ∧ t.waves = s.waves
  others : ∀ b : Fin 16, b ≠ n → t.g.bars[b] = s.g.bars[b]
  regs : t.w.regs = s.w.regs ∧ t.w.front = s.w.front ∧ t.mem = s.mem

/-! ## Engines of the core (R272, R292, R430, R431) -/

/-- The lowest free stream engine. -/
def lowestFree (s : State) (e : Fin 4) : Prop :=
  (s.c.engines[e]).kind = .free ∧ ∀ f : Fin 4, f < e → (s.c.engines[f]).kind ≠ .free

/-- What a matrix word puts into the queue. -/
def matrixEntry (s : State) : Instr → Option (MxEntry × Bool)
  | .mma fa fb c d tag => some (loop fa fb none c 1 d tag)
  | .mloop fa fb c n d tag => some (loop fa fb none c (s.latch.sget n).toNat d tag)
  | .mloopSc fa fb sf c n d tag => some (loop fa fb (some sf) c (s.latch.sget n).toNat d tag)
  | .scacc sf c p so tag =>
    some ({ gid := s.g.gid, scales := some sf, steps := 1, bank := (s.latch.sget c).toNat, tag := tag.val, isScacc := true
            src := (s.latch.sget p).toNat, so := (s.latch.sget so).toNat },
          decide (tag.val < s.g.tags.length) && (s.g.run? (s.latch.sget c).toNat).map (·.2) == some 32
            && (s.g.run? (s.latch.sget p).toNat).map (·.2) == some 32 && (s.latch.sget so).toNat % (if sf = .e8m0 then 1 else 4) == 0)
  | _ => none
where
  /-- A loop of n steps over the descriptor at an offset, and whether its values are legal. -/
  loop (fa fb : MxFmt) (sf : Option ScFmt) (c : SReg) (n : Nat) (d : SReg) (tag : Fin 64) : MxEntry × Bool :=
    let o := (s.latch.sget d).toNat
    let desc := s.g.descAt o
    ({ gid := s.g.gid, desc := desc, fa := fa, fb := fb, scales := sf, steps := n, bank := (s.latch.sget c).toNat, tag := tag.val
       init := (readMx desc).init },
     decide (tag.val < s.g.tags.length) && (s.g.run? (s.latch.sget c).toNat).map (·.2) == some 32 && !(readMx desc).bad && !(sf.isSome && (readMx desc).badScales) && o % 16 == 0
       && decide (n < 16777216))

/-- Is a register a destination of an outstanding access (R454)? -/
def awaited (s : State) (n : Nat) : Prop :=
  ∃ x ∈ s.w.accs, ∃ j : Fin 5, j.val < x.regs ∧ ∃ L : Lane, x.going L = true ∧ (x.dst[L]).val + j.val = n

/-- The registers of the run that sB names (R454). -/
def runRegs (v : Word) : List Nat := (List.range (v.toNat / 256 % 64 + 1)).map (v.toNat % 256 + ·)

/-! ## The causal fabric (R30-R56) -/

/-- The oldest packet of a path, of the destination's epoch and with a zero reserved field, carries this (R22, R40). -/
def Arrives (s : State) (src dst : Oct) (w : Wire) : Prop :=
  ∃ f, (s.flights.find? fun f => f.src == src && f.dst == dst) = some f ∧ f.wire = w ∧ f.epoch = s.octs[dst].cf.epoch ∧ f.reserved = 0

/-- a is at or after b, within half the range of the counters (R31). -/
def notBefore (a b : BitVec 12) : Prop := (a - b).toNat < 2048

/-- The later of two counts (R31). -/
def later (a b : BitVec 12) : BitVec 12 := if (a - b).toNat < 2048 then a else b

/-- Nothing but its order keeps a write from being applied: no host cache holds its line, it is not ticketed, it was not turned away, and no write is
buffered at the home. -/
structure Unhindered (s : State) (r : Req) : Prop where
  device : r.stage = .wire
  free : s.octs[r.home].early = []
  host : r.line ∉ s.hostHolds
  plain : r.ticketed = false
  welcome : s.octs[r.home].refusing[r.site] = none

/-- The order in which a write is applied (R41): the next of its path, and every write its column names before it. -/
def InOrder (s : State) (r : Req) : Prop :=
  r.vec[r.site] = s.octs[r.home].a[r.site] + 1 ∧ ∀ k : Fin 8, k ≠ r.site → notBefore s.octs[r.home].a[k] r.vec[k]

/-- The bytes of memory after a store of masked bytes of a line. -/
def storedOver (s : State) (line : Nat) (mask : BitVec 128) (d : BitVec 1024) (key : Nat) : Byte :=
  if key / 128 = line ∧ mask.getLsbD (key % 128) = true then lineByte d (key % 128) else s.mem.byte key

/-- An octant has counted n losses, and an epoch change runs (R52, R54). -/
def LossAt (s t : State) (o : Oct) (n : Nat) : Prop :=
  (t.octs[o]).cf.losses = BitVec.ofNat 8 (Nat.min 255 ((s.octs[o]).cf.losses.toNat + n)) ∧
    t.epoch.running = true ∧ (s.epoch.running = false → t.epoch.cause = o ∧ t.hsem.owner = 3 ∧ ∀ q : Oct, .stop q ∈ t.todo)

/-- An access of a wave, in the state. -/
def accOf (s : State) (uid id : Nat) : Option Access := (s.wave? uid).bind fun w => w.acc? id

/-! ## What the host side writes (R84, R95-R98) -/

/-- The fields of MEMREPAIR that report: busy and status. -/
def repairSays (t : State) (busy : Bool) (status : BitVec 3) : Prop :=
  t.repair.memrepair.getLsbD 63 = busy ∧ t.repair.memrepair.extractLsb' 60 3 = status

/-- The writes of a port that HSEM guards (R98). -/
def guardedOf (p : Port) : Instr → Prop
  | .fretCommit q _ => q = p
  | .suspend q _ => q = p
  | .partitionResume q _ => q = p
  | .pstatePs0 q => q = p
  | .pstatePs1 q => q = p
  | .pstatePs2 q => q = p
  | .pstatePs3 q => q = p
  | .mxgate q _ => q = p
  | .pwralarm q _ => q = p
  | .firmwareInstall q _ => q = p
  | .attest q _ => q = p
  | .removeOctant q _ => q = p
  | .raiseRollback q => q.port = p
  | .fwmboxNoCommand q _ => q = p
  | _ => False

/-- A port has taken HSEM, the port `last` having held it before. -/
def hsemTo (s : State) (p : Port) (last : Bool) : State :=
  { s with hsem := { owner := BitVec.ofNat 2 (p.val + 1), last := p.val == 1, preempted := false, denied := 0, wrote := s.tick, took := some s.tick, hadLast := last } }

/-- HSEM with its owner changed. -/
def ownedBy (s : State) (o : BitVec 2) : State := { s with hsem := { s.hsem with owner := o } }

/-! ## Queues (R99-R109) -/

/-- n bytes at a key lie outside the record of every queue. -/
def OffRecords (s : State) (k n : Nat) : Prop := ∀ y ∈ s.queues, k + n ≤ s.recordPa y.q ∨ s.recordPa y.q + 64 ≤ k

/-- A started packet: its job is in the list, its queue has gone on, and no queue's wptr has changed. -/
structure Started (s t : State) (q kind : Nat) (x : Queue) : Prop where
  job : ∃ j ∈ t.jobs, j.id = s.serial ∧ j.q = x.q ∧ j.index = x.rptr ∧ j.kind = kind ∧ j.ctx = x.ctx
  queue : ∃ y, t.queue? q = some y ∧ y.rptr = x.rptr + 1 ∧ y.wptr = x.wptr

/-- The kernel descriptor of a KERNEL packet, and that R104, R150 and R366 accept the packet with it. -/
def kernelFits (s : State) (x : Queue) (b : List Byte) (c : Chain) (d : KDesc) : Prop :=
  let at_ := bitsOf b 348 49 * 256
  let n := (bitsOf b 451 21 + 1) * (bitsOf b 472 20 + 1) * (bitsOf b 492 20 + 1)
  let w := bitsOf b 12 5 + 1
  (∃ lo hi, s.readVa x.ctx at_ 128 = some lo ∧ s.readVa x.ctx (at_ + 128) 128 = some hi ∧ d = readKDesc (lo ++ hi)) ∧
    s.signalOk x.ctx (bitsOf b 294 54 * 8) = true ∧ d.bad = false ∧ (d.waves = 0 ∨ d.waves = w) ∧
    (d.priv = 0 ∨ n * w * d.priv * 32 ≤ d.privstride) ∧ (bitsOf b 7 1 = 1 → s.couldFit c (s.partOf x.ctx) n w d = true)

/-- An enable of a queue succeeds: its record, its context's root and its chain are good (R99, R100, R144). -/
def enables (s : State) (q : Nat) : Prop :=
  let r := s.readQueue q
  let u := s.loadCtx r.1.ctx
  r.2 = true ∧ u.rootOf r.1.ctx ≠ none ∧ ∃ c v, u.readChain r.1.ctx r.1.rcb.toNat = .ok (c, v) ∧
    (c.rcbs.head?.bind fun a => (u.place r.1.ctx a).map (·.2)) = u.rootOf r.1.ctx

/-! ## The core's engines (R256-R281) -/

/-- Word numbers of the accumulator memory rise strictly. -/
def AccRises (l : List (Nat × Word)) : Prop := l.Pairwise fun p q => p.1 < q.1

/-- The new value of C[i][j] in a step of a matrix entry, on the operands that its fetch read (R256-R261, R279). -/
def stepValue (e : MxEntry) (old : Word) (i j : Nat) : Word :=
  let g := e.fetched
  let d := readMx e.desc
  let n : Int := e.done
  let w := (e.scales.map ScFmt.width).getD 0
  let row : Int := if d.gather then (e.rows.getD i 0 : Nat) else (i : Int)
  let a := g.elems e.fa ((d.abase : Int) + n * d.ainc + row * d.astride)
  let b := g.elems e.fb ((d.bbase : Int) + n * d.binc + (j : Int) * d.bstride)
  BitVec.ofNat 32 (updateC e.scales (blockValue e.fa e.fb a b) (g.scaleAt e.scales ((d.sabase : Int) + n * d.sainc + row * w))
    (g.scaleAt e.scales ((d.sbbase : Int) + n * d.sbinc + (j : Int) * w)) old.toNat)

/-- Is a word number one of a tile of 32 banks? -/
def inTile (first k : Nat) : Prop := first * 512 ≤ k ∧ k < (first + 32) * 512

/-! ## Held words (R212, R325-R330) -/

/-- A held word that is issued again, and the state with its wave at issue: its issue tick and bounds are those of now (R197, R212). -/
def reissueAt (s : State) (h : Held) : Held × State :=
  let u := (s.modCore (coreOfSlot h.slot) fun c => { c with issuedAt := c.issuedAt.set (subOfSlot h.slot) (some s.tick) }).focusHeld h
  let k := { h with issued := u.tick, g := u.publishedG u.x.part }
  (k, (u.focusHeld k).modC fun c => c.modHeld k.id fun x => { x with issued := k.issued, g := k.g })

/-- The lanes to issue again whose pages the core's TLB holds. -/
def inTlb (u : State) (h : Held) : Mask :=
  h.again &&& maskOf fun L => ((heldWord h u).vas L).all fun v => (u.c.look u.w.ctx v.1 v.2).isSome

/-- The held word that a translation or a reissue works on, the lanes it takes, and the state with the word's wave at issue. -/
def translating (s : State) : Instr → Option (Held × Mask × State)
  | .translationComplete slot id => (s.held? slot id).bind fun h => if h.state = .walking then some (h, h.walkLanes, s.focusHeld h) else none
  | .replayIssue slot id => (s.held? slot id).bind fun h =>
    let p := reissueAt s h
    if s.mayReissue h ∧ inTlb p.2 p.1 = h.again then some (p.1, h.again, p.2.focusHeld p.1) else none
  | _ => none

/-- Do the pages of a held word's lane translate once the TLBs have been loaded for its lanes? -/
def present (u : State) (h : Held) (m : Mask) (L : Lane) : Prop :=
  ∀ v ∈ (heldWord h u).vas L, ((u.tlbLoads ((lanesOf m).flatMap (heldWord h u).vas)).2.c.look u.w.ctx v.1 v.2).isSome = true

/-- A new time lies before what a lane's register holds (R200). -/
def sooner (old new : DWord) : Bool := old == noPromise || (isPromise old && decide (new.toNat < old.toNat))

/-- The value that a late notice gives a lane (R203): past the old one by a count; at the tick of a retry, at most 512 later; at the tick of a new
reservation. -/
def noticed (old : DWord) : Late → Nat
  | .add n => old.toNat + n
  | .retry t => Nat.min t (old.toNat + 512)
  | .anew t => t

/-- The lanes whose time a late notice for a request raises. -/
def raised (a : Access) (id : Nat) (l : Late) (L : Lane) : Prop :=
  (a.timeLanes (a.lanesOfReq id)).getLsbD L.val = true ∧ a.going L = true ∧ isPromise a.own[L] = true ∧ (a.own[L]).toNat < noticed a.own[L] l

/-! ## Memory as outsiders see it (R57, R114) -/

/-- The device physical address of an outsider's address: an offset of the device window lies DEVWIN.base GiB higher (R93). -/
def reachedAt (s : State) (src : Outsider) (o : Nat) : Nat :=
  match src with
  | .window _ => s.window.devwin.toNat * 2 ^ 30 + o
  | .host _ => o
  | .peer _ => o

/-- A byte after a string of bytes has been written from a key on. -/
def writtenOver (m : Memory) (key : Nat) (b : List Byte) (k : Nat) : Byte :=
  if key ≤ k ∧ k < key + b.length then b.getD (k - key) 0 else m.byte k

/-- An ACT entry's right: 60 store, 61 load, 62 doorbell (R113). -/
def actRight (v n : Nat) : Prop := v / 2 ^ n % 2 = 1

/-! ## The step (R160, R175) -/

/-- The next step issues from wave w; u is the state with that wave at issue. -/
def Issues (s : State) (w : Wave) (u : State) : Prop :=
  (s.script = [] ∧ s.todo = [] ∧ s.firstIssue = some w ∧ u = s.focus w.uid) ∨
    ∃ core sub rest, s.script = .issue core sub :: rest ∧ { s with script := rest }.choose core sub = some w ∧
      u = { s with script := rest }.focus w.uid

/-- The next step issues the unit at entry e's PC, in packet p: the entry goes first, its packet stands in memory at the page that the core's TLB
gives, it is well formed, and nothing holds the unit back. -/
structure AtUnit (u : State) (e : Entry) (p : Packet) : Prop where
  picked : u.pickEntry u.c u.w = .entry e p false
  stored : ∃ x, u.c.tlbFind u.w.ctx (packetVa e.pc) = some x ∧ x.exec = true ∧ p = packetOfBytes (u.mem.bytes (x.key (packetVa e.pc)) 16)
  whole : p.malformed = false
  start : p.starts.contains (slotOf e.pc) = true
  free : u.mustReserve e (unitAt p e.pc) = false

end Machine
end Sys2Proof
end

