-- ==== Sys2Proof/Certificates/Slice0/Obligations.lean ====
section
/-! DEFINITION. The statements for the provers. -/

open Sys2Proof Sys2Proof.Machine

/-- R378, R379: every scalar operation writes the value of its row to its destination alone, and a write to s0 is discarded. -/
def Obligations.ScalarOpsWriteTheirRow : Prop :=
  ∀ (i : Instr) (s : State) (d : SReg) (v : Word), scalarValue s.latch i = some (d, v) → RowsFit s →
    ∃ t, exec i s = .next t ∧ ScalarWritten i s t 0 d v

/-- R391-R393: every vector integer word writes its row's value in the lanes of Active and nothing else. -/
def Obligations.VectorIntegerWordsWriteTheirRow : Prop :=
  ∀ (i : Instr) (s : State) (r : VRow), vectorRow s i = some r → i.wellFormed = true → Clear i {} s →
    WriteFits i s s.cur.active s.cur.active r.d 1 (fun _ => r.val) (fun _ => r.sh) →
    ∃ t, exec i s = .next t ∧ Written i s t s.cur.active s.cur.active r.d 1 (fun _ => r.val)

/-- R380, R403: `s.rdlane`, `shp` and `shpw` write what they read of the vector registers to their scalar destination alone. -/
def Obligations.ScalarReadsOfVectorStateWriteTheirRow : Prop :=
  ∀ (i : Instr) (s : State) (r : SWord), readWord s i = some r → i.wellFormed = true → Clear i r.ck s → RowsFit s →
    ∃ t, exec i s = .next t ∧ ScalarWritten i s t r.steps r.d r.val

/-- R392, R396, R401, R404: a mask result holds its row's bit for each active lane; k0 keeps its ones; nothing else changes. -/
def Obligations.MaskWordsWriteTheirRow : Prop :=
  ∀ (i : Instr) (s : State) (d : KReg) (v : Mask), maskValue s i = some (d, v) → i.wellFormed = true → Clear i {} s → RowsFit s →
    ∃ t, exec i s = .next t ∧ MaskWritten i s t s.cur.active d v

/-- R380, R394, R395: shuffles, votes, `id` and `s.wrlane` write their row in the lanes the spec gives them and nothing else. -/
def Obligations.CrossLaneWordsWriteTheirRow : Prop :=
  ∀ (i : Instr) (s : State) (r : VWord), crossWord s i = some r → i.wellFormed = true → r.Completes i s

/-- R243, R247, R396, R397: every float word writes its row's value, element by element, in the lanes of Active and nothing else. -/
def Obligations.FloatWordsWriteTheirRow : Prop :=
  ∀ (i : Instr) (s : State) (r : VWord), floatWord s i = some r → i.wellFormed = true → r.Completes i s

/-- R398-R400: a conversion none of whose active lanes overflows under `.trap` writes its row's value and nothing else. -/
def Obligations.ConversionsWriteTheirRow : Prop :=
  ∀ (i : Instr) (s : State) (r : VWord), convertWord s i = some r → i.wellFormed = true → overflows s i = 0 → r.Completes i s

/-- R207, R208, R222, R404: `xget`, `tnow`, `tget`, `tdist` and `trank` write their row and nothing else. -/
def Obligations.TimeReadsWriteTheirRow : Prop :=
  ∀ (i : Instr) (s : State) (r : VWord), timeWord s i = some r → i.wellFormed = true → r.Completes i s

/-- R222, R402: `xcfg`, `xset` and `xadd` change one index register: `xcfg` its configuration, the others its value in the active lanes. -/
def Obligations.IndexWordsChangeOneIndexRegister : Prop :=
  ∀ (i : Instr) (s : State) (x : XNum) (y : XReg),
    indexRow s i = some (x, y) →
    Clear i {} s → RowsFit s →
    ∃ t, exec i s = .next t ∧ t.w.regs.x[x] = y ∧ (∀ z : XNum, z ≠ x → t.w.regs.x[z] = xAfter i s s.cur.active z) ∧
      t.w.regs = { s.w.regs with x := t.w.regs.x } ∧ OnlyRegs s t

/-- R381, R382: a branch moves its lanes of Active to its target and no other lane; `call` leaves the PC behind its unit in its link pair;
nothing else changes. -/
def Obligations.BranchesMoveTheLanesOfActive : Prop :=
  ∀ (i : Instr) (s : State) (m : Mask) (pc : VA), branchOf s i = some (m, pc) → i.wellFormed = true → Frontier s → RowsFit s →
    ∃ t, exec i s = .next t ∧ (∀ L : Lane, t.w.standsAt L = if m.getLsbD L.val then some pc else s.w.standsAt L) ∧
      t.w = { s.w with front := t.w.front, regs := t.w.regs, window := t.w.window } ∧ OnlyWave s t ∧
      match i with
      | .call link _ =>
        t.w.regs.s[(Fin.ofNat 64 (2 * link.val) : SReg)] = s.cur.next.extractLsb' 0 32 ∧
          t.w.regs.s[(Fin.ofNat 64 (2 * link.val + 1) : SReg)] = BitVec.ofNat 32 (s.cur.next.toNat / 2 ^ 32) ∧
          (∀ r : SReg, r.val / 2 ≠ link.val → t.w.regs.s[r] = s.w.regs.s[r]) ∧ t.w.regs = { s.w.regs with s := t.w.regs.s }
      | _ => t.w.regs = s.w.regs ∧ t.w.window = s.w.window

/-- R209, R210, R387, R388, R425, R432, R434, R453: a word that waits goes on at once when its condition holds, `yield.ev` with an acquire; else its wave
parks at it, behind it, with Active; in both cases no register of the wave changes. -/
def Obligations.WaitingWordsGoOnOrPark : Prop :=
  ∀ (i : Instr) (s : State) (r : WaitWord), waitWord s i = some r → r.legal → Clear i {} s → RowsFit s → s.w.live = true →
    (r.holds → ∃ t, exec i s = .next t ∧ t.mem = s.mem ∧ t.w = { s.w with accs := t.w.accs } ∧ (∀ a ∈ s.w.accs, a ∈ t.w.accs) ∧
      ∀ a ∈ t.w.accs, a ∈ s.w.accs ∨ a.kind = .fence ∧ a.acquire = some .dev) ∧
      (¬ r.holds → ∃ t, exec i s = .next t ∧ parksAs r.park t.w.park ∧ t.w.parkPc = s.cur.pc ∧ t.w.parkLanes = s.cur.active ∧
        t.w.regs = s.w.regs ∧ t.w.front = s.w.front)

/-- R224, R334, R363: an integer word one of whose operands lies outside its registers in some lane of Active takes REG_BOUND, which names the first
such field and its lanes; nothing is written, and no operand steps. -/
def Obligations.RegBoundNamesTheFirstOperandOutside : Prop :=
  ∀ (i : Instr) (s : State) (r : VRow) (f : Nat) (o : VOp), vectorRow s i = some r → MayTrap s →
    (([1, 2, 3].zip i.vops).find? fun p => outside s p.2 0 != 0) = some (f, o) →
    ∃ t, exec i s = .next t ∧ TrapTaken s t 4 f (outside s o 0) 0 s.cur.pc s.cur.unit

/-- R192, R221, R250, R363: `ldp` and `stp` take PRIV_LIMIT for the lanes whose last byte lies at or beyond 4 times the limit; an integer word whose result
needs more wide rows than the wave has takes WIDE_BUDGET; a narrowing conversion under `.trap` takes OVERFLOW for exactly the lanes that overflow. -/
def Obligations.LimitsAndOverflowTrapBeforeTheWrite : Prop :=
  (∀ (i : Instr) (s : State) (d a : VOp) (b : SPair) (m : MemMod), ((∃ t, i = .ldp m d a b t) ∨ i = .stp m d a b) → MayTrap s →
    boundFail i {} s = none →
    let beyond := maskOf fun L => s.cur.active.getLsbD L.val &&
      decide (4 * s.w.limit < (s.latch.pair b).toNat + (readV s.latch a L).toNat + sizeBytes m.size)
    beyond ≠ 0 → ∃ t, exec i s = .next t ∧ TrapTaken s t 5 0 beyond (namedTime s i beyond) s.cur.pc s.cur.unit) ∧
  (∀ (i : Instr) (s : State) (r : VRow), vectorRow s i = some r → i.wellFormed = true → MayTrap s → boundFail i {} s = none →
    ¬ WriteFits i s s.cur.active s.cur.active r.d 1 (fun _ => r.val) (fun _ => r.sh) →
    ∃ t, exec i s = .next t ∧ TrapTaken s t 6 0 s.cur.active 0 s.cur.pc s.cur.unit) ∧
  (∀ (i : Instr) (s : State) (r : VWord), convertWord s i = some r → i.wellFormed = true → MayTrap s → boundFail i {} s = none →
    WriteFits i s r.steps r.lanes r.d r.n r.val r.sh → overflows s i ≠ 0 →
    ∃ t, exec i s = .next t ∧ TrapTaken s t 7 0 (overflows s i) 0 s.cur.pc s.cur.unit)

/-- R209, R213, R363: a source that an access left as POISON, and a `twait` with an active lane at POISON, take the trap POISON; the `twait` is
parked at by the record, the other word at its unit. -/
def Obligations.PoisonTrapsAtItsReader : Prop :=
  (∀ (i : Instr) (s : State) (r : VRow) (f : OpField), vectorRow s i = some r → i.wellFormed = true → MayTrap s → boundFail i {} s = none →
    WriteFits i s s.cur.active s.cur.active r.d 1 (fun _ => r.val) (fun _ => r.sh) → poisonUse i {} s = some f →
    ∃ t, exec i s = .next t ∧ TrapTaken s t 8 (fieldCode f) s.cur.active 0 s.cur.pc s.cur.unit) ∧
  ∀ (s : State) (o : TOp), MayTrap s → boundFail (.twait o) {} s = none → RowsFit s →
    (∃ L : Lane, s.cur.active.getLsbD L.val = true ∧ (s.latch.t[timeReg s.latch o L])[L] = poisonTime) →
    ∃ t, exec (.twait o) s = .next t ∧ TrapTaken s t 8 4 s.cur.active (timeReg s.latch o (lowest s.cur.active)) s.cur.pc s.cur.pc

/-- R272, R273, R283, R389, R430-R434, R438-R442, R448, R454: a word whose register values the spec calls illegal takes ILLEGAL_INSTR at its unit,
before every other test, and has no effect. -/
def Obligations.IllegalValuesTrapBeforeAnyEffect : Prop :=
  ∀ (i : Instr) (s : State), illegalNow s i → MayTrap s →
    ∃ t, exec i s = .next t ∧ TrapTaken s t 1 0 s.cur.active (namedTime s i s.cur.active) s.cur.pc s.cur.unit

/-- R341, R447: `trap` takes the trap TRAP and `brk` the trap BRK, both with the next unit as the place to go on; where brkhalt is set `brk` halts the
wave with reason 2 and writes no trap record. -/
def Obligations.TrapAndBrkEnterTheHandler : Prop :=
  ∀ s : State, RowsFit s →
    (MayTrap s → ∃ t, exec .trap s = .next t ∧ TrapTaken s t 10 0 s.cur.active 0 s.cur.pc s.cur.next) ∧
    (MayTrap s → s.brkHalts = false → ∃ t, exec .brk s = .next t ∧ TrapTaken s t 9 0 s.cur.active 0 s.cur.pc s.cur.next) ∧
    (s.brkHalts = true → ∃ t, exec .brk s = .next t ∧ t.w = { s.w with halted := true, window := [] } ∧ t.xlate.dbgReason = 2 ∧ t.mem = s.mem)

/-- R336, R448: `rti` takes the lanes of Active to the PC in s61:s60 and clears s56.busy; entries that held a trap may issue again. A handler that
ends with `exit` ends the lanes of its entry. -/
def Obligations.RtiResumesAndClearsBusy : Prop :=
  ∀ s : State, RowsFit s → Frontier s → (s.w.regs.s[(56 : SReg)]).getLsbD 11 = true →
    (∃ t, exec .rti s = .next t ∧
      (∀ L : Lane, t.w.standsAt L =
        if s.cur.active.getLsbD L.val then some (enteredAt (s.latch.s[(61 : SReg)] ++ s.latch.s[(60 : SReg)])) else s.w.standsAt L) ∧
      (t.w.regs.s[(56 : SReg)]).getLsbD 11 = false ∧ (∀ n, n ≠ 11 → (t.w.regs.s[(56 : SReg)]).getLsbD n = (s.w.regs.s[(56 : SReg)]).getLsbD n) ∧
      (∀ r : SReg, r ≠ 56 → t.w.regs.s[r] = s.w.regs.s[r]) ∧ (∀ e ∈ t.w.front, e.blocked = false) ∧
      t.w = { s.w with regs := t.w.regs, front := t.w.front } ∧ t.w.regs = { s.w.regs with s := t.w.regs.s } ∧ OnlyWave s t) ∧
    (s.heldLanes = false → ∃ t, exec .exit s = .next t ∧ ∀ L : Lane, s.cur.active.getLsbD L.val = true → t.w.standsAt L = none)

/-- R335: while s56.busy is 1 a trap is not taken: its entry stays at its unit and waits; when no entry of the wave can go on the context ends, with a
record that says nested. -/
def Obligations.NestedTrapsWaitOrEndTheContext : Prop :=
  ∀ s : State, RowsFit s → (s.w.regs.s[(56 : SReg)]).getLsbD 11 = true →
    let others := s.w.front.filter fun e => e.mask &&& s.cur.active == 0 && e.pc != s.cur.unit
    (Frontier s → (∃ e ∈ others, e.blocked = false) → ∃ t, exec .trap s = .next t ∧ t.w.regs = s.w.regs ∧ t.mem = s.mem ∧
      (∀ L : Lane, t.w.standsAt L = if s.cur.active.getLsbD L.val then some s.cur.unit else s.w.standsAt L) ∧
      ∀ e ∈ t.w.front, e.mask &&& s.cur.active ≠ 0 → e.blocked = true) ∧
    (s.cur.active ≠ 0 → (∀ e ∈ s.w.front, e.blocked = true ∨ e.mask &&& s.cur.active ≠ 0) → s.xlate.frec.used 512 ≠ 256 →
      ∃ t, exec .trap s = .next t ∧ ContextEnded s t ∧
        ∃ v, (s.xlate.frec.head % 256, v) ∈ t.xlate.frec.slots ∧ v.getLsbD 0 = true ∧ v.getLsbD 229 = true ∧ v.extractLsb' 221 8 = 10)

/-- R332, R337, R338: a trap in a context without a handler ends the context, and the fault record says HANDLER_FETCH, the context and the PC. -/
def Obligations.NoHandlerEndsTheContext : Prop :=
  ∀ s : State, RowsFit s → (s.w.regs.s[(56 : SReg)]).getLsbD 11 = false → s.x.handler = 0 → s.xlate.frec.used 512 ≠ 256 →
    s.w.ctx < 4096 → s.partOf s.w.ctx < 8 → s.w.slot < 20480 →
    ∃ t, exec .trap s = .next t ∧ ContextEnded s t ∧
      ∃ v, (s.xlate.frec.head % 256, v) ∈ t.xlate.frec.slots ∧ v.getLsbD 0 = true ∧ v.getLsbD 229 = false ∧ v.extractLsb' 221 8 = 13 ∧
        v.extractLsb' 384 64 = s.cur.pc.zeroExtend 64 ∧ v.extractLsb' 258 12 = BitVec.ofNat 12 s.w.ctx

/-- R194, R197, R212, R220, R412-R415, R420, R421, R441: a word that starts an access completes its issue with the access outstanding, its time
registers at their initial values, and neither memory nor a register's value changed. -/
def Obligations.AccessWordsStartTheirAccess : Prop :=
  ∀ (i : Instr) (s : State) (r : AccessRow), accessRow s i = some r → i.wellFormed = true → Clear i r.ck s → r.accept →
    gCount (r.shaped i s) ≤ s.w.wide → ∃ t, exec i s = .next t ∧ AccessIssued i s t r

/-- R181, R184, R329, R412: each piece of a load whose lane translates hits in the L1 or is asked for by a request for its line, for which the access
waits; lanes that do not translate are held; `lds` has its bytes at once, 0 beyond the allocation. -/
def Obligations.LoadsAskForTheLinesTheyMiss : Prop :=
  (∀ (i : Instr) (s t : State) (r : AccessRow) (lw : LoadWord),
    (match i with
      | .ld m _ a b _ => lw = loadOf m a b false s.latch s.cur.active
      | .sld m _ a b _ => lw = loadOf m a b true s.latch s.cur.active
      | .ldp m _ a b _ => lw = ldpOf m a b s.latch s.w.segbase
      | .ldt m _ a b key _ => lw = ldtOf m a b key s.latch
      | _ => False) →
    accessRow s i = some r → i.wellFormed = true → Clear i r.ck s → r.accept → gCount (r.shaped i s) ≤ s.w.wide → exec i s = .next t →
    (∀ L : Lane, r.lanes.getLsbD L.val = true → reaches s lw.need (lw.ps L) = true → ∀ p ∈ lw.ps L, ∀ tg k,
      s.c.keyAt s.w.ctx p.va = some (tg, k) →
        (lw.k.take = none ∧ s.pieceHit p lw.k.priv lw.k.acquire = true) ∨
          ∃ q ∈ t.reqs, q.line = k / 128 ∧ (q.acc = some s.serial ∨ lw.k.priv = true ∧ q.priv = true ∧ q.quiet = true) ∧
            ∃ a ∈ t.w.accs, a.id = s.serial ∧ q.id ∈ a.waits) ∧
    ((∃ L : Lane, r.lanes.getLsbD L.val = true ∧ reaches s lw.need (lw.ps L) = false) →
      ∃ h ∈ t.c.held, h.wave = s.w.uid ∧ h.instr = i ∧ h.acc = some s.serial ∧ h.latch = s.latch ∧
        ∀ L : Lane, h.mask.getLsbD L.val = (r.lanes.getLsbD L.val && !reaches s lw.need (lw.ps L)))) ∧
  ∀ (s t : State) (m : MemMod) (d a : VOp) (b : SPair) (o : TOp) (r : AccessRow), accessRow s (.lds m d a b o) = some r →
    Instr.wellFormed (.lds m d a b o) = true → Clear (.lds m d a b o) {} s → r.accept → gCount (r.shaped (.lds m d a b o) s) ≤ s.w.wide →
    exec (.lds m d a b o) s = .next t →
    ∃ x ∈ t.w.accs, x.id = s.serial ∧ ∀ L : Lane, s.cur.active.getLsbD L.val = true → ∀ n < sizeBytes m.size,
      (x.data[L]).extractLsb' (8 * n) 8 =
        (let at_ := (s.latch.pair b).toNat + (readV s.latch a L).toNat + n
         if at_ < s.g.scratch then cellsGet s.g.pad at_ else 0)

/-- R182, R184, R300, R416, R417: a store whose lanes translate posts, for every byte its lanes store, a write of that byte to its line, the highest lane's
where several write it; lanes that do not translate are held; `stp` keeps its bytes in the L1, or in the write-back of a line that leaves it; no register
and no byte of memory changes at issue. -/
def Obligations.StoresPostTheBytesOfTheirLanes : Prop :=
  ∀ (i : Instr) (s : State) (own : Mask) (sw : StoreWord) (o : Order) (sc : Scope) (inside : Prop),
    storeRow s i = some (own, sw, o, sc, inside) → i.wellFormed = true → Clear i {} s → RowsFit s → inside →
    s.memAccept i (own &&& maskOf fun L => !reaches s .write (sw.ps L)) = true → s.releaseOk o sc = true →
    let hits := maskOf fun L => own.getLsbD L.val && reaches s .write (sw.ps L)
    ∃ t, exec i s = .next t ∧ t.mem = s.mem ∧ t.g = s.g ∧ t.waves = s.waves ∧ t.octs = s.octs ∧
      t.w = { s.w with regs := t.w.regs, relHomes := t.w.relHomes, relOut := t.w.relOut } ∧ t.w.regs = { s.w.regs with x := t.w.regs.x } ∧
      (∀ x : XNum, t.w.regs.x[x] = xAfter i s s.cur.active x) ∧
      (∀ key b, storedByte s sw hits key = some b →
        (sw.priv = false → ∃ q ∈ t.reqs, q.kind = .write ∧ s.serial ≤ q.id ∧ q.line = key / 128 ∧ q.mask.getLsbD (key % 128) = true ∧
          lineByte q.data (key % 128) = b) ∧
        (sw.priv = true → ((s.reqs.map (·.id)).Nodup ∧ ∀ q ∈ s.reqs, q.id < s.serial) → (s.c.l1.Pairwise fun l m => l.set ≠ m.set ∨ l.way ≠ m.way) →
          (∃ q ∈ t.reqs, q.kind = .write ∧ q.line = key / 128 ∧ q.mask.getLsbD (key % 128) = true ∧ lineByte q.data (key % 128) = b) ∨
            ∃ l ∈ t.c.l1, l.line = key / 128 ∧ l.priv = true ∧ l.dirty.getLsbD (key % 128) = true ∧ lineByte l.data (key % 128) = b)) ∧
      (sw.priv = false → (∀ q ∈ s.reqs, q.id < s.serial) → ∀ q ∈ t.reqs, s.serial ≤ q.id →
        q.kind = .write ∧ ∀ n, n < 128 → q.mask.getLsbD n = true → storedByte s sw hits (q.line * 128 + n) = some (lineByte q.data n)) ∧
      ((∃ L : Lane, own.getLsbD L.val = true ∧ reaches s .write (sw.ps L) = false) →
        ∃ h ∈ t.c.held, h.wave = s.w.uid ∧ h.instr = i ∧ h.acc = none ∧ h.latch = s.latch)

/-- R185, R416: `sts` writes the bytes of its active lanes to the group's scratchpad, the highest lane's where several write one, and discards those
beyond the allocation; a release fence before it stands for it no longer (R298); nothing else of the scratchpad, no register and no byte of memory
changes. -/
def Obligations.ScratchpadStoresWriteTheirBytes : Prop :=
  ∀ (m : MemMod) (d a : VOp) (b : SPair) (s : State), Instr.wellFormed (.sts m d a b) = true → Clear (.sts m d a b) {} s → RowsFit s →
    cellsWf 0 s.g.pad = true → s.w.acquiring = false → s.heldConflict (.sts m d a b) = false → (m.order = .wk ∨ s.fullRelease m.scope = true) →
    (∀ sc, s.w.relSts = some sc → s.fullRelease sc = true) →
    ∃ t, exec (.sts m d a b) s = .next t ∧ t.mem = s.mem ∧ t.reqs = s.reqs ∧ t.w = { s.w with regs := t.w.regs, relSts := none } ∧
      t.w.regs = { s.w.regs with x := t.w.regs.x } ∧ (∀ x : XNum, t.w.regs.x[x] = xAfter (.sts m d a b) s s.cur.active x) ∧
      t.g = { s.g with pad := t.g.pad, padBad := t.g.padBad, fresh := t.g.fresh, gathered := t.g.gathered } ∧
      ∀ o, t.g.padByte o =
        match scratchByte s d (sizeBytes m.size) (laneOffset s.latch a b) o with
        | some v => if o < s.g.scratch then v else 0
        | none => s.g.padByte o

/-- R420-R422: an atomic asks the home of each location, for each active lane whose page translates, to perform its operation with the lane's operand
and compare value; `hred` asks once for a location, with its lanes' operands combined; `red` and `hred` complete at issue without a result. -/
def Obligations.AtomicsAskTheHomeAndReductionsReturnNothing : Prop :=
  (∀ (i : Instr) (s t : State) (w : AtomWord) (join : Bool) (L : Lane) (tg : Target) (k : Nat), atomAsk s i = some (w, join) → i.wellFormed = true →
    Clear i {} s → s.memAccept i (s.cur.active &&& maskOf fun L => !reaches s .write (w.ps L)) = true → s.releaseOk w.order w.scope = true →
    exec i s = .next t → (∀ r, accessRow s i = some r → gCount (r.shaped i s) ≤ s.w.wide) → RowsFit s →
    s.cur.active.getLsbD L.val = true → reaches s .write (w.ps L) = true → s.c.keyAt s.w.ctx (w.addr L / w.n * w.n) = some (tg, k) →
    (join = true → lowest (sameLocation s w L) = L) →
    ∃ q ∈ t.reqs, s.serial ≤ q.id ∧ q.kind = .atomic w.op (w.compare.map fun f => BitVec.ofNat 64 (f L)) ∧ q.target = tg ∧ q.line = k / 128 ∧
      q.offset = k % 128 ∧ q.size = w.n ∧ q.lane = L.val ∧
      q.data = BitVec.ofNat 1024 (if join then joined w.op (8 * w.n) (sameLocation s w L) w.val else w.val L)) ∧
  (∀ (i : Instr) (s : State) (op : AtomOp) (m : MemMod) (d a : VOp) (b : SPair), (i = .red op m d a b ∨ i = .hred op m d a b) →
    i.wellFormed = true → Clear i {} s → RowsFit s →
    s.memAccept i (s.cur.active &&& maskOf fun L => !reaches s .write ((atomOf op m d a b s.latch).ps L)) = true →
    s.releaseOk m.order m.scope = true →
    ∃ t, exec i s = .next t ∧ t.mem = s.mem ∧ t.g = s.g ∧ t.waves = s.waves ∧ t.octs = s.octs ∧
      t.w = { s.w with regs := t.w.regs, relHomes := t.w.relHomes, relOut := t.w.relOut } ∧ t.w.regs = { s.w.regs with x := t.w.regs.x } ∧
      (∀ x : XNum, t.w.regs.x[x] = xAfter i s s.cur.active x) ∧
      (s.cur.active ≠ 0 → (∀ L : Lane, s.cur.active.getLsbD L.val = true → reaches s .write ((atomOf op m d a b s.latch).ps L) = true) →
        s.serial < t.serial))

/-- R298, R305-R307, R309, R310, R424: a fence whose scope stays in the core changes nothing; a release side at `.dev` or `.sys` makes the next store to each
home, the next `sts` and the next store to host or peer memory releases; an acquire side there drops the L1's global lines and asks each home that served a
load for its matrix; `fence.sc` asks for a ticket as well. -/
def Obligations.FencesOrderTheirScope : Prop :=
  (∀ (o : Order) (sc : Scope) (s : State), Instr.wellFormed (.fence o sc) = true → RowsFit s → s.w.acquiring = false → s.releaseOk o sc = true →
    (Order.acquires o = true → s.w.reading = false) →
    ∃ t, exec (.fence o sc) s = .next t ∧ t.mem = s.mem ∧ t.w.regs = s.w.regs ∧ t.w.front = s.w.front ∧ (Scope.wide sc = false → t = s) ∧
      (Scope.wide sc = true → Order.releases o = true → t.w.relHomes = BitVec.allOnes 8 ∧ t.w.relSts.isSome = true ∧ t.w.relOut.isSome = true ∧
        (sc = .sys → t.w.relSys = true ∧ t.w.relSts = some .sys ∧ t.w.relOut = some .sys)) ∧
      (Scope.wide sc = true → Order.acquires o = true → (∀ l, l ∈ t.c.l1 ↔ l ∈ s.c.l1 ∧ l.priv = true) ∧ t.w.homes = 0 ∧
        (s.w.homes = 0 → t.w.accs = s.w.accs) ∧
        (s.w.homes ≠ 0 → ∃ a ∈ t.w.accs, a.id = s.serial ∧ a.kind = .fence ∧ a.acquire = some sc ∧
          ∀ h : Oct, s.w.homes.getLsbD h.val = true → ∃ q ∈ t.reqs, q.acc = some s.serial ∧ q.kind = .mreq ∧ q.home = h ∧ q.id ∈ a.waits))) ∧
  (∀ s : State, RowsFit s → s.w.acquiring = false →
    ∃ t, exec .fenceSc s = .next t ∧ t.mem = s.mem ∧ t.w.regs = s.w.regs ∧ t.w.relHomes = BitVec.allOnes 8 ∧ t.w.homes = 0 ∧
      (∀ l, l ∈ t.c.l1 ↔ l ∈ s.c.l1 ∧ l.priv = true) ∧
      (∃ a ∈ t.w.accs, a.id = s.serial ∧ a.kind = .fence ∧ a.acquire = some .dev ∧ a.ticket = some 0) ∧
      t.seq = { s.seq with tickets := s.seq.tickets ++ [({ wave := s.w.uid, slot := s.w.slot, acc := s.serial, asked := s.tick } : Ticket)] })

/-- R163, R425, R426: `bar` and `barr` arrive; when every wave of the group has arrived the phase completes and its waits end; else `bar` parks. -/
def Obligations.BarriersCountArrivalsAndRelease : Prop :=
  ∀ (n : Fin 16) (s : State), RowsFit s → AtBarrier s n →
    (∃ t, exec (.bar n) s = .next t ∧ Arrived s t n ∧
      (s.g.waves ≤ (lanesOf (arrivedNow s n)).length → t.w.park = .none) ∧
      ((lanesOf (arrivedNow s n)).length < s.g.waves → t.w.park = .bar n (s.g.bars[n]).phase ∧ t.w.parkPc = s.cur.pc)) ∧
    ∃ t, exec (.barr n) s = .next t ∧ Arrived s t n ∧ ((lanesOf (arrivedNow s n)).length < s.g.waves → t.w.park = s.w.park)

/-- R155, R427, R428: `evsig` and `sigdec` ask the home for their addition as release writes; `evwait` and `evq` park and ask the home for the count. -/
def Obligations.EventWordsAskTheHome : Prop :=
  ∀ (i : Instr) (s : State), RowsFit s → s.memAccept i 0 = true →
    (∀ a tg k, i = .evsig a → translates s .write (s.eventVa ((s.latch.sget a).setWidth 16)) = true →
      s.c.keyAt s.w.ctx (s.eventVa ((s.latch.sget a).setWidth 16)) = some (tg, k) →
      ∃ t, exec i s = .next t ∧ t.w = s.w ∧ t.mem = s.mem ∧ ∃ q ∈ t.reqs, q.id = s.serial ∧ q.kind = .event ((s.latch.sget a).setWidth 16) ∧
        q.line = k / 128 ∧ q.offset = k % 128 ∧ q.release = true) ∧
    (∀ p tg k, i = .sigdec p → translates s .write ((s.latch.pair p).toNat % 2 ^ 57 / 8 * 8) = true →
      s.c.keyAt s.w.ctx ((s.latch.pair p).toNat % 2 ^ 57 / 8 * 8) = some (tg, k) →
      ∃ t, exec i s = .next t ∧ t.w.regs = s.w.regs ∧ t.mem = s.mem ∧ ∃ q ∈ t.reqs, s.serial ≤ q.id ∧ q.kind = .atomic .add none ∧
        q.line = k / 128 ∧ q.offset = k % 128 ∧ q.size = 8 ∧ q.data = BitVec.ofNat 1024 (2 ^ 64 - 1) ∧ q.release = true ∧ q.sys = true) ∧
    ∀ name thr d, eventAsk s i = some (name, thr, d) → (∀ q ∈ s.reqs, q.acc ≠ some s.serial) →
      ∀ tg k, translates s .read (s.eventVa name) = true → s.c.keyAt s.w.ctx (s.eventVa name) = some (tg, k) →
      ∃ t, exec i s = .next t ∧ t.w.regs = s.w.regs ∧ t.mem = s.mem ∧ t.w.parkPc = s.cur.pc ∧
        t.w.park = (match d with
          | none => .event name thr
          | some _ => .value s.serial) ∧
        (∃ a ∈ t.w.accs, a.id = s.serial ∧ a.event = some (name, thr) ∧ a.sdst = d ∧ a.lanes = 1) ∧
        ∃ q ∈ t.reqs, q.acc = some s.serial ∧ q.line = k / 128 ∧ q.kind = .read true

/-- R158, R384-R386: `nop` changes nothing; `trig` marks the wave triggered once; `exit` ends the lanes of Active, and the wave with its last entry; a
group that ends with an accumulator run takes ACC_LEAK. -/
def Obligations.EndsAndTriggers : Prop :=
  ∀ s : State, RowsFit s →
    exec .nop s = .next s ∧
    (∃ t, exec .trig s = .next t ∧ t.w = { s.w with triggered := true, trigAt := t.w.trigAt } ∧ t.mem = s.mem ∧
      (s.w.triggered = false → t.todo = s.todo ++ [.triggerCount s.w.slot])) ∧
    (s.heldLanes = false → Frontier s →
      ((∃ e ∈ s.w.front, e.mask ≠ s.cur.active) → ∃ t, exec .exit s = .next t ∧ OnlyWave s t ∧ t.w = { s.w with front := t.w.front } ∧
        ∀ L : Lane, t.w.standsAt L = if s.cur.active.getLsbD L.val then none else s.w.standsAt L) ∧
      ((∀ e ∈ s.w.front, e.mask = s.cur.active) →
        (s.g.runs = [] ∨ (lanesOf (s.g.exited ||| (1#32 <<< s.w.index))).length < s.g.waves →
          ∃ t, exec .exit s = .next t ∧ t.w.front = [] ∧ t.w.exited = true ∧ t.w.triggered = true ∧ t.w.regs = s.w.regs ∧ t.mem = s.mem ∧
            t.g.exited = s.g.exited ||| (1#32 <<< s.w.index) ∧ t.todo = s.todo ++ [.triggerCount s.w.slot, .waveSlotFree s.w.slot]) ∧
        (s.g.runs ≠ [] → s.g.waves ≤ (lanesOf (s.g.exited ||| (1#32 <<< s.w.index))).length → s.xlate.frec.used 512 ≠ 256 →
          ∃ t, exec .exit s = .next t ∧ ∃ v, (s.xlate.frec.head % 256, v) ∈ t.xlate.frec.slots ∧ v.extractLsb' 221 8 = 12)))

/-- R282, R283, R432: `taga` adds to its count, `tagf` takes one, `tagc` reads a bit for each count that is 0; the other counts stay. -/
def Obligations.TagWordsChangeTheirCount : Prop :=
  ∀ s : State, RowsFit s →
    (∀ (i : Fin 64) (m : BitVec 8), i.val < s.g.tags.length → s.g.tags.getD i.val 0 + m.toNat ≤ 65535 → ∃ t, exec (.taga i m) s = .next t ∧
      t.g = { s.g with tags := s.g.tags.set i.val (s.g.tags.getD i.val 0 + m.toNat) } ∧ t.w.regs = s.w.regs ∧ t.mem = s.mem) ∧
    (∀ i : Fin 64, i.val < s.g.tags.length → s.w.reading = false → s.storing s.w.uid = false → ∃ t, exec (.tagf i) s = .next t ∧
      t.g = { s.g with tags := s.g.tags.set i.val (s.g.tags.getD i.val 0 - 1) } ∧ t.w.regs = s.w.regs ∧ t.mem = s.mem) ∧
    ∀ d : SPair, s.g.tags.length ≤ 64 → ∃ t v, exec (.tagc d) s = .next t ∧ PairWritten s t d v ∧
      ∀ n, n < 64 → (v.getLsbD n = true ↔ n < s.g.tags.length ∧ s.g.tags.getD n 0 = 0)

/-- R26, R190, R204, R449-R452: `sysr` reads the fields of its register into a pair; `sysw` of WSTAT sets latecount and clears late and cancel where
bits 0 and 1 ask for it, and the notices and cancellations of the tick come after the write. -/
def Obligations.SystemRegistersReadAndWrite : Prop :=
  ∀ s : State, RowsFit s →
    (∀ (d : SPair) (n : BitVec 12), Instr.wellFormed (.sysr d n) = true → ∃ t, exec (.sysr d n) s = .next t ∧
      PairWritten s t d (BitVec.ofNat 64 (((sysFields s n.toNat).map fun f => f.2 * 2 ^ f.1).sum))) ∧
    ∀ a : SPair, ∃ t, exec (.sysw a 0) s = .next t ∧ OnlyWave s t ∧
      t.w = { s.w with latecount := BitVec.ofNat 16 (Nat.min 65535 (((s.latch.pair a).extractLsb' 48 16).toNat + s.w.news))
                       late := (s.w.late && !(s.latch.pair a).getLsbD 0) || s.w.news != 0
                       cancel := (s.w.cancel && !(s.latch.pair a).getLsbD 1) || s.w.newCancel }

/-- R119, R433, R434: `iord` and `iowr` park their wave and hand the active lanes to the I/O engine, which from the next tick on, words of an earlier tick or
a lower wave slot first, numbers their requests in lane order from issued + 1 and writes the numbers to vD; `tlget` reads the timeline. -/
def Obligations.StorageWordsNumberTheirRequests : Prop :=
  (∀ (i : Instr) (s : State) (write : Bool) (d a : VOp) (b : SReg) (x : IoCtx),
    (i = .iord d a b ∧ write = false ∨ i = .iowr d a b ∧ write = true) → Clear i {} s → s.ioIllegal (s.latch.sget b) = false →
    s.io? (s.x.part * 64 + (s.latch.sget b).toNat) = some x →
    s.w.acquiring = false → s.ioRoom (lanesOf s.cur.active).length = true → (write = true → s.fullRelease .sys = true) →
    s.heldConflict i = false → s.cur.active ≠ 0 →
    ((lanesOf s.cur.active).all fun L => (s.ioMiss s.latch a x (if write then .read else .write) L).isNone) = true →
    RowsFit s → ∃ t, exec i s = .next t ∧ t.mem = s.mem ∧ t.w.regs = { s.w.regs with x := t.w.regs.x } ∧
      (∀ x : XNum, t.w.regs.x[x] = xAfter i s s.cur.active x) ∧ t.w.park = .value s.serial ∧ t.w.parkPc = s.cur.pc ∧ t.ios = s.ios ∧
      .valueArrival s.w.slot s.serial ∈ t.todo ∧
      ∃ c ∈ t.w.accs, c.id = s.serial ∧ c.kind = .iord ∧ c.instr = i ∧ c.latch = some s.latch ∧ c.lanes = s.cur.active ∧ c.issued = s.tick) ∧
  (∀ (s : State) (slot id : Nat) (w : Wave) (c : Access) (r : Regs) (d a : VOp) (b : SReg) (x : IoCtx), s.accessOf slot id = some (w, c) → c.kind = .iord →
    c.at_ = none → (c.instr = .iord d a b ∨ c.instr = .iowr d a b) → c.latch = some r → c.issued < s.tick →
    let u := s.focus w.uid
    u.w = w → u.ioAhead w c = false → u.io? (u.ioNum (r.sget b)) = some x → x.issued.toNat + 32 < 2 ^ 64 →
    let num (L : Lane) : Nat := x.issued.toNat + 1 + (lanesOf c.lanes).countP fun K => decide (K.val < L.val)
    ∃ t y, exec (.valueArrival slot id) s = .next t ∧ (∀ k ∈ t.w.accs, k.id ≠ id) ∧ t.io? x.n = some y ∧
      y.issued = BitVec.ofNat 64 (x.issued.toNat + (lanesOf c.lanes).length) ∧ .ioSubmission x.n ∈ t.todo ∧ t.w.regs = { w.regs with v := t.w.regs.v } ∧
      ∀ (L : Lane) (j : Nat), c.lanes.getLsbD L.val = true → j < 2 → resolveNat r d L + j < 256 →
        (t.w.regs.v[(Fin.ofNat 256 (resolveNat r d L + j) : Fin 256)]).lane L = BitVec.ofNat 32 (num L / 2 ^ (32 * j))) ∧
  ∀ (s : State) (d : SPair) (b : SReg) (x : IoCtx), RowsFit s → s.ioIllegal (s.latch.sget b) = false →
    s.io? (s.x.part * 64 + (s.latch.sget b).toNat) = some x → ∃ t, exec (.tlget d b) s = .next t ∧ PairWritten s t d x.timeline

/-- R268, R269, R438, R439, R441, R442: `acca` takes the lowest aligned free run and `accf` frees one; `accz` and `accw` take the next turn of the
accumulator port; `mgix` puts its block into the gather cache, which keeps at most 8, and the block counts as read unless a store of the tick changes it. -/
def Obligations.AccumulatorWordsHoldRunsAndThePort : Prop :=
  ∀ s : State, RowsFit s →
    (∀ (d : SReg) (n : BitVec 6) (f : Nat), Instr.wellFormed (.acca d n) = true → s.freeRun s.c.id n.toNat = some f →
      s.accAllowed s.g n.toNat = true → s.accaBehind = false → ∃ t, exec (.acca d n) s = .next t ∧
        t.g = { s.g with runs := s.g.runs ++ [(f, n.toNat)] } ∧ f % n.toNat = 0 ∧ f + n.toNat ≤ 128 ∧
        (∀ k, k < n.toNat → f + k ∉ s.banksUsed s.c.id) ∧
        (∀ g, g % n.toNat = 0 → g < f → ∃ k, k < n.toNat ∧ g + k ∈ s.banksUsed s.c.id) ∧
        (d ≠ 0 → t.w.regs.s[d] = BitVec.ofNat 32 f) ∧ (∀ r : SReg, r ≠ d ∨ d = 0 → t.w.regs.s[r] = s.w.regs.s[r]) ∧ t.mem = s.mem) ∧
    (∀ (h : SReg) (k : Nat), s.g.run? (s.latch.sget h).toNat = some ((s.latch.sget h).toNat, k) →
      s.c.entryNames s.g.gid (s.latch.sget h).toNat k = false →
      (∀ x ∈ s.c.accWaits, x.gid = s.g.gid → s.tick < x.start → x.op.names (s.latch.sget h).toNat k = false) → ∃ t, exec (.accf h) s = .next t ∧
        t.g = { s.g with runs := s.g.runs.filter fun p => p.1 != (s.latch.sget h).toNat } ∧ t.w = s.w ∧ t.mem = s.mem) ∧
    (∀ (h : SReg) (k : Nat), s.g.run? (s.latch.sget h).toNat = some ((s.latch.sget h).toNat, k) → ∃ t, exec (.accz h) s = .next t ∧ t.w = s.w ∧
        t.mem = s.mem ∧ t.c.qa = Nat.max (s.tick + s.cycle) s.c.qa + s.cycle ∧ t.c.acc = s.c.acc ∧
        t.c.accWaits = s.c.accWaits ++ [{ start := Nat.max (s.tick + s.cycle) s.c.qa, gid := s.g.gid, op := .zero (s.latch.sget h).toNat k }]) ∧
    (∀ (a : VOp) (h n : SReg), Clear (.accw a h n) {} s → s.segIllegal (s.latch.sget h).toNat (s.latch.sget n).toNat = false →
      ∃ t, exec (.accw a h n) s = .next t ∧ t.w.regs = { s.w.regs with x := t.w.regs.x } ∧ t.mem = s.mem ∧ t.c.acc = s.c.acc ∧
        (∀ x : XNum, t.w.regs.x[x] = xAfter (.accw a h n) s s.cur.active x) ∧
        t.c.accWaits = s.c.accWaits ++ [{ start := Nat.max (s.tick + s.cycle) s.c.qa, gid := s.g.gid, op := (.write
          ((s.latch.sget h).toNat + (s.latch.sget n).toNat / 16) ((s.latch.sget n).toNat % 16) s.cur.active
            (Vector.ofFn fun L => readV s.latch a L)) }]) ∧
    ∀ a : SReg, (s.latch.sget a).toNat % 16 = 0 → ∃ t, exec (.mgix a) s = .next t ∧ t.w = s.w ∧ t.mem = s.mem ∧
      ((s.latch.sget a).toNat + 256 ≤ s.g.scratch → (s.c.gather.length ≤ 8 → t.c.gather.length ≤ 8) ∧
        t.c.gather.getLast? = some { gid := s.g.gid, off := (s.latch.sget a).toNat } ∧
        ((s.g.fresh.1 = s.tick → ∀ c ∈ s.g.fresh.2, c.1 < (s.latch.sget a).toNat ∨ (s.latch.sget a).toNat + 256 ≤ c.1) →
          (s.latch.sget a).toNat ∈ t.g.gathered))

/-- R271-R273, R283, R444, R446: a matrix word with legal values puts one entry at the tail of the core's queue, with no step done, and its tag's count
rises by one; no register, no accumulator word and no byte of memory changes at issue. -/
def Obligations.MatrixWordsQueueOneEntry : Prop :=
  ∀ (i : Instr) (s : State) (e : MxEntry), matrixEntry s i = some (e, true) → i.wellFormed = true → RowsFit s →
    s.cur.q ≤ s.tick → s.c.mq.length < 8 → s.g.tags.getD e.tag 0 + 1 ≤ 65535 → s.g.gid ≠ 0 →
    ∃ t, exec i s = .next t ∧ (∃ y, t.c.mq.getLast? = some y ∧ { y with rows := e.rows, snap := e.snap, room := e.room } = e) ∧ t.c.mq.length = s.c.mq.length + 1 ∧
      t.g = { s.g with tags := s.g.tags.set e.tag (s.g.tags.getD e.tag 0 + 1) } ∧ t.w.regs = s.w.regs ∧ t.c.acc = s.c.acc ∧ t.mem = s.mem

/-- R454, R455: `wspill` posts the run's registers to memory, 128 bytes each, and leaves them a U zero; `wfill` gives the run shape G and parks until
every line has arrived. -/
def Obligations.RunsMoveBetweenRowsAndMemory : Prop :=
  ∀ (i : Instr) (s : State) (a : SPair) (b : SReg) (fill : Bool), (i = .wspill a b ∧ fill = false ∨ i = .wfill a b ∧ fill = true) → RowsFit s →
    (s.latch.pair a).toNat % 128 = 0 → (s.latch.sget b).toNat < 16384 → (∀ n ∈ runRegs (s.latch.sget b), n < s.w.nregs ∧ n < 256) →
    s.memAccept i 0 = true → (fill = false → ∀ n ∈ runRegs (s.latch.sget b), ¬ awaited s n ∧ ∀ p ∈ s.cur.poisoned, p.1.val ≠ n) →
    (fill = true → s.trackerRoom (runRegs (s.latch.sget b)).length = true) →
    (∀ j, j < (runRegs (s.latch.sget b)).length → translates s (if fill then .read else .write) (((s.latch.pair a).toNat + 128 * j) % 2 ^ 57) = true) →
    (fill = true → gCount { s.w with regs := { s.w.regs with v := (Vector.ofFn fun n : Fin 256 =>
      if n.val ∈ runRegs (s.latch.sget b) then .g (s.w.regs.v[n]).all else s.w.regs.v[n]) } } ≤ s.w.wide) →
    ∃ t, exec i s = .next t ∧ t.mem = s.mem ∧ t.w.regs = { s.w.regs with v := t.w.regs.v } ∧
      (∀ n : Fin 256, n.val ∉ runRegs (s.latch.sget b) → t.w.regs.v[n] = s.w.regs.v[n]) ∧
      (∀ (n : Fin 256) (j : Nat), (runRegs (s.latch.sget b))[j]? = some n.val →
        (fill = true → (t.w.regs.v[n]).isG = true ∧ (∀ L : Lane, (t.w.regs.v[n]).lane L = (s.w.regs.v[n]).lane L) ∧
          ∃ x ∈ t.w.accs, x.kind = .wfill ∧ x.lanes = everyLane ∧ ∀ L : Lane, x.dst[L] = n) ∧
        (fill = false → t.w.regs.v[n] = .u 0 ∧ ∀ tg k, s.c.keyAt s.w.ctx (((s.latch.pair a).toNat + 128 * j) % 2 ^ 57) = some (tg, k) →
          ∃ q ∈ t.reqs, q.kind = .write ∧ s.serial ≤ q.id ∧ q.line = k / 128 ∧ q.mask = BitVec.allOnes 128 ∧
            ∀ L : Lane, q.data.extractLsb' (32 * L.val) 32 = (s.latch.v[n]).lane L)) ∧
      (fill = true → t.w.park = .value s.serial)

/-- R151, R389, R390: `spawn` pushes a task for each active lane while the pool has room, and writes its entry into the ring at taskbase; `launch` puts a
packet that it can read into the queue's ring and moves wptr on by one. -/
def Obligations.TasksAndLaunchesEnterTheirQueue : Prop :=
  (∀ (a : VOp) (b : SPair) (s : State), Clear (.spawn a b) {} s → RowsFit s → (s.latch.pair b).toNat % 256 = 0 → s.w.reading = false →
    s.unstamped s.w.uid = false → s.x.id = s.w.ctx →
    s.x.pool.length + (lanesOf s.cur.active).length ≤ 2 ^ s.x.tasklg →
    let record (L : Lane) : List Byte := (List.range 8).flatMap fun j => (List.range 4).map fun n => (readAt s.latch a j L).extractLsb' (8 * n) 8
    ∃ t, exec (.spawn a b) s = .next t ∧ t.w.regs = { s.w.regs with x := t.w.regs.x } ∧ t.w.park = s.w.park ∧
      (t.x.pool = s.x.pool ++ (lanesOf s.cur.active).map fun L =>
        { entry := BitVec.ofNat 57 (s.latch.pair b).toNat, rcb := s.g.rcb.toNat, chain := s.g.chain, tick := s.tick, data := record L }) ∧
      t.x.pushed = s.x.pushed + (lanesOf s.cur.active).length ∧
      t.mem = ((List.range (lanesOf s.cur.active).length).foldl (fun (u : State) k =>
        u.putVa s.w.ctx (s.x.taskbase.toNat * 65536 + 64 * ((s.x.pushed + k) % 2 ^ s.x.tasklg))
          ((Config.poolEntry (BitVec.ofNat 57 (s.latch.pair b).toNat).toNat s.g.rcb.toNat (record ((lanesOf s.cur.active).getD k 0))).take 64)) s).mem) ∧
  ∀ (q : SReg) (p : SPair) (s : State) (x : Queue) (tg : Target) (k : Nat), RowsFit s → s.launchIllegal (s.latch.sget q).toNat (s.latch.pair p).toNat = false →
    s.queue? (s.latch.sget q).toNat = some x → s.w.reading = false → s.unapplied s.w.uid = false → x.wptr < x.rptr + 2 ^ x.lgsize → x.rptr ≤ x.wptr →
    s.heldConflict (.launch q p) = false → translates s .read ((s.latch.pair p).toNat % 2 ^ 57) = true →
    s.c.keyAt s.w.ctx ((s.latch.pair p).toNat % 2 ^ 57) = some (tg, k) → s.mem.isBad (k / 32) = false → s.mem.isBad (k / 32 + 1) = false →
    ∃ t, exec (.launch q p) s = .next t ∧ t.w.regs = s.w.regs ∧ t.w.park = s.w.park ∧
      (∃ y, t.queue? (s.latch.sget q).toNat = some y ∧ y.wptr = x.wptr + 1) ∧
      ∀ g k', s.place x.ctx (x.base.toNat + 64 * (x.wptr % 2 ^ x.lgsize)) = some (g, k') → OffRecords s k' 64 → s.mem.wf = true →
        ∀ n, n < 64 → t.mem.byte (k' + n) = s.mem.byte (k + n)

/-- R34, R36, R38, R45, R46: a stamped write raises its path's count and carries its column, a release the whole matrix; it is sent to its home, and one homed
at its own site that is the next of its path and whose column is met is applied at once; a stamped read carries its column and raises nothing. -/
def Obligations.StampingCountsWritesAndNotReads : Prop :=
  (∀ (req : Nat) (s : State) (r : Req), s.req? req = some r → r.target = .device → s.mayStamp r = true → s.octs[r.home].cf.removed = false →
    ∃ t q, exec (.stampWrite req) s = .next t ∧
      (∀ i j : Fin 8, ((t.octs[r.site]).k[i])[j] =
        ((s.octs[r.site]).k[i])[j] + if i = r.site ∧ j = r.home then 1 else 0) ∧ (req, s.tick) ∈ (t.octs[r.site]).retry ∧
      t.req? req = some q ∧ (∀ i : Fin 8, q.vec[i] = ((t.octs[r.site]).k[i])[r.home]) ∧
      q.mat = (if r.release then some (t.octs[r.site]).k else none) ∧
      (r.site ≠ r.home → t.mem = s.mem ∧ q.stage = .wire ∧
        { src := r.site, dst := r.home, epoch := (s.octs[r.site]).cf.epoch, wire := (if r.release then .wrel req else .wr req) } ∈ t.flights) ∧
      (r.site = r.home → r.kind = .write → r.bad = 0 → s.mem.wf = true → r.ticketed = false → r.line ∉ s.hostHolds → (s.octs[r.home]).early = [] →
        (s.octs[r.home]).refusing[r.site] = none → ((s.octs[r.site]).k[r.site])[r.home] = (s.octs[r.home]).a[r.site] →
        (∀ i : Fin 8, i ≠ r.site → notBefore (s.octs[r.home]).a[i] ((s.octs[r.site]).k[i])[r.home]) →
        q.stage = .applied ∧ (t.octs[r.home]).a[r.site] = (s.octs[r.home]).a[r.site] + 1 ∧ ∀ key, t.mem.byte key = storedOver s r.line r.mask r.data key)) ∧
  ∀ (req : Nat) (s : State) (r : Req), s.req? req = some r → r.kind.isWrite = false → (r.stage = .stamp ∨ r.kind = .mreq ∧ r.stage = .l2) →
    s.octs[r.site].stopped = false → s.octs[r.home].cf.removed = false →
    s.readStampBehind r = false →
    ∃ t q, exec (.stampRead req) s = .next t ∧ t.mem = s.mem ∧ t.octs = s.octs ∧ t.req? req = some q ∧ q.stage = .wire ∧
      (∀ i : Fin 8, q.vec[i] = ((s.octs[r.site]).k[i])[r.home]) ∧
      { src := r.site, dst := r.home, epoch := (s.octs[r.site]).cf.epoch,
        wire := (if r.kind = .mreq then .mreq req else if r.acquire then .racq req else .rd req) } ∈ t.flights

/-- R41, R42, R63: a write that arrives in order is applied: its bytes are in memory and its count in the home's applied vector; one that is not yet in
order waits in the early buffer and changes nothing; one that finds the buffer full is refused. -/
def Obligations.WritesApplyInCausalOrder : Prop :=
  ∀ (src dst : Oct) (id : Nat) (s : State) (r : Req) (rel : Bool), Arrives s src dst (if rel then .wrel id else .wr id) → s.req? id = some r →
    r.home = dst → r.site = src → r.kind = .write → r.stage = .wire →
    (Unhindered s r → InOrder s r → r.bad = 0 → s.mem.wf = true → ∃ t, exec (if rel then .wrel src dst else .wr src dst) s = .next t ∧
      (∀ key, t.mem.byte key = storedOver s r.line r.mask r.data key) ∧
      (∀ k : Fin 8, (t.octs[dst]).a[k] = if k = src then r.vec[src] else (s.octs[dst]).a[k]) ∧
      (∀ i j : Fin 8, ((t.octs[dst]).h[i])[j] = match r.mat with
        | some m => later ((s.octs[dst]).h[i])[j] (m[i])[j]
        | none => ((s.octs[dst]).h[i])[j]) ∧ .homeAcknowledgement id ∈ t.todo) ∧
    (¬ InOrder s r → (s.octs[dst]).refusing[src] = none → (s.octs[dst]).early.length < 512 →
      ∃ t, exec (if rel then .wrel src dst else .wr src dst) s = .next t ∧ t.mem = s.mem ∧ (t.octs[dst]).a = (s.octs[dst]).a ∧
        (t.octs[dst]).early = (s.octs[dst]).early ++ [id]) ∧
    (¬ InOrder s r → (s.octs[dst]).refusing[src] = none → 512 ≤ (s.octs[dst]).early.length →
      ∃ t, exec (if rel then .wrel src dst else .wr src dst) s = .next t ∧ t.mem = s.mem ∧ (t.octs[dst]).a = (s.octs[dst]).a ∧
        (t.octs[dst]).refusing[src] = some r.vec[src] ∧
        { src := dst, dst := src, epoch := (s.octs[dst]).cf.epoch, wire := .refuse (s.octs[dst]).a } ∈ t.flights)

/-- R46, R307: a read whose column the home has applied goes on to the L3 at once, and a matrix request is answered; any other waits at the home. -/
def Obligations.ReadsWaitForTheirColumn : Prop :=
  ∀ (src dst : Oct) (id : Nat) (s : State) (r : Req) (e : Instr) (w : Wire), (e = .rd src dst ∧ w = .rd id ∨ e = .racq src dst ∧ w = .racq id ∨ e = .mreq src dst ∧ w = .mreq id) →
    Arrives s src dst w → s.req? id = some r → r.home = dst → r.site = src → (r.kind = .mreq ↔ w = .mreq id) → r.kind.isWrite = false →
    ((∀ k : Fin 8, notBefore (s.octs[dst]).a[k] r.vec[k]) → ∃ t q, exec e s = .next t ∧ t.mem = s.mem ∧ t.req? id = some q ∧
      (w = .mreq id → q.stage = .reply ∧ { src := dst, dst := src, epoch := (s.octs[dst]).cf.epoch, wire := .mrply id (s.octs[dst]).a (s.octs[dst]).h } ∈ t.flights) ∧
      (w ≠ .mreq id → q.stage = .l3 ∧ .l3ReadAccept id 0 ∈ t.todo)) ∧
    ((∃ k : Fin 8, ¬ notBefore (s.octs[dst]).a[k] r.vec[k]) → ∃ t q, exec e s = .next t ∧ t.mem = s.mem ∧ t.req? id = some q ∧ q.stage = .held ∧
      q.heldAt = some s.tick ∧ (t.octs[dst]).held = (s.octs[dst]).held ++ [id])

/-- R33, R44, R47, R51, R307: what a home's vector or matrix says raises the site's knowledge of it, component by component, and lowers nothing; a beacon is
kept with its tick; a refusal stops the site's sending for 64 ticks; a read's line goes on to its core. -/
def Obligations.RepliesAndBeaconsTeachTheSite : Prop :=
  ∀ (src dst : Oct) (s : State),
    (∀ v, Arrives s src dst (.bcn v) → ∃ t, exec (.bcn src dst) s = .next t ∧ t.mem = s.mem ∧ (t.octs[dst]).bcn[src] = v ∧ (t.octs[dst]).bcnTick[src] = s.tick ∧
      ∀ i j : Fin 8, ((t.octs[dst]).k[i])[j] = if j = src then later ((s.octs[dst]).k[i])[j] v[i] else ((s.octs[dst]).k[i])[j]) ∧
    (∀ v, Arrives s src dst (.refuse v) → ∃ t, exec (.refuse src dst) s = .next t ∧ t.mem = s.mem ∧ (t.octs[dst]).refusedAt[src] = some (s.tick + 64) ∧
      ∀ i j : Fin 8, ((t.octs[dst]).k[i])[j] = if j = src then later ((s.octs[dst]).k[i])[j] v[i] else ((s.octs[dst]).k[i])[j]) ∧
    (∀ id v r, Arrives s src dst (.rply id v) → s.req? id = some r → r.kind.isRead = true → r.stage = .reply → ∃ t q, exec (.rply src dst) s = .next t ∧ t.mem = s.mem ∧
      (∀ i j : Fin 8, ((t.octs[dst]).k[i])[j] = if j = src then later ((s.octs[dst]).k[i])[j] v[i] else ((s.octs[dst]).k[i])[j]) ∧
      t.req? id = some q ∧ q.stage = .fill ∧ .l1Fill id ∈ t.todo) ∧
    (∀ id v m r, Arrives s src dst (.aply id v m) → s.req? id = some r → r.kind.isRead = true → r.stage = .reply → ∃ t q, exec (.aply src dst) s = .next t ∧ t.mem = s.mem ∧
      (∀ i j : Fin 8, ((t.octs[dst]).k[i])[j] = if j = src then later (later ((s.octs[dst]).k[i])[j] (m[i])[j]) v[i] else later ((s.octs[dst]).k[i])[j] (m[i])[j]) ∧
      t.req? id = some q ∧ q.stage = .fill ∧ .l1Fill id ∈ t.todo) ∧
    (∀ id v m r, Arrives s src dst (.mrply id v m) → s.req? id = some r → r.kind = .mreq → r.stage = .reply → ∃ t, exec (.mrply src dst) s = .next t ∧ t.mem = s.mem ∧
      (∀ i j : Fin 8, ((t.octs[dst]).k[i])[j] = if j = src then later (later ((s.octs[dst]).k[i])[j] (m[i])[j]) v[i] else later ((s.octs[dst]).k[i])[j] (m[i])[j]) ∧
      ∀ q ∈ t.reqs, q.id ≠ id)

/-- R44, R48, R49, R52, R203: a beacon shows every site each home's applied vector; the ends of the waits for beacons and acknowledgements, and a lost
packet, are losses; a resend sends the retained writes again; a link retry gives notice to the reads it delays. -/
def Obligations.BeaconsLossesAndResends : Prop :=
  ∀ s : State,
    (s.tick % 256 = 0 → ∃ t, exec .beaconSend s = .next t ∧ t.mem = s.mem ∧ ∀ h o : Oct, s.octs[h].cf.removed = false →
      { src := h, dst := o, epoch := (s.octs[h]).cf.epoch, wire := .bcn (s.octs[h]).a } ∈ t.flights ∧ (t.octs[h]).sentA = (s.octs[h]).a) ∧
    (∀ site home : Oct, s.octs[site].cf.removed = false → s.octs[home].cf.removed = false → (s.octs[site]).bcnTick[home] + 4096 ≤ s.tick →
      ∃ t, exec (.beaconTimeout site home) s = .next t ∧ LossAt s t site 1 ∧ (t.octs[site]).bcnTick[home] = s.tick ∧ t.mem = s.mem) ∧
    (∀ site : Oct, (∃ p ∈ (s.octs[site]).retry, p.2 + 16384 ≤ s.tick) →
      ∃ t, exec (.retryBufferTimeout site) s = .next t ∧
        LossAt s t site ((s.octs[site]).retry.countP fun p => decide (p.2 + 16384 ≤ s.tick)) ∧ (∀ p ∈ (t.octs[site]).retry, s.tick < p.2 + 16384) ∧ t.mem = s.mem) ∧
    (∀ oct : Oct, ∃ t, exec (.linkUnrecoverableFlit oct) s = .next t ∧ LossAt s t oct 1 ∧ t.mem = s.mem ∧
      t.flights.length = s.flights.length - if s.flights.any fun f => f.dst == oct && f.src != oct then 1 else 0) ∧
    (∀ (site home : Oct) (n : Nat), (s.octs[site]).refusedAt[home] = some n → n ≤ s.tick → ∃ t, exec (.retryResend site home) s = .next t ∧
      (t.octs[site]).refusedAt[home] = none ∧ t.mem = s.mem ∧
      ∀ p ∈ (s.octs[site]).retry, ∀ r, s.req? p.1 = some r → r.home = home → (r.stage = .wire ∨ r.stage = .early) →
        { src := site, dst := home, epoch := (s.octs[site]).cf.epoch, wire := (if r.release then .wrel r.id else .wr r.id) } ∈ t.flights) ∧
    ∀ (b : Fin 10) (down : Bool) (ticks : Nat) (f : Flight) (r : Req) (id : Nat) (a : Access), f ∈ s.flights → (b.val, down) ∈ routeOf f.src f.dst →
      (f.wire = .rd r.id ∨ f.wire = .racq r.id) → r ∈ s.reqs → r.kind.isWrite = false → r.acc = some id → (r.priv && r.quiet) = false → accOf s r.wave id = some a → a.kind = .load →
      ∃ t a', exec (.linkRetry b down ticks) s = .next t ∧ t.mem = s.mem ∧ accOf t r.wave id = some a' ∧ (r.id, .retry ticks) ∈ a'.notices

/-- R54-R56, R97: an epoch change stops every site, resends what is retained, clears every counter and buffer of the fabric when the last home has drained,
and ends with HSEM free and the sites going on. -/
def Obligations.EpochChangesClearTheFabric : Prop :=
  ∀ s : State, s.epoch.running = true →
    (∀ o : Oct, ∃ t, exec (.stop o) s = .next t ∧ (t.octs[o]).stopped = true ∧ .stopped o ∈ t.todo ∧ t.epoch.stopSent.getLsbD o.val = true ∧ t.mem = s.mem) ∧
    (∀ o : Oct, (s.octs[o]).stopped = true → s.epoch.stopped.getLsbD o.val = false → ∃ t, exec (.stopped o) s = .next t ∧ t.mem = s.mem ∧
      (∀ n : Fin 8, t.epoch.stopped.getLsbD n.val = (s.epoch.stopped.getLsbD n.val || n == o)) ∧ t.epoch.reported.getLsbD o.val = true) ∧
    (∀ h : Oct, allOcts s s.epoch.stopped = true → s.epoch.drained.getLsbD h.val = false → s.homeDrained h = true →
      (∀ o : Oct, o = h ∨ s.epoch.drained.getLsbD o.val = true ∨ (s.octs[o]).cf.removed = true) →
      ∃ t, exec (.drained h) s = .next t ∧ (∀ f ∈ t.flights, ∃ v, f.wire = .bcn v) ∧ .resume ∈ t.todo ∧ t.mem = s.mem ∧ ∀ o : Oct,
        (t.octs[o]).k = CMat.zero ∧ (t.octs[o]).a = CVec.zero ∧ (t.octs[o]).h = CMat.zero ∧ (t.octs[o]).shown = CVec.zero ∧ (t.octs[o]).retry = [] ∧
        (t.octs[o]).early = [] ∧ (t.octs[o]).held = [] ∧ (t.octs[o]).cf.epoch = (s.octs[o]).cf.epoch + 1 ∧
        (t.octs[o]).cf.removed = ((s.octs[o]).cf.removed || s.epoch.remove == some o) ∧ ∀ l ∈ (t.octs[o]).l2, homeOf (l.line * 128) = o) ∧
    (allOcts s s.epoch.drained = true → ∃ t, exec .resume s = .next t ∧ t.epoch.running = false ∧ t.hsem.owner = 0 ∧ t.mem = s.mem ∧
      ∀ o : Oct, (t.octs[o]).stopped = false ∧ ((s.octs[o]).cf.removed = false →
        ∀ p : Oct, { src := o, dst := p, epoch := (s.octs[o]).cf.epoch, wire := .bcn (s.octs[o]).a } ∈ t.flights))

/-- R284-R288, R292, R295, R429-R431: `cpa` raises its tag and starts a copy, or is held whole when a page misses; `cpt` and `srec` take the lowest free
engine; `sarm` arms a held engine with every header of its ring 0; `sstop` frees it. -/
def Obligations.StreamWordsStartTheirEngines : Prop :=
  ∀ s : State, RowsFit s → s.w.acquiring = false → s.cur.q ≤ s.tick →
    (∀ (gl : Bool) (z : Size) (pol : Policy) (o a : VOp) (b sp : SPair) (tag : Fin 64),
      let i : Instr := .cpa gl z pol o a b sp tag
      let miss := s.cur.active &&& maskOf fun L => !reaches s (if gl then .write else .read) (linePieces (laneAddr s.latch a b L) (sizeBytes z))
      Clear i {} s → tag.val < s.g.tags.length → s.memAccept i miss = true →
      (gl = true ∨ s.trackerRoom (s.missCount { k := { policy := pol }, ps := fun L => linePieces (laneAddr s.latch a b L) (sizeBytes z) }
        (s.cur.active &&& ~~~miss)) = true) → s.storing s.w.uid = false → s.g.tags.getD tag.val 0 + 1 ≤ 65535 →
      ∃ t, exec i s = .next t ∧ t.mem = s.mem ∧ t.g = { s.g with tags := s.g.tags.set tag.val (s.g.tags.getD tag.val 0 + 1) } ∧
        t.w.regs = { s.w.regs with x := t.w.regs.x } ∧ (∀ x : XNum, t.w.regs.x[x] = xAfter i s s.cur.active x) ∧
        (miss = 0 → ∃ c ∈ t.w.accs, c.id = s.serial ∧ c.kind = .copy ∧ c.lanes = s.cur.active ∧ c.tag = some tag.val ∧
          ∀ L : Lane, c.place[L] = laneOffset s.latch o sp L) ∧
        (miss ≠ 0 → t.w.park = .replay ∧ t.reqs = s.reqs ∧ ∃ h ∈ t.c.held, h.instr = i ∧ h.mask = s.cur.active ∧ h.wave = s.w.uid)) ∧
    (∀ (a : SReg) (v : SPair) (tag : Fin 64) (e : Fin 4), (s.latch.sget a).toNat % 16 = 0 → tag.val < s.g.tags.length → lowestFree s e →
      (readTensor (s.g.tensorAt (s.latch.sget a).toNat)).badCpt v = false → s.g.tags.getD tag.val 0 + 1 ≤ 65535 →
      s.heldConflict (.cpt a v tag) = false →
      s.probeTensor (readTensor (s.g.tensorAt (s.latch.sget a).toNat)) ((s.latch.pair v).toNat % 2 ^ 57) = none →
      ∃ t, exec (.cpt a v tag) s = .next t ∧ t.mem = s.mem ∧ t.w.regs = s.w.regs ∧
        t.g = { s.g with tags := s.g.tags.set tag.val (s.g.tags.getD tag.val 0 + 1) } ∧
        t.c.engines[e] = { kind := .cpt, gid := s.g.gid, rec_ := s.g.tensorAt (s.latch.sget a).toNat, tag := tag.val
                           move := (s.latch.pair v).toNat % 2 ^ 57, pc := s.cur.pc, wave := s.w.uid, since := s.serial } ∧
        (∀ f : Fin 4, f ≠ e → t.c.engines[f] = s.c.engines[f]) ∧ .cptComplete s.c.id e ∈ t.todo) ∧
    (∀ (d a : SReg) (e : Fin 4), (s.latch.sget a).toNat % 16 = 0 → lowestFree s e →
      (readTensor (s.g.tensorAt (s.latch.sget a).toNat)).badStream = false →
      ∃ t, exec (.srec d a) s = .next t ∧ t.mem = s.mem ∧ t.g = s.g ∧ (d ≠ 0 → t.w.regs.s[d] = BitVec.ofNat 32 e.val) ∧
        (∀ r : SReg, r ≠ d ∨ d = 0 → t.w.regs.s[r] = s.w.regs.s[r]) ∧ t.w.regs = { s.w.regs with s := t.w.regs.s } ∧
        t.c.engines[e] = { kind := .held, gid := s.g.gid, rec_ := s.g.tensorAt (s.latch.sget a).toNat } ∧
        ∀ f : Fin 4, f ≠ e → t.c.engines[f] = s.c.engines[f]) ∧
    (∀ (r : SReg) (tag : Fin 64) (e : Fin 4), (s.latch.sget r).toNat = e.val → (s.c.engines[e]).gid = s.g.gid → (s.c.engines[e]).kind = .held →
      tag.val < s.g.tags.length → s.g.tags.getD tag.val 0 + 1 ≤ 65535 → s.heldConflict (.sarm r tag) = false → cellsWf 0 s.g.pad = true →
      s.probeTensor (readTensor (s.c.engines[e]).rec_) 0 = none →
      ∃ t, exec (.sarm r tag) s = .next t ∧ t.mem = s.mem ∧ t.w.regs = s.w.regs ∧
        t.g.tags = s.g.tags.set tag.val (s.g.tags.getD tag.val 0 + 1) ∧ (t.c.engines[e]).kind = .armed ∧ (t.c.engines[e]).tag = tag.val ∧
        (t.c.engines[e]).num = 1 ∧
        ∀ k n, k < (readTensor (s.c.engines[e]).rec_).slots → n < 16 → t.g.padByte ((readTensor (s.c.engines[e]).rec_).slotAt (k + 1) + n) = 0) ∧
    ∀ (r : SReg) (e : Fin 4), (s.latch.sget r).toNat = e.val → (s.c.engines[e]).gid = s.g.gid →
      ((s.c.engines[e]).kind = .held ∨ (s.c.engines[e]).kind = .armed) →
      ∃ t, exec (.sstop r) s = .next t ∧ t.mem = s.mem ∧ t.w.regs = s.w.regs ∧ (t.c.engines[e]).kind = .free ∧
        ((s.c.engines[e]).kind = .held → t.g = s.g) ∧
        ((s.c.engines[e]).kind = .armed →
          t.g = { s.g with tags := s.g.tags.set (s.c.engines[e]).tag (s.g.tags.getD (s.c.engines[e]).tag 0 - 1) })

/-- R46, R50, R61, R62, R76, R82, R184, R198, R305: a read is served by the nearest cache whose line its column covers, else by the next level, and takes
memory's bytes; a store goes from its L2 slice to the stamper; what is applied is acknowledged. -/
def Obligations.RequestsMoveThroughTheCaches : Prop :=
  ∀ (s : State) (req : Nat) (r : Req), s.req? req = some r →
    (∀ bad, r.stage = .l2 → r.kind.isWrite = false → r.target = .device → s.readBehind r = false →
      (r.toHome = true ∨ s.octs[r.site].l2Find r.line = none ∨ s.coveredAt r.site r.home = false → ∃ t q, exec (.l2ProbeAccept req bad) s = .next t ∧
        t.mem = s.mem ∧ t.req? req = some q ∧ q.stage = .stamp ∧ .stampRead req ∈ t.todo) ∧
      ∀ l, r.toHome = false → s.octs[r.site].l2Find r.line = some l → s.coveredAt r.site r.home = true → bad = 0 →
        ∃ t q, exec (.l2ProbeAccept req bad) s = .next t ∧ t.mem = s.mem ∧ t.req? req = some q ∧ q.stage = .fill ∧ .l1Fill req ∈ t.todo ∧
          q.data = if r.site = r.home then s.mem.line r.line else l.data) ∧
    (r.stage = .l3 → r.line ∉ s.hostHolds →
      (s.octs[r.home].l3Find r.line = none → ∃ t q, exec (.l3ReadAccept req 0) s = .next t ∧ t.mem = s.mem ∧ t.req? req = some q ∧ q.stage = .hbm ∧
        .hbmReadAccept req ∈ t.todo) ∧
      ∀ l, s.octs[r.home].l3Find r.line = some l → ∃ t q, exec (.l3ReadAccept req 0) s = .next t ∧ t.req? req = some q ∧ q.stage = .reply ∧
        q.data = s.mem.line r.line ∧ (takes r.kind l = false → t.mem = s.mem) ∧
        (takes r.kind l = true → s.mem.wf = true → ∀ key, t.mem.byte key = storedOver s r.line (BitVec.allOnes 128) l.below key)) ∧
    (r.stage = .hbm → ∃ t q, exec (.hbmReadAccept req) s = .next t ∧ t.mem = s.mem ∧ t.req? req = some q ∧ q.stage = .mem ∧
      .hbmDataReturn req .good ∈ t.todo) ∧
    (r.stage = .mem →
      (∃ t q, exec (.hbmDataReturn req .good) s = .next t ∧ t.mem = s.mem ∧ t.req? req = some q ∧ q.stage = .reply ∧ q.data = s.mem.line r.line) ∧
      ∀ sectors a, ∃ t q, exec (.hbmDataReturn req (.uncorrectable sectors a)) s = .next t ∧ t.req? req = some q ∧ q.stage = .reply ∧
        ∀ n, n < 4 → sectors.getLsbD n = true → q.bad.getLsbD n = true) ∧
    (r.stage = .fill → r.target = .device → ∃ t, exec (.l1Fill req) s = .next t ∧ t.mem = s.mem ∧ (∀ q ∈ t.reqs, q.id ≠ req) ∧
      ∀ id a, r.eng = none → (r.priv && r.quiet) = false → r.acc = some id → accOf s r.wave id = some a → ∃ b, accOf t r.wave id = some b ∧ req ∉ b.waits) ∧
    (r.kind = .write → r.stage = .l2 → r.target = .device →
      s.earlier r (fun q => q.unread || (q.kind.isWrite && q.stage == .l2)) = false → s.heldLine r.wave r.seq (r.va.toNat / 128) = false →
      ∃ t q, exec (.storeAccept req) s = .next t ∧ t.mem = s.mem ∧ t.req? req = some q ∧ q.stage = .stamp ∧ q.data = r.data ∧ q.mask = r.mask ∧
        .stampWrite req ∈ t.todo) ∧
    (r.kind = .write → r.target = .device → r.stage = .applied → ∃ t, exec (.homeAcknowledgement req) s = .next t ∧ t.mem = s.mem ∧
      ∀ q ∈ t.reqs, q.id = req → q.quiet = true) ∧
    (r.kind = .write → r.target ≠ .device → r.stage = .wire → s.mem.wf = true → ∃ t, exec (.homeAcknowledgement req) s = .next t ∧
      (∀ q ∈ t.reqs, q.id ≠ req) ∧ ∀ key, t.mem.byte key = storedOver s r.line r.mask r.data key) ∧
    (∀ op cmp id, r.kind = .atomic op cmp → r.target = .device → r.stage = .alu → r.acc = some id →
      ∃ t, exec (.homeAluAccept req) s = .next t ∧ ∀ q ∈ t.reqs, q.id = req → q.stage = .reply ∧ q.data = r.data) ∧
    (∀ name, r.kind = .event name → r.target = .device → r.stage = .applied → ∃ t, exec (.eventAddAtHome req) s = .next t ∧
      ∀ q ∈ t.reqs, q.id = req → q.quiet = true ∧ q.stage = .applied) ∧
    (r.snooped = true → r.kind.isWrite = false → ∃ t q, exec (.backInvalidateResponse req) s = .next t ∧ t.mem = s.mem ∧ r.line ∉ t.hostHolds ∧
      t.req? req = some q ∧ q.snooped = false ∧ .l3ReadAccept req 0 ∈ t.todo)

/-- R84, R85, R87, R88: a repair command with resources left is counted and is pending (a spare row) or done 4,096 ticks later, when the sectors it repairs
read 0; without them its status is 2; a reserved kind gives 3. A new tail is taken when at most the ring's entries lie before head; a page goes to the end of
the bad-page list. -/
def Obligations.RepairsAndRingsFollowTheirRegisters : Prop :=
  ∀ (s : State) (v : DWord),
    (s.repairBusy = false →
      (s.sparesUsed (bankKey (repairPc v) (repairBank v)) < 2 → ∃ t, exec (.spareRow v) s = .next t ∧ repairSays t false 1 ∧ t.mem = s.mem ∧
        t.sparesUsed (bankKey (repairPc v) (repairBank v)) = s.sparesUsed (bankKey (repairPc v) (repairBank v)) + 1 ∧
        t.repair.pendingRows = s.repair.pendingRows ++ [v]) ∧
      (2 ≤ s.sparesUsed (bankKey (repairPc v) (repairBank v)) → ∃ t, exec (.spareRow v) s = .next t ∧ repairSays t false 2 ∧
        t = { s with repair := { s.repair with memrepair := t.repair.memrepair } }) ∧
      (s.remapsUsed (repairPc v / 2) < 16 → ∃ t, exec (.rowRemap v) s = .next t ∧ repairSays t true 1 ∧ t.mem = s.mem ∧
        t.remapsUsed (repairPc v / 2) = s.remapsUsed (repairPc v / 2) + 1 ∧ t.repair.due = some (s.tick + 4096)) ∧
      (16 ≤ s.remapsUsed (repairPc v / 2) → ∃ t, exec (.rowRemap v) s = .next t ∧ repairSays t false 2 ∧
        t = { s with repair := { s.repair with memrepair := t.repair.memrepair } }) ∧
      (s.repair.granules[octOfPc (repairPc v)] < 256 → ∃ t, exec (.spareGranule v) s = .next t ∧ repairSays t true 1 ∧ t.mem = s.mem ∧
        t.repair.granules[octOfPc (repairPc v)] = s.repair.granules[octOfPc (repairPc v)] + 1 ∧ t.repair.due = some (s.tick + 4096)) ∧
      (256 ≤ s.repair.granules[octOfPc (repairPc v)] → ∃ t, exec (.spareGranule v) s = .next t ∧ repairSays t false 2 ∧
        t = { s with repair := { s.repair with memrepair := t.repair.memrepair } }) ∧
      ∃ t, exec (.memrepairReservedKind v) s = .next t ∧ repairSays t false 3 ∧
        t = { s with repair := { s.repair with memrepair := t.repair.memrepair } }) ∧
    (s.repairBusy = true → ∃ t, exec .repairComplete s = .next t ∧ repairSays t false 0 ∧ t.repair.due = none ∧ t.w = s.w ∧ t.reqs = s.reqs ∧
      (s.mem.wf = true → ∀ key,
        (key / 32 ∉ repairSectors s.repair.memrepair → t.mem.byte key = s.mem.byte key) ∧
        (key / 32 ∈ repairSectors s.repair.memrepair → (s.octs[homeOf key]).l2Dirty (key / 128) = false → (s.octs[homeOf key]).l3Dirty (key / 128) = false →
          t.mem.byte key = 0))) ∧
    (∀ n : Word, (s.repair.faq.head + 512 - n.toNat % 512) % 512 ≤ 256 →
      exec (.faqTail n) s = .next { s with repair := { s.repair with faq := { s.repair.faq with tail := n.toNat % 512 } } }) ∧
    (∀ n : Word, 256 < (s.repair.faq.head + 512 - n.toNat % 512) % 512 → exec (.faqTail n) s = .next s) ∧
    (∀ n : Word, (s.xlate.frec.head + 512 - n.toNat % 512) % 512 ≤ 256 →
      exec (.frecTail n) s = .next { s with xlate := { s.xlate with frec := { s.xlate.frec with tail := n.toNat % 512 } } }) ∧
    (∀ n : Word, 256 < (s.xlate.frec.head + 512 - n.toNat % 512) % 512 → exec (.frecTail n) s = .next s) ∧
    (∀ n : Word, (s.xlate.prqHead + 4096 - n.toNat % 4096) % 4096 ≤ 2048 →
      exec (.prqTail n) s = .next { s with xlate := { s.xlate with prqTail := n.toNat % 4096 } }) ∧
    (∀ n : Word, 2048 < (s.xlate.prqHead + 4096 - n.toNat % 4096) % 4096 → exec (.prqTail n) s = .next s) ∧
    (s.repair.bpl.length < 4096 → exec (.bplAdd v) s = .next { s with repair := { s.repair with bpl := s.repair.bpl ++ [(15, v.setWidth 36)] } })

/-- R29, R66-R68, R71, R96-R98, R125: HSEM goes to a port that asks for it while it is free, the port other than the last at a tie, and becomes free as R97
says; its owner's writes renew its hold; without it a guarded write changes only the count of denials, and under cold reset nothing. A commit is checked,
installed at its tick, and its bounds change around it. -/
def Obligations.TheSemaphoreGuardsAndMapsInstall : Prop :=
  ∀ (s : State) (p : Port),
    (s.power.held = false → s.hsem.owner = 0 →
      exec (.hsemAcquire p false) s = .next (hsemTo s p s.hsem.last) ∧
      exec (.hsemAcquire p true) s = .next (hsemTo s (if s.hsem.last = true then 0 else 1) s.hsem.last)) ∧
    (s.power.held = false → s.hsem.owner = BitVec.ofNat 2 (p.val + 1) →
      exec (.hsemAcquire p false) s = .next { s with hsem := { s.hsem with wrote := s.tick } }) ∧
    (s.power.held = false → s.hsem.owner ≠ 0 → s.hsem.owner ≠ BitVec.ofNat 2 (p.val + 1) →
      (s.hsem.took = some s.tick → s.hsem.owner ≠ 3 → s.hsem.hadLast ≠ (p.val == 1) → exec (.hsemAcquire p false) s = .next (hsemTo s p s.hsem.hadLast)) ∧
      ((s.hsem.took ≠ some s.tick ∨ s.hsem.owner = 3 ∨ s.hsem.hadLast = (p.val == 1)) → exec (.hsemAcquire p false) s = .next s)) ∧
    (s.power.held = true → exec (.hsemAcquire p false) s = .next s ∧ ∀ e : Instr, guardedOf p e → exec e s = .next s) ∧
    (∀ e : Instr, (e = .hsemRelease p ∨ e = .functionLevelReset p ∨ e = .linkDown p) →
      (s.hsem.owner = BitVec.ofNat 2 (p.val + 1) → exec e s = .next (ownedBy s 0)) ∧ (s.hsem.owner ≠ BitVec.ofNat 2 (p.val + 1) → exec e s = .next s)) ∧
    ((s.hsem.owner = 1 ∨ s.hsem.owner = 2) → s.hsem.wrote + Config.hsemLapse ≤ s.tick → exec .hsemLapse s = .next (ownedBy s 0)) ∧
    (∀ e : Instr, guardedOf p e → s.power.held = false → s.hsem.owner ≠ BitVec.ofNat 2 (p.val + 1) → ∃ t, exec e s = .next t ∧
      t = { s with hsem := { s.hsem with denied := t.hsem.denied } } ∧
      t.hsem.denied = if s.hsem.denied = BitVec.allOnes 16 then s.hsem.denied else s.hsem.denied + 1) ∧
    (∀ v : DWord, s.power.held = false → s.hsem.owner = BitVec.ofNat 2 (p.val + 1) → v.extractLsb' 0 2 = 1 → s.fret.state ≠ 1 → ∃ t, exec (.fretCommit p v) s = .next t ∧
      t.fret = { s.fret with checking := some s.tick } ∧ .fretMapCheck ∈ t.todo ∧ t.hsem.wrote = s.tick) ∧
    (∀ n, s.fret.checking = some n →
      (s.rejects = true → ∃ t, exec .fretMapCheck s = .next t ∧ t = { s with fret := t.fret } ∧ t.fret.state = 2 ∧ t.fret.force = s.fret.force) ∧
      (s.rejects = false → ∃ t, exec .fretMapCheck s = .next t ∧ t = { s with fret := t.fret } ∧ t.fret.state = 1 ∧ t.fret.force = s.fret.force ∧
        t.fret.staged = s.fret.stored ∧ t.fret.install % 4096 = 0 ∧ n + Config.installLead ≤ t.fret.install ∧ t.fret.install < n + Config.installLead + 4096)) ∧
    (s.fret.state = 1 → s.fret.install ≤ s.tick + Config.boundLead → s.tick < s.fret.install → s.fret.boundEnd = none →
      ∃ t, exec .boundTransitionStart s = .next t ∧ t.fret.started = true ∧ ∀ q : Fin 8,
        (t.parts[q]).gTransition = gapAcross s.fret.force s.fret.staged q.val ∧ (t.parts[q]).gNow = (s.parts[q]).gNow) ∧
    (s.fret.state = 1 → s.fret.install ≤ s.tick → (∀ x ∈ s.queues, x.state ≠ 1) → ∃ t, exec .fretInstall s = .next t ∧ t.fret.state = 0 ∧
      t.fret.force = s.fret.staged ∧ (∀ (q : Fin 8) c u, s.fret.stagedParts[q.val]? = some (c, u) → (t.parts[q]).force = c ∧ (t.parts[q]).quotaForce = u) ∧
      (∀ q : Fin 8, .groupPlacement q ∈ t.todo) ∧ t.mem = s.mem) ∧
    ∀ n, s.fret.boundEnd = some n → n ≤ s.tick → s.fret.state ≠ 1 → ∃ t, exec .boundTransitionEnd s = .next t ∧ t.fret.started = false ∧
      t.fret.boundEnd = none ∧ ∀ q : Fin 8, (t.parts[q]).gNow = gapOf s.fret.force q.val

/-- R100, R101, R104-R110, R151, R155: a packet that may start leaves its queue and is a job; it adds what it names to a signal; a packet completes when its
work is done; QCTL and doorbells set the state and wptr; an unmasked pending vector is sent. -/
def Obligations.QueuesStartAndCompletePackets : Prop :=
  ∀ (s : State) (q : Nat),
    (∀ x b c d, s.startHead q 0 = some (x, b, c) → kernelFits s x b c d → ∃ t, exec (.kernel q) s = .next t ∧ Started s t q 0 x ∧
      .groupPlacement (Fin.ofNat 8 (s.partOf x.ctx)) ∈ t.todo ∧ ∃ p ∈ t.sched.places, p.group.job = s.serial ∧ p.next = 0 ∧
        p.count = (bitsOf b 451 21 + 1) * (bitsOf b 472 20 + 1) * (bitsOf b 492 20 + 1) ∧ p.group.waves = bitsOf b 12 5 + 1 ∧ p.group.age = s.tick ∧
        p.group.regs = d.regs ∧ p.group.wideEach = d.wide ∧ p.group.scratch = (d.scratch + 4095) / 4096 * 4096 ∧ p.group.tags.length = d.tags) ∧
    (∀ x b c, s.startHead q 1 = some (x, b, c) → s.signalOk x.ctx (bitsOf b 294 54 * 8) = true →
      s.recordsOk x.ctx (bitsOf b 401 52 * 32) (bitsOf b 453 32 + 1) = true →
      ∃ t, exec (.taskpool q) s = .next t ∧ Started s t q 1 x ∧ .binnerTimeout x.ctx ∈ t.todo) ∧
    (∀ x b c, s.startHead q 2 = some (x, b, c) → s.signalOk x.ctx (bitsOf b 294 54 * 8) = true → s.writable x.ctx (bitsOf b 348 54 * 8) = true →
      ∃ t, exec (.signal q) s = .next t ∧ Started s t q 2 x ∧ .packetCompletion s.serial ∈ t.todo ∧
        ∀ g k, (s.startJob x b c).2.place x.ctx (bitsOf b 348 54 * 8) = some (g, k) → (s.startJob x b c).2.mem.isBad (k / 32) = false →
          OffRecords s k 8 → s.mem.wf = true → t.mem.dword k = s.mem.dword k + BitVec.ofNat 64 (bitsOf b 402 64)) ∧
    (∀ e n, (e = .event q ∧ n = 3 ∨ e = .wait q ∧ n = 4) → ∀ x b c, s.startHead q n = some (x, b, c) → s.signalOk x.ctx (bitsOf b 294 54 * 8) = true →
      ∃ t, exec e s = .next t ∧ Started s t q n x ∧ .packetCompletion s.serial ∈ t.todo) ∧
    (∀ x b c, s.queue? q = some x → s.consumes x = true → s.headPacket x = some b → packetErr x b = none → x.chain = some c → s.startable x b = true →
      (bitsOf b 11 1 = 1 → (s.dwordVa x.ctx (bitsOf b 240 54 * 8)).isSome = true) →
      ∃ t, exec (.dependenceSignalPoll q) s = .next t ∧ t.mem = s.mem ∧ startOf (bitsOf b 0 4) q ∈ t.todo) ∧
    (∀ j, s.jobs.find? (fun j => j.id == q) = some j → j.dead = false → s.jobDone j = true → ∃ t, exec (.packetCompletion q) s = .next t ∧
      (∀ k ∈ t.jobs, k.id ≠ q) ∧ ∀ g k, j.compsig ≠ 0 → j.cev = none → s.place j.ctx j.compsig.toNat = some (g, k) → s.mem.isBad (k / 32) = false →
        OffRecords s k 8 → s.mem.wf = true → t.mem.dword k = s.mem.dword k - 1) ∧
    (q < 4096 → enables s q → ∃ t y, exec (.queueEnable q) s = .next t ∧ t.queue? q = some y ∧ y.state = 1 ∧ y.rptr = 0 ∧ y.wptr = 0) ∧
    (q < 4096 → (s.readQueue q).2 = false → ∃ t y, exec (.queueEnable q) s = .next t ∧ t.queue? q = some y ∧ y.state = 2 ∧ y.err = 6) ∧
    (∀ x, s.queue? q = some x → x.state = 2 → enables s q → ∃ t y, exec (.queueResume q) s = .next t ∧ t.queue? q = some y ∧
      y.rptr = x.rptr ∧ y.wptr = x.wptr) ∧
    (∀ x, s.queue? q = some x → ∃ t y, exec (.queueDisable q) s = .next t ∧ t.queue? q = some y ∧ y.state = 0 ∧ y.rptr = x.rptr ∧ y.wptr = x.wptr) ∧
    (∀ x (v : DWord), s.queue? q = some x → x.state = 1 → ∃ t y, exec (.doorbell q v) s = .next t ∧ t.queue? q = some y ∧
      (v.toNat ≤ x.wptr → y.wptr = x.wptr) ∧
      (x.wptr < v.toNat → 2 ^ x.lgsize < v.toNat - x.rptr → y.state = 2 ∧ y.err = 3 ∧ y.wptr = x.wptr) ∧
      (x.wptr < v.toNat → v.toNat - x.rptr ≤ 2 ^ x.lgsize → y.wptr = v.toNat)) ∧
    ∀ (p : Port) (fn : Nat), ∃ t, exec (.msixUnmask p fn q) s = .next t ∧ (t.msiVec p fn q).masked = false ∧ (t.msiVec p fn q).pending = false ∧
      t.out = s.out ++ if (s.msiVec p fn q).pending = true then [.msix p fn q] else []

/-- R117-R121: a binding that passes its checks starts with its counters 0, one that fails sets status 1; a submission writes its command and the tail; a
completion with status 0 advances the timeline, any other and a timeout record a failure; a poll reads what has arrived. -/
def Obligations.StorageContextsSubmitAndComplete : Prop :=
  ∀ (s : State) (n : Nat),
    (n < 512 → (s.ioRec n).valid = false →
      ((s.ioRec n).bindable = true → ∃ t y, exec (.ioContextBind n) s = .next t ∧ t.mem = s.mem ∧ t.io? n = some y ∧ y.valid = true ∧ y.status = 0 ∧
        y.timeline = 0 ∧ y.issued = 0 ∧ y.firstfail = 0 ∧ y.reqs = [] ∧ y.regs = (s.ioRec n).regs) ∧
      ((s.ioRec n).bindable = false → ∃ t y, exec (.ioContextBind n) s = .next t ∧ t.mem = s.mem ∧ t.io? n = some y ∧ y.valid = false ∧ y.status = 1)) ∧
    ∀ x, s.io? n = some x → x.valid = true →
      (∃ t y, exec (.ioContextUnbind n) s = .next t ∧ t.io? n = some y ∧ y.valid = false ∧ ((∃ r ∈ x.reqs, r.done = false) → y.status = 2)) ∧
      (∀ r, x.waiting = some r → x.room r = true → ∃ t y, exec (.ioSubmission n) s = .next t ∧ t.io? n = some y ∧
        y.sqTail = (x.sqTail + 1) % x.depth ∧ (∀ o ∈ y.reqs, o.num = r.num → o.submitted = some s.tick) ∧
        Out.nvmeDoorbell n x.regs[(7 : Fin 8)] (BitVec.ofNat 64 ((x.sqTail + 1) % x.depth)) ∈ t.out ∧
        (s.mem.wf = true → t.mem.byte (x.sq + 64 * x.sqTail) = if r.write then 1 else 2)) ∧
      (∀ num r, (x.reqs.find? fun r => r.num == num && r.submitted.isSome) = some r → r.done = false →
        (x.timeline.toNat + x.reqs.length < 2 ^ 64 → num = x.timeline.toNat + 1 → ∃ t y, exec (.nvmeCompletion n num 0) s = .next t ∧ t.mem = s.mem ∧
          t.io? n = some y ∧ num ≤ y.timeline.toNat ∧ y.status = x.status) ∧
        ∀ status, status ≠ 0 → ∃ t y, exec (.nvmeCompletion n num status) s = .next t ∧ t.io? n = some y ∧ y.status = 2 ∧
          y.firstfail = if x.firstfail = 0 ∨ num < x.firstfail.toNat then BitVec.ofNat 64 num else x.firstfail) ∧
      (∀ num r at_, (x.reqs.find? fun r => r.num == num && !r.done) = some r → r.submitted = some at_ → at_ + Config.ioTimeout ≤ s.tick →
        ∃ t y, exec (.ioRequestTimeout n num) s = .next t ∧ t.io? n = some y ∧ y.status = 3 ∧
          y.firstfail = if x.firstfail = 0 ∨ num < x.firstfail.toNat then BitVec.ofNat 64 num else x.firstfail) ∧
      ∀ e, (e = .ionotify n ∨ e = .cqPoll n ∧ s.tick % 1024 = 0) →
        let phase := bitsOf (s.mem.bytes (x.cq + 16 * (x.cqHead % x.depth)) 16) 112 1
        (phase ≠ 1 - x.cqHead / x.depth % 2 → exec e s = .next s) ∧
        (phase = 1 - x.cqHead / x.depth % 2 → ∃ t y, exec e s = .next t ∧ t.io? n = some y ∧ x.cqHead < y.cqHead ∧ y.cqHead ≤ x.cqHead + x.depth ∧
          Out.nvmeDoorbell n x.regs[(6 : Fin 8)] (BitVec.ofNat 64 (y.cqHead % x.depth)) ∈ t.out)

/-- R126, R142, R149, R152, R156, R165, R167: the next group of a grid that fits is placed with its waves; a quiescent group is saved into the placement
list; pooled tasks become a wave; a barrier timeout is recorded; overflow waits that are met leave; a partition suspends and resumes. -/
def Obligations.TheDispatcherPlacesSavesAndSuspends : Prop :=
  ∀ s : State,
    (∀ (part : Fin 8) (p : Placing) (j : Job) (core : Nat), s.dispatches part = true → s.placeOrder part = [p] → p ∈ s.sched.places → p.rowsFor = none →
      p.saved = false → p.group.task = false → p.group.coresident = false → p.next + 1 = p.count →
      (s.jobs.find? fun j => j.id == p.group.job) = some j → s.pickCore p = some core →
      ∃ t g, exec (.groupPlacement part) s = .next t ∧ g ∈ t.groups ∧ g.gid = s.serial ∧ g.core = core ∧ g.job = p.group.job ∧
        g.gx = p.next % j.grid.1 ∧ g.gy = p.next / j.grid.1 % j.grid.2.1 ∧ g.gz = p.next / j.grid.1 / j.grid.2.1 ∧ p ∉ t.sched.places ∧
        ∀ i, i < g.waves → ∃ w ∈ t.waves, w.live = true ∧ w.gid = s.serial ∧ w.index = i ∧ coreOfSlot w.slot = core ∧
          w.regs = startRegs j.args j.grid g i ∧ w.front = [{ pc := entryPc g.kdesc, mask := BitVec.allOnes 32 }] ∧ w.mayIssue = s.tick + 1) ∧
    (∀ gid g h, gid ≠ 0 → s.group? gid = some g → g.evictAt ≠ none → (s.stopLoops g).group? gid = some h → (s.stopLoops g).settled h = true →
      let v := (s.stopLoops g).flushPrivate h
      v.groupDrained h = true → (v.takeUnits h (v.wavesOf h.gid)).isSome = true →
      (v.ctx? h.ctx).isSome = true →
      ∃ t p, exec (.quiescenceComplete gid) s = .next t ∧ (∀ k ∈ t.allGroups, k.gid ≠ gid) ∧ p ∈ t.sched.places ∧ p.saved = true ∧
        p.group = { h with evictAt := none }) ∧
    (∀ ctx x k first, s.ctx? ctx = some x → x.pool.head? = some first → (∀ t ∈ x.pool, (t.entry, t.rcb) = k) → (∀ p ∈ s.sched.places, p.tasks = []) →
      ∃ t p, exec (.binnerTimeout ctx) s = .next t ∧ p ∈ t.sched.places ∧ p.tasks = x.pool.take 32 ∧ p.group.task = true ∧ p.group.waves = 1 ∧
        p.group.kdesc = k.1 - 0x100 ∧ p.group.age = first.tick ∧ t.mem = s.mem) ∧
    (∀ gid b g x i w, s.group? gid = some g → (g.bars[b]).arriving = [] → (g.bars[b]).first ≠ none → (g.bars[b]).barto ≤ (g.bars[b]).elapsed →
      s.ctx? g.ctx = some x → s.waveAt gid i = some w → i < 32 → w.exited = false →
      (∀ v ∈ s.allWaves, v.gid = gid → v.ctx = g.ctx) → g.rcb.toNat ∈ g.chain → s.xlate.frec.used 512 ≠ 256 →
      ∃ t v, exec (.barTimeout gid b) s = .next t ∧ (s.xlate.frec.head % 256, v) ∈ t.xlate.frec.slots ∧ v.extractLsb' 221 8 = 11 ∧
        ∀ k ∈ t.allGroups, k.gid ≠ gid) ∧
    (∀ ctx name, ∃ t, exec (.eventOverflowScan ctx name) s = .next t ∧ (∀ p ∈ t.sched.scans, ¬ (p.1 = ctx ∧ p.2.1 = name)) ∧
      ∀ e ∈ s.sched.waits, ∀ n, e.ctx = ctx → e.name = name → e.place = .overflow n → s.eventMeets ctx name e.thr = true → e ∉ t.sched.waits) ∧
    ∀ (p : Port) (part : Fin 8),
      (s.power.held = false → s.holds p = true → (s.parts[part]).suspend = false → ∃ t, exec (.suspend p part) s = .next t ∧ (t.parts[part]).suspend = true ∧ t.mem = s.mem ∧
        (∀ g ∈ s.groupsIn part, g.gid ∈ t.sched.evicting) ∧ .suspensionComplete part ∈ t.todo) ∧
      (s.power.held = false → s.holds p = true → ∃ t, exec (.partitionResume p part) s = .next t ∧ (t.parts[part]).suspend = false ∧ (t.parts[part]).suspended = false ∧
        .groupPlacement part ∈ t.todo) ∧
      ((s.parts[part]).suspend = true → s.groupsIn part = [] → (∀ i ∈ s.ios, i.valid = true → i.n / 64 = part.val → i.timeline = i.issued) →
        ∃ t, exec (.suspensionComplete part) s = .next t ∧ (t.parts[part]).suspended = true ∧ t.mem = s.mem)

/-- R133, R256-R261, R267-R269, R273-R275, R281, R292-R294: an idle engine is gated; a matrix step gives each element of C its new value and no other
word; a drained entry lowers its tag; the accumulator port serves what is due; a stream's slot is published and acknowledged in its header. -/
def Obligations.EnginesOfTheCoreDoTheirSteps : Prop :=
  ∀ (s : State) (n : Nat),
    (s.power.held = false → s.power.cur.toNat ≤ 1 → (s.core n).bow.state = .idle → (s.core n).bow.gated = false → s.power.mxgate ≠ 0 →
      s.power.mxgate.toNat ≤ s.tick - Nat.max (s.core n).bow.idleSince s.power.since →
      ∃ t, exec (.matrixGate n) s = .next t ∧ (t.core n).bow.gated = true ∧ (t.core n).acc = (s.core n).acc ∧ t.mem = s.mem) ∧
    (∀ e rest g, (s.core n).mq = e :: rest → s.group? e.gid = some g →
      (s.bowAt n .wake = true → s.power.busy = false → ∃ t, exec (.bowWakeEnd n) s = .next t ∧ (t.core n).bow.state = .fetch ∧ (t.core n).bow.gated = false ∧
        (t.core n).acc = (s.core n).acc) ∧
      (s.bowAt n .fetch = true → s.power.busy = false → (e.steps ≠ 0 ∨ e.isScacc = true) → ∃ t, exec (.bowFetchEnd n) s = .next t ∧ (t.core n).bow.state = .step ∧
        ∀ k, wordsGet (t.core n).acc k = if e.init = true ∧ e.done = 0 ∧ (e.bank * 512 ≤ k ∧ k < e.bank * 512 + 32 * 512) then 0 else wordsGet (s.core n).acc k) ∧
      (s.bowAt n .step = true → (∀ a ∈ (s.core n).accWaits, s.tick ≤ a.start ∧ (a.start = s.tick → a.op.isRead = false)) → AccRises (s.core n).acc →
        ∃ t, exec (.bowStepEnd n) s = .next t ∧
          (e.isScacc = false → ∀ i j, i < 128 → j < 128 →
            wordsGet (t.core n).acc (tileWord e.bank i j) = stepValue e (wordsGet (s.core n).acc (tileWord e.bank i j)) i j) ∧
          (∀ k, ¬ inTile e.bank k → wordsGet (t.core n).acc k = wordsGet (s.core n).acc k) ∧
          (t.core n).bow.state = (if e.isScacc = true ∨ e.steps ≤ e.done + 1 then .drain else if (s.core n).bow.stopFor = some e.gid then .stop
            else if s.power.busy = true then .fetch else .step)) ∧
      (s.bowAt n .drain = true → ∃ t h, exec (.bowDrainEnd n) s = .next t ∧ (t.core n).mq.length = rest.length ∧ t.group? e.gid = some h ∧
        h.tags = g.tags.set e.tag (g.tags.getD e.tag 0 - 1) ∧ (t.core n).acc = (s.core n).acc)) ∧
    (∀ gid g, s.bowAt n .stop = true → (s.core n).bow.stopFor = some gid → s.group? gid = some g → ∃ t h, exec (.bowStopEnd n) s = .next t ∧
      (∀ e ∈ (t.core n).mq, e.gid ≠ gid) ∧ t.group? gid = some h ∧ h.loops = g.loops ++ (s.core n).mq.filter fun e => e.gid == gid) ∧
    (∀ a, (s.core n).accWaits = [a] → a.start < s.tick → AccRises (s.core n).acc → ∃ t, exec (.accumulatorAccess n) s = .next t ∧ (t.core n).accWaits = [] ∧
      t.mem = s.mem ∧
      (∀ b k, a.op = .zero b k → ∀ w, wordsGet (t.core n).acc w = if b * 512 ≤ w ∧ w < b * 512 + k * 512 then 0 else wordsGet (s.core n).acc w) ∧
      (∀ b k m vals, a.op = .write b k m vals → ∀ L : Lane, m.getLsbD L.val = true → wordsGet (t.core n).acc (segWord b k L.val) = vals[L]) ∧
      ∀ uid id b k m x, a.op = .read uid id b k m → accOf s uid id = some x → x.data = Vector.replicate 32 0 → (t.core n).acc = (s.core n).acc ∧
        ∃ y, accOf t uid id = some y ∧ ∀ L : Lane, m.getLsbD L.val = true → y.wordOf 0 L = wordsGet (s.core n).acc (segWord b k L.val)) ∧
    (∀ (e : Fin 4) x r g, s.engine? n e .armed = some (x, r, g) →
      (s.fillReady n x r g = true → x.busy = false → ∃ t, exec (.streamHeaderPoll n e) s = .next t ∧ t.mem = s.mem ∧ ((t.core n).engines[e]).busy = true ∧
        (∀ l ∈ s.linesOf g.ctx r.esize ((r.elementsOf x.num).map r.addr),
          ∃ q ∈ t.reqs, q.eng = some e ∧ q.core = n ∧ q.line = l.2.1 ∧ q.id ∈ ((t.core n).engines[e]).waits) ∧
        (s.linesOf g.ctx r.esize ((r.elementsOf x.num).map r.addr) = [] → .streamPublish n e ∈ t.todo)) ∧
      (s.fillReady n x r g = false → drainReady x r g = true → x.busy = false →
        ∃ t, exec (.streamHeaderPoll n e) s = .next t ∧ t.mem = s.mem ∧ .streamAck n e ∈ t.todo) ∧
      (drainReady x r g = true → x.busy = false → x.waits = [] →
        ∃ t, exec (.streamAck n e) s = .next t ∧ t.mem = s.mem ∧ ((t.core n).engines[e]).busy = true ∧ ((t.core n).engines[e]).acked = x.acked) ∧
      (r.slotAt x.num + 16 ≤ g.scratch → cellsWf 0 g.pad = true → (g.fresh.1 ≠ s.tick ∨ g.fresh.2 = []) → x.busy = true → x.waits = [] →
        (s.fillReady n x r g = true → ∃ t h, exec (.streamPublish n e) s = .next t ∧ t.mem = s.mem ∧ ((t.core n).engines[e]).published = x.num ∧
          t.group? x.gid = some h ∧ h.header r x.num 0 = x.num % 2 ^ 32 ∧ h.header r x.num 4 = r.bytesOf x.num % 2 ^ 32 ∧
          h.header r x.num 12 % 2 = if x.num = r.numbers then 1 else 0) ∧
        (drainReady x r g = true → ∃ t h, exec (.streamAck n e) s = .next t ∧ t.mem = s.mem ∧ ((t.core n).engines[e]).acked = x.num ∧ t.group? x.gid = some h ∧
          h.header r x.num 8 = x.num % 2 ^ 32))) ∧
    ∀ (e : Fin 4) x r g, s.engine? n e .cpt = some (x, r, g) →
      x.waits = [] →
      (x.next < r.count → (x.busy = false ∨ r.dir = 2) → ∃ t, exec (.cptComplete n e) s = .next t ∧ t.mem = s.mem ∧ ((t.core n).engines[e]).kind = .cpt ∧
        ((t.core n).engines[e]).busy = true ∧ ((t.core n).engines[e]).next = if r.dir = 1 ∨ x.busy = true then r.count else x.next) ∧
      ((r.count ≤ x.next ∨ (x.busy = true ∧ r.dir ≠ 2)) →
        ∃ t h, exec (.cptComplete n e) s = .next t ∧ t.mem = s.mem ∧ ((t.core n).engines[e]).kind = .free ∧ t.group? x.gid = some h ∧
          h.tags = g.tags.set x.tag (g.tags.getD x.tag 0 - 1))

/-- R195, R200-R203, R209, R210, R212, R213, R325-R328, R383: a held word whose pages are present leaves its entry, one without them waits at FAULT; an
answer sends its lanes back or ends them as POISON; times fall, rise with notice, and end at arrival, where the values are written. -/
def Obligations.HeldWordsAndTimesFollowTheirAnswers : Prop :=
  ∀ s : State,
    (∀ e h m u, translating s e = some (h, m, u) → m ≠ 0 →
      ((∀ L : Lane, m.getLsbD L.val = true → present u h m L) → m = h.mask →
        (heldWord h u).ready (u.tlbLoads ((lanesOf m).flatMap (heldWord h u).vas)).2 = true →
        ∃ t, exec e s = .next t ∧ ∀ x ∈ t.c.held, x.id ≠ h.id) ∧
      ((∀ L : Lane, m.getLsbD L.val = true → ¬ present u h m L) → h.mask ≠ 0 → (∃ x ∈ u.c.held, x.id = h.id ∧ x.walk &&& ~~~m = 0) →
        ∃ t, exec e s = .next t ∧ (∃ x ∈ t.c.held, x.id = h.id ∧ x.state = .waiting ∧ x.mask = h.mask) ∧ t.mem = s.mem ∧
          ∀ id a, h.acc = some id → u.w.acc? id = some a → ∀ L : Lane, m.getLsbD L.val = true → a.tlanes.getLsbD L.val = true →
            (t.w.regs.t[a.treg[L]])[L] = faultTime)) ∧
    (∀ slot id h, s.held? slot id = some h → s.mayReissue h = true →
      let p := reissueAt s h
      inTlb p.2 p.1 = 0 → (∃ x ∈ p.2.c.held, x.id = h.id) →
      ∃ t, exec (.replayIssue slot id) s = .next t ∧ t.mem = s.mem ∧ .translationComplete h.slot h.id ∈ t.todo ∧
        (∃ x ∈ t.c.held, x.id = h.id ∧ x.state = .walking ∧ x.walk = h.again) ∧
        ∀ a, h.acc.bind p.2.w.acc? = some a → ∀ L : Lane, h.again.getLsbD L.val = true → a.tlanes.getLsbD L.val = true →
          (t.w.regs.t[a.treg[L]])[L] = noPromise) ∧
    (∀ n, (∃ p ∈ s.xlate.prq, p.index = n) → (∀ h ∈ s.allHeld, h.waitingLanes = 0) → ∃ t, exec (.prqRetry n) s = .next t ∧ t.mem = s.mem ∧ t.w = s.w ∧
      t.xlate.prq = s.xlate.prq.filter (fun p => p.index != n) ∧
      ∀ h ∈ s.allHeld, ∃ x ∈ t.allHeld, x.id = h.id ∧ ∀ L : Lane, (∃ p ∈ h.asks, p.1 = n ∧ p.2.getLsbD L.val = true) →
        (∀ p ∈ h.asks, p.1 ≠ n → p.2.getLsbD L.val = false) → x.again.getLsbD L.val = true) ∧
    (∀ n h id a, (∃ p ∈ s.xlate.prq, p.index = n) → s.w.live = true → s.c.held = [h] → s.cores = [] → h.wave = s.w.uid → h.asks = [(n, h.mask)] → h.mask ≠ 0 →
      h.failed = 0 → failKind h.instr = .load → h.acc = some id → s.w.acc? id = some a → a.uniform = false →
      ∃ t, exec (.prqFail n) s = .next t ∧ t.c.held = [] ∧ t.mem = s.mem ∧ t.xlate.prq = s.xlate.prq.filter (fun p => p.index != n) ∧
        ∀ L : Lane, h.mask.getLsbD L.val = true → a.tlanes.getLsbD L.val = true → (t.w.regs.t[a.treg[L]])[L] = poisonTime ∧
          (t.w.regs.arr[a.treg[L]]).getLsbD L.val = true) ∧
    (∀ v, exec (.prqRespNoEffect v) s = .next s) ∧
    (∀ slot id w a, s.accessOf slot id = some (w, a) → s.wave? w.uid = some w →
      (∀ r tk rest, a.refines = (r, tk) :: rest →
        (a.noticedAt = some s.tick → exec (.refinement slot id) s = .next s) ∧
        (a.noticedAt ≠ some s.tick → a.uniform = false → ∃ t v b, exec (.refinement slot id) s = .next t ∧ t.mem = s.mem ∧ t.wave? w.uid = some v ∧
          v.acc? id = some b ∧ b.refines = rest ∧ ∀ (L : Lane) (n : Nat), (a.lanesOfReq r).getLsbD L.val = true → (a.noteTime r tk).laneTime L = some n →
            a.going L = true → a.tlanes.getLsbD L.val = true →
            (v.regs.t[a.treg[L]])[L] = if sooner (w.regs.t[a.treg[L]])[L] (BitVec.ofNat 64 n) then BitVec.ofNat 64 n else (w.regs.t[a.treg[L]])[L])) ∧
      (∀ r l rest, a.notices = (r, l) :: rest → ∃ t v, exec (.lateNotice slot id) s = .next t ∧ t.mem = s.mem ∧ t.wave? w.uid = some v ∧
        ((∃ L, raised a r l L) → v.late = true ∧ v.news = w.news + 1 ∧ v.latecount = if w.latecount = BitVec.allOnes 16 then w.latecount else w.latecount + 1) ∧
        ((∀ L, ¬ raised a r l L) → v.late = w.late ∧ v.latecount = w.latecount ∧ v.regs = w.regs) ∧
        ∀ L, raised a r l L → a.tlanes.getLsbD L.val = true → (v.regs.t[a.treg[L]])[L] = BitVec.ofNat 64 (noticed a.own[L] l)) ∧
      ((s.focus w.uid).w = w → a.kind = .load → a.uniform = false → a.notices = [] → (∀ n, a.at_ = some n → n ≤ s.tick) →
        ∃ t v, exec (.valueArrival slot id) s = .next t ∧ t.wave? w.uid = some v ∧
          ∀ L : Lane, ((s.focus w.uid).arrivedLanes a).getLsbD L.val = true → a.bad.getLsbD L.val = false →
            (∀ i : Fin 5, i.val < a.regs → (a.alive[i]).getLsbD L.val = true → (a.dst[L]).val + i.val < 256 →
              (v.regs.v[(Fin.ofNat 256 ((a.dst[L]).val + i.val) : Fin 256)]).lane L = a.wordOf i.val L) ∧
            (a.tlanes.getLsbD L.val = true → (v.regs.arr[a.treg[L]]).getLsbD L.val = true ∧ (v.regs.t[a.treg[L]])[L] =
              if (w.regs.t[a.treg[L]])[L] = noPromise then BitVec.ofNat 64 s.tick else (w.regs.t[a.treg[L]])[L]))) ∧
    (∀ slot w, s.atSlot slot = some w → s.wave? w.uid = some w → w.switch = false →
      (∀ r, w.park = .twait r → (∃ L : Lane, w.parkLanes.getLsbD L.val = true ∧ (w.regs.t[r[L]])[L] = poisonTime) →
        ∃ t v, exec (.promiseMatures slot) s = .next t ∧ t.wave? w.uid = some v ∧ v.park = .none ∧ v.regs = w.regs ∧
          ∀ e ∈ w.front, e.mask = w.parkLanes → ∃ f ∈ v.front, f.pc = w.parkPc ∧ f.mask &&& e.mask = e.mask) ∧
      (∀ r, w.park = .twait r → (∀ L : Lane, w.parkLanes.getLsbD L.val = true → (w.regs.t[r[L]])[L] ≠ poisonTime ∧ (w.regs.arr[r[L]]).getLsbD L.val = true ∧
          ((w.regs.t[r[L]])[L].toNat ≤ s.tick ∨ (w.regs.t[r[L]])[L] = cancelTime)) →
        ∃ t v, exec (.promiseMatures slot) s = .next t ∧ t.wave? w.uid = some v ∧ v.park = .none ∧ v.mayIssue = s.tick + 1) ∧
      ∀ r, w.park = .tyield r → (∀ L : Lane, w.parkLanes.getLsbD L.val = true → (w.regs.arr[r[L]]).getLsbD L.val = true ∨
          (isPromise (w.regs.t[r[L]])[L] = true ∧ (w.regs.t[r[L]])[L].toNat ≤ s.tick)) →
        ∃ t v, exec (.promiseMatures slot) s = .next t ∧ t.wave? w.uid = some v ∧ v.park = .none ∧ v.mayIssue = s.tick + 1) ∧
    ∀ slot w pc, s.atSlot slot = some w → (s.focus w.uid).w = w → (∃ e ∈ w.front, e.pc = pc ∧ e.fetching = true) →
      ((s.focus w.uid).tlbLoad .fetch (packetVa pc)).1.1 = true →
      ∃ t, exec (.instructionFetch slot pc) s = .next t ∧ t.mem = s.mem ∧ t.w.regs = w.regs ∧ ∀ e ∈ t.w.front, e.pc = pc → e.fetching = false

/-- R158, R177, R236, R286, R296, R309, R310, R384, R385, R387, R388: results leave the window, parks end at their tick, triggers and ends are counted, a copy
lowers its tag or becomes a replay entry of what is left, tickets are granted in order and a `fence.sc` ends. -/
def Obligations.WavesEndParksCopiesAndTickets : Prop :=
  ∀ s : State,
    (∀ slot w, s.atSlot slot = some w → s.wave? w.uid = some w →
      (∃ t v, exec (.fixedLatencyResult slot) s = .next t ∧ t.mem = s.mem ∧ t.wave? w.uid = some v ∧
        v = { w with window := w.window.filter fun p => decide (s.tick < p.ready) }) ∧
      (∀ n, w.park = .sleep n → n ≤ s.tick → ∃ t v, exec (.sleepExpiry slot) s = .next t ∧ t.mem = s.mem ∧ t.wave? w.uid = some v ∧
        v = { w with park := .none, mayIssue := s.tick + 1 }) ∧
      (∀ n sp, w.park = .yield (.tick n) sp → n.toNat ≤ s.tick →
        (w.spilled = false → ∃ t v, exec (.yieldTickExpiry slot) s = .next t ∧ t.mem = s.mem ∧ t.wave? w.uid = some v ∧
          v = { w with park := .none, mayIssue := s.tick + 1 }) ∧
        (w.spilled = true → (s.group? w.gid).isSome = true → ∃ t v, exec (.yieldTickExpiry slot) s = .next t ∧ t.mem = s.mem ∧ t.wave? w.uid = some v ∧
          v = { w with park := .rows (.tick n) } ∧ ∃ p ∈ t.sched.places, p.rowsFor = some w.uid)) ∧
      ∀ g, s.group? w.gid = some g →
        (w.triggered = true → g.triggered &&& (1#32 <<< w.index) = 0 → s.unstampedBefore w.uid w.trigAt = false → ∃ t h, exec (.triggerCount slot) s = .next t ∧
          t.group? w.gid = some h ∧ h.triggered = g.triggered ||| (1#32 <<< w.index)) ∧
        (w.exited = true → w.accs = [] → s.storing w.uid = false → g.triggered &&& (1#32 <<< w.index) ≠ 0 → (s.core (coreOfSlot slot)).holding w.uid = false →
          ((lanesOf g.exited).length < g.waves → ∃ t, exec (.waveSlotFree slot) s = .next t ∧ t.mem = s.mem ∧ (∀ v ∈ t.allWaves, v.uid ≠ w.uid) ∧
            .groupPlacement (Fin.ofNat 8 (s.partOf g.ctx)) ∈ t.todo) ∧
          ((s.allWaves.countP fun v => v.gid == w.gid) ≤ 1 → g.waves ≤ (lanesOf g.exited).length → s.tagged g = false →
            ∃ t, exec (.waveSlotFree slot) s = .next t ∧ t.mem = s.mem ∧ (∀ k ∈ t.allGroups, k.gid ≠ g.gid) ∧
              .groupPlacement (Fin.ofNat 8 (s.partOf g.ctx)) ∈ t.todo))) ∧
    (∀ slot id w a, s.accessOf slot id = some (w, a) → a.kind = .copy →
      let u := s.focus w.uid
      u.w = w →
      (a.waits = [] → ∃ t, exec (.copyComplete slot id) s = .next t ∧ (∀ b ∈ t.w.accs, b.id ≠ id) ∧
        ∀ k, a.tag = some k → t.g.tags = u.g.tags.set k (u.g.tags.getD k 0 - 1)) ∧
      ∀ z pol o va b sp tag r n, a.instr = .cpa false z pol o va b sp tag → a.latch = some r → u.g.evictAt = some n → n + 4096 ≤ s.tick →
        a.lanes &&& ~~~(u.arrivedLanes a) ≠ 0 → u.c.held.length < 64 → ∃ t, exec (.cpaEvictionTimeout slot id) s = .next t ∧ (∀ b ∈ t.w.accs, b.id ≠ id) ∧
          ∃ h ∈ t.c.held, h.instr = a.instr ∧ h.mask = a.lanes &&& ~~~(u.arrivedLanes a) ∧ h.again = h.mask ∧ h.wave = w.uid) ∧
    (∀ slot w a, s.atSlot slot = some w → (s.focus w.uid).w = w →
      (w.accs.find? fun a => a.kind == .fence && a.ticket.isSome && s.fenceScDone w a) = some a →
      ∃ t, exec (.fenceScComplete slot) s = .next t ∧ (∀ b ∈ t.w.accs, b.id ≠ a.id) ∧ (∀ l ∈ t.c.l1, l.priv = true) ∧
        ∀ k ∈ t.seq.tickets, ¬ (k.wave = w.uid ∧ k.acc = a.id)) ∧
    ∀ k : Ticket, s.epoch.running = false → s.seq.tickets = [k] → k.g = 0 → k.done = false → 0 < s.seq.next → (s.seq.tick ≠ s.tick ∨ s.seq.granted < 8) →
      ∃ t, exec .ticketGrant s = .next t ∧ t.seq.next = s.seq.next + 1 ∧ t.mem = s.mem ∧ t.seq.tickets = [{ k with g := s.seq.next, sub := match k.home with
        | some h => s.seq.sub[h]
        | none => 0 }] ∧ (k.home = none → .fenceScComplete k.slot ∈ t.todo) ∧ ∀ h, k.home = some h → t.seq.sub[h] = s.seq.sub[h] + 1

/-- R128-R130, R133-R136: a command of PSTATE starts a transition, or is refused for PS2 and PS3 while work is enabled; at the next multiple of 4,096 ticks
after quiescence the state changes; memory is lost with PS3; the window's average, the heat and the energy shares are recorded. -/
def Obligations.PowerStatesFollowTheirCommands : Prop :=
  ∀ s : State,
    (∀ (p : Port) (k : BitVec 2) (e : Instr),
      (e = .pstatePs0 p ∧ k = 0 ∨ e = .pstatePs1 p ∧ k = 1 ∨ e = .pstatePs2 p ∧ k = 2 ∨ e = .pstatePs3 p ∧ k = 3) →
      s.power.held = false → s.holds p = true → s.power.busy = false → s.trust.booted = true →
      ((k.toNat < 2 ∨ s.idlePackage = true) → ∃ t, exec e s = .next t ∧ t.power.target = k ∧ t.power.busy = true ∧ t.power.err = 0 ∧
        t.power.cur = s.power.cur ∧ .powerTransition ∈ t.todo ∧ t.mem = s.mem) ∧
      (2 ≤ k.toNat → s.idlePackage = false → ∃ t, exec e s = .next t ∧ t.power = { s.power with target := k, err := 1 } ∧ t.mem = s.mem)) ∧
    (s.power.busy = true → s.epoch.running = false → s.quiet = true →
      (s.tick % 4096 = 0 → (s.power.target.toNat < 2 ∨ s.idlePackage = true) →
        ∃ t, exec .powerTransition s = .next t ∧ t.power.cur = s.power.target ∧ t.power.busy = false ∧ t.power.err = s.power.err ∧
        (∀ q : Fin 8, .groupPlacement q ∈ t.todo) ∧ t.w = s.w ∧
        (s.power.cur ≠ 3 ∧ s.power.target ≠ 3 → (s.power.cur.toNat < 2 ∨ s.power.target = 2) → t.mem = s.mem ∧ t.cores = s.cores ∧ t.c = s.c) ∧
        (s.power.cur = 2 → s.power.target.toNat < 2 → t.repair.pendingRows = [] ∧ t.power.since = s.tick ∧ (s.repair.pendingRows = [] → t.mem = s.mem) ∧
          ∀ c ∈ t.c :: t.cores, c.bow.state = .idle → c.bow.gated = false) ∧
        (s.power.cur = 3 ∨ s.power.target = 3 → ∀ key, t.mem.byte key = 0)) ∧
      (s.tick % 4096 = 0 → 2 ≤ s.power.target.toNat → s.idlePackage = false →
        exec .powerTransition s = .next { s with power := { s.power with err := 1, busy := false } }) ∧
      (s.tick % 4096 ≠ 0 → exec .powerTransition s = .next s)) ∧
    (∀ (p : Port) (v : DWord), s.power.held = false → s.holds p = true →
      (∃ t, exec (.mxgate p v) s = .next t ∧ t.power = { s.power with mxgate := v.setWidth 32 } ∧ t.mem = s.mem ∧ t.hsem.wrote = s.tick) ∧
      ∃ t, exec (.pwralarm p v) s = .next t ∧ t.power = { s.power with alarm := v.getLsbD 8, exempt := v.setWidth 8 } ∧ t.mem = s.mem ∧
        t.hsem.wrote = s.tick) ∧
    (∀ avg : BitVec 16, (s.tick = 0 ∨ s.tick % 250000 ≠ 0) → exec (.powerWindowEnd avg) s = .next s) ∧
    (∀ avg : BitVec 16, s.tick ≠ 0 → s.tick % 250000 = 0 → ∃ t, exec (.powerWindowEnd avg) s = .next t ∧ t.mem = s.mem ∧
      t.power = { s.power with avg := avg
                               exceeded := decide ((if s.power.cap = 0 ∨ 4000 < s.power.cap.toNat then 4000 else s.power.cap.toNat) < avg.toNat) }) ∧
    (∀ ctx n, s.tick % 2500000 ≠ 0 → ctx ∉ s.power.owing → exec (.energyAccount [(ctx, n)]) s = .next s) ∧
    (∀ ctx n pa, (s.tick % 2500000 = 0 ∨ ctx ∈ s.power.owing) → s.rootOf ctx = some pa → s.mem.wf = true → ∃ t, exec (.energyAccount [(ctx, n)]) s = .next t ∧
      ctx ∉ t.power.owing ∧
      t.mem.dword (pa + 120) = s.mem.dword (pa + 120) + BitVec.ofNat 64 n ∧
      ∀ key, (key < pa + 120 ∨ pa + 128 ≤ key) → t.mem.byte key = s.mem.byte key) ∧
    exec .thermalAlert s = .next { s with power := { s.power with hot := true } } ∧
    exec .thermalAlertDeassert s = .next { s with power := { s.power with hot := false } } ∧
    ∃ t, exec .criticalTemperatureStop s = .next t ∧ t.power.cur = 3 ∧ t.power.target = 3 ∧ t.power.busy = false ∧ t.trust.status = 5 ∧
      (∀ key, t.mem.byte key = 0) ∧ t.epoch.running = false ∧ ∀ x ∈ s.x :: s.ctxs, ∀ g ∈ t.allGroups, g.ctx ≠ x.id

/-- R28, R29, R54, R137-R140, R370: cold reset holds the octants and keeps only what is fused or stored; its release sets the tick count to 0 and boots the image
in flash, or stops at the step that fails; a request of FWMBOX ends with its status; a Trimi object is checked, translated once and cached. -/
def Obligations.ResetBootAndFirmwareRequests : Prop :=
  ∀ s : State,
    (∃ t, exec .coldReset s = .next t ∧ t.power.held = true ∧ (∀ key, t.mem.byte key = 0) ∧ t.allGroups = [] ∧ t.allWaves = [] ∧ t.queues = [] ∧
      t.hsem.owner = 0 ∧ t.trust.booted = false ∧ t.trust.flash = s.trust.flash ∧ t.trust.rollback = s.trust.rollback ∧ t.repair.bpl = s.repair.bpl ∧
      t.repair.spareRows = s.repair.spareRows ∧ t.repair.remaps = s.repair.remaps ∧ t.repair.granules = s.repair.granules) ∧
    (s.power.held = true → ∃ t, exec .coldResetRelease s = .next t ∧ t.tick = 0 ∧ t.mem = s.mem ∧
      match bootFails s.trust.flash s.trust.rollback with
      | some n => t.trust.status = 6 ∧ t.trust.arg = BitVec.ofNat 48 n ∧ t.trust.booted = s.trust.booted ∧ t.power.cur = s.power.cur ∧ t.hsem = s.hsem
      | none => t.power.held = false ∧ t.hsem.owner = 0 ∧ t.trust.booted = true ∧ t.trust.running = s.trust.flash ∧ t.trust.meas = measuresOf s.trust.flash) ∧
    (s.power.held = false → exec .coldResetRelease s = .next s) ∧
    (∀ p : Port, s.power.held = false → s.holds p = true → s.trust.status ≠ 1 →
      (∀ arg : BitVec 48,
        let pa := arg.toNat * 16
        let n := Config.imageLength (s.mem.bytes pa 4096)
        let image := s.mem.bytes pa n
        let signed := Config.signReport (s.report (s.mem.bytes pa 64))
        (∃ t, exec (.firmwareInstall p arg) s = .next t ∧ t.mem = s.mem ∧ t.trust.cmd = 1 ∧ t.trust.arg = arg ∧ t.trust.rollback = s.trust.rollback ∧
          t.trust.status = (if inMemory pa n then (match bootFails image s.trust.rollback with
            | some 3 => 2
            | some _ => 3
            | none => 0) else 4) ∧
          t.trust.flash = (if inMemory pa n && (bootFails image s.trust.rollback).isNone then image else s.trust.flash)) ∧
        ∃ t, exec (.attest p arg) s = .next t ∧ t.trust.cmd = 2 ∧ t.trust.status = (if inMemory pa (64 + signed.length) then 0 else 4) ∧
          (s.mem.wf = true → ∀ key, t.mem.byte key = if inMemory pa (64 + signed.length) then writtenOver s.mem (pa + 64) signed key else s.mem.byte key)) ∧
      (∀ arg : BitVec 48, s.epoch.running = false → let o : Oct := Fin.ofNat 8 arg.toNat
        ∃ t, exec (.removeOctant p arg) s = .next t ∧ t.trust.cmd = 3 ∧ t.trust.arg = arg ∧ t.trust.status = 1 ∧ t.epoch.running = true ∧
        t.epoch.cause = o ∧ t.epoch.remove = some o ∧ t.hsem.owner = 3 ∧ t.hsem.preempted = true ∧ (∀ q : Oct, .stop q ∈ t.todo) ∧ t.mem = s.mem) ∧
      (∀ arg : BitVec 48, ∃ t, exec (.raiseRollback ⟨p, arg⟩) s = .next t ∧ t.mem = s.mem ∧ t.trust.status = 0 ∧ t.trust.arg = arg ∧
        t.trust.rollback = Nat.max s.trust.rollback (Config.imageVersion s.trust.running)) ∧
      ∀ v : DWord, ∃ t, exec (.fwmboxNoCommand p v) s = .next t ∧ t.mem = s.mem ∧ t.trust.status = 4 ∧ t.trust.flash = s.trust.flash ∧
        t.trust.rollback = s.trust.rollback) ∧
    ∀ o : TrimiObj, ∃ t, exec (.trimiLoad o) s = .next t ∧ t.mem = s.mem ∧
      t.trust = { s.trust with cache := if (s.trust.cache.any fun e => e.1 == trimiDigest o) || !trimiOk o then s.trust.cache
                                        else s.trust.cache ++ [(trimiDigest o, Config.finalise (trimiBytes o))] }

/-- R57, R82, R83, R93, R112-R116: a write from outside is applied at its homes byte for byte, a poisoned one poisons its sectors, a read returns what is
there; an offset of the device window lies DEVWIN.base GiB higher; beyond installed memory both are unsupported; a peer reaches only what its ACT entry and
the context's tree allow. -/
def Obligations.OutsidersReachWhatTheyMay : Prop :=
  ∀ s : State, s.power.held = false →
    (∀ (src : Outsider) (pa : Nat) (b : List Byte) (poisoned : Bool),
      let at_ := reachedAt s src pa
      (inMemory at_ b.length = true → s.mem.wf = true → ∃ t, exec (.hostWrite src pa ⟨b, poisoned⟩) s = .next t ∧ t.w = s.w ∧
        (∀ key, t.mem.byte key = writtenOver s.mem at_ b key) ∧
        (poisoned = true → ∀ key, at_ ≤ key → key < at_ + b.length → t.mem.isBad (key / 32) = true)) ∧
      (inMemory at_ b.length = false → exec (.hostWrite src pa ⟨b, poisoned⟩) s = .next { s with out := s.out ++ [.unsupported src pa] })) ∧
    (∀ (src : Outsider) (pa n : Nat) (bad : BitVec 4) (found : EccFinding),
      let at_ := reachedAt s src pa
      (inMemory at_ n = true → let u := s.outsideFinding at_ bad found
        ∃ t, exec (.hostRead src pa ⟨n, bad, found⟩) s = .next t ∧ t.mem = u.mem ∧ (bad = 0 → found = .good → t.mem = s.mem ∧ t.w = s.w ∧ u.out = s.out) ∧
        t.out = u.out ++ [.readData src pa (u.mem.bytes at_ n) (u.mem.rangeBad at_ n)]) ∧
      (inMemory at_ n = false → exec (.hostRead src pa ⟨n, bad, found⟩) s = .next { s with out := s.out ++ [.unsupported src pa] })) ∧
    ∀ r : PeerReq,
      (s.actEntry r.peer.toNat r.ctx.toNat = none → ∃ t, exec (.peerRequest r) s = .next t ∧ t.mem = s.mem ∧ t.queues = s.queues ∧
        t.out = s.out ++ [.refused r.peer]) ∧
      ∀ v, s.actEntry r.peer.toNat r.ctx.toNat = some v → (s.rootOf r.ctx.toNat).isSome = true →
        (∀ va n, r.op = .load va n →
          (∀ k, r.bad = 0 → r.found = .good → actRight v 61 → (s.loadCtx r.ctx.toNat).peerPlace r.ctx.toNat va .read = some k → ∃ t, exec (.peerRequest r) s = .next t ∧ t.mem = s.mem ∧
            t.out = s.out ++ [.peerData r.peer (s.mem.bytes k n) (s.mem.rangeBad k n)]) ∧
          (¬ actRight v 61 → ∃ t, exec (.peerRequest r) s = .next t ∧ t.mem = s.mem ∧ t.out = s.out ++ [.refused r.peer])) ∧
        (∀ va b, r.op = .store va b →
          (∀ k, actRight v 60 → (s.loadCtx r.ctx.toNat).peerPlace r.ctx.toNat va .write = some k → s.mem.wf = true → ∃ t, exec (.peerRequest r) s = .next t ∧
            ∀ key, t.mem.byte key = writtenOver s.mem k b key) ∧
          (¬ actRight v 60 → ∃ t, exec (.peerRequest r) s = .next t ∧ t.mem = s.mem ∧ t.out = s.out ++ [.refused r.peer])) ∧
        ∀ q (value : DWord), r.op = .doorbell q value →
          (∀ x, actRight v 62 → v / 2 ^ 24 % 4096 ≤ q → q ≤ v / 2 ^ 12 % 4096 → s.queue? q = some x → x.kind = 2 → x.state = 1 → x.wptr < value.toNat →
            value.toNat - x.rptr ≤ 2 ^ x.lgsize → ∃ t y, exec (.peerRequest r) s = .next t ∧ t.queue? q = some y ∧ y.wptr = value.toNat) ∧
          ((¬ actRight v 62 ∨ q < v / 2 ^ 24 % 4096 ∨ v / 2 ^ 12 % 4096 < q) → ∃ t, exec (.peerRequest r) s = .next t ∧ t.mem = s.mem ∧ t.queues = s.queues ∧
            t.out = s.out ++ [.refused r.peer])

/-- R92-R95, R331, R339, R340, R457: a shootdown drops the translations and L1 lines of its range everywhere and ends when what it waits for has; the
debugger halts, steps and resumes the waves it names and writes the state it selects; a write of a register of the window is its happening. -/
def Obligations.ShootdownsTheDebuggerAndTheWindow : Prop :=
  ∀ s : State,
    (∀ v : DWord, s.xlate.shootGo = false → v.getLsbD 63 = true →
      let r := s.shootRange
      let ctx := v.toNat / 2 ^ 48 % 4096
      (2 ^ 57 < r.1 + r.2 → ∃ t, exec (.shootdown v) s = .next t ∧ t.xlate.shootGo = false ∧ t.xlate.shootStatus = 1 ∧ t = { s with xlate := t.xlate }) ∧
      (r.1 + r.2 ≤ 2 ^ 57 → (s.allCores.map (·.id)).Nodup → ∃ t, exec (.shootdown v) s = .next t ∧ t.xlate.shootGo = true ∧ .shootdownComplete ∈ t.todo ∧
        t.mem = s.mem ∧ (∀ c ∈ t.allCores, (∀ e ∈ c.tlb, e.inRange ctx r = false) ∧ ∀ l ∈ c.l1, l.inRange ctx r = false) ∧
        ∀ o : Oct, ∀ e ∈ (t.octs[o]).tlb2, e.inRange ctx r = false)) ∧
    (s.xlate.shootGo = true →
      (s.shootWaits = false → ∃ t, exec .shootdownComplete s = .next t ∧ t.xlate.shootGo = false ∧ t.xlate.shootStatus = 0 ∧ t = { s with xlate := t.xlate }) ∧
      (s.shootWaits = true → exec .shootdownComplete s = .next s)) ∧
    (∀ v : DWord, (s.allWaves.map (·.uid)).Nodup →
      (s.dbgWaves v = [] → ∀ e : Instr, (e = .debugHalt v ∨ e = .debugResume v ∨ e = .debugStep v) → ∃ t, exec e s = .next t ∧ t.xlate.dbgResult = 1 ∧
        t = { s with xlate := t.xlate }) ∧
      (s.dbgWaves v ≠ [] → ∃ t, exec (.debugHalt v) s = .next t ∧ t.xlate.dbgResult = 0 ∧ t.xlate.dbgReason = 0 ∧ t.mem = s.mem ∧
        ∀ w ∈ s.dbgWaves v, t.wave? w.uid = some { w with halted := true, stepping := false, window := [] }) ∧
      ((∃ w ∈ s.dbgWaves v, w.halted = true) →
        (∃ t, exec (.debugResume v) s = .next t ∧ t.xlate.dbgResult = 0 ∧ t.mem = s.mem ∧
          ∀ w ∈ s.dbgWaves v, w.halted = true → t.wave? w.uid = some { w with halted := false, poked := [] }) ∧
        ∃ t, exec (.debugStep v) s = .next t ∧ t.xlate.dbgResult = 0 ∧ t.mem = s.mem ∧
          ∀ w ∈ s.dbgWaves v, w.halted = true → t.wave? w.uid = some { w with halted := false, stepping := true, poked := [] })) ∧
    (∀ v : DWord,
      (s.dbgTarget = none → ∃ t, exec (.dbgDataWrite v) s = .next t ∧ t.xlate.dbgResult = 2 ∧ t = { s with xlate := t.xlate }) ∧
      ∀ w, s.dbgTarget = some w → s.wave? w.uid = some w →
        let n := selNumber s.xlate.dbgSel
        (selFile s.xlate.dbgSel = 0 → w.nregs ≤ n → ∃ t, exec (.dbgDataWrite v) s = .next t ∧ t.xlate.dbgResult = 3 ∧ t = { s with xlate := t.xlate }) ∧
        (selFile s.xlate.dbgSel = 1 ∧ n % 64 ≠ 0 ∨ selFile s.xlate.dbgSel = 5 ∧ n % 8 ≠ 0 → ∃ t x, exec (.dbgDataWrite v) s = .next t ∧ t.xlate.dbgResult = 0 ∧
          t.wave? w.uid = some x ∧ x.selected s.xlate.dbgSel = (v.setWidth 32).setWidth 64 ∧ x.front = w.front ∧ x.regs.v = w.regs.v ∧ t.mem = s.mem) ∧
        (selFile s.xlate.dbgSel = 4 → ∃ t x, exec (.dbgDataWrite v) s = .next t ∧ t.wave? w.uid = some x ∧ x.selected s.xlate.dbgSel = v)) ∧
    (exec .dbgDataRead s = .next { s with out := s.out ++ [.regData 0 0 0x30058 (match s.dbgTarget with
      | some w => w.selected s.xlate.dbgSel
      | none => 0)] }) ∧
    ∀ (p : Port) (v : DWord), s.power.held = false →
      (∀ (fn off size : Nat), takesAccess (s.spotFor fn (off / 8 * 8)) off size = false → exec (.registerWrite p fn off size v) s = .next { s with out := s.out ++ [.unsupported (.host p) off] }) ∧
      (∀ (off : Nat) (e : Instr),
        (off, e) ∈ [(0x1010, .pwralarm p v), (0x1018, .mxgate p v), (0x1020, .fretCommit p v), (0x10A0, .bplAdd v), (0x10B0, .faqTail (v.setWidth 32)),
          (0x30008, .frecTail (v.setWidth 32)), (0x30018, .prqTail (v.setWidth 32)), (0x30028, .shootdown v), (0x30058, .dbgDataWrite v)] →
        ∃ t, exec (.registerWrite p 0 off 8 v) s = .next t ∧ exec e s = .next t) ∧
      (∀ q, q < 4096 → ∃ t, exec (.registerWrite p 0 (0x1000000 + 0x1000 * q) 8 v) s = .next t ∧ exec (.doorbell q v) s = .next t) ∧
      ∀ c, c < 4096 → s.holds p = true → v ≠ 0 → ∃ t, exec (.registerWrite p 0 (0x50000 + 8 * c) 8 v) s = .next t ∧ regsGet t.window.ctxRoot c = v

/-- R160, R175, R343-R346 and log 11: a step runs the happening that is due, or that the script names; with none due it issues the unit that the wave and entry
which go first stand at, decoded from the 16 bytes at its PC: exec runs on the state that names the entry's lanes, its PC and the registers as they stand. -/
def Obligations.AStepRunsTheDecodedInstruction : Prop :=
  ∀ s : State,
    (∀ e rest, s.script = [] → s.todo = e :: rest → step s = exec e { s with todo := rest }) ∧
    (∀ e rest, s.script = .happen e :: rest → encode e = none → step s = exec e { s with script := rest }) ∧
    (∀ rest, s.script = .tick :: rest → step s = .next ({ s with script := rest }).tickOn) ∧
    (s.script = [] → s.todo = [] → s.firstIssue = none → s.timeUp = none → step s = .next s.tickOn) ∧
    ∀ w u e p, Issues s w u → AtUnit u e p →
      let at_ := slotOf e.pc
      let c := p.codeAt at_
      let d := p.codeAt (c.2 + 1)
      let v := u.stage e (unitAt p e.pc)
      (∀ i, legal c.1 = some i → chainBit (p.slot c.2) = false →
        step s = mapNext (fun t => finishUnit (unitAt p e.pc) [t.readyAfter u.w.window.length] t) (exec i v) ∧ v.latch = u.w.regsSeen ∧ v.cur.active = e.mask ∧ v.cur.pc = e.pc ∧
          v.cur.next = atSlotPc e.pc (c.2 + 1) ∧ v.mem = u.mem ∧
          ∀ t, exec i v = .next t → t.cur.refused = false → t.xlate.dbg = [] → step s = .next (t.issued [t.readyAfter u.w.window.length] (switchBit (p.slot c.2)))) ∧
      (∀ i j, legal c.1 = some i → legal d.1 = some j → chainBit (p.slot c.2) = true → pipeOf (majorOf (p.slot c.2)) ≠ pipeOf (majorOf (p.slot d.2)) →
        step s = runPair i j (atSlotPc e.pc (c.2 + 1)) (unitAt p e.pc) u.w.window.length v ∧ v.cur.next = atSlotPc e.pc (d.2 + 1)) ∧
      (legal c.1 = none → ∃ t, step s = .next (t.issued [0] false) ∧
        t = v.encodingTrap .illegalInstr e.pc (some c.1))

/-- R347-R358, R386: words written out from the spec's layouts decode to the instructions they stand for; `nop` with either value of w has no effect of its
own, and w marks a switch. -/
def Obligations.WordsWrittenOutDecode : Prop :=
  let weak : MemMod := { size := .b32, order := .wk, scope := .dev, policy := .dflt }
  -- nop, with w = 0 and w = 1
  decodeTableWord 32 0x06800000 = some .nop ∧ decodeTableWord 32 (0x06800000 + 2 ^ 30) = some .nop ∧
  0x06800000 = 0x0D * 2 ^ 23 ∧ switchBit (BitVec.ofNat 32 (0x06800000 + 2 ^ 30)) = true ∧ (∀ s : State, RowsFit s → exec .nop s = .next s) ∧
  -- s.add s5, s6, s7: major 0x00, d, a, b, f = 0
  decodeTableWord 32 (0x00 * 2 ^ 23 + 5 * 2 ^ 17 + 6 * 2 ^ 11 + 7 * 2 ^ 5 + 0) = some (.sAdd 5 6 7) ∧
  -- add v[x3+], v[x1], v4: major 0x11, d = 99, a = 81, b = 4, f = 0
  decodeTableWord 32 0x08E3A210 = some (.add .i32 (.inc 3) (.idx 1) (.dir 4)) ∧
  -- ffma v4, v1, v2 with c = 1: major 0x2C
  decodeTableWord 32 0x96040208 = some (.ffma .f32 .rne (.dir 4) (.dir 1) (.dir 2)) ∧
  -- kand k3, k1, k2
  decodeTableWord 32 0x1F010403 = some (.kand 3 1 2) ∧
  -- bar 3: major 0x55, op = 0, sc = 3
  decodeTableWord 32 (0x55 * 2 ^ 23 + 0 * 2 ^ 20 + 3 * 2 ^ 2) = some (.bar 3) ∧
  -- br to the packet before: major 0x04, off = -1
  decodeTableWord 32 (0x04 * 2 ^ 23 + (2 ^ 19 - 1)) = some (.br (-1)) ∧
  -- ldp v3, [s12, v8], t0 of major 0x4B, with no prefix
  decodeTableWord 32 0x2583100C = some (.ldp weak (.dir 3) (.dir 8) 6 (.dir 0)) ∧
  -- a prefix of size 3 (.b64), order 1 (.acq), scope 3 (.sys), and ld v8, [s4, v9], t2: major 0x45
  decodeTableWord 64 ((0x45 * 2 ^ 23 + 8 * 2 ^ 16 + 9 * 2 ^ 9 + 2 * 2 ^ 5 + 4) * 2 ^ 32 + (0x7E * 2 ^ 23 + 3 * 2 ^ 20 + 1 * 2 ^ 18 + 3 * 2 ^ 16)) =
    some (.ld { size := .b64, order := .acq, scope := .sys, policy := .dflt } (.dir 8) (.dir 9) 2 (.dir 2)) ∧
  -- a prefix of A format 4, B format 1, tag 9, and mloop s10, s11, s12: major 0x62
  decodeTableWord 64 ((0x62 * 2 ^ 23 + 10 * 2 ^ 14 + 11 * 2 ^ 8 + 12 * 2 ^ 2) * 2 ^ 32 + (0x7E * 2 ^ 23 + 4 * 2 ^ 20 + 1 * 2 ^ 17 + 9 * 2 ^ 9)) =
    some (.mloop .e4m3 .e2m3 10 11 12 9) ∧
  -- major 0x70 is reserved
  decodeTableWord 32 (0x70 * 2 ^ 23) = none

/-- R343-R358: the code of a well-formed instruction, laid as bytes into a packet, makes a packet that is not malformed and in which the instruction is read
again, with every operand at every value. -/
def Obligations.EncodedInstructionsAreReadAgain : Prop :=
  ∀ (i : Instr) (c : Code), i.wellFormed = true → encode i = some c →
    let p := packetOfBytes (packetOf c.words).bytes
    p.malformed = false ∧ legal (p.codeAt 1).1 = some i ∧ chainBit (p.slot (p.codeAt 1).2) = false ∧ switchBit (p.slot (p.codeAt 1).2) = false

/-- Every step keeps memory in its canonical form: keys rise, no listed byte is 0, and the poisoned sectors rise. -/
def Obligations.EveryStepKeepsMemoryCanonical : Prop := ∀ s t : State, s.mem.wf = true → step s = .next t → t.mem.wf = true

/-- R28, R66, R67, R96, R128, R137, R316 and logs 2, 3, 11: after reset memory is canonical and reads 0, the package is in PS3 with nothing resident, HSEM is
free, every fret is shared, no queue is enabled and no octant is removed. -/
def Obligations.ResetLeavesTheSpecsState : Prop :=
  let s := State.reset
  s.mem.wf = true ∧ (∀ key, s.mem.byte key = 0) ∧ s.tick = 0 ∧ s.power.cur = 3 ∧ s.power.busy = false ∧ s.allWaves = [] ∧ s.allGroups = [] ∧
    s.hsem.owner = 0 ∧ fretOwners s.fret.force = List.replicate 1024 8 ∧ (∀ q, s.queue? q = none) ∧
    (∀ o : Oct, (s.octs[o]).cf.removed = false ∧ (s.octs[o]).cf.epoch = 0 ∧ ∀ i j : Fin 8, ((s.octs[o]).k[i])[j] = 0 ∧ (s.octs[o]).a[i] = 0) ∧
    ∀ p : Fin 8, (s.parts[p]).quotaForce = { l3ways := 2, l2ways := 2 } ∧ (s.parts[p]).force.valid = false
end

