-- ==== Sys2Proof/Laws/Encoding.lean ====
section
/-! SUPPORT. The encoding laws: the major and the fields of a packed word read back, every operand field and every prefix payload reads back,
and so `decode` of a code that `mkCode` or `mkWide` makes is `decodeFields` of what went in. -/

namespace Sys2Proof
namespace Laws

/-! ## Fields of a word -/

theorem fields_lt (f : Fields) : f.toNat < 8388608 := by
  cases f <;> simp only [Fields.toNat] <;> omega

theorem packWord_toNat (m : Nat) (f : Fields) (h : m < 128) : (packWord m f).toNat = m * 8388608 + f.toNat := by
  have := fields_lt f
  simp only [packWord, BitVec.toNat_ofNat]
  omega

theorem majorOf_packWord (m : Nat) (f : Fields) (h : m < 128) : majorOf (packWord m f) = m := by
  have := fields_lt f
  rw [majorOf, packWord_toNat m f h]
  omega

theorem fields_ofNat (m : Nat) (f : Fields) : Fields.ofNat f.format (m * 8388608 + f.toNat) = f := by
  cases f <;> simp only [Fields.format, Fields.ofNat, Fields.toNat, bitsAt, Fields.A.injEq, Fields.I.injEq, Fields.S.injEq, Fields.SI.injEq,
    Fields.B.injEq, Fields.M.injEq, Fields.X.injEq, Fields.Q.injEq, Fields.L.injEq, Fin.ext_iff, Fin.val_ofNat] <;> omega

/-- A code without a payload. -/
theorem decode_plain (m : Nat) (f : Fields) (h : m < 128) (hf : formatOf m = some f.format) :
    decode { payload := none, word := packWord m f } = decodeFields m none f := by
  simp only [decode, majorOf_packWord m f h, hf, packWord_toNat m f h]
  simp [fields_ofNat]

/-- A code with a payload. -/
theorem decode_long (m : Nat) (f : Fields) (p : Nat) (h : m < 128) (hf : formatOf m = some f.format) (ht : takesPrefix m = true)
    (hp : p < 8388608) :
    decode { payload := some (BitVec.ofNat 23 p), word := packWord m f } = decodeFields m (some p) f := by
  simp only [decode, majorOf_packWord m f h, hf, packWord_toNat m f h]
  simp [fields_ofNat, ht, Nat.mod_eq_of_lt hp]

/-- Formats other than SI take no payload for payload 0. -/
theorem decode_mkCode (m p : Nat) (f : Fields) (h : m < 128) (hf : formatOf m = some f.format) (hp : p < 8388608)
    (ht : p ≠ 0 ∨ prefixRequired m = true → takesPrefix m = true) (hs : f.format ≠ .SI) :
    decode (mkCode m p f) = decodeFields m (some p) f := by
  unfold mkCode
  by_cases hc : p = 0 ∧ prefixRequired m = false
  · rw [if_pos hc, decode_plain m f h hf, hc.1]
    cases f <;> first | rfl | exact absurd rfl hs
  · rw [if_neg hc]
    refine decode_long m f p h hf (ht ?_) hp
    by_cases h0 : p = 0
    · right
      cases hq : prefixRequired m with
      | true => rfl
      | false => exact absurd ⟨h0, hq⟩ hc
    · left; exact h0

theorem wide_ext (v : Word) :
    wideImm (some (v.toNat / 2048)) (Fin.ofNat 2048 v.toNat) = some v := by
  have hv := v.isLt
  have : v.toNat / 2048 < 2097152 := by omega
  simp only [wideImm, Fin.val_ofNat, if_pos this, Option.some.injEq]
  have e : v.toNat / 2048 * 2048 + v.toNat % 2048 = v.toNat := by omega
  rw [e, BitVec.ofNat_toNat, BitVec.setWidth_eq]

/-- A format-SI code reads back with its whole value. -/
theorem decode_mkWide (m : Nat) (d a : Fin 64) (v : Word) (h : m < 128) (hf : formatOf m = some .SI) (ht : takesPrefix m = true) :
    ∃ p, decode (mkWide m d a v) = decodeFields m p (.SI d a (Fin.ofNat 2048 v.toNat)) ∧ wideImm p (Fin.ofNat 2048 v.toNat) = some v := by
  unfold mkWide
  simp only [Fin.val_ofNat]
  by_cases hc : (BitVec.ofNat 11 (v.toNat % 2048)).signExtend 32 = v
  · refine ⟨none, ?_, ?_⟩
    · rw [if_pos hc]; exact decode_plain m _ h hf
    · simp only [wideImm, Fin.val_ofNat]; exact congrArg some hc
  · refine ⟨some (v.toNat / 2048), ?_, wide_ext v⟩
    rw [if_neg hc]
    exact decode_long m _ _ h hf ht (by have := v.isLt; omega)

/-! ## Operand fields -/

@[simp] theorem decVOp_encVOp (v : VOp) : decVOp (encVOp v) = v := by
  cases v with
  | dir n =>
    have := n.isLt
    have e : n.val % 128 = n.val := by omega
    simp [decVOp, encVOp, e]
  | idx x => revert x; decide
  | inc x => revert x; decide
  | dec x => revert x; decide

@[simp] theorem decTOp_encTOp (t : TOp) : decTOp (encTOp t) = t := by
  cases t with
  | dir n => revert n; decide
  | idx x => revert x; decide

@[simp] theorem decS7_encS7 (s : SReg) : decS7 (encS7 s) = some s := by revert s; decide
@[simp] theorem decPair_encPair (p : SPair) : decPair (encPair p) = some p := by revert p; decide
@[simp] theorem decK_16 (k : KReg) : decK (Fin.ofNat 16 k.val) = some k := by revert k; decide
@[simp] theorem decK_128 (k : KReg) : decK (Fin.ofNat 128 k.val) = some k := by revert k; decide
@[simp] theorem decCond_enc (c : Cond) : decCond (encCond c) = some c := by cases c <;> rfl
@[simp] theorem decFCond_enc (c : FCond) : decFCond (encFCond c) = some c := by cases c <;> rfl
@[simp] theorem decFloTy_enc (t : FloTy) : decFloTy (encFloTy t) = some t := by cases t <;> rfl
@[simp] theorem decIntTy_enc (t : IntTy) : decIntTy (encIntTy t).1 (encIntTy t).2 = some t := by cases t <;> rfl
@[simp] theorem decPackTy_enc (t : PackTy) : decPackTy (encPackTy t) = t := by cases t <;> rfl
@[simp] theorem decElt_enc (t : Elt) : decElt (encElt t) = some t := by cases t <;> rfl
@[simp] theorem decAtomOp_enc (o : AtomOp) : decAtomOp (encAtomOp o) = some o := by cases o <;> rfl
@[simp] theorem decAtomOp_enc32 (o : AtomOp) : decAtomOp (Fin.ofNat 32 (encAtomOp o)).val = some o := by cases o <;> rfl

theorem encElt_lt (t : Elt) : encElt t < 16 := by cases t <;> decide
theorem encCond_lt (c : Cond) : encCond c < 6 := by cases c <;> decide
theorem encFCond_lt (c : FCond) : encFCond c < 4 := by cases c <;> decide

@[simp] theorem decPairBf_enc (dst src : Elt) (g : Elt → Elt → Option Instr) :
    decPairBf (encBf dst src).1 (encBf dst src).2 g = g dst src := by
  cases dst <;> cases src <;> rfl

/-- The condition and the mask register of a compare. -/
@[simp] theorem cond_field (c : Cond) (k : KReg) : decCond ((Fin.ofNat 128 (encCond c * 8 + k.val)).val / 8) = some c := by
  revert k; cases c <;> decide
@[simp] theorem cond_reg (c : Cond) (k : KReg) : Fin.ofNat 8 (Fin.ofNat 128 (encCond c * 8 + k.val)).val = k := by
  revert k; cases c <;> decide
@[simp] theorem fcond_field (c : FCond) (k : KReg) : decFCond ((Fin.ofNat 128 (encFCond c * 8 + k.val)).val / 8) = some c := by
  revert k; cases c <;> decide
@[simp] theorem fcond_reg (c : FCond) (k : KReg) : Fin.ofNat 8 (Fin.ofNat 128 (encFCond c * 8 + k.val)).val = k := by
  revert k; cases c <;> decide

/-- An offset of format B. -/
@[simp] theorem off_field (o : BitVec 19) : BitVec.ofNat 19 (Fin.ofNat 524288 o.toNat).val = o := by
  have := o.isLt
  have e : o.toNat % 524288 = o.toNat := by omega
  simp only [Fin.val_ofNat, e, BitVec.ofNat_toNat, BitVec.setWidth_eq]

/-! ## Prefix payloads -/

theorem pvec_lt (p : PVec) : p.toNat < 8388608 := by
  obtain ⟨r, o, u, t⟩ := p
  have := (encTOp t).isLt
  cases r <;> cases o <;> cases u <;> simp only [PVec.toNat, encRnd, encOvf, Bool.toNat_true, Bool.toNat_false] <;> omega

@[simp] theorem pvec_ofNat (p : PVec) : PVec.ofNat p.toNat = some p := by
  obtain ⟨r, o, u, t⟩ := p
  have ht := (encTOp t).isLt
  have h0 : (encRnd r * 2097152 + encOvf o * 524288 + u.toNat * 262144 + (encTOp t).val * 8192) % 8192 = 0 := by omega
  have hr : encRnd r < 4 := by cases r <;> decide
  have ho : encOvf o < 4 := by cases o <;> decide
  have hu : u.toNat < 2 := by cases u <;> decide
  have e1 : (encRnd r * 2097152 + encOvf o * 524288 + u.toNat * 262144 + (encTOp t).val * 8192) / 2097152 % 4 = encRnd r := by omega
  have e2 : (encRnd r * 2097152 + encOvf o * 524288 + u.toNat * 262144 + (encTOp t).val * 8192) / 524288 % 4 = encOvf o := by omega
  have e3 : (encRnd r * 2097152 + encOvf o * 524288 + u.toNat * 262144 + (encTOp t).val * 8192) / 262144 % 2 = u.toNat := by omega
  have e4 : bitsAt (encRnd r * 2097152 + encOvf o * 524288 + u.toNat * 262144 + (encTOp t).val * 8192) 8192 32 = encTOp t := by
    apply Fin.ext; simp only [bitsAt, Fin.val_ofNat]; omega
  simp only [PVec.ofNat, PVec.toNat, h0, if_true, e1, e2, e3, e4, decTOp_encTOp]
  cases r <;> cases o <;> cases u <;> rfl

theorem pmem_lt (p : PMem) : p.toNat < 8388608 := by
  obtain ⟨⟨sz, o, sc, po⟩, tx, bh, e, op⟩ := p
  have := e.isLt
  have := op.isLt
  have h1 : encSize sz < 5 := by cases sz <;> decide
  have h2 : encOrder o < 4 := by cases o <;> decide
  have h3 : encScope sc < 4 := by cases sc <;> decide
  have h4 : encPolicy po < 4 := by cases po <;> decide
  have h5 : tx.toNat < 2 := by cases tx <;> decide
  have h6 : bh.toNat < 2 := by cases bh <;> decide
  simp only [PMem.toNat]; omega

@[simp] theorem pmem_ofNat (p : PMem) : PMem.ofNat p.toNat = some p := by
  obtain ⟨⟨sz, o, sc, po⟩, tx, bh, e, op⟩ := p
  have he := e.isLt
  have hop := op.isLt
  have h1 : encSize sz < 8 := by cases sz <;> decide
  have h2 : encOrder o < 4 := by cases o <;> decide
  have h3 : encScope sc < 4 := by cases sc <;> decide
  have h4 : encPolicy po < 4 := by cases po <;> decide
  have h5 : tx.toNat < 2 := by cases tx <;> decide
  have h6 : bh.toNat < 2 := by cases bh <;> decide
  generalize hx : encSize sz * 1048576 + encOrder o * 262144 + encScope sc * 65536 + encPolicy po * 16384
    + tx.toNat * 8192 + bh.toNat * 4096 + e.val * 32 + op.val = x
  have e1 : x / 1048576 % 8 = encSize sz := by omega
  have e2 : x / 262144 % 4 = encOrder o := by omega
  have e3 : x / 65536 % 4 = encScope sc := by omega
  have e4 : x / 16384 % 4 = encPolicy po := by omega
  have e5 : x / 8192 % 2 = tx.toNat := by omega
  have e6 : x / 4096 % 2 = bh.toNat := by omega
  have e7 : bitsAt x 32 128 = e := by apply Fin.ext; simp only [bitsAt, Fin.val_ofNat]; omega
  have e8 : bitsAt x 1 32 = op := by apply Fin.ext; simp only [bitsAt, Fin.val_ofNat]; omega
  have d1 : decSize (encSize sz) = some sz := by cases sz <;> rfl
  have d2 : decOrder (encOrder o) = o := by cases o <;> rfl
  have d3 : decScope (encScope sc) = sc := by cases sc <;> rfl
  have d4 : decPolicy (encPolicy po) = po := by cases po <;> rfl
  have d5 : decide (tx.toNat = 1) = tx := by cases tx <;> rfl
  have d6 : decide (bh.toNat = 1) = bh := by cases bh <;> rfl
  simp only [PMem.toNat, PMem.ofNat, hx, e1, e2, e3, e4, e5, e6, e7, e8, d1, d2, d3, d4, d5, d6, Option.map_some]

theorem pcopy_lt (p : PCopy) : p.toNat < 8388608 := by
  obtain ⟨sz, g, s, t, po⟩ := p
  have := (encPair s).isLt
  have := t.isLt
  have h1 : encSize sz < 5 := by cases sz <;> decide
  have h4 : encPolicy po < 4 := by cases po <;> decide
  have h5 : g.toNat < 2 := by cases g <;> decide
  simp only [PCopy.toNat]; omega

@[simp] theorem pcopy_ofNat (p : PCopy) : PCopy.ofNat p.toNat = some p := by
  obtain ⟨sz, g, s, t, po⟩ := p
  have hs := (encPair s).isLt
  have ht := t.isLt
  have h1 : encSize sz < 8 := by cases sz <;> decide
  have h4 : encPolicy po < 4 := by cases po <;> decide
  have h5 : g.toNat < 2 := by cases g <;> decide
  generalize hx : encSize sz * 1048576 + g.toNat * 524288 + (encPair s).val * 8192 + t.val * 128 + encPolicy po * 32 = x
  have e0 : x % 32 = 0 := by omega
  have e1 : x / 1048576 % 8 = encSize sz := by omega
  have e5 : x / 524288 % 2 = g.toNat := by omega
  have e4 : x / 32 % 4 = encPolicy po := by omega
  have e7 : bitsAt x 8192 64 = encPair s := by apply Fin.ext; simp only [bitsAt, Fin.val_ofNat]; omega
  have e8 : bitsAt x 128 64 = t := by apply Fin.ext; simp only [bitsAt, Fin.val_ofNat]; omega
  have d1 : decSize (encSize sz) = some sz := by cases sz <;> rfl
  have d4 : decPolicy (encPolicy po) = po := by cases po <;> rfl
  have d5 : decide (g.toNat = 1) = g := by cases g <;> rfl
  simp only [PCopy.toNat, PCopy.ofNat, hx, e0, e1, e4, e5, e7, e8, d1, d4, d5, decPair_encPair, if_true]

theorem pmat_lt (p : PMat) : p.toNat < 8388608 := by
  obtain ⟨fa, fb, sc, t⟩ := p
  have := t.isLt
  have h1 : encMxFmt fa < 8 := by cases fa <;> decide
  have h2 : encMxFmt fb < 8 := by cases fb <;> decide
  have h3 : encSc sc < 3 := by cases sc with
    | none => decide
    | some s => cases s <;> decide
  simp only [PMat.toNat]; omega

@[simp] theorem pmat_ofNat (p : PMat) : PMat.ofNat p.toNat = some p := by
  obtain ⟨fa, fb, sc, t⟩ := p
  have ht := t.isLt
  have h1 : encMxFmt fa < 8 := by cases fa <;> decide
  have h2 : encMxFmt fb < 8 := by cases fb <;> decide
  have h3 : encSc sc < 3 := by cases sc with
    | none => decide
    | some s => cases s <;> decide
  generalize hx : encMxFmt fa * 1048576 + encMxFmt fb * 131072 + encSc sc * 32768 + t.val * 512 = x
  have e0 : x % 512 = 0 := by omega
  have e1 : x / 1048576 % 8 = encMxFmt fa := by omega
  have e2 : x / 131072 % 8 = encMxFmt fb := by omega
  have e3 : x / 32768 % 4 = encSc sc := by omega
  have e8 : bitsAt x 512 64 = t := by apply Fin.ext; simp only [bitsAt, Fin.val_ofNat]; omega
  have d1 : decMxFmt (encMxFmt fa) = fa := by cases fa <;> rfl
  have d2 : decMxFmt (encMxFmt fb) = fb := by cases fb <;> rfl
  have hc : x % 512 = 0 ∧ encSc sc ≠ 3 := ⟨e0, by omega⟩
  simp only [PMat.toNat, PMat.ofNat, hx, e3, if_pos hc, e1, e2, e8, d1, d2]
  cases sc with
  | none => rfl
  | some s => cases s <;> rfl

/-- The time bits of a memory word. -/
@[simp] theorem memTime_enc (t : TOp) : memTime (encMemTime t).1 (encMemTime t).2 = t := by cases t <;> rfl

/-- The base pair of a memory word. -/
@[simp] theorem memBase_enc (b : SPair) : memBase (Fin.ofNat 32 (2 * b.val)) (decide (16 ≤ b.val)) = some b := by revert b; decide

/-- The payload of `xcfg`. -/
theorem idxPayload_lt (base bound : BitVec 8) (step : BitVec 4) : idxPayload base bound step < 8388608 := by
  have := base.isLt; have := bound.isLt; have := step.isLt
  simp only [idxPayload]; omega

end Laws
end Sys2Proof
end

