-- ==== Sys2Proof/Laws/State.lean ====
section
/-! SUPPORT. What each update of the state leaves in each field. -/

namespace Sys2Proof
namespace Laws

open Sys2Proof.Machine

/-! ## modW -/

@[simp] theorem modW_w (s : State) (f : Wave → Wave) : (s.modW f).w = f s.w := rfl
@[simp] theorem modW_g (s : State) (f : Wave → Wave) : (s.modW f).g = s.g := rfl
@[simp] theorem modW_c (s : State) (f : Wave → Wave) : (s.modW f).c = s.c := rfl
@[simp] theorem modW_x (s : State) (f : Wave → Wave) : (s.modW f).x = s.x := rfl
@[simp] theorem modW_waves (s : State) (f : Wave → Wave) : (s.modW f).waves = s.waves := rfl
@[simp] theorem modW_groups (s : State) (f : Wave → Wave) : (s.modW f).groups = s.groups := rfl
@[simp] theorem modW_cores (s : State) (f : Wave → Wave) : (s.modW f).cores = s.cores := rfl
@[simp] theorem modW_ctxs (s : State) (f : Wave → Wave) : (s.modW f).ctxs = s.ctxs := rfl
@[simp] theorem modW_latch (s : State) (f : Wave → Wave) : (s.modW f).latch = s.latch := rfl
@[simp] theorem modW_cur (s : State) (f : Wave → Wave) : (s.modW f).cur = s.cur := rfl
@[simp] theorem modW_tick (s : State) (f : Wave → Wave) : (s.modW f).tick = s.tick := rfl
@[simp] theorem modW_mem (s : State) (f : Wave → Wave) : (s.modW f).mem = s.mem := rfl
@[simp] theorem modW_hostHolds (s : State) (f : Wave → Wave) : (s.modW f).hostHolds = s.hostHolds := rfl
@[simp] theorem modW_octs (s : State) (f : Wave → Wave) : (s.modW f).octs = s.octs := rfl
@[simp] theorem modW_reqs (s : State) (f : Wave → Wave) : (s.modW f).reqs = s.reqs := rfl
@[simp] theorem modW_flights (s : State) (f : Wave → Wave) : (s.modW f).flights = s.flights := rfl
@[simp] theorem modW_epoch (s : State) (f : Wave → Wave) : (s.modW f).epoch = s.epoch := rfl
@[simp] theorem modW_seq (s : State) (f : Wave → Wave) : (s.modW f).seq = s.seq := rfl
@[simp] theorem modW_repair (s : State) (f : Wave → Wave) : (s.modW f).repair = s.repair := rfl
@[simp] theorem modW_hsem (s : State) (f : Wave → Wave) : (s.modW f).hsem = s.hsem := rfl
@[simp] theorem modW_window (s : State) (f : Wave → Wave) : (s.modW f).window = s.window := rfl
@[simp] theorem modW_fret (s : State) (f : Wave → Wave) : (s.modW f).fret = s.fret := rfl
@[simp] theorem modW_parts (s : State) (f : Wave → Wave) : (s.modW f).parts = s.parts := rfl
@[simp] theorem modW_queues (s : State) (f : Wave → Wave) : (s.modW f).queues = s.queues := rfl
@[simp] theorem modW_jobs (s : State) (f : Wave → Wave) : (s.modW f).jobs = s.jobs := rfl
@[simp] theorem modW_ios (s : State) (f : Wave → Wave) : (s.modW f).ios = s.ios := rfl
@[simp] theorem modW_xlate (s : State) (f : Wave → Wave) : (s.modW f).xlate = s.xlate := rfl
@[simp] theorem modW_power (s : State) (f : Wave → Wave) : (s.modW f).power = s.power := rfl
@[simp] theorem modW_trust (s : State) (f : Wave → Wave) : (s.modW f).trust = s.trust := rfl
@[simp] theorem modW_sched (s : State) (f : Wave → Wave) : (s.modW f).sched = s.sched := rfl
@[simp] theorem modW_errorLog (s : State) (f : Wave → Wave) : (s.modW f).errorLog = s.errorLog := rfl
@[simp] theorem modW_out (s : State) (f : Wave → Wave) : (s.modW f).out = s.out := rfl
@[simp] theorem modW_script (s : State) (f : Wave → Wave) : (s.modW f).script = s.script := rfl
@[simp] theorem modW_todo (s : State) (f : Wave → Wave) : (s.modW f).todo = s.todo := rfl
@[simp] theorem modW_serial (s : State) (f : Wave → Wave) : (s.modW f).serial = s.serial := rfl
@[simp] theorem modW_free (s : State) (f : Wave → Wave) : (s.modW f).free = s.free := rfl

/-! ## modG -/

@[simp] theorem modG_w (s : State) (f : Group → Group) : (s.modG f).w = s.w := rfl
@[simp] theorem modG_g (s : State) (f : Group → Group) : (s.modG f).g = f s.g := rfl
@[simp] theorem modG_c (s : State) (f : Group → Group) : (s.modG f).c = s.c := rfl
@[simp] theorem modG_x (s : State) (f : Group → Group) : (s.modG f).x = s.x := rfl
@[simp] theorem modG_waves (s : State) (f : Group → Group) : (s.modG f).waves = s.waves := rfl
@[simp] theorem modG_groups (s : State) (f : Group → Group) : (s.modG f).groups = s.groups := rfl
@[simp] theorem modG_cores (s : State) (f : Group → Group) : (s.modG f).cores = s.cores := rfl
@[simp] theorem modG_ctxs (s : State) (f : Group → Group) : (s.modG f).ctxs = s.ctxs := rfl
@[simp] theorem modG_latch (s : State) (f : Group → Group) : (s.modG f).latch = s.latch := rfl
@[simp] theorem modG_cur (s : State) (f : Group → Group) : (s.modG f).cur = s.cur := rfl
@[simp] theorem modG_tick (s : State) (f : Group → Group) : (s.modG f).tick = s.tick := rfl
@[simp] theorem modG_mem (s : State) (f : Group → Group) : (s.modG f).mem = s.mem := rfl
@[simp] theorem modG_hostHolds (s : State) (f : Group → Group) : (s.modG f).hostHolds = s.hostHolds := rfl
@[simp] theorem modG_octs (s : State) (f : Group → Group) : (s.modG f).octs = s.octs := rfl
@[simp] theorem modG_reqs (s : State) (f : Group → Group) : (s.modG f).reqs = s.reqs := rfl
@[simp] theorem modG_flights (s : State) (f : Group → Group) : (s.modG f).flights = s.flights := rfl
@[simp] theorem modG_epoch (s : State) (f : Group → Group) : (s.modG f).epoch = s.epoch := rfl
@[simp] theorem modG_seq (s : State) (f : Group → Group) : (s.modG f).seq = s.seq := rfl
@[simp] theorem modG_repair (s : State) (f : Group → Group) : (s.modG f).repair = s.repair := rfl
@[simp] theorem modG_hsem (s : State) (f : Group → Group) : (s.modG f).hsem = s.hsem := rfl
@[simp] theorem modG_window (s : State) (f : Group → Group) : (s.modG f).window = s.window := rfl
@[simp] theorem modG_fret (s : State) (f : Group → Group) : (s.modG f).fret = s.fret := rfl
@[simp] theorem modG_parts (s : State) (f : Group → Group) : (s.modG f).parts = s.parts := rfl
@[simp] theorem modG_queues (s : State) (f : Group → Group) : (s.modG f).queues = s.queues := rfl
@[simp] theorem modG_jobs (s : State) (f : Group → Group) : (s.modG f).jobs = s.jobs := rfl
@[simp] theorem modG_ios (s : State) (f : Group → Group) : (s.modG f).ios = s.ios := rfl
@[simp] theorem modG_xlate (s : State) (f : Group → Group) : (s.modG f).xlate = s.xlate := rfl
@[simp] theorem modG_power (s : State) (f : Group → Group) : (s.modG f).power = s.power := rfl
@[simp] theorem modG_trust (s : State) (f : Group → Group) : (s.modG f).trust = s.trust := rfl
@[simp] theorem modG_sched (s : State) (f : Group → Group) : (s.modG f).sched = s.sched := rfl
@[simp] theorem modG_errorLog (s : State) (f : Group → Group) : (s.modG f).errorLog = s.errorLog := rfl
@[simp] theorem modG_out (s : State) (f : Group → Group) : (s.modG f).out = s.out := rfl
@[simp] theorem modG_script (s : State) (f : Group → Group) : (s.modG f).script = s.script := rfl
@[simp] theorem modG_todo (s : State) (f : Group → Group) : (s.modG f).todo = s.todo := rfl
@[simp] theorem modG_serial (s : State) (f : Group → Group) : (s.modG f).serial = s.serial := rfl
@[simp] theorem modG_free (s : State) (f : Group → Group) : (s.modG f).free = s.free := rfl

/-! ## modC -/

@[simp] theorem modC_w (s : State) (f : Core → Core) : (s.modC f).w = s.w := rfl
@[simp] theorem modC_g (s : State) (f : Core → Core) : (s.modC f).g = s.g := rfl
@[simp] theorem modC_c (s : State) (f : Core → Core) : (s.modC f).c = f s.c := rfl
@[simp] theorem modC_x (s : State) (f : Core → Core) : (s.modC f).x = s.x := rfl
@[simp] theorem modC_waves (s : State) (f : Core → Core) : (s.modC f).waves = s.waves := rfl
@[simp] theorem modC_groups (s : State) (f : Core → Core) : (s.modC f).groups = s.groups := rfl
@[simp] theorem modC_cores (s : State) (f : Core → Core) : (s.modC f).cores = s.cores := rfl
@[simp] theorem modC_ctxs (s : State) (f : Core → Core) : (s.modC f).ctxs = s.ctxs := rfl
@[simp] theorem modC_latch (s : State) (f : Core → Core) : (s.modC f).latch = s.latch := rfl
@[simp] theorem modC_cur (s : State) (f : Core → Core) : (s.modC f).cur = s.cur := rfl
@[simp] theorem modC_tick (s : State) (f : Core → Core) : (s.modC f).tick = s.tick := rfl
@[simp] theorem modC_mem (s : State) (f : Core → Core) : (s.modC f).mem = s.mem := rfl
@[simp] theorem modC_hostHolds (s : State) (f : Core → Core) : (s.modC f).hostHolds = s.hostHolds := rfl
@[simp] theorem modC_octs (s : State) (f : Core → Core) : (s.modC f).octs = s.octs := rfl
@[simp] theorem modC_reqs (s : State) (f : Core → Core) : (s.modC f).reqs = s.reqs := rfl
@[simp] theorem modC_flights (s : State) (f : Core → Core) : (s.modC f).flights = s.flights := rfl
@[simp] theorem modC_epoch (s : State) (f : Core → Core) : (s.modC f).epoch = s.epoch := rfl
@[simp] theorem modC_seq (s : State) (f : Core → Core) : (s.modC f).seq = s.seq := rfl
@[simp] theorem modC_repair (s : State) (f : Core → Core) : (s.modC f).repair = s.repair := rfl
@[simp] theorem modC_hsem (s : State) (f : Core → Core) : (s.modC f).hsem = s.hsem := rfl
@[simp] theorem modC_window (s : State) (f : Core → Core) : (s.modC f).window = s.window := rfl
@[simp] theorem modC_fret (s : State) (f : Core → Core) : (s.modC f).fret = s.fret := rfl
@[simp] theorem modC_parts (s : State) (f : Core → Core) : (s.modC f).parts = s.parts := rfl
@[simp] theorem modC_queues (s : State) (f : Core → Core) : (s.modC f).queues = s.queues := rfl
@[simp] theorem modC_jobs (s : State) (f : Core → Core) : (s.modC f).jobs = s.jobs := rfl
@[simp] theorem modC_ios (s : State) (f : Core → Core) : (s.modC f).ios = s.ios := rfl
@[simp] theorem modC_xlate (s : State) (f : Core → Core) : (s.modC f).xlate = s.xlate := rfl
@[simp] theorem modC_power (s : State) (f : Core → Core) : (s.modC f).power = s.power := rfl
@[simp] theorem modC_trust (s : State) (f : Core → Core) : (s.modC f).trust = s.trust := rfl
@[simp] theorem modC_sched (s : State) (f : Core → Core) : (s.modC f).sched = s.sched := rfl
@[simp] theorem modC_errorLog (s : State) (f : Core → Core) : (s.modC f).errorLog = s.errorLog := rfl
@[simp] theorem modC_out (s : State) (f : Core → Core) : (s.modC f).out = s.out := rfl
@[simp] theorem modC_script (s : State) (f : Core → Core) : (s.modC f).script = s.script := rfl
@[simp] theorem modC_todo (s : State) (f : Core → Core) : (s.modC f).todo = s.todo := rfl
@[simp] theorem modC_serial (s : State) (f : Core → Core) : (s.modC f).serial = s.serial := rfl
@[simp] theorem modC_free (s : State) (f : Core → Core) : (s.modC f).free = s.free := rfl

/-! ## modQueue -/

@[simp] theorem modQueue_w (s : State) (q : Nat) (f : Queue → Queue) : (s.modQueue q f).w = s.w := rfl
@[simp] theorem modQueue_g (s : State) (q : Nat) (f : Queue → Queue) : (s.modQueue q f).g = s.g := rfl
@[simp] theorem modQueue_c (s : State) (q : Nat) (f : Queue → Queue) : (s.modQueue q f).c = s.c := rfl
@[simp] theorem modQueue_x (s : State) (q : Nat) (f : Queue → Queue) : (s.modQueue q f).x = s.x := rfl
@[simp] theorem modQueue_waves (s : State) (q : Nat) (f : Queue → Queue) : (s.modQueue q f).waves = s.waves := rfl
@[simp] theorem modQueue_groups (s : State) (q : Nat) (f : Queue → Queue) : (s.modQueue q f).groups = s.groups := rfl
@[simp] theorem modQueue_cores (s : State) (q : Nat) (f : Queue → Queue) : (s.modQueue q f).cores = s.cores := rfl
@[simp] theorem modQueue_ctxs (s : State) (q : Nat) (f : Queue → Queue) : (s.modQueue q f).ctxs = s.ctxs := rfl
@[simp] theorem modQueue_latch (s : State) (q : Nat) (f : Queue → Queue) : (s.modQueue q f).latch = s.latch := rfl
@[simp] theorem modQueue_cur (s : State) (q : Nat) (f : Queue → Queue) : (s.modQueue q f).cur = s.cur := rfl
@[simp] theorem modQueue_tick (s : State) (q : Nat) (f : Queue → Queue) : (s.modQueue q f).tick = s.tick := rfl
@[simp] theorem modQueue_mem (s : State) (q : Nat) (f : Queue → Queue) : (s.modQueue q f).mem = s.mem := rfl
@[simp] theorem modQueue_hostHolds (s : State) (q : Nat) (f : Queue → Queue) : (s.modQueue q f).hostHolds = s.hostHolds := rfl
@[simp] theorem modQueue_octs (s : State) (q : Nat) (f : Queue → Queue) : (s.modQueue q f).octs = s.octs := rfl
@[simp] theorem modQueue_reqs (s : State) (q : Nat) (f : Queue → Queue) : (s.modQueue q f).reqs = s.reqs := rfl
@[simp] theorem modQueue_flights (s : State) (q : Nat) (f : Queue → Queue) : (s.modQueue q f).flights = s.flights := rfl
@[simp] theorem modQueue_epoch (s : State) (q : Nat) (f : Queue → Queue) : (s.modQueue q f).epoch = s.epoch := rfl
@[simp] theorem modQueue_seq (s : State) (q : Nat) (f : Queue → Queue) : (s.modQueue q f).seq = s.seq := rfl
@[simp] theorem modQueue_repair (s : State) (q : Nat) (f : Queue → Queue) : (s.modQueue q f).repair = s.repair := rfl
@[simp] theorem modQueue_hsem (s : State) (q : Nat) (f : Queue → Queue) : (s.modQueue q f).hsem = s.hsem := rfl
@[simp] theorem modQueue_window (s : State) (q : Nat) (f : Queue → Queue) : (s.modQueue q f).window = s.window := rfl
@[simp] theorem modQueue_fret (s : State) (q : Nat) (f : Queue → Queue) : (s.modQueue q f).fret = s.fret := rfl
@[simp] theorem modQueue_parts (s : State) (q : Nat) (f : Queue → Queue) : (s.modQueue q f).parts = s.parts := rfl
@[simp] theorem modQueue_queues (s : State) (q : Nat) (f : Queue → Queue) : (s.modQueue q f).queues = s.queues.map fun x => if x.q = q then f x else x := rfl
@[simp] theorem modQueue_jobs (s : State) (q : Nat) (f : Queue → Queue) : (s.modQueue q f).jobs = s.jobs := rfl
@[simp] theorem modQueue_ios (s : State) (q : Nat) (f : Queue → Queue) : (s.modQueue q f).ios = s.ios := rfl
@[simp] theorem modQueue_xlate (s : State) (q : Nat) (f : Queue → Queue) : (s.modQueue q f).xlate = s.xlate := rfl
@[simp] theorem modQueue_power (s : State) (q : Nat) (f : Queue → Queue) : (s.modQueue q f).power = s.power := rfl
@[simp] theorem modQueue_trust (s : State) (q : Nat) (f : Queue → Queue) : (s.modQueue q f).trust = s.trust := rfl
@[simp] theorem modQueue_sched (s : State) (q : Nat) (f : Queue → Queue) : (s.modQueue q f).sched = s.sched := rfl
@[simp] theorem modQueue_errorLog (s : State) (q : Nat) (f : Queue → Queue) : (s.modQueue q f).errorLog = s.errorLog := rfl
@[simp] theorem modQueue_out (s : State) (q : Nat) (f : Queue → Queue) : (s.modQueue q f).out = s.out := rfl
@[simp] theorem modQueue_script (s : State) (q : Nat) (f : Queue → Queue) : (s.modQueue q f).script = s.script := rfl
@[simp] theorem modQueue_todo (s : State) (q : Nat) (f : Queue → Queue) : (s.modQueue q f).todo = s.todo := rfl
@[simp] theorem modQueue_serial (s : State) (q : Nat) (f : Queue → Queue) : (s.modQueue q f).serial = s.serial := rfl
@[simp] theorem modQueue_free (s : State) (q : Nat) (f : Queue → Queue) : (s.modQueue q f).free = s.free := rfl

/-! ## modOct -/

@[simp] theorem modOct_w (s : State) (o : Oct) (f : Octant → Octant) : (s.modOct o f).w = s.w := rfl
@[simp] theorem modOct_g (s : State) (o : Oct) (f : Octant → Octant) : (s.modOct o f).g = s.g := rfl
@[simp] theorem modOct_c (s : State) (o : Oct) (f : Octant → Octant) : (s.modOct o f).c = s.c := rfl
@[simp] theorem modOct_x (s : State) (o : Oct) (f : Octant → Octant) : (s.modOct o f).x = s.x := rfl
@[simp] theorem modOct_waves (s : State) (o : Oct) (f : Octant → Octant) : (s.modOct o f).waves = s.waves := rfl
@[simp] theorem modOct_groups (s : State) (o : Oct) (f : Octant → Octant) : (s.modOct o f).groups = s.groups := rfl
@[simp] theorem modOct_cores (s : State) (o : Oct) (f : Octant → Octant) : (s.modOct o f).cores = s.cores := rfl
@[simp] theorem modOct_ctxs (s : State) (o : Oct) (f : Octant → Octant) : (s.modOct o f).ctxs = s.ctxs := rfl
@[simp] theorem modOct_latch (s : State) (o : Oct) (f : Octant → Octant) : (s.modOct o f).latch = s.latch := rfl
@[simp] theorem modOct_cur (s : State) (o : Oct) (f : Octant → Octant) : (s.modOct o f).cur = s.cur := rfl
@[simp] theorem modOct_tick (s : State) (o : Oct) (f : Octant → Octant) : (s.modOct o f).tick = s.tick := rfl
@[simp] theorem modOct_mem (s : State) (o : Oct) (f : Octant → Octant) : (s.modOct o f).mem = s.mem := rfl
@[simp] theorem modOct_hostHolds (s : State) (o : Oct) (f : Octant → Octant) : (s.modOct o f).hostHolds = s.hostHolds := rfl
@[simp] theorem modOct_octs (s : State) (o : Oct) (f : Octant → Octant) : (s.modOct o f).octs = s.octs.set o (f s.octs[o]) := rfl
@[simp] theorem modOct_reqs (s : State) (o : Oct) (f : Octant → Octant) : (s.modOct o f).reqs = s.reqs := rfl
@[simp] theorem modOct_flights (s : State) (o : Oct) (f : Octant → Octant) : (s.modOct o f).flights = s.flights := rfl
@[simp] theorem modOct_epoch (s : State) (o : Oct) (f : Octant → Octant) : (s.modOct o f).epoch = s.epoch := rfl
@[simp] theorem modOct_seq (s : State) (o : Oct) (f : Octant → Octant) : (s.modOct o f).seq = s.seq := rfl
@[simp] theorem modOct_repair (s : State) (o : Oct) (f : Octant → Octant) : (s.modOct o f).repair = s.repair := rfl
@[simp] theorem modOct_hsem (s : State) (o : Oct) (f : Octant → Octant) : (s.modOct o f).hsem = s.hsem := rfl
@[simp] theorem modOct_window (s : State) (o : Oct) (f : Octant → Octant) : (s.modOct o f).window = s.window := rfl
@[simp] theorem modOct_fret (s : State) (o : Oct) (f : Octant → Octant) : (s.modOct o f).fret = s.fret := rfl
@[simp] theorem modOct_parts (s : State) (o : Oct) (f : Octant → Octant) : (s.modOct o f).parts = s.parts := rfl
@[simp] theorem modOct_queues (s : State) (o : Oct) (f : Octant → Octant) : (s.modOct o f).queues = s.queues := rfl
@[simp] theorem modOct_jobs (s : State) (o : Oct) (f : Octant → Octant) : (s.modOct o f).jobs = s.jobs := rfl
@[simp] theorem modOct_ios (s : State) (o : Oct) (f : Octant → Octant) : (s.modOct o f).ios = s.ios := rfl
@[simp] theorem modOct_xlate (s : State) (o : Oct) (f : Octant → Octant) : (s.modOct o f).xlate = s.xlate := rfl
@[simp] theorem modOct_power (s : State) (o : Oct) (f : Octant → Octant) : (s.modOct o f).power = s.power := rfl
@[simp] theorem modOct_trust (s : State) (o : Oct) (f : Octant → Octant) : (s.modOct o f).trust = s.trust := rfl
@[simp] theorem modOct_sched (s : State) (o : Oct) (f : Octant → Octant) : (s.modOct o f).sched = s.sched := rfl
@[simp] theorem modOct_errorLog (s : State) (o : Oct) (f : Octant → Octant) : (s.modOct o f).errorLog = s.errorLog := rfl
@[simp] theorem modOct_out (s : State) (o : Oct) (f : Octant → Octant) : (s.modOct o f).out = s.out := rfl
@[simp] theorem modOct_script (s : State) (o : Oct) (f : Octant → Octant) : (s.modOct o f).script = s.script := rfl
@[simp] theorem modOct_todo (s : State) (o : Oct) (f : Octant → Octant) : (s.modOct o f).todo = s.todo := rfl
@[simp] theorem modOct_serial (s : State) (o : Oct) (f : Octant → Octant) : (s.modOct o f).serial = s.serial := rfl
@[simp] theorem modOct_free (s : State) (o : Oct) (f : Octant → Octant) : (s.modOct o f).free = s.free := rfl

/-! ## modPart -/

@[simp] theorem modPart_w (s : State) (p : Fin 8) (f : Partition → Partition) : (s.modPart p f).w = s.w := rfl
@[simp] theorem modPart_g (s : State) (p : Fin 8) (f : Partition → Partition) : (s.modPart p f).g = s.g := rfl
@[simp] theorem modPart_c (s : State) (p : Fin 8) (f : Partition → Partition) : (s.modPart p f).c = s.c := rfl
@[simp] theorem modPart_x (s : State) (p : Fin 8) (f : Partition → Partition) : (s.modPart p f).x = s.x := rfl
@[simp] theorem modPart_waves (s : State) (p : Fin 8) (f : Partition → Partition) : (s.modPart p f).waves = s.waves := rfl
@[simp] theorem modPart_groups (s : State) (p : Fin 8) (f : Partition → Partition) : (s.modPart p f).groups = s.groups := rfl
@[simp] theorem modPart_cores (s : State) (p : Fin 8) (f : Partition → Partition) : (s.modPart p f).cores = s.cores := rfl
@[simp] theorem modPart_ctxs (s : State) (p : Fin 8) (f : Partition → Partition) : (s.modPart p f).ctxs = s.ctxs := rfl
@[simp] theorem modPart_latch (s : State) (p : Fin 8) (f : Partition → Partition) : (s.modPart p f).latch = s.latch := rfl
@[simp] theorem modPart_cur (s : State) (p : Fin 8) (f : Partition → Partition) : (s.modPart p f).cur = s.cur := rfl
@[simp] theorem modPart_tick (s : State) (p : Fin 8) (f : Partition → Partition) : (s.modPart p f).tick = s.tick := rfl
@[simp] theorem modPart_mem (s : State) (p : Fin 8) (f : Partition → Partition) : (s.modPart p f).mem = s.mem := rfl
@[simp] theorem modPart_hostHolds (s : State) (p : Fin 8) (f : Partition → Partition) : (s.modPart p f).hostHolds = s.hostHolds := rfl
@[simp] theorem modPart_octs (s : State) (p : Fin 8) (f : Partition → Partition) : (s.modPart p f).octs = s.octs := rfl
@[simp] theorem modPart_reqs (s : State) (p : Fin 8) (f : Partition → Partition) : (s.modPart p f).reqs = s.reqs := rfl
@[simp] theorem modPart_flights (s : State) (p : Fin 8) (f : Partition → Partition) : (s.modPart p f).flights = s.flights := rfl
@[simp] theorem modPart_epoch (s : State) (p : Fin 8) (f : Partition → Partition) : (s.modPart p f).epoch = s.epoch := rfl
@[simp] theorem modPart_seq (s : State) (p : Fin 8) (f : Partition → Partition) : (s.modPart p f).seq = s.seq := rfl
@[simp] theorem modPart_repair (s : State) (p : Fin 8) (f : Partition → Partition) : (s.modPart p f).repair = s.repair := rfl
@[simp] theorem modPart_hsem (s : State) (p : Fin 8) (f : Partition → Partition) : (s.modPart p f).hsem = s.hsem := rfl
@[simp] theorem modPart_window (s : State) (p : Fin 8) (f : Partition → Partition) : (s.modPart p f).window = s.window := rfl
@[simp] theorem modPart_fret (s : State) (p : Fin 8) (f : Partition → Partition) : (s.modPart p f).fret = s.fret := rfl
@[simp] theorem modPart_parts (s : State) (p : Fin 8) (f : Partition → Partition) : (s.modPart p f).parts = s.parts.set p (f s.parts[p]) := rfl
@[simp] theorem modPart_queues (s : State) (p : Fin 8) (f : Partition → Partition) : (s.modPart p f).queues = s.queues := rfl
@[simp] theorem modPart_jobs (s : State) (p : Fin 8) (f : Partition → Partition) : (s.modPart p f).jobs = s.jobs := rfl
@[simp] theorem modPart_ios (s : State) (p : Fin 8) (f : Partition → Partition) : (s.modPart p f).ios = s.ios := rfl
@[simp] theorem modPart_xlate (s : State) (p : Fin 8) (f : Partition → Partition) : (s.modPart p f).xlate = s.xlate := rfl
@[simp] theorem modPart_power (s : State) (p : Fin 8) (f : Partition → Partition) : (s.modPart p f).power = s.power := rfl
@[simp] theorem modPart_trust (s : State) (p : Fin 8) (f : Partition → Partition) : (s.modPart p f).trust = s.trust := rfl
@[simp] theorem modPart_sched (s : State) (p : Fin 8) (f : Partition → Partition) : (s.modPart p f).sched = s.sched := rfl
@[simp] theorem modPart_errorLog (s : State) (p : Fin 8) (f : Partition → Partition) : (s.modPart p f).errorLog = s.errorLog := rfl
@[simp] theorem modPart_out (s : State) (p : Fin 8) (f : Partition → Partition) : (s.modPart p f).out = s.out := rfl
@[simp] theorem modPart_script (s : State) (p : Fin 8) (f : Partition → Partition) : (s.modPart p f).script = s.script := rfl
@[simp] theorem modPart_todo (s : State) (p : Fin 8) (f : Partition → Partition) : (s.modPart p f).todo = s.todo := rfl
@[simp] theorem modPart_serial (s : State) (p : Fin 8) (f : Partition → Partition) : (s.modPart p f).serial = s.serial := rfl
@[simp] theorem modPart_free (s : State) (p : Fin 8) (f : Partition → Partition) : (s.modPart p f).free = s.free := rfl

/-! ## due -/

@[simp] theorem due_w (s : State) (e : Instr) : (s.due e).w = s.w := rfl
@[simp] theorem due_g (s : State) (e : Instr) : (s.due e).g = s.g := rfl
@[simp] theorem due_c (s : State) (e : Instr) : (s.due e).c = s.c := rfl
@[simp] theorem due_x (s : State) (e : Instr) : (s.due e).x = s.x := rfl
@[simp] theorem due_waves (s : State) (e : Instr) : (s.due e).waves = s.waves := rfl
@[simp] theorem due_groups (s : State) (e : Instr) : (s.due e).groups = s.groups := rfl
@[simp] theorem due_cores (s : State) (e : Instr) : (s.due e).cores = s.cores := rfl
@[simp] theorem due_ctxs (s : State) (e : Instr) : (s.due e).ctxs = s.ctxs := rfl
@[simp] theorem due_latch (s : State) (e : Instr) : (s.due e).latch = s.latch := rfl
@[simp] theorem due_cur (s : State) (e : Instr) : (s.due e).cur = s.cur := rfl
@[simp] theorem due_tick (s : State) (e : Instr) : (s.due e).tick = s.tick := rfl
@[simp] theorem due_mem (s : State) (e : Instr) : (s.due e).mem = s.mem := rfl
@[simp] theorem due_hostHolds (s : State) (e : Instr) : (s.due e).hostHolds = s.hostHolds := rfl
@[simp] theorem due_octs (s : State) (e : Instr) : (s.due e).octs = s.octs := rfl
@[simp] theorem due_reqs (s : State) (e : Instr) : (s.due e).reqs = s.reqs := rfl
@[simp] theorem due_flights (s : State) (e : Instr) : (s.due e).flights = s.flights := rfl
@[simp] theorem due_epoch (s : State) (e : Instr) : (s.due e).epoch = s.epoch := rfl
@[simp] theorem due_seq (s : State) (e : Instr) : (s.due e).seq = s.seq := rfl
@[simp] theorem due_repair (s : State) (e : Instr) : (s.due e).repair = s.repair := rfl
@[simp] theorem due_hsem (s : State) (e : Instr) : (s.due e).hsem = s.hsem := rfl
@[simp] theorem due_window (s : State) (e : Instr) : (s.due e).window = s.window := rfl
@[simp] theorem due_fret (s : State) (e : Instr) : (s.due e).fret = s.fret := rfl
@[simp] theorem due_parts (s : State) (e : Instr) : (s.due e).parts = s.parts := rfl
@[simp] theorem due_queues (s : State) (e : Instr) : (s.due e).queues = s.queues := rfl
@[simp] theorem due_jobs (s : State) (e : Instr) : (s.due e).jobs = s.jobs := rfl
@[simp] theorem due_ios (s : State) (e : Instr) : (s.due e).ios = s.ios := rfl
@[simp] theorem due_xlate (s : State) (e : Instr) : (s.due e).xlate = s.xlate := rfl
@[simp] theorem due_power (s : State) (e : Instr) : (s.due e).power = s.power := rfl
@[simp] theorem due_trust (s : State) (e : Instr) : (s.due e).trust = s.trust := rfl
@[simp] theorem due_sched (s : State) (e : Instr) : (s.due e).sched = s.sched := rfl
@[simp] theorem due_errorLog (s : State) (e : Instr) : (s.due e).errorLog = s.errorLog := rfl
@[simp] theorem due_out (s : State) (e : Instr) : (s.due e).out = s.out := rfl
@[simp] theorem due_script (s : State) (e : Instr) : (s.due e).script = s.script := rfl
@[simp] theorem due_todo (s : State) (e : Instr) : (s.due e).todo = s.todo ++ [e] := rfl
@[simp] theorem due_serial (s : State) (e : Instr) : (s.due e).serial = s.serial := rfl
@[simp] theorem due_free (s : State) (e : Instr) : (s.due e).free = s.free := rfl

/-! ## goto -/

@[simp] theorem goto_w (s : State) (pc : VA) : (s.goto pc).w = { s.w with front := moveEntry s.w.front s.cur.active pc } := rfl
@[simp] theorem goto_g (s : State) (pc : VA) : (s.goto pc).g = s.g := rfl
@[simp] theorem goto_c (s : State) (pc : VA) : (s.goto pc).c = s.c := rfl
@[simp] theorem goto_x (s : State) (pc : VA) : (s.goto pc).x = s.x := rfl
@[simp] theorem goto_waves (s : State) (pc : VA) : (s.goto pc).waves = s.waves := rfl
@[simp] theorem goto_groups (s : State) (pc : VA) : (s.goto pc).groups = s.groups := rfl
@[simp] theorem goto_cores (s : State) (pc : VA) : (s.goto pc).cores = s.cores := rfl
@[simp] theorem goto_ctxs (s : State) (pc : VA) : (s.goto pc).ctxs = s.ctxs := rfl
@[simp] theorem goto_latch (s : State) (pc : VA) : (s.goto pc).latch = s.latch := rfl
@[simp] theorem goto_cur (s : State) (pc : VA) : (s.goto pc).cur = s.cur := rfl
@[simp] theorem goto_tick (s : State) (pc : VA) : (s.goto pc).tick = s.tick := rfl
@[simp] theorem goto_mem (s : State) (pc : VA) : (s.goto pc).mem = s.mem := rfl
@[simp] theorem goto_hostHolds (s : State) (pc : VA) : (s.goto pc).hostHolds = s.hostHolds := rfl
@[simp] theorem goto_octs (s : State) (pc : VA) : (s.goto pc).octs = s.octs := rfl
@[simp] theorem goto_reqs (s : State) (pc : VA) : (s.goto pc).reqs = s.reqs := rfl
@[simp] theorem goto_flights (s : State) (pc : VA) : (s.goto pc).flights = s.flights := rfl
@[simp] theorem goto_epoch (s : State) (pc : VA) : (s.goto pc).epoch = s.epoch := rfl
@[simp] theorem goto_seq (s : State) (pc : VA) : (s.goto pc).seq = s.seq := rfl
@[simp] theorem goto_repair (s : State) (pc : VA) : (s.goto pc).repair = s.repair := rfl
@[simp] theorem goto_hsem (s : State) (pc : VA) : (s.goto pc).hsem = s.hsem := rfl
@[simp] theorem goto_window (s : State) (pc : VA) : (s.goto pc).window = s.window := rfl
@[simp] theorem goto_fret (s : State) (pc : VA) : (s.goto pc).fret = s.fret := rfl
@[simp] theorem goto_parts (s : State) (pc : VA) : (s.goto pc).parts = s.parts := rfl
@[simp] theorem goto_queues (s : State) (pc : VA) : (s.goto pc).queues = s.queues := rfl
@[simp] theorem goto_jobs (s : State) (pc : VA) : (s.goto pc).jobs = s.jobs := rfl
@[simp] theorem goto_ios (s : State) (pc : VA) : (s.goto pc).ios = s.ios := rfl
@[simp] theorem goto_xlate (s : State) (pc : VA) : (s.goto pc).xlate = s.xlate := rfl
@[simp] theorem goto_power (s : State) (pc : VA) : (s.goto pc).power = s.power := rfl
@[simp] theorem goto_trust (s : State) (pc : VA) : (s.goto pc).trust = s.trust := rfl
@[simp] theorem goto_sched (s : State) (pc : VA) : (s.goto pc).sched = s.sched := rfl
@[simp] theorem goto_errorLog (s : State) (pc : VA) : (s.goto pc).errorLog = s.errorLog := rfl
@[simp] theorem goto_out (s : State) (pc : VA) : (s.goto pc).out = s.out := rfl
@[simp] theorem goto_script (s : State) (pc : VA) : (s.goto pc).script = s.script := rfl
@[simp] theorem goto_todo (s : State) (pc : VA) : (s.goto pc).todo = s.todo := rfl
@[simp] theorem goto_serial (s : State) (pc : VA) : (s.goto pc).serial = s.serial := rfl
@[simp] theorem goto_free (s : State) (pc : VA) : (s.goto pc).free = s.free := rfl

/-! ## waits -/

@[simp] theorem waits_g (s : State) : (s.waits).g = s.g := rfl
@[simp] theorem waits_c (s : State) : (s.waits).c = s.c := rfl
@[simp] theorem waits_x (s : State) : (s.waits).x = s.x := rfl
@[simp] theorem waits_waves (s : State) : (s.waits).waves = s.waves := rfl
@[simp] theorem waits_groups (s : State) : (s.waits).groups = s.groups := rfl
@[simp] theorem waits_cores (s : State) : (s.waits).cores = s.cores := rfl
@[simp] theorem waits_ctxs (s : State) : (s.waits).ctxs = s.ctxs := rfl
@[simp] theorem waits_latch (s : State) : (s.waits).latch = s.latch := rfl
@[simp] theorem waits_cur (s : State) : (s.waits).cur = s.cur := rfl
@[simp] theorem waits_tick (s : State) : (s.waits).tick = s.tick := rfl
@[simp] theorem waits_mem (s : State) : (s.waits).mem = s.mem := rfl
@[simp] theorem waits_hostHolds (s : State) : (s.waits).hostHolds = s.hostHolds := rfl
@[simp] theorem waits_octs (s : State) : (s.waits).octs = s.octs := rfl
@[simp] theorem waits_reqs (s : State) : (s.waits).reqs = s.reqs := rfl
@[simp] theorem waits_flights (s : State) : (s.waits).flights = s.flights := rfl
@[simp] theorem waits_epoch (s : State) : (s.waits).epoch = s.epoch := rfl
@[simp] theorem waits_seq (s : State) : (s.waits).seq = s.seq := rfl
@[simp] theorem waits_repair (s : State) : (s.waits).repair = s.repair := rfl
@[simp] theorem waits_hsem (s : State) : (s.waits).hsem = s.hsem := rfl
@[simp] theorem waits_window (s : State) : (s.waits).window = s.window := rfl
@[simp] theorem waits_fret (s : State) : (s.waits).fret = s.fret := rfl
@[simp] theorem waits_parts (s : State) : (s.waits).parts = s.parts := rfl
@[simp] theorem waits_queues (s : State) : (s.waits).queues = s.queues := rfl
@[simp] theorem waits_jobs (s : State) : (s.waits).jobs = s.jobs := rfl
@[simp] theorem waits_ios (s : State) : (s.waits).ios = s.ios := rfl
@[simp] theorem waits_xlate (s : State) : (s.waits).xlate = s.xlate := rfl
@[simp] theorem waits_power (s : State) : (s.waits).power = s.power := rfl
@[simp] theorem waits_trust (s : State) : (s.waits).trust = s.trust := rfl
@[simp] theorem waits_sched (s : State) : (s.waits).sched = s.sched := rfl
@[simp] theorem waits_errorLog (s : State) : (s.waits).errorLog = s.errorLog := rfl
@[simp] theorem waits_out (s : State) : (s.waits).out = s.out := rfl
@[simp] theorem waits_script (s : State) : (s.waits).script = s.script := rfl
@[simp] theorem waits_todo (s : State) : (s.waits).todo = s.todo := rfl
@[simp] theorem waits_serial (s : State) : (s.waits).serial = s.serial := rfl
@[simp] theorem waits_free (s : State) : (s.waits).free = s.free := rfl

/-! ## stage -/

@[simp] theorem stage_g (s : State) (e : Entry) (u : Machine.Unit) : (s.stage e u).g = s.g := rfl
@[simp] theorem stage_c (s : State) (e : Entry) (u : Machine.Unit) : (s.stage e u).c = s.c := rfl
@[simp] theorem stage_x (s : State) (e : Entry) (u : Machine.Unit) : (s.stage e u).x = s.x := rfl
@[simp] theorem stage_waves (s : State) (e : Entry) (u : Machine.Unit) : (s.stage e u).waves = s.waves := rfl
@[simp] theorem stage_groups (s : State) (e : Entry) (u : Machine.Unit) : (s.stage e u).groups = s.groups := rfl
@[simp] theorem stage_cores (s : State) (e : Entry) (u : Machine.Unit) : (s.stage e u).cores = s.cores := rfl
@[simp] theorem stage_ctxs (s : State) (e : Entry) (u : Machine.Unit) : (s.stage e u).ctxs = s.ctxs := rfl
@[simp] theorem stage_latch (s : State) (e : Entry) (u : Machine.Unit) : (s.stage e u).latch = s.w.regsSeen := rfl
@[simp] theorem stage_tick (s : State) (e : Entry) (u : Machine.Unit) : (s.stage e u).tick = s.tick := rfl
@[simp] theorem stage_mem (s : State) (e : Entry) (u : Machine.Unit) : (s.stage e u).mem = s.mem := rfl
@[simp] theorem stage_hostHolds (s : State) (e : Entry) (u : Machine.Unit) : (s.stage e u).hostHolds = s.hostHolds := rfl
@[simp] theorem stage_octs (s : State) (e : Entry) (u : Machine.Unit) : (s.stage e u).octs = s.octs := rfl
@[simp] theorem stage_reqs (s : State) (e : Entry) (u : Machine.Unit) : (s.stage e u).reqs = s.reqs := rfl
@[simp] theorem stage_flights (s : State) (e : Entry) (u : Machine.Unit) : (s.stage e u).flights = s.flights := rfl
@[simp] theorem stage_epoch (s : State) (e : Entry) (u : Machine.Unit) : (s.stage e u).epoch = s.epoch := rfl
@[simp] theorem stage_seq (s : State) (e : Entry) (u : Machine.Unit) : (s.stage e u).seq = s.seq := rfl
@[simp] theorem stage_repair (s : State) (e : Entry) (u : Machine.Unit) : (s.stage e u).repair = s.repair := rfl
@[simp] theorem stage_hsem (s : State) (e : Entry) (u : Machine.Unit) : (s.stage e u).hsem = s.hsem := rfl
@[simp] theorem stage_window (s : State) (e : Entry) (u : Machine.Unit) : (s.stage e u).window = s.window := rfl
@[simp] theorem stage_fret (s : State) (e : Entry) (u : Machine.Unit) : (s.stage e u).fret = s.fret := rfl
@[simp] theorem stage_parts (s : State) (e : Entry) (u : Machine.Unit) : (s.stage e u).parts = s.parts := rfl
@[simp] theorem stage_queues (s : State) (e : Entry) (u : Machine.Unit) : (s.stage e u).queues = s.queues := rfl
@[simp] theorem stage_jobs (s : State) (e : Entry) (u : Machine.Unit) : (s.stage e u).jobs = s.jobs := rfl
@[simp] theorem stage_ios (s : State) (e : Entry) (u : Machine.Unit) : (s.stage e u).ios = s.ios := rfl
@[simp] theorem stage_xlate (s : State) (e : Entry) (u : Machine.Unit) : (s.stage e u).xlate = s.xlate := rfl
@[simp] theorem stage_power (s : State) (e : Entry) (u : Machine.Unit) : (s.stage e u).power = s.power := rfl
@[simp] theorem stage_trust (s : State) (e : Entry) (u : Machine.Unit) : (s.stage e u).trust = s.trust := rfl
@[simp] theorem stage_sched (s : State) (e : Entry) (u : Machine.Unit) : (s.stage e u).sched = s.sched := rfl
@[simp] theorem stage_errorLog (s : State) (e : Entry) (u : Machine.Unit) : (s.stage e u).errorLog = s.errorLog := rfl
@[simp] theorem stage_out (s : State) (e : Entry) (u : Machine.Unit) : (s.stage e u).out = s.out := rfl
@[simp] theorem stage_script (s : State) (e : Entry) (u : Machine.Unit) : (s.stage e u).script = s.script := rfl
@[simp] theorem stage_todo (s : State) (e : Entry) (u : Machine.Unit) : (s.stage e u).todo = s.todo := rfl
@[simp] theorem stage_serial (s : State) (e : Entry) (u : Machine.Unit) : (s.stage e u).serial = s.serial := rfl
@[simp] theorem stage_free (s : State) (e : Entry) (u : Machine.Unit) : (s.stage e u).free = s.free := rfl

/-! ## stageSecond -/

@[simp] theorem stageSecond_w (s : State) (pc : VA) : (s.stageSecond pc).w = s.w := rfl
@[simp] theorem stageSecond_g (s : State) (pc : VA) : (s.stageSecond pc).g = s.g := rfl
@[simp] theorem stageSecond_c (s : State) (pc : VA) : (s.stageSecond pc).c = s.c := rfl
@[simp] theorem stageSecond_x (s : State) (pc : VA) : (s.stageSecond pc).x = s.x := rfl
@[simp] theorem stageSecond_waves (s : State) (pc : VA) : (s.stageSecond pc).waves = s.waves := rfl
@[simp] theorem stageSecond_groups (s : State) (pc : VA) : (s.stageSecond pc).groups = s.groups := rfl
@[simp] theorem stageSecond_cores (s : State) (pc : VA) : (s.stageSecond pc).cores = s.cores := rfl
@[simp] theorem stageSecond_ctxs (s : State) (pc : VA) : (s.stageSecond pc).ctxs = s.ctxs := rfl
@[simp] theorem stageSecond_latch (s : State) (pc : VA) : (s.stageSecond pc).latch = s.latch := rfl
@[simp] theorem stageSecond_cur (s : State) (pc : VA) : (s.stageSecond pc).cur = { s.cur with pc := pc } := rfl
@[simp] theorem stageSecond_tick (s : State) (pc : VA) : (s.stageSecond pc).tick = s.tick := rfl
@[simp] theorem stageSecond_mem (s : State) (pc : VA) : (s.stageSecond pc).mem = s.mem := rfl
@[simp] theorem stageSecond_hostHolds (s : State) (pc : VA) : (s.stageSecond pc).hostHolds = s.hostHolds := rfl
@[simp] theorem stageSecond_octs (s : State) (pc : VA) : (s.stageSecond pc).octs = s.octs := rfl
@[simp] theorem stageSecond_reqs (s : State) (pc : VA) : (s.stageSecond pc).reqs = s.reqs := rfl
@[simp] theorem stageSecond_flights (s : State) (pc : VA) : (s.stageSecond pc).flights = s.flights := rfl
@[simp] theorem stageSecond_epoch (s : State) (pc : VA) : (s.stageSecond pc).epoch = s.epoch := rfl
@[simp] theorem stageSecond_seq (s : State) (pc : VA) : (s.stageSecond pc).seq = s.seq := rfl
@[simp] theorem stageSecond_repair (s : State) (pc : VA) : (s.stageSecond pc).repair = s.repair := rfl
@[simp] theorem stageSecond_hsem (s : State) (pc : VA) : (s.stageSecond pc).hsem = s.hsem := rfl
@[simp] theorem stageSecond_window (s : State) (pc : VA) : (s.stageSecond pc).window = s.window := rfl
@[simp] theorem stageSecond_fret (s : State) (pc : VA) : (s.stageSecond pc).fret = s.fret := rfl
@[simp] theorem stageSecond_parts (s : State) (pc : VA) : (s.stageSecond pc).parts = s.parts := rfl
@[simp] theorem stageSecond_queues (s : State) (pc : VA) : (s.stageSecond pc).queues = s.queues := rfl
@[simp] theorem stageSecond_jobs (s : State) (pc : VA) : (s.stageSecond pc).jobs = s.jobs := rfl
@[simp] theorem stageSecond_ios (s : State) (pc : VA) : (s.stageSecond pc).ios = s.ios := rfl
@[simp] theorem stageSecond_xlate (s : State) (pc : VA) : (s.stageSecond pc).xlate = s.xlate := rfl
@[simp] theorem stageSecond_power (s : State) (pc : VA) : (s.stageSecond pc).power = s.power := rfl
@[simp] theorem stageSecond_trust (s : State) (pc : VA) : (s.stageSecond pc).trust = s.trust := rfl
@[simp] theorem stageSecond_sched (s : State) (pc : VA) : (s.stageSecond pc).sched = s.sched := rfl
@[simp] theorem stageSecond_errorLog (s : State) (pc : VA) : (s.stageSecond pc).errorLog = s.errorLog := rfl
@[simp] theorem stageSecond_out (s : State) (pc : VA) : (s.stageSecond pc).out = s.out := rfl
@[simp] theorem stageSecond_script (s : State) (pc : VA) : (s.stageSecond pc).script = s.script := rfl
@[simp] theorem stageSecond_todo (s : State) (pc : VA) : (s.stageSecond pc).todo = s.todo := rfl
@[simp] theorem stageSecond_serial (s : State) (pc : VA) : (s.stageSecond pc).serial = s.serial := rfl
@[simp] theorem stageSecond_free (s : State) (pc : VA) : (s.stageSecond pc).free = s.free := rfl

/-! ## dbgDone -/

@[simp] theorem dbgDone_w (s : State) (n : Nat) : (s.dbgDone n).w = s.w := rfl
@[simp] theorem dbgDone_g (s : State) (n : Nat) : (s.dbgDone n).g = s.g := rfl
@[simp] theorem dbgDone_c (s : State) (n : Nat) : (s.dbgDone n).c = s.c := rfl
@[simp] theorem dbgDone_x (s : State) (n : Nat) : (s.dbgDone n).x = s.x := rfl
@[simp] theorem dbgDone_waves (s : State) (n : Nat) : (s.dbgDone n).waves = s.waves := rfl
@[simp] theorem dbgDone_groups (s : State) (n : Nat) : (s.dbgDone n).groups = s.groups := rfl
@[simp] theorem dbgDone_cores (s : State) (n : Nat) : (s.dbgDone n).cores = s.cores := rfl
@[simp] theorem dbgDone_ctxs (s : State) (n : Nat) : (s.dbgDone n).ctxs = s.ctxs := rfl
@[simp] theorem dbgDone_latch (s : State) (n : Nat) : (s.dbgDone n).latch = s.latch := rfl
@[simp] theorem dbgDone_cur (s : State) (n : Nat) : (s.dbgDone n).cur = s.cur := rfl
@[simp] theorem dbgDone_tick (s : State) (n : Nat) : (s.dbgDone n).tick = s.tick := rfl
@[simp] theorem dbgDone_mem (s : State) (n : Nat) : (s.dbgDone n).mem = s.mem := rfl
@[simp] theorem dbgDone_hostHolds (s : State) (n : Nat) : (s.dbgDone n).hostHolds = s.hostHolds := rfl
@[simp] theorem dbgDone_octs (s : State) (n : Nat) : (s.dbgDone n).octs = s.octs := rfl
@[simp] theorem dbgDone_reqs (s : State) (n : Nat) : (s.dbgDone n).reqs = s.reqs := rfl
@[simp] theorem dbgDone_flights (s : State) (n : Nat) : (s.dbgDone n).flights = s.flights := rfl
@[simp] theorem dbgDone_epoch (s : State) (n : Nat) : (s.dbgDone n).epoch = s.epoch := rfl
@[simp] theorem dbgDone_seq (s : State) (n : Nat) : (s.dbgDone n).seq = s.seq := rfl
@[simp] theorem dbgDone_repair (s : State) (n : Nat) : (s.dbgDone n).repair = s.repair := rfl
@[simp] theorem dbgDone_hsem (s : State) (n : Nat) : (s.dbgDone n).hsem = s.hsem := rfl
@[simp] theorem dbgDone_window (s : State) (n : Nat) : (s.dbgDone n).window = s.window := rfl
@[simp] theorem dbgDone_fret (s : State) (n : Nat) : (s.dbgDone n).fret = s.fret := rfl
@[simp] theorem dbgDone_parts (s : State) (n : Nat) : (s.dbgDone n).parts = s.parts := rfl
@[simp] theorem dbgDone_queues (s : State) (n : Nat) : (s.dbgDone n).queues = s.queues := rfl
@[simp] theorem dbgDone_jobs (s : State) (n : Nat) : (s.dbgDone n).jobs = s.jobs := rfl
@[simp] theorem dbgDone_ios (s : State) (n : Nat) : (s.dbgDone n).ios = s.ios := rfl
@[simp] theorem dbgDone_xlate (s : State) (n : Nat) : (s.dbgDone n).xlate = { s.xlate with dbgResult := BitVec.ofNat 3 n } := rfl
@[simp] theorem dbgDone_power (s : State) (n : Nat) : (s.dbgDone n).power = s.power := rfl
@[simp] theorem dbgDone_trust (s : State) (n : Nat) : (s.dbgDone n).trust = s.trust := rfl
@[simp] theorem dbgDone_sched (s : State) (n : Nat) : (s.dbgDone n).sched = s.sched := rfl
@[simp] theorem dbgDone_errorLog (s : State) (n : Nat) : (s.dbgDone n).errorLog = s.errorLog := rfl
@[simp] theorem dbgDone_out (s : State) (n : Nat) : (s.dbgDone n).out = s.out := rfl
@[simp] theorem dbgDone_script (s : State) (n : Nat) : (s.dbgDone n).script = s.script := rfl
@[simp] theorem dbgDone_todo (s : State) (n : Nat) : (s.dbgDone n).todo = s.todo := rfl
@[simp] theorem dbgDone_serial (s : State) (n : Nat) : (s.dbgDone n).serial = s.serial := rfl
@[simp] theorem dbgDone_free (s : State) (n : Nat) : (s.dbgDone n).free = s.free := rfl

/-! ## fwStatus -/

@[simp] theorem fwStatus_w (s : State) (n : Nat) : (s.fwStatus n).w = s.w := rfl
@[simp] theorem fwStatus_g (s : State) (n : Nat) : (s.fwStatus n).g = s.g := rfl
@[simp] theorem fwStatus_c (s : State) (n : Nat) : (s.fwStatus n).c = s.c := rfl
@[simp] theorem fwStatus_x (s : State) (n : Nat) : (s.fwStatus n).x = s.x := rfl
@[simp] theorem fwStatus_waves (s : State) (n : Nat) : (s.fwStatus n).waves = s.waves := rfl
@[simp] theorem fwStatus_groups (s : State) (n : Nat) : (s.fwStatus n).groups = s.groups := rfl
@[simp] theorem fwStatus_cores (s : State) (n : Nat) : (s.fwStatus n).cores = s.cores := rfl
@[simp] theorem fwStatus_ctxs (s : State) (n : Nat) : (s.fwStatus n).ctxs = s.ctxs := rfl
@[simp] theorem fwStatus_latch (s : State) (n : Nat) : (s.fwStatus n).latch = s.latch := rfl
@[simp] theorem fwStatus_cur (s : State) (n : Nat) : (s.fwStatus n).cur = s.cur := rfl
@[simp] theorem fwStatus_tick (s : State) (n : Nat) : (s.fwStatus n).tick = s.tick := rfl
@[simp] theorem fwStatus_mem (s : State) (n : Nat) : (s.fwStatus n).mem = s.mem := rfl
@[simp] theorem fwStatus_hostHolds (s : State) (n : Nat) : (s.fwStatus n).hostHolds = s.hostHolds := rfl
@[simp] theorem fwStatus_octs (s : State) (n : Nat) : (s.fwStatus n).octs = s.octs := rfl
@[simp] theorem fwStatus_reqs (s : State) (n : Nat) : (s.fwStatus n).reqs = s.reqs := rfl
@[simp] theorem fwStatus_flights (s : State) (n : Nat) : (s.fwStatus n).flights = s.flights := rfl
@[simp] theorem fwStatus_epoch (s : State) (n : Nat) : (s.fwStatus n).epoch = s.epoch := rfl
@[simp] theorem fwStatus_seq (s : State) (n : Nat) : (s.fwStatus n).seq = s.seq := rfl
@[simp] theorem fwStatus_repair (s : State) (n : Nat) : (s.fwStatus n).repair = s.repair := rfl
@[simp] theorem fwStatus_hsem (s : State) (n : Nat) : (s.fwStatus n).hsem = s.hsem := rfl
@[simp] theorem fwStatus_window (s : State) (n : Nat) : (s.fwStatus n).window = s.window := rfl
@[simp] theorem fwStatus_fret (s : State) (n : Nat) : (s.fwStatus n).fret = s.fret := rfl
@[simp] theorem fwStatus_parts (s : State) (n : Nat) : (s.fwStatus n).parts = s.parts := rfl
@[simp] theorem fwStatus_queues (s : State) (n : Nat) : (s.fwStatus n).queues = s.queues := rfl
@[simp] theorem fwStatus_jobs (s : State) (n : Nat) : (s.fwStatus n).jobs = s.jobs := rfl
@[simp] theorem fwStatus_ios (s : State) (n : Nat) : (s.fwStatus n).ios = s.ios := rfl
@[simp] theorem fwStatus_xlate (s : State) (n : Nat) : (s.fwStatus n).xlate = s.xlate := rfl
@[simp] theorem fwStatus_power (s : State) (n : Nat) : (s.fwStatus n).power = s.power := rfl
@[simp] theorem fwStatus_trust (s : State) (n : Nat) : (s.fwStatus n).trust = { s.trust with status := BitVec.ofNat 8 n } := rfl
@[simp] theorem fwStatus_sched (s : State) (n : Nat) : (s.fwStatus n).sched = s.sched := rfl
@[simp] theorem fwStatus_errorLog (s : State) (n : Nat) : (s.fwStatus n).errorLog = s.errorLog := rfl
@[simp] theorem fwStatus_out (s : State) (n : Nat) : (s.fwStatus n).out = s.out := rfl
@[simp] theorem fwStatus_script (s : State) (n : Nat) : (s.fwStatus n).script = s.script := rfl
@[simp] theorem fwStatus_todo (s : State) (n : Nat) : (s.fwStatus n).todo = s.todo := rfl
@[simp] theorem fwStatus_serial (s : State) (n : Nat) : (s.fwStatus n).serial = s.serial := rfl
@[simp] theorem fwStatus_free (s : State) (n : Nat) : (s.fwStatus n).free = s.free := rfl

/-! ## setRepair -/

@[simp] theorem setRepair_w (s : State) (v : DWord) (b : Bool) (n : Nat) : (s.setRepair v b n).w = s.w := by simp only [State.setRepair]
@[simp] theorem setRepair_g (s : State) (v : DWord) (b : Bool) (n : Nat) : (s.setRepair v b n).g = s.g := by simp only [State.setRepair]
@[simp] theorem setRepair_c (s : State) (v : DWord) (b : Bool) (n : Nat) : (s.setRepair v b n).c = s.c := by simp only [State.setRepair]
@[simp] theorem setRepair_x (s : State) (v : DWord) (b : Bool) (n : Nat) : (s.setRepair v b n).x = s.x := by simp only [State.setRepair]
@[simp] theorem setRepair_waves (s : State) (v : DWord) (b : Bool) (n : Nat) : (s.setRepair v b n).waves = s.waves := by simp only [State.setRepair]
@[simp] theorem setRepair_groups (s : State) (v : DWord) (b : Bool) (n : Nat) : (s.setRepair v b n).groups = s.groups := by simp only [State.setRepair]
@[simp] theorem setRepair_cores (s : State) (v : DWord) (b : Bool) (n : Nat) : (s.setRepair v b n).cores = s.cores := by simp only [State.setRepair]
@[simp] theorem setRepair_ctxs (s : State) (v : DWord) (b : Bool) (n : Nat) : (s.setRepair v b n).ctxs = s.ctxs := by simp only [State.setRepair]
@[simp] theorem setRepair_latch (s : State) (v : DWord) (b : Bool) (n : Nat) : (s.setRepair v b n).latch = s.latch := by simp only [State.setRepair]
@[simp] theorem setRepair_cur (s : State) (v : DWord) (b : Bool) (n : Nat) : (s.setRepair v b n).cur = s.cur := by simp only [State.setRepair]
@[simp] theorem setRepair_tick (s : State) (v : DWord) (b : Bool) (n : Nat) : (s.setRepair v b n).tick = s.tick := by simp only [State.setRepair]
@[simp] theorem setRepair_mem (s : State) (v : DWord) (b : Bool) (n : Nat) : (s.setRepair v b n).mem = s.mem := by simp only [State.setRepair]
@[simp] theorem setRepair_hostHolds (s : State) (v : DWord) (b : Bool) (n : Nat) : (s.setRepair v b n).hostHolds = s.hostHolds := by simp only [State.setRepair]
@[simp] theorem setRepair_octs (s : State) (v : DWord) (b : Bool) (n : Nat) : (s.setRepair v b n).octs = s.octs := by simp only [State.setRepair]
@[simp] theorem setRepair_reqs (s : State) (v : DWord) (b : Bool) (n : Nat) : (s.setRepair v b n).reqs = s.reqs := by simp only [State.setRepair]
@[simp] theorem setRepair_flights (s : State) (v : DWord) (b : Bool) (n : Nat) : (s.setRepair v b n).flights = s.flights := by simp only [State.setRepair]
@[simp] theorem setRepair_epoch (s : State) (v : DWord) (b : Bool) (n : Nat) : (s.setRepair v b n).epoch = s.epoch := by simp only [State.setRepair]
@[simp] theorem setRepair_seq (s : State) (v : DWord) (b : Bool) (n : Nat) : (s.setRepair v b n).seq = s.seq := by simp only [State.setRepair]
@[simp] theorem setRepair_hsem (s : State) (v : DWord) (b : Bool) (n : Nat) : (s.setRepair v b n).hsem = s.hsem := by simp only [State.setRepair]
@[simp] theorem setRepair_window (s : State) (v : DWord) (b : Bool) (n : Nat) : (s.setRepair v b n).window = s.window := by simp only [State.setRepair]
@[simp] theorem setRepair_fret (s : State) (v : DWord) (b : Bool) (n : Nat) : (s.setRepair v b n).fret = s.fret := by simp only [State.setRepair]
@[simp] theorem setRepair_parts (s : State) (v : DWord) (b : Bool) (n : Nat) : (s.setRepair v b n).parts = s.parts := by simp only [State.setRepair]
@[simp] theorem setRepair_queues (s : State) (v : DWord) (b : Bool) (n : Nat) : (s.setRepair v b n).queues = s.queues := by simp only [State.setRepair]
@[simp] theorem setRepair_jobs (s : State) (v : DWord) (b : Bool) (n : Nat) : (s.setRepair v b n).jobs = s.jobs := by simp only [State.setRepair]
@[simp] theorem setRepair_ios (s : State) (v : DWord) (b : Bool) (n : Nat) : (s.setRepair v b n).ios = s.ios := by simp only [State.setRepair]
@[simp] theorem setRepair_xlate (s : State) (v : DWord) (b : Bool) (n : Nat) : (s.setRepair v b n).xlate = s.xlate := by simp only [State.setRepair]
@[simp] theorem setRepair_power (s : State) (v : DWord) (b : Bool) (n : Nat) : (s.setRepair v b n).power = s.power := by simp only [State.setRepair]
@[simp] theorem setRepair_trust (s : State) (v : DWord) (b : Bool) (n : Nat) : (s.setRepair v b n).trust = s.trust := by simp only [State.setRepair]
@[simp] theorem setRepair_sched (s : State) (v : DWord) (b : Bool) (n : Nat) : (s.setRepair v b n).sched = s.sched := by simp only [State.setRepair]
@[simp] theorem setRepair_errorLog (s : State) (v : DWord) (b : Bool) (n : Nat) : (s.setRepair v b n).errorLog = s.errorLog := by simp only [State.setRepair]
@[simp] theorem setRepair_out (s : State) (v : DWord) (b : Bool) (n : Nat) : (s.setRepair v b n).out = s.out := by simp only [State.setRepair]
@[simp] theorem setRepair_script (s : State) (v : DWord) (b : Bool) (n : Nat) : (s.setRepair v b n).script = s.script := by simp only [State.setRepair]
@[simp] theorem setRepair_todo (s : State) (v : DWord) (b : Bool) (n : Nat) : (s.setRepair v b n).todo = s.todo := by simp only [State.setRepair]
@[simp] theorem setRepair_serial (s : State) (v : DWord) (b : Bool) (n : Nat) : (s.setRepair v b n).serial = s.serial := by simp only [State.setRepair]
@[simp] theorem setRepair_free (s : State) (v : DWord) (b : Bool) (n : Nat) : (s.setRepair v b n).free = s.free := by simp only [State.setRepair]

/-! ## takeHsem -/

@[simp] theorem takeHsem_w (s : State) : (s.takeHsem).w = s.w := rfl
@[simp] theorem takeHsem_g (s : State) : (s.takeHsem).g = s.g := rfl
@[simp] theorem takeHsem_c (s : State) : (s.takeHsem).c = s.c := rfl
@[simp] theorem takeHsem_x (s : State) : (s.takeHsem).x = s.x := rfl
@[simp] theorem takeHsem_waves (s : State) : (s.takeHsem).waves = s.waves := rfl
@[simp] theorem takeHsem_groups (s : State) : (s.takeHsem).groups = s.groups := rfl
@[simp] theorem takeHsem_cores (s : State) : (s.takeHsem).cores = s.cores := rfl
@[simp] theorem takeHsem_ctxs (s : State) : (s.takeHsem).ctxs = s.ctxs := rfl
@[simp] theorem takeHsem_latch (s : State) : (s.takeHsem).latch = s.latch := rfl
@[simp] theorem takeHsem_cur (s : State) : (s.takeHsem).cur = s.cur := rfl
@[simp] theorem takeHsem_tick (s : State) : (s.takeHsem).tick = s.tick := rfl
@[simp] theorem takeHsem_mem (s : State) : (s.takeHsem).mem = s.mem := rfl
@[simp] theorem takeHsem_hostHolds (s : State) : (s.takeHsem).hostHolds = s.hostHolds := rfl
@[simp] theorem takeHsem_octs (s : State) : (s.takeHsem).octs = s.octs := rfl
@[simp] theorem takeHsem_reqs (s : State) : (s.takeHsem).reqs = s.reqs := rfl
@[simp] theorem takeHsem_flights (s : State) : (s.takeHsem).flights = s.flights := rfl
@[simp] theorem takeHsem_epoch (s : State) : (s.takeHsem).epoch = s.epoch := rfl
@[simp] theorem takeHsem_seq (s : State) : (s.takeHsem).seq = s.seq := rfl
@[simp] theorem takeHsem_repair (s : State) : (s.takeHsem).repair = s.repair := rfl
@[simp] theorem takeHsem_window (s : State) : (s.takeHsem).window = s.window := rfl
@[simp] theorem takeHsem_fret (s : State) : (s.takeHsem).fret = s.fret := rfl
@[simp] theorem takeHsem_parts (s : State) : (s.takeHsem).parts = s.parts := rfl
@[simp] theorem takeHsem_queues (s : State) : (s.takeHsem).queues = s.queues := rfl
@[simp] theorem takeHsem_jobs (s : State) : (s.takeHsem).jobs = s.jobs := rfl
@[simp] theorem takeHsem_ios (s : State) : (s.takeHsem).ios = s.ios := rfl
@[simp] theorem takeHsem_xlate (s : State) : (s.takeHsem).xlate = s.xlate := rfl
@[simp] theorem takeHsem_power (s : State) : (s.takeHsem).power = s.power := rfl
@[simp] theorem takeHsem_trust (s : State) : (s.takeHsem).trust = s.trust := rfl
@[simp] theorem takeHsem_sched (s : State) : (s.takeHsem).sched = s.sched := rfl
@[simp] theorem takeHsem_errorLog (s : State) : (s.takeHsem).errorLog = s.errorLog := rfl
@[simp] theorem takeHsem_out (s : State) : (s.takeHsem).out = s.out := rfl
@[simp] theorem takeHsem_script (s : State) : (s.takeHsem).script = s.script := rfl
@[simp] theorem takeHsem_todo (s : State) : (s.takeHsem).todo = s.todo := rfl
@[simp] theorem takeHsem_serial (s : State) : (s.takeHsem).serial = s.serial := rfl
@[simp] theorem takeHsem_free (s : State) : (s.takeHsem).free = s.free := rfl

/-! ## setMsi -/

@[simp] theorem setMsi_w (s : State) (m : MsiVec) : (s.setMsi m).w = s.w := rfl
@[simp] theorem setMsi_g (s : State) (m : MsiVec) : (s.setMsi m).g = s.g := rfl
@[simp] theorem setMsi_c (s : State) (m : MsiVec) : (s.setMsi m).c = s.c := rfl
@[simp] theorem setMsi_x (s : State) (m : MsiVec) : (s.setMsi m).x = s.x := rfl
@[simp] theorem setMsi_waves (s : State) (m : MsiVec) : (s.setMsi m).waves = s.waves := rfl
@[simp] theorem setMsi_groups (s : State) (m : MsiVec) : (s.setMsi m).groups = s.groups := rfl
@[simp] theorem setMsi_cores (s : State) (m : MsiVec) : (s.setMsi m).cores = s.cores := rfl
@[simp] theorem setMsi_ctxs (s : State) (m : MsiVec) : (s.setMsi m).ctxs = s.ctxs := rfl
@[simp] theorem setMsi_latch (s : State) (m : MsiVec) : (s.setMsi m).latch = s.latch := rfl
@[simp] theorem setMsi_cur (s : State) (m : MsiVec) : (s.setMsi m).cur = s.cur := rfl
@[simp] theorem setMsi_tick (s : State) (m : MsiVec) : (s.setMsi m).tick = s.tick := rfl
@[simp] theorem setMsi_mem (s : State) (m : MsiVec) : (s.setMsi m).mem = s.mem := rfl
@[simp] theorem setMsi_hostHolds (s : State) (m : MsiVec) : (s.setMsi m).hostHolds = s.hostHolds := rfl
@[simp] theorem setMsi_octs (s : State) (m : MsiVec) : (s.setMsi m).octs = s.octs := rfl
@[simp] theorem setMsi_reqs (s : State) (m : MsiVec) : (s.setMsi m).reqs = s.reqs := rfl
@[simp] theorem setMsi_flights (s : State) (m : MsiVec) : (s.setMsi m).flights = s.flights := rfl
@[simp] theorem setMsi_epoch (s : State) (m : MsiVec) : (s.setMsi m).epoch = s.epoch := rfl
@[simp] theorem setMsi_seq (s : State) (m : MsiVec) : (s.setMsi m).seq = s.seq := rfl
@[simp] theorem setMsi_repair (s : State) (m : MsiVec) : (s.setMsi m).repair = s.repair := rfl
@[simp] theorem setMsi_hsem (s : State) (m : MsiVec) : (s.setMsi m).hsem = s.hsem := rfl
@[simp] theorem setMsi_fret (s : State) (m : MsiVec) : (s.setMsi m).fret = s.fret := rfl
@[simp] theorem setMsi_parts (s : State) (m : MsiVec) : (s.setMsi m).parts = s.parts := rfl
@[simp] theorem setMsi_queues (s : State) (m : MsiVec) : (s.setMsi m).queues = s.queues := rfl
@[simp] theorem setMsi_jobs (s : State) (m : MsiVec) : (s.setMsi m).jobs = s.jobs := rfl
@[simp] theorem setMsi_ios (s : State) (m : MsiVec) : (s.setMsi m).ios = s.ios := rfl
@[simp] theorem setMsi_xlate (s : State) (m : MsiVec) : (s.setMsi m).xlate = s.xlate := rfl
@[simp] theorem setMsi_power (s : State) (m : MsiVec) : (s.setMsi m).power = s.power := rfl
@[simp] theorem setMsi_trust (s : State) (m : MsiVec) : (s.setMsi m).trust = s.trust := rfl
@[simp] theorem setMsi_sched (s : State) (m : MsiVec) : (s.setMsi m).sched = s.sched := rfl
@[simp] theorem setMsi_errorLog (s : State) (m : MsiVec) : (s.setMsi m).errorLog = s.errorLog := rfl
@[simp] theorem setMsi_out (s : State) (m : MsiVec) : (s.setMsi m).out = s.out := rfl
@[simp] theorem setMsi_script (s : State) (m : MsiVec) : (s.setMsi m).script = s.script := rfl
@[simp] theorem setMsi_todo (s : State) (m : MsiVec) : (s.setMsi m).todo = s.todo := rfl
@[simp] theorem setMsi_serial (s : State) (m : MsiVec) : (s.setMsi m).serial = s.serial := rfl
@[simp] theorem setMsi_free (s : State) (m : MsiVec) : (s.setMsi m).free = s.free := rfl

/-! ## Vectors of octants -/

/-- The octant that was changed. -/
@[simp] theorem modOct_same (s : State) (o : Oct) (f : Octant → Octant) : ((s.modOct o f).octs)[o] = f s.octs[o] := by simp

/-- Every other octant is as it was. -/
theorem modOct_other (s : State) (o p : Oct) (f : Octant → Octant) (h : p ≠ o) : ((s.modOct o f).octs)[p] = s.octs[p] := by
  have : o.val ≠ p.val := fun e => h (Fin.ext e.symm)
  simp [this]

/-! ## Register files of a wave -/

@[simp] theorem writeS_zero (w : Wave) (v : Word) : w.writeS 0 v = w := rfl
@[simp] theorem writeK_zero (w : Wave) (v : Mask) : w.writeK 0 v = w := rfl
@[simp] theorem setV_regs (w : Wave) (n : Fin 256) (r : VReg) : (w.setV n r).regs = { w.regs with v := w.regs.v.set n r } := rfl
@[simp] theorem setX_regs (w : Wave) (n : XNum) (x : XReg) : (w.setX n x).regs = { w.regs with x := w.regs.x.set n x } := rfl

/-! ## What a word reads of its wave (R405) -/

@[simp] theorem regsSeen_v (w : Wave) : w.regsSeen.v = w.regs.v := rfl
@[simp] theorem regsSeen_s (w : Wave) : w.regsSeen.s = w.regs.s := rfl
@[simp] theorem regsSeen_x (w : Wave) : w.regsSeen.x = w.regs.x := rfl
@[simp] theorem regsSeen_k (w : Wave) : w.regsSeen.k = w.regs.k := rfl
@[simp] theorem regsSeen_t (w : Wave) : w.regsSeen.t = w.seen.t := rfl
@[simp] theorem regsSeen_arr (w : Wave) : w.regsSeen.arr = w.seen.arr := rfl
@[simp] theorem look_regs (w : Wave) : w.look.regs = w.regs := rfl
@[simp] theorem look_regsSeen (w : Wave) : w.look.regsSeen = w.regs := rfl

/-- s0 reads 0 (R176). -/
@[simp] theorem sget_zero (r : Regs) : r.sget 0 = 0 := rfl

end Laws
end Sys2Proof
end

