-- ==== Sys2Proof/Laws/Memory.lean ====
section
/-! SUPPORT. Memory: what a byte reads after each operation, and that every operation on memory keeps its canonical form. -/

namespace Sys2Proof
namespace Laws

open Sys2Proof.Machine

/-! ## Lists of cells -/

/-- A byte below every listed key reads 0. -/
theorem cellsGet_below {l : List Host.Cell} {n k : Nat} (h : cellsWf n l = true) (hk : k < n) : cellsGet l k = 0 := by
  induction l generalizing n with
  | nil => rfl
  | cons c rest ih =>
    obtain ⟨a, b⟩ := c
    simp only [cellsWf, Bool.and_eq_true, decide_eq_true_eq] at h
    have ha : a ≠ k := by omega
    simp only [cellsGet, ha, if_false]
    exact ih h.2 (by omega)

/-- The form holds from any earlier key on. -/
theorem cellsWf_mono {l : List Host.Cell} {m n : Nat} (h : cellsWf n l = true) (hm : m ≤ n) : cellsWf m l = true := by
  cases l with
  | nil => rfl
  | cons c rest =>
    obtain ⟨a, b⟩ := c
    simp only [cellsWf, Bool.and_eq_true, decide_eq_true_eq] at h ⊢
    exact ⟨⟨by omega, h.1.2⟩, h.2⟩

/-- The form holds from the first listed key on. -/
theorem cellsWf_from {a n : Nat} {b : Byte} {rest : List Host.Cell} (h : cellsWf n ((a, b) :: rest) = true) : cellsWf a ((a, b) :: rest) = true := by
  simp only [cellsWf, Bool.and_eq_true, decide_eq_true_eq] at h ⊢
  exact ⟨⟨Nat.le_refl _, h.1.2⟩, h.2⟩

/-- Writing a byte keeps the form. -/
theorem cellsSet_wf {l : List Host.Cell} {n : Nat} (k : Nat) (v : Byte) (h : cellsWf n l = true) (hk : n ≤ k) : cellsWf n (cellsSet l k v) = true := by
  induction l generalizing n with
  | nil => by_cases hv : v = 0#8 <;> simp [cellsSet, cellsWf, hv, hk]
  | cons c rest ih =>
    obtain ⟨a, b⟩ := c
    have hw := h
    simp only [cellsWf, Bool.and_eq_true, decide_eq_true_eq] at h
    simp only [cellsSet]
    split
    · by_cases hv : v = 0
      · simp only [hv, if_true]; exact hw
      · simp only [hv, if_false, cellsWf, Bool.and_eq_true, decide_eq_true_eq]
        exact ⟨⟨hk, by simpa using hv⟩, ⟨by omega, h.1.2⟩, h.2⟩
    · split
      · by_cases hv : v = 0
        · simp only [hv, if_true]; exact cellsWf_mono h.2 (by omega)
        · simp only [hv, if_false, cellsWf, Bool.and_eq_true, decide_eq_true_eq]
          exact ⟨⟨hk, by simpa using hv⟩, cellsWf_mono h.2 (by omega)⟩
      · simp only [cellsWf, Bool.and_eq_true, decide_eq_true_eq]
        exact ⟨h.1, ih h.2 (by omega)⟩

/-- A byte after a write. -/
theorem cellsGet_set {l : List Host.Cell} {n : Nat} (k : Nat) (v : Byte) (j : Nat) (h : cellsWf n l = true) :
    cellsGet (cellsSet l k v) j = if j = k then v else cellsGet l j := by
  induction l generalizing n with
  | nil =>
    by_cases hv : v = 0#8
    · simp [cellsSet, cellsGet, hv]
    · by_cases hj : j = k
      · simp [cellsSet, cellsGet, hv, hj]
      · simp [cellsSet, cellsGet, hv, hj, Ne.symm hj]
  | cons c rest ih =>
    obtain ⟨a, b⟩ := c
    have hw := h
    simp only [cellsWf, Bool.and_eq_true, decide_eq_true_eq] at h
    simp only [cellsSet]
    split
    · rename_i hlt
      by_cases hv : v = 0#8
      · by_cases hj : j = k
        · subst hj
          simp only [hv, if_true]
          exact cellsGet_below (cellsWf_from hw) hlt
        · simp [hv, hj]
      · by_cases hj : j = k
        · simp [cellsGet, hv, hj]
        · simp [cellsGet, hv, hj, Ne.symm hj]
    · split
      · rename_i _ heq
        subst heq
        by_cases hv : v = 0#8
        · by_cases hj : j = k
          · subst hj
            simp only [hv, if_true]
            exact cellsGet_below h.2 (by omega)
          · simp [cellsGet, hv, hj, Ne.symm hj]
        · by_cases hj : j = k
          · simp [cellsGet, hv, hj]
          · simp [cellsGet, hv, hj, Ne.symm hj]
      · rename_i _ hne
        simp only [cellsGet, ih h.2]
        by_cases hja : a = j
        · have hjk : ¬ j = k := by omega
          simp [hja, hjk]
        · simp [hja]

/-! ## The poisoned sectors -/

theorem rising_mono {l : List Nat} {m n : Nat} (h : rising n l = true) (hm : m ≤ n) : rising m l = true := by
  cases l with
  | nil => rfl
  | cons a rest =>
    simp only [rising, Bool.and_eq_true, decide_eq_true_eq] at h ⊢
    exact ⟨by omega, h.2⟩

theorem insertNat_rising {l : List Nat} {n : Nat} (k : Nat) (h : rising n l = true) (hk : n ≤ k) : rising n (insertNat l k) = true := by
  induction l generalizing n with
  | nil => simp [insertNat, rising, hk]
  | cons a rest ih =>
    have hw := h
    simp only [rising, Bool.and_eq_true, decide_eq_true_eq] at h
    simp only [insertNat]
    split
    · simp only [rising, Bool.and_eq_true, decide_eq_true_eq]; exact ⟨hk, by omega, h.2⟩
    · split
      · exact hw
      · simp only [rising, Bool.and_eq_true, decide_eq_true_eq]; exact ⟨h.1, ih h.2 (by omega)⟩

theorem filter_rising {l : List Nat} {n : Nat} (p : Nat → Bool) (h : rising n l = true) : rising n (l.filter p) = true := by
  induction l generalizing n with
  | nil => rfl
  | cons a rest ih =>
    simp only [rising, Bool.and_eq_true, decide_eq_true_eq] at h
    by_cases hp : p a = true
    · simp only [List.filter_cons, hp, if_true, rising, Bool.and_eq_true, decide_eq_true_eq]; exact ⟨h.1, ih h.2⟩
    · simp only [List.filter_cons, hp, Bool.false_eq_true, if_false]; exact rising_mono (ih h.2) (by omega)

/-! ## Memory -/

/-- A fold of operations that each keep a property keeps it. -/
theorem foldl_keeps {α β : Type} (P : β → Prop) (f : β → α → β) (hf : ∀ b a, P b → P (f b a)) (l : List α) (b : β) (h : P b) : P (l.foldl f b) := by
  induction l generalizing b with
  | nil => exact h
  | cons a rest ih => exact ih _ (hf b a h)

theorem wf_cells {m : Memory} (h : m.wf = true) : cellsWf 0 m.cells = true := by
  simp only [Memory.wf, Bool.and_eq_true] at h; exact h.1

/-- A byte after a write of a byte. -/
theorem byte_setByte {m : Memory} (h : m.wf = true) (k : Nat) (v : Byte) (j : Nat) : (m.setByte k v).byte j = if j = k then v else m.byte j :=
  cellsGet_set k v j (wf_cells h)

theorem setByte_wf {m : Memory} (h : m.wf = true) (k : Nat) (v : Byte) : (m.setByte k v).wf = true := by
  simp only [Memory.wf, Memory.setByte, Bool.and_eq_true] at h ⊢
  exact ⟨cellsSet_wf k v h.1 (Nat.zero_le _), h.2⟩

theorem setBytes_wf (b : List Byte) {m : Memory} (h : m.wf = true) (k : Nat) : (m.setBytes k b).wf = true := by
  induction b generalizing m k with
  | nil => exact h
  | cons v rest ih => exact ih (setByte_wf h k v) (k + 1)

theorem setDword_wf {m : Memory} (h : m.wf = true) (k : Nat) (v : DWord) : (m.setDword k v).wf = true := setBytes_wf _ h k

/-- A byte after a write of bytes. -/
theorem byte_setBytes (b : List Byte) {m : Memory} (h : m.wf = true) (k j : Nat) :
    (m.setBytes k b).byte j = if k ≤ j ∧ j < k + b.length then b.getD (j - k) 0 else m.byte j := by
  induction b generalizing m k with
  | nil =>
    simp [Memory.setBytes]
  | cons v rest ih =>
    simp only [Memory.setBytes, ih (setByte_wf h k v) (k + 1), byte_setByte h, List.length_cons]
    by_cases h1 : k + 1 ≤ j ∧ j < k + 1 + rest.length
    · have h2 : k ≤ j ∧ j < k + (rest.length + 1) := by omega
      have h3 : j - k = (j - (k + 1)) + 1 := by omega
      simp only [h1, h2, and_self, if_true, h3, List.getD_cons_succ]
    · simp only [h1, if_false]
      by_cases hj : j = k
      · subst hj
        have h2 : j ≤ j ∧ j < j + (rest.length + 1) := by omega
        simp [h2]
      · have h2 : ¬ (k ≤ j ∧ j < k + (rest.length + 1)) := by omega
        simp [hj, h2]

theorem setBad_wf {m : Memory} (h : m.wf = true) (n : Nat) (b : Bool) : (m.setBad n b).wf = true := by
  simp only [Memory.wf, Memory.setBad, Bool.and_eq_true] at h ⊢
  refine ⟨h.1, ?_⟩
  cases b with
  | false => exact filter_rising _ h.2
  | true => exact insertNat_rising n h.2 (Nat.zero_le _)

@[simp] theorem byte_setBad (m : Memory) (n : Nat) (b : Bool) (k : Nat) : (m.setBad n b).byte k = m.byte k := rfl

theorem setLineBad_wf {m : Memory} (h : m.wf = true) (line : Nat) (which : BitVec 4) (b : Bool) : (m.setLineBad line which b).wf = true :=
  foldl_keeps (fun m => m.wf = true) _ (fun m n hm => by
    by_cases hw : which.getLsbD n = true
    · simp only [hw, if_true]; exact setBad_wf hm _ b
    · simp only [hw, Bool.false_eq_true, if_false]; exact hm) _ m h

/-- Poisoning a line's sectors, or clearing them, changes no byte. -/
@[simp] theorem byte_setLineBad (m : Memory) (line : Nat) (which : BitVec 4) (b : Bool) (k : Nat) : (m.setLineBad line which b).byte k = m.byte k :=
  foldl_keeps (fun x => x.byte k = m.byte k) _ (fun x n hx => by
    by_cases hw : which.getLsbD n = true
    · simp only [hw, if_true, byte_setBad]; exact hx
    · simp only [hw, Bool.false_eq_true, if_false]; exact hx) _ m rfl

theorem setLine_wf {m : Memory} (h : m.wf = true) (line : Nat) (mask : BitVec 128) (d : BitVec 1024) : (m.setLine line mask d).wf = true :=
  foldl_keeps (fun m => m.wf = true) _ (fun _ _ hm => setByte_wf hm _ _) _ m h

theorem store_wf {m : Memory} (h : m.wf = true) (line : Nat) (mask : BitVec 128) (d : BitVec 1024) : (m.store line mask d).wf = true :=
  setLineBad_wf (setLine_wf h line mask d) line _ false

/-- A byte after the bytes of a list of places in a line have been written. -/
theorem byte_foldl_set (line : Nat) (d : BitVec 1024) (k : Nat) (l : List Nat) (hl : ∀ n ∈ l, n < 128) {m : Memory} (h : m.wf = true) :
    (l.foldl (fun m n => m.setByte (line * 128 + n) (lineByte d n)) m).byte k =
      if k / 128 = line ∧ k % 128 ∈ l then lineByte d (k % 128) else m.byte k := by
  induction l generalizing m with
  | nil => simp
  | cons a rest ih =>
    have ha : a < 128 := hl a (by simp)
    simp only [List.foldl_cons, ih (fun n hn => hl n (by simp [hn])) (setByte_wf h _ _), byte_setByte h, List.mem_cons]
    by_cases h1 : k / 128 = line ∧ k % 128 ∈ rest
    · simp [h1]
    · by_cases h2 : k = line * 128 + a
      · have h3 : k / 128 = line := by omega
        have h4 : k % 128 = a := by omega
        subst h4
        by_cases h5 : k % 128 ∈ rest <;> simp [h3, h5, ← h2]
      · have h3 : ¬ (k / 128 = line ∧ (k % 128 = a ∨ k % 128 ∈ rest)) := by
          rintro ⟨h4, h5 | h5⟩
          · omega
          · exact h1 ⟨h4, h5⟩
        simp [h1, h2, h3]

/-- A byte after a store (R83, R300): the masked bytes of the line are those stored; every other byte is as it was. -/
theorem byte_store {m : Memory} (h : m.wf = true) (line : Nat) (mask : BitVec 128) (d : BitVec 1024) (k : Nat) :
    (m.store line mask d).byte k = if k / 128 = line ∧ mask.getLsbD (k % 128) = true then lineByte d (k % 128) else m.byte k := by
  have hm : k % 128 < 128 := Nat.mod_lt _ (by omega)
  simp only [Memory.store, byte_setLineBad, Memory.setLine]
  rw [byte_foldl_set line d k (maskBytes mask) (fun n hn => by simp [maskBytes] at hn; exact hn.1) h]
  have : k % 128 ∈ maskBytes mask ↔ mask.getLsbD (k % 128) = true := by simp [maskBytes, hm]
  simp only [this]

/-! ## Stores at a home -/

theorem homeStore_mem (s : State) (line : Nat) (mask : BitVec 128) (d : BitVec 1024) : (s.homeStore line mask d).mem = s.mem.store line mask d := rfl

/-! ### The caches' records of a write leave memory as it is -/

@[simp] theorem l2Drop_mem (s : State) (line : Nat) (keep : Option Oct) : (s.l2Drop line keep).mem = s.mem := rfl

@[simp] theorem recallL2_mem (s : State) (home : Oct) (line : Nat) : (s.recallL2 home line).mem = s.mem := rfl

@[simp] theorem keepBelow_mem (s : State) (home : Oct) (line : Nat) : (s.keepBelow home line).mem = s.mem := by
  unfold State.keepBelow; split <;> rfl

@[simp] theorem l3Insert_mem (s : State) (oct : Oct) (p : Nat) (l : L3Line) : (s.l3Insert oct p l).1.mem = s.mem := by
  simp only [State.l3Insert]
  split
  · rfl
  · split <;> rfl

@[simp] theorem l3Take_mem (s : State) (oct : Oct) (line ctx : Nat) : (s.l3Take oct line ctx).mem = s.mem := by
  simp only [State.l3Take]
  split
  · rfl
  · split <;> rfl

@[simp] theorem l2Take_mem (s : State) (oct : Oct) (line ctx : Nat) : (s.l2Take oct line ctx).mem = s.mem := by
  simp only [State.l2Take]
  split <;> rfl

@[simp] theorem noteWrite_mem (s : State) (home : Oct) (line ctx : Nat) (policy : Policy) (key : Option (BitVec 16)) :
    (s.noteWrite home line ctx policy key).mem = s.mem := by
  have hk : ((if key.isSome then (s.recallL2 home line).l2Drop line none else s).keepBelow home line).mem = s.mem := by
    rw [keepBelow_mem]; split <;> rfl
  revert hk
  simp only [State.noteWrite]
  generalize (if key.isSome = true then (s.recallL2 home line).l2Drop line none else s).keepBelow home line = t
  intro hk
  rw [← hk]
  repeat' split
  · rw [modOct_mem, l2Take_mem]
  · rw [modOct_mem, l3Take_mem]
  · rw [l3Insert_mem]

@[simp] theorem noteOutside_mem (s : State) (line : Nat) : (s.noteOutside line).mem = s.mem := by
  simp only [State.noteOutside, modOct_mem, keepBelow_mem]

/-! ### Bytes of a context, of the host and of a peer -/

theorem putLine_wf {s : State} (h : s.mem.wf = true) (ctx line : Nat) (mask : BitVec 128) (d : BitVec 1024) :
    (s.putLine ctx line mask d).mem.wf = true := by
  unfold State.putLine
  split
  · rw [homeStore_mem, noteWrite_mem]; exact store_wf h _ _ _
  · exact store_wf h _ _ _

theorem putKey_wf {s : State} (h : s.mem.wf = true) (ctx key : Nat) (b : List Byte) : (s.putKey ctx key b).mem.wf = true :=
  foldl_keeps (fun s => s.mem.wf = true) _ (fun _ _ hs => putLine_wf hs _ _ _ _) _ s h

theorem putVa_wf {s : State} (h : s.mem.wf = true) (ctx va : Nat) (b : List Byte) : (s.putVa ctx va b).mem.wf = true := by
  unfold State.putVa
  split
  · exact putKey_wf h _ _ _
  · exact h

theorem putLong_wf {s : State} (h : s.mem.wf = true) (ctx va : Nat) (b : List Byte) : (s.putLong ctx va b).mem.wf = true :=
  foldl_keeps (fun s => s.mem.wf = true) _ (fun _ _ hs => putVa_wf hs ctx _ _) _ s h

theorem outsideLine_wf {s : State} (h : s.mem.wf = true) (line : Nat) (mask : BitVec 128) (d : BitVec 1024) (poisoned : Bool) :
    (s.outsideLine line mask d poisoned).mem.wf = true := by
  have ho : (if line * 128 < 2 ^ 52 then (s.noteOutside line).storeLine line mask d else { s with mem := s.mem.store line mask d } : State).mem
      = s.mem.store line mask d := by
    split
    · show (s.noteOutside line).mem.store line mask d = _
      rw [noteOutside_mem]
    · rfl
  simp only [State.outsideLine]
  split
  · exact setLineBad_wf (by rw [ho]; exact store_wf h _ _ _) _ _ true
  · rw [ho]; exact store_wf h _ _ _

theorem outsideWrite_wf {s : State} (h : s.mem.wf = true) (key : Nat) (b : List Byte) (poisoned : Bool) :
    (s.outsideWrite key b poisoned).mem.wf = true :=
  foldl_keeps (fun p => p.1.mem.wf = true) _ (fun _ _ hp => outsideLine_wf hp _ _ _ _) _ (s, b) h

/-! ## Accumulator words and sparse registers -/

/-- A word below every listed number reads 0. -/
theorem wordsGet_below {l : List (Nat × Word)} {k : Nat} (h : ∀ p ∈ l, k < p.1) : wordsGet l k = 0 := by
  induction l with
  | nil => rfl
  | cons c rest ih =>
    obtain ⟨a, b⟩ := c
    have ha : a ≠ k := by have := h (a, b) (by simp); simp at this; omega
    simp only [wordsGet, ha, if_false]
    exact ih fun p hp => h p (by simp [hp])

/-- A register of a sparse array that is written with a value other than 0 reads that value. -/
theorem regsGet_set_self {l : RegArray} {k : Nat} {v : DWord} (hv : v ≠ 0#64) : regsGet (regsSet l k v) k = v := by
  induction l with
  | nil => simp [regsSet, regsGet, hv]
  | cons c rest ih =>
    obtain ⟨a, b⟩ := c
    simp only [regsSet]
    split
    · simp [hv, regsGet]
    · split
      · simp [hv, regsGet]
      · rename_i h1 h2
        simp [regsGet, Ne.symm h2, ih]

end Laws
end Sys2Proof
end

