-- ==== Sys2Proof/Laws/Ops.lean ====
section
/-! SUPPORT. One lemma for each shared operation of the words: what issuing a word does when nothing traps, which parts of the state each
operation can change, and what reading back gives. -/

namespace Sys2Proof
namespace Laws

open Sys2Proof.Machine

/-! ## Issuing a word (R363) -/

/-- A word that nothing stops takes its effect on the state with its index registers stepped. -/
theorem word_runs {i : Instr} {ck : Checks} {eff : State → State} {s : State} (hi : ck.illegal = false) (hc : Clear i ck s)
    (hp : ck.priv = 0) (ha : ck.accept = true) (ho : ck.overflow = 0) (hq : ck.poison = none) (hn : ck.own = none)
    (hr : RowsFit (eff (s.modW fun w => w.stepAll s.latch (ck.stepIn.getD s.cur.active) (stepOps i)))
      ∧ (eff (s.modW fun w => w.stepAll s.latch (ck.stepIn.getD s.cur.active) (stepOps i))).w.wide = s.w.wide) :
    word i ck eff s = .next (eff (s.modW fun w => w.stepAll s.latch (ck.stepIn.getD s.cur.active) (stepOps i))) := by
  obtain ⟨h1, h2⟩ := hr
  have h3 : ¬ s.w.wide < gCount (eff (s.modW fun w => w.stepAll s.latch (ck.stepIn.getD s.cur.active) (stepOps i))).w := by
    unfold RowsFit at h1; rw [h2] at h1; exact Nat.not_lt.mpr h1
  simp [word, hi, hc.bound, hp, ha, ho, hq, hn, hc.good, h3]

/-- A word always answers a next state. -/
theorem word_next (i : Instr) (ck : Checks) (eff : State → State) (s : State) : ∃ t, word i ck eff s = .next t := by
  unfold word
  split
  · exact ⟨_, rfl⟩
  · split
    · exact ⟨_, rfl⟩
    · split
      · exact ⟨_, rfl⟩
      · split
        · exact ⟨_, rfl⟩
        · dsimp only
          split
          · exact ⟨_, rfl⟩
          · split
            · exact ⟨_, rfl⟩
            · split
              · exact ⟨_, rfl⟩
              · exact ⟨_, rfl⟩
              · split <;> exact ⟨_, rfl⟩

/-! ## Auto-steps (R223, R226) -/

theorem setX_other (w : Wave) (n : XNum) (x : XReg) :
    w.setX n x = { w with regs := { w.regs with x := w.regs.x.set n x } } := rfl

/-- Steps change index registers only. -/
theorem stepAll_frame (w : Wave) (r : Regs) (m : Mask) (xs : List (XNum × Bool)) :
    w.stepAll r m xs = { w with regs := { w.regs with x := (w.stepAll r m xs).regs.x } } := by
  induction xs generalizing w with
  | nil => rfl
  | cons p rest ih =>
    have h := ih (w.setX p.1 ((w.regs.x[p.1]).setVal m fun L => (r.x[p.1]).stepped p.2 (r.x[p.1]).val[L]))
    simp only [Wave.stepAll, List.foldl_cons] at h ⊢
    rw [h]; rfl

/-- A word without operands that step steps nothing. -/
@[simp] theorem stepAll_nil (w : Wave) (r : Regs) (m : Mask) : w.stepAll r m [] = w := rfl

theorem xregs_set (v : Vector XReg 16) (n k : XNum) (x : XReg) : (v.set n x)[k] = if k = n then x else v[k] := by
  by_cases h : k = n
  · subst h; simp
  · have : n.val ≠ k.val := fun e => h (Fin.ext e.symm)
    simp [h, this]

/-- The index registers that are not among the steps keep what they hold. -/
theorem stepAll_not (w : Wave) (r : Regs) (m : Mask) (xs : List (XNum × Bool)) (x : XNum) (h : ∀ b, (x, b) ∉ xs) :
    (w.stepAll r m xs).regs.x[x] = w.regs.x[x] := by
  induction xs generalizing w with
  | nil => rfl
  | cons p rest ih =>
    have hp : x ≠ p.1 := by
      rintro rfl; exact h p.2 List.mem_cons_self
    have h2 := ih (w.setX p.1 ((w.regs.x[p.1]).setVal m fun L => (r.x[p.1]).stepped p.2 (r.x[p.1]).val[L]))
      (fun b hb => h b (List.mem_cons_of_mem _ hb))
    simp only [Wave.stepAll, List.foldl_cons] at h2 ⊢
    rw [h2]
    simp only [Wave.setX]
    rw [xregs_set]; simp [hp]

/-- An index register that is stepped once. -/
theorem stepAll_mem (w : Wave) (r : Regs) (m : Mask) (xs : List (XNum × Bool)) (hn : (xs.map Prod.fst).Nodup) (x : XNum) (b : Bool)
    (h : (x, b) ∈ xs) :
    (w.stepAll r m xs).regs.x[x] = (w.regs.x[x]).setVal m fun L => (r.x[x]).stepped b (r.x[x]).val[L] := by
  induction xs generalizing w with
  | nil => cases h
  | cons p rest ih =>
    rw [List.map_cons, List.nodup_cons] at hn
    have hfold : w.stepAll r m (p :: rest)
        = (w.setX p.1 ((w.regs.x[p.1]).setVal m fun L => (r.x[p.1]).stepped p.2 (r.x[p.1]).val[L])).stepAll r m rest := rfl
    rw [hfold]
    rcases List.mem_cons.mp h with hp | hr
    · subst hp
      rw [stepAll_not _ _ _ _ _ (fun b' hb' => hn.1 (List.mem_map.mpr ⟨_, hb', rfl⟩))]
      simp only [Wave.setX]
      rw [xregs_set]; simp
    · have hx : x ≠ p.1 := fun e => hn.1 (List.mem_map.mpr ⟨_, hr, e⟩)
      rw [ih _ hn.2 hr]
      simp only [Wave.setX]
      rw [xregs_set]; simp [hx]

theorem mem_steps (os : List VOp) (x : XNum) (b : Bool) : (x, b) ∈ steps os ↔ (if b then VOp.inc x else VOp.dec x) ∈ os := by
  simp only [steps, List.mem_dedup, List.mem_filterMap]
  constructor
  · rintro ⟨o, ho, h⟩
    cases o <;> simp [VOp.step] at h
    · obtain ⟨rfl, rfl⟩ := h; simpa using ho
    · obtain ⟨rfl, rfl⟩ := h; simpa using ho
  · intro h
    cases b
    · exact ⟨_, h, by simp [VOp.step]⟩
    · exact ⟨_, h, by simp [VOp.step]⟩

/-- Under R226 no index register is stepped both ways. -/
theorem not_both {i : Instr} (hf : i.oneForm = true) (x : XNum) : ¬ (VOp.inc x ∈ i.vops ∧ VOp.dec x ∈ i.vops) := by
  rintro ⟨h1, h2⟩
  simp only [Instr.oneForm, List.all_eq_true, Bool.or_eq_true] at hf
  have a1 : (x, XForm.inc) ∈ i.vops.filterMap VOp.xform ++ i.tops.filterMap TOp.xform :=
    List.mem_append_left _ (List.mem_filterMap.mpr ⟨_, h1, rfl⟩)
  have a2 : (x, XForm.dec) ∈ i.vops.filterMap VOp.xform ++ i.tops.filterMap TOp.xform :=
    List.mem_append_left _ (List.mem_filterMap.mpr ⟨_, h2, rfl⟩)
  have := hf _ a1 _ a2
  simp at this

theorem steps_nodup {i : Instr} (hf : i.oneForm = true) : ((stepOps i).map Prod.fst).Nodup := by
  have hn : (stepOps i).Nodup := List.nodup_dedup _
  refine (List.nodup_map_iff_inj_on hn).mpr ?_
  rintro ⟨x, b⟩ hx ⟨y, c⟩ hy h
  simp only at h; subst h
  have h1 := (mem_steps i.vops x b).mp hx
  have h2 := (mem_steps i.vops x c).mp hy
  have := not_both hf x
  cases b <;> cases c <;> simp_all

/-- Every index register after the auto-steps of a word. -/
theorem stepAll_index {i : Instr} (hf : i.oneForm = true) (s : State) (m : Mask) (x : XNum) :
    (s.w.stepAll s.latch m (stepOps i)).regs.x[x] = xAfter i s m x := by
  have hb := not_both hf x
  by_cases h1 : VOp.inc x ∈ i.vops
  · have h2 : VOp.dec x ∉ i.vops := fun h => hb ⟨h1, h⟩
    rw [stepAll_mem _ _ _ _ (steps_nodup hf) x true ((mem_steps _ _ _).mpr (by simpa using h1))]
    simp only [xAfter, XReg.setVal, XReg.stepped, h1, h2, and_true, and_false, if_true, if_false]
  · by_cases h2 : VOp.dec x ∈ i.vops
    · rw [stepAll_mem _ _ _ _ (steps_nodup hf) x false ((mem_steps _ _ _).mpr (by simpa using h2))]
      simp [xAfter, XReg.setVal, XReg.stepped, h1, h2]
    · rw [stepAll_not]
      · have : (Vector.ofFn fun L : Lane => s.w.regs.x[x].val[L]) = s.w.regs.x[x].val := by
          apply Vector.ext; intro j hj; simp
        simp only [xAfter, h1, h2, and_false, if_false]
        rw [this]
      · intro b hm
        have := (mem_steps _ _ _).mp hm
        cases b <;> simp_all

/-- The auto-steps of a word replace the index registers and nothing else. -/
theorem steps_eq {i : Instr} (hf : i.oneForm = true) (s : State) (m : Mask) :
    ∃ X : Vector XReg 16, (∀ x : XNum, X[x] = xAfter i s m x) ∧
      (s.modW fun w => w.stepAll s.latch m (stepOps i)) = { s with w := { s.w with regs := { s.w.regs with x := X } } } := by
  refine ⟨_, fun x => stepAll_index hf s m x, ?_⟩
  unfold State.modW
  exact congrArg (fun w => { s with w := w }) (stepAll_frame s.w s.latch m (stepOps i))

/-! ## Writing registers -/

theorem sregs_set (v : Vector Word 64) (n k : SReg) (x : Word) : (v.set n x)[k] = if k = n then x else v[k] := by
  by_cases h : k = n
  · subst h; simp
  · have : n.val ≠ k.val := fun e => h (Fin.ext e.symm)
    simp [h, this]

theorem kregs_set (v : Vector Mask 8) (n k : KReg) (x : Mask) : (v.set n x)[k] = if k = n then x else v[k] := by
  by_cases h : k = n
  · subst h; simp
  · have : n.val ≠ k.val := fun e => h (Fin.ext e.symm)
    simp [h, this]

/-- A write to a scalar register, seen from outside. -/
theorem resultS_written {i : Instr} (hf : i.oneForm = true) (s : State) (m : Mask) (d : SReg) (v : Word) (l : Latency) :
    ScalarWritten i s ((s.modW fun w => w.stepAll s.latch m (stepOps i)).resultS d v l) m d v := by
  obtain ⟨X, hX, he⟩ := steps_eq hf s m
  rw [he]
  by_cases h : d = 0
  · simp only [State.resultS, h, if_true]
    exact ⟨fun h' => absurd rfl h', fun r _ => rfl, hX, rfl, rfl, rfl⟩
  · simp only [State.resultS, h, if_false, State.modW, State.pend, Wave.writeS]
    refine ⟨fun _ => ?_, fun r hr => ?_, hX, rfl, rfl, rfl⟩
    · exact (sregs_set _ _ _ _).trans (if_pos rfl)
    · exact (sregs_set _ _ _ _).trans (if_neg (by rcases hr with hr | hr; exacts [hr, absurd hr h]))

/-- A write to a mask register, seen from outside. -/
theorem resultK_written {i : Instr} (hf : i.oneForm = true) (s : State) (m : Mask) (d : KReg) (v : Mask) (l : Latency) :
    MaskWritten i s ((s.modW fun w => w.stepAll s.latch m (stepOps i)).resultK d v l) m d v := by
  obtain ⟨X, hX, he⟩ := steps_eq hf s m
  rw [he]
  by_cases h : d = 0
  · simp only [State.resultK, h, if_true]
    exact ⟨fun h' => absurd rfl h', fun r _ => rfl, hX, rfl, rfl, rfl⟩
  · simp only [State.resultK, h, if_false, State.modW, State.pend, Wave.writeK]
    refine ⟨fun _ => ?_, fun r hr => ?_, hX, rfl, rfl, rfl⟩
    · exact (kregs_set _ _ _ _).trans (if_pos rfl)
    · exact (kregs_set _ _ _ _).trans (if_neg (by rcases hr with hr | hr; exacts [hr, absurd hr h]))

/-! ## Writing vector registers (R218-R221, R231, R377) -/

theorem vregs_set (v : Vector VReg 256) (n k : Fin 256) (x : VReg) : (v.set n x)[k] = if k = n then x else v[k] := by
  by_cases h : k = n
  · subst h; simp
  · have : n.val ≠ k.val := fun e => h (Fin.ext e.symm)
    simp [h, this]

theorem merge_lane (r : VReg) (m : Mask) (f : Lane → Word) (L : Lane) : (r.merge m f).lane L = if m.getLsbD L.val then f L else r.lane L := by
  simp [VReg.merge, VReg.lane]

/-- A wave whose vector registers alone change, with what its older accesses still write. -/
def WaveV (w w' : Wave) : Prop := w' = { w with regs := { w.regs with v := w'.regs.v }, accs := w'.accs, poisoned := w'.poisoned }

theorem WaveV.trans {a b c : Wave} (h1 : WaveV a b) (h2 : WaveV b c) : WaveV a c := by
  unfold WaveV at *; rw [h2, h1]

theorem writeLanes_frame (w : Wave) (n : Fin 256) (m : Mask) (f : Lane → Word) : WaveV w (w.writeLanes n m f) := rfl

theorem writeWhole_frame (w : Wave) (n : Fin 256) (r : VReg) : WaveV w (w.writeWhole n r) := rfl

theorem writeLanes_lane (w : Wave) (n : Fin 256) (m : Mask) (f : Lane → Word) (k : Fin 256) (L : Lane) :
    ((w.writeLanes n m f).regs.v[k]).lane L = if k = n ∧ m.getLsbD L.val = true then f L else (w.regs.v[k]).lane L := by
  show ((w.regs.v.set n ((w.regs.v[n]).merge m f))[k]).lane L = _
  rw [vregs_set]
  by_cases h : k = n
  · subst h; simp only [if_true, true_and, merge_lane]
  · simp only [h, if_false, false_and]

theorem writeWhole_lane (w : Wave) (n : Fin 256) (r : VReg) (k : Fin 256) (L : Lane) :
    ((w.writeWhole n r).regs.v[k]).lane L = if k = n then r.lane L else (w.regs.v[k]).lane L := by
  show ((w.regs.v.set n r)[k]).lane L = _
  rw [vregs_set]; split <;> rfl

/-- The lane values that a shape stands for agree with `f` (R218, R220). -/
def ShapeIs (sh : Shape) (f : Lane → Word) : Prop :=
  match sh with
  | .u v => ∀ L, f L = v
  | .a b st => ∀ L : Lane, f L = b + BitVec.ofNat 32 L.val * st
  | .pending => True
  | .g => True

theorem mem_allLanes (L : Lane) : L ∈ allLanes := by
  simp only [allLanes, List.mem_ofFn]; exact ⟨L, rfl⟩

theorem getLsbD_maskOf (f : Lane → Bool) (L : Lane) : (maskOf f).getLsbD L.val = f L := by
  have key : ∀ (l : List Lane) (m : Mask),
      ((l.foldl (fun m L => if f L then m ||| (1#32 <<< L.val) else m) m).getLsbD L.val) = (m.getLsbD L.val || (decide (L ∈ l) && f L)) := by
    intro l
    induction l with
    | nil => intro m; simp
    | cons K rest ih =>
      intro m
      rw [List.foldl_cons, ih]
      by_cases hK : K = L
      · subst hK
        cases hf : f K <;> simp
      · have hne : (1#32 <<< K.val).getLsbD L.val = false := by
          have h1 : K.val ≠ L.val := fun e => hK (Fin.ext e)
          have := L.isLt
          simp only [BitVec.getLsbD_shiftLeft, BitVec.getLsbD_one]
          by_cases h : L.val < K.val
          · simp [h]
          · have : ¬ (L.val - K.val = 0) := by omega
            simp [this]
        have hL : ¬ L = K := fun e => hK e.symm
        cases hf : f K
        · simp [hL]
        · rw [if_pos rfl, BitVec.getLsbD_or, hne, Bool.or_false]; simp [hL]
  rw [maskOf, key]
  simp [mem_allLanes]

theorem mem_lanesOf (m : Mask) (L : Lane) : L ∈ lanesOf m ↔ m.getLsbD L.val = true := by
  simp only [lanesOf, List.mem_filter, mem_allLanes, true_and]

theorem mem_targets (r : Regs) (m : Mask) (o : VOp) (n : Fin 256) : n ∈ targets r m o ↔ ∃ L : Lane, m.getLsbD L.val = true ∧ resolve r o L = n := by
  simp only [targets, List.mem_dedup, List.mem_map, mem_lanesOf]

theorem allOnes_lane (L : Lane) : (BitVec.allOnes 32).getLsbD L.val = true := by
  simp only [BitVec.getLsbD_allOnes, L.isLt, decide_true]

/-- A fold of lane writes of several registers. -/
theorem foldl_writeLanes (g : Fin 256 → Fin 256) (mk : Fin 256 → Mask) (f : Lane → Word) (ts : List (Fin 256)) (w : Wave) :
    WaveV w (ts.foldl (fun w n => w.writeLanes (g n) (mk n) f) w) ∧
    ∀ (k : Fin 256) (L : Lane), ((ts.foldl (fun w n => w.writeLanes (g n) (mk n) f) w).regs.v[k]).lane L
      = if ∃ n ∈ ts, k = g n ∧ (mk n).getLsbD L.val = true then f L else (w.regs.v[k]).lane L := by
  induction ts generalizing w with
  | nil => exact ⟨rfl, fun k L => by simp⟩
  | cons n rest ih =>
    obtain ⟨h1, h2⟩ := ih (w.writeLanes (g n) (mk n) f)
    refine ⟨WaveV.trans (writeLanes_frame _ _ _ _) h1, fun k L => ?_⟩
    rw [List.foldl_cons, h2, writeLanes_lane]
    by_cases hr : ∃ n ∈ rest, k = g n ∧ (mk n).getLsbD L.val = true
    · rw [if_pos hr, if_pos]
      obtain ⟨a, ha, hb⟩ := hr
      exact ⟨a, List.mem_cons_of_mem _ ha, hb⟩
    · rw [if_neg hr]
      by_cases hn : k = g n ∧ (mk n).getLsbD L.val = true
      · rw [if_pos hn, if_pos ⟨n, List.mem_cons_self, hn⟩]
      · rw [if_neg hn, if_neg]
        rintro ⟨a, ha, hb⟩
        rcases List.mem_cons.mp ha with rfl | ha
        · exact hn hb
        · exact hr ⟨a, ha, hb⟩

/-- The register that lane L of an operand writes, `i` places up. -/
def target (r : Regs) (o : VOp) (i : Nat) (L : Lane) : Fin 256 := Fin.ofNat 256 (resolveNat r o L + i)

theorem target_resolve (r : Regs) (o : VOp) (i : Nat) (L : Lane) : Fin.ofNat 256 ((resolve r o L).val + i) = target r o i L := by
  apply Fin.ext; simp only [resolve, target, Fin.val_ofNat]; omega

theorem shift_inj (a b : Fin 256) (i : Nat) (h : Fin.ofNat 256 (a.val + i) = Fin.ofNat 256 (b.val + i)) : a = b := by
  have h2 := congrArg Fin.val h
  simp only [Fin.val_ofNat] at h2
  have := a.isLt; have := b.isLt
  apply Fin.ext; omega

/-- What a vector write leaves in every lane of every register (R377), whatever shape it gives the register. -/
theorem write_spec (w : Wave) (r : Regs) (m : Mask) (o : VOp) (i : Nat) (f : Lane → Word) (sh : Shape)
    (hs : m = BitVec.allOnes 32 → ∀ n, targets r m o = [n] → ShapeIs sh f) :
    WaveV w (w.write r m o i f sh) ∧
    ∀ (k : Fin 256) (L : Lane), ((w.write r m o i f sh).regs.v[k]).lane L
      = if m.getLsbD L.val = true ∧ k = target r o i L then f L else (w.regs.v[k]).lane L := by
  unfold Wave.write
  dsimp only
  by_cases hc : m = BitVec.allOnes 32 ∧ (targets r m o).length = 1
  · rw [if_pos hc]
    obtain ⟨hm, hl⟩ := hc
    obtain ⟨n, hn⟩ := List.length_eq_one_iff.mp hl
    have hsh := hs hm n hn
    have hres : ∀ L : Lane, resolve r o L = n := by
      intro L
      have : resolve r o L ∈ targets r m o := (mem_targets _ _ _ _).mpr ⟨L, by rw [hm]; exact allOnes_lane L, rfl⟩
      rw [hn] at this; simpa using this
    have ht : ∀ L : Lane, target r o i L = Fin.ofNat 256 (n.val + i) := by
      intro L; rw [← target_resolve, hres]
    have hml : ∀ L : Lane, m.getLsbD L.val = true := by intro L; rw [hm]; exact allOnes_lane L
    rw [hn]
    cases sh with
    | u v =>
      refine ⟨writeWhole_frame _ _ _, fun k L => ?_⟩
      dsimp only
      rw [writeWhole_lane, ht L, hml L]
      by_cases hk : k = Fin.ofNat 256 (n.val + i)
      · simp only [hk, if_true, and_self]; exact (hsh L).symm
      · simp only [hk, if_false, and_false]
    | a b st =>
      refine ⟨writeWhole_frame _ _ _, fun k L => ?_⟩
      dsimp only
      rw [writeWhole_lane, ht L, hml L]
      by_cases hk : k = Fin.ofNat 256 (n.val + i)
      · simp only [hk, if_true, and_self]
        exact (hsh L).symm
      · simp only [hk, if_false, and_false]
    | pending =>
      refine ⟨writeWhole_frame _ _ _, fun k L => ?_⟩
      dsimp only
      rw [writeWhole_lane, ht L, hml L]
      by_cases hk : k = Fin.ofNat 256 (n.val + i)
      · simp only [hk, if_true, and_self, VReg.lane, Fin.getElem_fin, Vector.getElem_ofFn, Fin.eta]
      · simp only [hk, if_false, and_false]
    | g =>
      refine ⟨writeLanes_frame _ _ _ _, fun k L => ?_⟩
      dsimp only
      rw [writeLanes_lane, ht L, hml L]
      by_cases hk : k = Fin.ofNat 256 (n.val + i)
      · simp only [hk, and_self]
      · simp only [hk, false_and, and_false]
  · rw [if_neg hc]
    obtain ⟨h1, h2⟩ := foldl_writeLanes (fun n => Fin.ofNat 256 (n.val + i)) (fun n => m &&& maskOf fun L => resolve r o L = n) f
      (targets r m o) w
    refine ⟨h1, fun k L => ?_⟩
    rw [h2]
    have e : (∃ n ∈ targets r m o, k = Fin.ofNat 256 (n.val + i) ∧ (m &&& maskOf fun L => resolve r o L = n).getLsbD L.val = true)
        ↔ (m.getLsbD L.val = true ∧ k = target r o i L) := by
      constructor
      · rintro ⟨n, _, hk, hL⟩
        rw [BitVec.getLsbD_and, getLsbD_maskOf, Bool.and_eq_true] at hL
        obtain ⟨ha, hb⟩ := hL
        have hb : resolve r o L = n := by simpa using hb
        exact ⟨ha, by rw [hk, ← hb, target_resolve]⟩
      · rintro ⟨ha, hk⟩
        refine ⟨resolve r o L, (mem_targets _ _ _ _).mpr ⟨L, ha, rfl⟩, by rw [hk, target_resolve], ?_⟩
        rw [BitVec.getLsbD_and, getLsbD_maskOf]; simp [ha]
    by_cases hx : m.getLsbD L.val = true ∧ k = target r o i L
    · rw [if_pos hx, if_pos (e.mpr hx)]
    · rw [if_neg hx, if_neg (fun h => hx (e.mp h))]

/-- Noting results in the window changes the window alone. -/
theorem foldl_pend (g : Fin 256 → RegName) (l : Latency) (ts : List (Fin 256)) (s : State) :
    ∃ W, ts.foldl (fun s n => s.pend (g n) l) s = { s with w := { s.w with window := W } } := by
  induction ts generalizing s with
  | nil => exact ⟨_, rfl⟩
  | cons n rest ih =>
    obtain ⟨W, h⟩ := ih (s.pend (g n) l)
    exact ⟨W, by rw [List.foldl_cons, h]; rfl⟩

/-- A vector result changes the wave's vector registers, its window, and what older accesses still write. -/
theorem result_eq (s : State) (m : Mask) (d : VOp) (i : Nat) (f : Lane → Word) (sh : Shape) (l : Latency)
    (hs : m = BitVec.allOnes 32 → ∀ n, targets s.latch m d = [n] → ShapeIs sh f) :
    ∃ V W A P, s.result m d i f sh l
        = { s with w := { s.w with regs := { s.w.regs with v := V }, window := W, accs := A, poisoned := P } } ∧
      ∀ (k : Fin 256) (L : Lane), (V[k]).lane L = if m.getLsbD L.val = true ∧ k = target s.latch d i L then f L else (s.w.regs.v[k]).lane L := by
  obtain ⟨h1, h2⟩ := write_spec s.w s.latch m d i f sh hs
  unfold State.result
  dsimp only
  obtain ⟨W, hW⟩ := foldl_pend (fun n => .v (Fin.ofNat 256 (n.val + i)) (m &&& maskOf fun L => resolve s.latch d L = n)) l
    (targets s.latch m d) (s.modW fun w => w.write s.latch m d i f sh)
  refine ⟨_, W, (s.w.write s.latch m d i f sh).accs, (s.w.write s.latch m d i f sh).poisoned, hW.trans ?_, h2⟩
  exact congrArg (fun w : Wave => { s with w := { w with window := W } }) h1

/-- The wave that a vector result of one register leaves, but for its window. -/
theorem result_wave (i : Instr) (s : State) (steps m : Mask) (d : VOp) (f : Lane → Word) (sh : Shape) (l : Latency) :
    ∃ W, (s.modW fun w => w.stepAll s.latch steps (stepOps i)).result m d 0 f sh l
      = { s with w := { waveAfter i s steps m d 1 (fun _ => f) (fun _ => sh) with window := W } } := by
  obtain ⟨W, hW⟩ := foldl_pend (fun n => .v (Fin.ofNat 256 (n.val + 0)) (m &&& maskOf fun L => resolve s.latch d L = n)) l
    (targets s.latch m d) ((s.modW fun w => w.stepAll s.latch steps (stepOps i)).modW fun w => w.write s.latch m d 0 f sh)
  exact ⟨W, hW⟩

/-- A vector result of one register, seen from outside. -/
theorem result_written {i : Instr} (hf : i.oneForm = true) (s : State) (steps m : Mask) (d : VOp) (f : Lane → Word) (sh : Shape) (l : Latency)
    (hs : m = BitVec.allOnes 32 → ∀ n, targets s.latch m d = [n] → ShapeIs sh f) :
    Written i s ((s.modW fun w => w.stepAll s.latch steps (stepOps i)).result m d 0 f sh l) steps m d 1 (fun _ => f) := by
  obtain ⟨X, hX, he⟩ := steps_eq hf s steps
  rw [he]
  obtain ⟨V, W, A, P, hV, hlane⟩ := result_eq { s with w := { s.w with regs := { s.w.regs with x := X } } } m d 0 f sh l hs
  rw [hV]
  refine ⟨fun L j hL hj => ?_, fun r L h => ?_, hX, rfl, rfl, rfl⟩
  · have : j = 0 := by omega
    subst this
    exact (hlane _ L).trans (if_pos ⟨hL, rfl⟩)
  · refine (hlane r L).trans (if_neg ?_)
    rintro ⟨h1, h2⟩
    exact h h1 0 (by omega) h2

/-- A wave's wide budget and registers in use are untouched by auto-steps and vector writes. -/
theorem waveAfter_wide (i : Instr) (s : State) (steps m : Mask) (d : VOp) (n : Nat) (val : Nat → Lane → Word) (sh : Nat → Shape)
    (hs : ∀ j, m = BitVec.allOnes 32 → ∀ k, targets s.latch m d = [k] → ShapeIs (sh j) (val j)) :
    (waveAfter i s steps m d n val sh).wide = s.w.wide := by
  have key : ∀ (l : List Nat) (w : Wave), (l.foldl (fun w j => w.write s.latch m d j (val j) (sh j)) w).wide = w.wide := by
    intro l
    induction l with
    | nil => intro w; rfl
    | cons j rest ih =>
      intro w
      rw [List.foldl_cons, ih]
      rw [(write_spec w s.latch m d j (val j) (sh j) (hs j)).1]
  rw [waveAfter, key, stepAll_frame]

/-- A word whose effect is one vector result completes, when its operands are clear and its rows fit. -/
theorem vector_runs {i : Instr} (hf : i.oneForm = true) {s : State} {ck : Checks} {m : Mask} {d : VOp} {f : Lane → Word} {sh : Shape} {l : Latency}
    (hi : ck.illegal = false) (hp : ck.priv = 0) (ha : ck.accept = true) (ho : ck.overflow = 0) (hq : ck.poison = none) (hn : ck.own = none)
    (hc : Clear i ck s) (hs : m = BitVec.allOnes 32 → ∀ n, targets s.latch m d = [n] → ShapeIs sh f)
    (hw : WriteFits i s (ck.stepIn.getD s.cur.active) m d 1 (fun _ => f) (fun _ => sh)) :
    ∃ t, word i ck (fun t => t.result m d 0 f sh l) s = .next t ∧
      Written i s t (ck.stepIn.getD s.cur.active) m d 1 (fun _ => f) := by
  refine ⟨_, word_runs hi hc hp ha ho hq hn ?_, result_written hf s _ m d f sh l hs⟩
  obtain ⟨W, hW⟩ := result_wave i s (ck.stepIn.getD s.cur.active) m d f sh l
  have hwide := waveAfter_wide i s (ck.stepIn.getD s.cur.active) m d 1 (fun _ => f) (fun _ => sh) (fun _ => hs)
  rw [hW]
  exact ⟨by show gCount (waveAfter _ _ _ _ _ _ _ _) ≤ (waveAfter _ _ _ _ _ _ _ _).wide; rw [hwide]; exact hw, hwide⟩

/-- A word whose effect is one scalar result completes, when its operands are clear. -/
theorem scalar_runs {i : Instr} (hf : i.oneForm = true) {s : State} {ck : Checks} {d : SReg} {v : Word} {l : Latency}
    (hi : ck.illegal = false) (hp : ck.priv = 0) (ha : ck.accept = true) (ho : ck.overflow = 0) (hq : ck.poison = none) (hn : ck.own = none)
    (hc : Clear i ck s) (hr : RowsFit s) :
    ∃ t, word i ck (fun t => t.resultS d v l) s = .next t ∧ ScalarWritten i s t (ck.stepIn.getD s.cur.active) d v := by
  refine ⟨_, word_runs hi hc hp ha ho hq hn ?_, resultS_written hf s _ d v l⟩
  obtain ⟨X, -, he⟩ := steps_eq hf s (ck.stepIn.getD s.cur.active)
  rw [he]
  by_cases h : d = 0
  · simp only [State.resultS, h, if_true]; exact ⟨hr, trivial⟩
  · simp only [State.resultS, h, if_false, State.modW, State.pend, Wave.writeS]; exact ⟨hr, trivial⟩

/-- A word whose effect is one mask result completes, when its operands are clear. -/
theorem mask_runs {i : Instr} (hf : i.oneForm = true) {s : State} {ck : Checks} {d : KReg} {v : Mask} {l : Latency}
    (hi : ck.illegal = false) (hp : ck.priv = 0) (ha : ck.accept = true) (ho : ck.overflow = 0) (hq : ck.poison = none) (hn : ck.own = none)
    (hc : Clear i ck s) (hr : RowsFit s) :
    ∃ t, word i ck (fun t => t.resultK d v l) s = .next t ∧ MaskWritten i s t (ck.stepIn.getD s.cur.active) d v := by
  refine ⟨_, word_runs hi hc hp ha ho hq hn ?_, resultK_written hf s _ d v l⟩
  obtain ⟨X, -, he⟩ := steps_eq hf s (ck.stepIn.getD s.cur.active)
  rw [he]
  by_cases h : d = 0
  · simp only [State.resultK, h, if_true]; exact ⟨hr, trivial⟩
  · simp only [State.resultK, h, if_false, State.modW, State.pend, Wave.writeK]; exact ⟨hr, trivial⟩

end Laws
end Sys2Proof
end

