-- ==== Sys2Proof/Laws/PerInstr.lean ====
section
/-! SUPPORT. The round trip of the encoding, instruction by instruction: a well-formed instruction that has a code is what the decoder reads
from that code, every operand at every value. -/

namespace Sys2Proof
namespace Laws
namespace RoundTrip

/-- A well-formed instruction that has a code is what the decoder reads from it (R343-R358). -/
def Statement (i : Instr) : Prop := i.wellFormed = true → ∀ c, encode i = some c → decode c = some i

/-- The statement from the decoding of the instruction's one code. -/
theorem of_code {i : Instr} {c : Code} (he : encode i = some c) (hd : i.fieldsOk = true → decode c = some i) : Statement i := by
  intro hw c' hc
  have hf : i.fieldsOk = true := by
    have := hw; simp only [Instr.wellFormed, Bool.and_eq_true] at this; exact this.1
  rw [he] at hc; cases hc; exact hd hf

/-- A happening has no code. -/
theorem of_none {i : Instr} (he : encode i = none) : Statement i := by
  intro _ c hc; rw [he] at hc; cases hc

/-- An instruction whose code has payload 0 and a major that does not require the prefix. -/
theorem plain {i : Instr} {m : Nat} {f : Fields} (he : encode i = some (mkCode m 0 f)) (h : m < 128) (hf : formatOf m = some f.format)
    (hr : prefixRequired m = false) (hs : (f.format == Format.SI) = false) (hd : decodeFields m (some 0) f = some i) : Statement i :=
  of_code he fun _ => (decode_mkCode m 0 f h hf (by decide) (by simp [hr]) (by simpa using hs)).trans hd

/-- An instruction whose code has a major that takes a prefix. -/
theorem long {i : Instr} {m p : Nat} {f : Fields} (he : encode i = some (mkCode m p f)) (h : m < 128) (hf : formatOf m = some f.format)
    (hp : p < 8388608) (ht : takesPrefix m = true) (hs : (f.format == Format.SI) = false)
    (hd : i.fieldsOk = true → decodeFields m (some p) f = some i) : Statement i :=
  of_code he fun hw => (decode_mkCode m p f h hf hp (fun _ => ht) (by simpa using hs)).trans (hd hw)

/-! ## Narrow fields -/

theorem fields_a (m p : Nat) (d a b : Fin 128) (f : Fin 4) : decodeFields m (some p) (.A d a b f) = decA m p d a b f := by
  simp only [decodeFields, Option.getD_some]
theorem zero_dir : encVOp (.dir 0) = 0 := by decide
theorem no_time : encMemTime (.dir 0) = (0, false) := rfl
theorem decK_zero : decK (0 : Fin 128) = some 0 := by decide
theorem vecRnd_enc (r : Rnd) (g : Rnd → Option Instr) : vecRnd (PVec.toNat { rnd := r }) g = g r := by
  simp only [vecRnd, pvec_ofNat, Option.bind_some]; simp
theorem vecInt_enc (ty : IntTy) (g : IntTy → Option Instr) :
    vecInt (PVec.toNat { uns := (encIntTy ty).1 }) (encIntTy ty).2 g = g ty := by
  simp [vecInt, pvec_ofNat]
theorem vecRndOvf_enc (r : Rnd) (o : Ovf) (g : Rnd → Ovf → Option Instr) : vecRndOvf (PVec.toNat { rnd := r, ovf := o }) g = g r o := by
  simp only [vecRndOvf, pvec_ofNat, Option.bind_some]; simp

theorem k_lt (k : KReg) : (Fin.ofNat 16 k.val).val < 8 := by revert k; decide
theorem k_field (k : KReg) : Fin.ofNat 8 (Fin.ofNat 16 k.val).val = k := by revert k; decide
theorem k8_lt (k : KReg) : ¬ (Fin.ofNat 16 (8 + k.val)).val < 8 := by revert k; decide
theorem k8_field (k : KReg) : Fin.ofNat 8 (Fin.ofNat 16 (8 + k.val)).val = k := by revert k; decide
theorem bar_lt (n : Fin 16) : (Fin.ofNat 64 n.val).val < 16 := by revert n; decide
theorem bar_field (n : Fin 16) : Fin.ofNat 16 (Fin.ofNat 64 n.val).val = n := by revert n; decide
theorem time_field (t : Fin 16) : (Fin.ofNat 32 t.val).val < 16 ∧ Fin.ofNat 16 (Fin.ofNat 32 t.val).val = t := by revert t; decide
theorem sc_field (s : Scope) : (Fin.ofNat 64 (encScope s)).val < 4 := by cases s <;> decide
theorem scope_field (s : Scope) : decScope (Fin.ofNat 64 (encScope s)).val = s := by cases s <;> rfl
theorem ord_field (o : Order) : decOrder (Fin.ofNat 4 (encOrder o)).val = o := by cases o <;> rfl

theorem num6 (n : BitVec 6) : BitVec.ofNat 6 (Fin.ofNat 64 n.toNat).val = n := by revert n; decide

theorem num8 (n : BitVec 8) :
    (Fin.ofNat 64 (n.toNat / 64)).val * 64 + (Fin.ofNat 64 n.toNat).val < 256 ∧
      BitVec.ofNat 8 ((Fin.ofNat 64 (n.toNat / 64)).val * 64 + (Fin.ofNat 64 n.toNat).val) = n := by
  have := n.isLt
  refine ⟨by simp only [Fin.val_ofNat]; omega, ?_⟩
  apply BitVec.eq_of_toNat_eq; simp only [Fin.val_ofNat, BitVec.toNat_ofNat]; omega

theorem num9 (n : BitVec 9) : BitVec.ofNat 9 (Fin.ofNat 512 n.toNat).val = n := by
  have := n.isLt
  apply BitVec.eq_of_toNat_eq; simp only [Fin.val_ofNat, BitVec.toNat_ofNat]; omega

theorem num12 (n : BitVec 12) : BitVec.ofNat 12 ((Fin.ofNat 64 (n.toNat / 64)).val * 64 + (Fin.ofNat 64 n.toNat).val) = n := by
  have := n.isLt
  apply BitVec.eq_of_toNat_eq; simp only [Fin.val_ofNat, BitVec.toNat_ofNat]; omega

theorem idx_zero (b c : BitVec 8) (s : BitVec 4) : idxPayload b c s % 8 = 0 := by simp only [idxPayload]; omega
theorem idx_base (b c : BitVec 8) (s : BitVec 4) : BitVec.ofNat 8 (idxPayload b c s / 32768) = b := by
  have := b.isLt; have := c.isLt; have := s.isLt
  apply BitVec.eq_of_toNat_eq; simp only [idxPayload, BitVec.toNat_ofNat]; omega
theorem idx_bound (b c : BitVec 8) (s : BitVec 4) : BitVec.ofNat 8 (idxPayload b c s / 128) = c := by
  have := b.isLt; have := c.isLt; have := s.isLt
  apply BitVec.eq_of_toNat_eq; simp only [idxPayload, BitVec.toNat_ofNat]; omega
theorem idx_step (b c : BitVec 8) (s : BitVec 4) : BitVec.ofNat 4 (idxPayload b c s / 8) = s := by
  have := b.isLt; have := c.isLt; have := s.isLt
  apply BitVec.eq_of_toNat_eq; simp only [idxPayload, BitVec.toNat_ofNat]; omega

theorem memBase_low (b : SPair) (h : b.val < 16) : memBase (Fin.ofNat 32 (2 * b.val)) false = some b := by
  revert b; decide

/-! ## The instructions -/

theorem stampWrite (req : Nat) : Statement (.stampWrite req) := of_none rfl
theorem stampRead (req : Nat) : Statement (.stampRead req) := of_none rfl
theorem wr (src : Oct) (dst : Oct) : Statement (.wr src dst) := of_none rfl
theorem wrel (src : Oct) (dst : Oct) : Statement (.wrel src dst) := of_none rfl
theorem rd (src : Oct) (dst : Oct) : Statement (.rd src dst) := of_none rfl
theorem racq (src : Oct) (dst : Oct) : Statement (.racq src dst) := of_none rfl
theorem rply (src : Oct) (dst : Oct) : Statement (.rply src dst) := of_none rfl
theorem aply (src : Oct) (dst : Oct) : Statement (.aply src dst) := of_none rfl
theorem bcn (src : Oct) (dst : Oct) : Statement (.bcn src dst) := of_none rfl
theorem refuse (src : Oct) (dst : Oct) : Statement (.refuse src dst) := of_none rfl
theorem retryResend (site : Oct) (home : Oct) : Statement (.retryResend site home) := of_none rfl
theorem mreq (src : Oct) (dst : Oct) : Statement (.mreq src dst) := of_none rfl
theorem mrply (src : Oct) (dst : Oct) : Statement (.mrply src dst) := of_none rfl
theorem beaconTimeout (site : Oct) (home : Oct) : Statement (.beaconTimeout site home) := of_none rfl
theorem retryBufferTimeout (site : Oct) : Statement (.retryBufferTimeout site) := of_none rfl
theorem stop (site : Oct) : Statement (.stop site) := of_none rfl
theorem stopped (site : Oct) : Statement (.stopped site) := of_none rfl
theorem drained (home : Oct) : Statement (.drained home) := of_none rfl
theorem l2ProbeAccept (req : Nat) (bad : BitVec 4) : Statement (.l2ProbeAccept req bad) := of_none rfl
theorem l3ReadAccept (req : Nat) (bad : BitVec 4) : Statement (.l3ReadAccept req bad) := of_none rfl
theorem hbmReadAccept (req : Nat) : Statement (.hbmReadAccept req) := of_none rfl
theorem hbmDataReturn (req : Nat) (found : EccFinding) : Statement (.hbmDataReturn req found) := of_none rfl
theorem homeAluAccept (req : Nat) : Statement (.homeAluAccept req) := of_none rfl
theorem translationComplete (wave : Nat) (held : Nat) : Statement (.translationComplete wave held) := of_none rfl
theorem refinement (wave : Nat) (acc : Nat) : Statement (.refinement wave acc) := of_none rfl
theorem valueArrival (wave : Nat) (acc : Nat) : Statement (.valueArrival wave acc) := of_none rfl
theorem lateNotice (wave : Nat) (acc : Nat) : Statement (.lateNotice wave acc) := of_none rfl
theorem promiseMatures (wave : Nat) : Statement (.promiseMatures wave) := of_none rfl
theorem kernel (q : Nat) : Statement (.kernel q) := of_none rfl
theorem taskpool (q : Nat) : Statement (.taskpool q) := of_none rfl
theorem signal (q : Nat) : Statement (.signal q) := of_none rfl
theorem event (q : Nat) : Statement (.event q) := of_none rfl
theorem wait (q : Nat) : Statement (.wait q) := of_none rfl
theorem dependenceSignalPoll (q : Nat) : Statement (.dependenceSignalPoll q) := of_none rfl
theorem packetCompletion (job : Nat) : Statement (.packetCompletion job) := of_none rfl
theorem backInvalidateResponse (req : Nat) : Statement (.backInvalidateResponse req) := of_none rfl
theorem ioContextBind (n : Nat) : Statement (.ioContextBind n) := of_none rfl
theorem ioContextUnbind (n : Nat) : Statement (.ioContextUnbind n) := of_none rfl
theorem cqPoll (n : Nat) : Statement (.cqPoll n) := of_none rfl
theorem ioRequestTimeout (n : Nat) (num : Nat) : Statement (.ioRequestTimeout n num) := of_none rfl
theorem ioSubmission (n : Nat) : Statement (.ioSubmission n) := of_none rfl
theorem suspensionComplete (p : Fin 8) : Statement (.suspensionComplete p) := of_none rfl
theorem matrixGate (core : Nat) : Statement (.matrixGate core) := of_none rfl
theorem groupPlacement (p : Fin 8) : Statement (.groupPlacement p) := of_none rfl
theorem quiescenceComplete (group : Nat) : Statement (.quiescenceComplete group) := of_none rfl
theorem binnerTimeout (ctx : Nat) : Statement (.binnerTimeout ctx) := of_none rfl
theorem barTimeout (group : Nat) (bar : Fin 16) : Statement (.barTimeout group bar) := of_none rfl
theorem eventOverflowScan (ctx : Nat) (name : BitVec 16) : Statement (.eventOverflowScan ctx name) := of_none rfl
theorem eventAddAtHome (req : Nat) : Statement (.eventAddAtHome req) := of_none rfl
theorem triggerCount (wave : Nat) : Statement (.triggerCount wave) := of_none rfl
theorem waveSlotFree (wave : Nat) : Statement (.waveSlotFree wave) := of_none rfl
theorem sleepExpiry (wave : Nat) : Statement (.sleepExpiry wave) := of_none rfl
theorem yieldTickExpiry (wave : Nat) : Statement (.yieldTickExpiry wave) := of_none rfl
theorem fixedLatencyResult (wave : Nat) : Statement (.fixedLatencyResult wave) := of_none rfl
theorem l1Fill (req : Nat) : Statement (.l1Fill req) := of_none rfl
theorem instructionFetch (wave : Nat) (pc : VA) : Statement (.instructionFetch wave pc) := of_none rfl
theorem replayIssue (wave : Nat) (held : Nat) : Statement (.replayIssue wave held) := of_none rfl
theorem bowWakeEnd (core : Nat) : Statement (.bowWakeEnd core) := of_none rfl
theorem bowFetchEnd (core : Nat) : Statement (.bowFetchEnd core) := of_none rfl
theorem bowStepEnd (core : Nat) : Statement (.bowStepEnd core) := of_none rfl
theorem bowDrainEnd (core : Nat) : Statement (.bowDrainEnd core) := of_none rfl
theorem bowStopEnd (core : Nat) : Statement (.bowStopEnd core) := of_none rfl
theorem accumulatorAccess (core : Nat) : Statement (.accumulatorAccess core) := of_none rfl
theorem copyComplete (wave : Nat) (acc : Nat) : Statement (.copyComplete wave acc) := of_none rfl
theorem cpaEvictionTimeout (wave : Nat) (acc : Nat) : Statement (.cpaEvictionTimeout wave acc) := of_none rfl
theorem streamHeaderPoll (core : Nat) (engine : Fin 4) : Statement (.streamHeaderPoll core engine) := of_none rfl
theorem streamPublish (core : Nat) (engine : Fin 4) : Statement (.streamPublish core engine) := of_none rfl
theorem streamAck (core : Nat) (engine : Fin 4) : Statement (.streamAck core engine) := of_none rfl
theorem cptComplete (core : Nat) (engine : Fin 4) : Statement (.cptComplete core engine) := of_none rfl
theorem fenceScComplete (wave : Nat) : Statement (.fenceScComplete wave) := of_none rfl
theorem homeAcknowledgement (req : Nat) : Statement (.homeAcknowledgement req) := of_none rfl
theorem prqRetry (index : Nat) : Statement (.prqRetry index) := of_none rfl
theorem prqFail (index : Nat) : Statement (.prqFail index) := of_none rfl
theorem sAdd (d : SReg) (a : SReg) (b : SReg) : Statement (.sAdd d a b) :=
  plain (m := 0x00) rfl (by decide) rfl rfl rfl rfl
theorem sSub (d : SReg) (a : SReg) (b : SReg) : Statement (.sSub d a b) :=
  plain (m := 0x00) rfl (by decide) rfl rfl rfl rfl
theorem sMul (d : SReg) (a : SReg) (b : SReg) : Statement (.sMul d a b) :=
  plain (m := 0x00) rfl (by decide) rfl rfl rfl rfl
theorem sMulh (d : SReg) (a : SReg) (b : SReg) : Statement (.sMulh d a b) :=
  plain (m := 0x00) rfl (by decide) rfl rfl rfl rfl
theorem sAnd (d : SReg) (a : SReg) (b : SReg) : Statement (.sAnd d a b) :=
  plain (m := 0x00) rfl (by decide) rfl rfl rfl rfl
theorem sOr (d : SReg) (a : SReg) (b : SReg) : Statement (.sOr d a b) :=
  plain (m := 0x00) rfl (by decide) rfl rfl rfl rfl
theorem sXor (d : SReg) (a : SReg) (b : SReg) : Statement (.sXor d a b) :=
  plain (m := 0x00) rfl (by decide) rfl rfl rfl rfl
theorem sShl (d : SReg) (a : SReg) (b : SReg) : Statement (.sShl d a b) :=
  plain (m := 0x00) rfl (by decide) rfl rfl rfl rfl
theorem sShr (d : SReg) (a : SReg) (b : SReg) : Statement (.sShr d a b) :=
  plain (m := 0x00) rfl (by decide) rfl rfl rfl rfl
theorem sSra (d : SReg) (a : SReg) (b : SReg) : Statement (.sSra d a b) :=
  plain (m := 0x00) rfl (by decide) rfl rfl rfl rfl
theorem sMin (d : SReg) (a : SReg) (b : SReg) : Statement (.sMin d a b) :=
  plain (m := 0x00) rfl (by decide) rfl rfl rfl rfl
theorem sMax (d : SReg) (a : SReg) (b : SReg) : Statement (.sMax d a b) :=
  plain (m := 0x00) rfl (by decide) rfl rfl rfl rfl
theorem sCmpEq (d : SReg) (a : SReg) (b : SReg) : Statement (.sCmpEq d a b) :=
  plain (m := 0x00) rfl (by decide) rfl rfl rfl rfl
theorem sCmpNe (d : SReg) (a : SReg) (b : SReg) : Statement (.sCmpNe d a b) :=
  plain (m := 0x00) rfl (by decide) rfl rfl rfl rfl
theorem sCmpLt (d : SReg) (a : SReg) (b : SReg) : Statement (.sCmpLt d a b) :=
  plain (m := 0x00) rfl (by decide) rfl rfl rfl rfl
theorem sCmpLe (d : SReg) (a : SReg) (b : SReg) : Statement (.sCmpLe d a b) :=
  plain (m := 0x00) rfl (by decide) rfl rfl rfl rfl
theorem sCmpLo (d : SReg) (a : SReg) (b : SReg) : Statement (.sCmpLo d a b) :=
  plain (m := 0x00) rfl (by decide) rfl rfl rfl rfl
theorem sCmpLs (d : SReg) (a : SReg) (b : SReg) : Statement (.sCmpLs d a b) :=
  plain (m := 0x00) rfl (by decide) rfl rfl rfl rfl
theorem sSel (d : SReg) (a : SReg) (b : SReg) : Statement (.sSel d a b) :=
  plain (m := 0x00) rfl (by decide) rfl rfl rfl rfl
theorem sBfx (d : SReg) (a : SReg) (b : SReg) : Statement (.sBfx d a b) :=
  plain (m := 0x00) rfl (by decide) rfl rfl rfl rfl
theorem sPopc (d : SReg) (a : SReg) : Statement (.sPopc d a) :=
  plain (m := 0x00) rfl (by decide) rfl rfl rfl rfl
theorem sClz (d : SReg) (a : SReg) : Statement (.sClz d a) :=
  plain (m := 0x00) rfl (by decide) rfl rfl rfl rfl
theorem sMov (d : SReg) (a : SReg) : Statement (.sMov d a) :=
  plain (m := 0x00) rfl (by decide) rfl rfl rfl rfl
theorem sLi (d : SReg) (imm : Word) : Statement (.sLi d imm) := by
  obtain ⟨p, h1, h2⟩ := decode_mkWide 0x01 d 0 imm (by decide) rfl rfl
  exact of_code rfl fun _ => h1.trans (by simp [-Fin.ofNat_eq_cast, -Fin.val_ofNat, decodeFields, decSI, h2])
theorem sAddi (d : SReg) (a : SReg) (imm : Word) : Statement (.sAddi d a imm) := by
  obtain ⟨p, h1, h2⟩ := decode_mkWide 0x02 d a imm (by decide) rfl rfl
  exact of_code rfl fun _ => h1.trans (by simp [-Fin.ofNat_eq_cast, -Fin.val_ofNat, decodeFields, decSI, h2])
theorem sRdlane (d : SReg) (a : VOp) (b : SReg) : Statement (.sRdlane d a b) :=
  plain (m := 0x03) rfl (by decide) rfl rfl rfl (by simp [-Fin.ofNat_eq_cast, -Fin.val_ofNat, decodeFields, decA])
theorem sWrlane (d : VOp) (a : SReg) (b : SReg) : Statement (.sWrlane d a b) :=
  plain (m := 0x03) rfl (by decide) rfl rfl rfl (by simp [-Fin.ofNat_eq_cast, -Fin.val_ofNat, decodeFields, decA])
theorem br (off : BitVec 19) : Statement (.br off) :=
  plain (m := 0x04) rfl (by decide) rfl rfl rfl (by simp only [decodeFields, decB, off_field]; simp [-Fin.ofNat_eq_cast, -Fin.val_ofNat])
theorem bc (k : KReg) (off : BitVec 19) : Statement (.bc k off) :=
  plain (m := 0x05) rfl (by decide) rfl rfl rfl (by simp only [decodeFields, decB, off_field]; simp [-Fin.ofNat_eq_cast, -Fin.val_ofNat])
theorem bvAny (k : KReg) (off : BitVec 19) : Statement (.bvAny k off) :=
  plain (m := 0x06) rfl (by decide) rfl rfl rfl (by simp only [decodeFields, decB, off_field]; simp [-Fin.ofNat_eq_cast, -Fin.val_ofNat, k_lt, k_field])
theorem bvAll (k : KReg) (off : BitVec 19) : Statement (.bvAll k off) :=
  plain (m := 0x06) rfl (by decide) rfl rfl rfl (by simp only [decodeFields, decB, off_field]; simp [-Fin.ofNat_eq_cast, -Fin.val_ofNat, k8_lt, k8_field])
theorem jr (a : SPair) : Statement (.jr a) :=
  plain (m := 0x07) rfl (by decide) rfl rfl rfl (by simp [-Fin.ofNat_eq_cast, -Fin.val_ofNat, decodeFields, decS])
theorem call (link : Fin 16) (off : BitVec 19) : Statement (.call link off) :=
  plain (m := 0x08) rfl (by decide) rfl rfl rfl (by simp only [decodeFields, decB, off_field])
theorem ret (a : SPair) : Statement (.ret a) :=
  plain (m := 0x09) rfl (by decide) rfl rfl rfl (by simp [-Fin.ofNat_eq_cast, -Fin.val_ofNat, decodeFields, decS])
theorem yieldTags (a : SPair) (sp : Bool) : Statement (.yieldTags a sp) :=
  plain (m := 0x0C) rfl (by decide) rfl rfl rfl (by cases sp <;> simp [-Fin.ofNat_eq_cast, -Fin.val_ofNat, decodeFields, decS])
theorem yieldTl (a : SPair) (b : SReg) (sp : Bool) : Statement (.yieldTl a b sp) :=
  plain (m := 0x0C) rfl (by decide) rfl rfl rfl (by cases sp <;> simp [-Fin.ofNat_eq_cast, -Fin.val_ofNat, decodeFields, decS])
theorem yieldEv (a : SReg) (b : SReg) (sp : Bool) : Statement (.yieldEv a b sp) :=
  plain (m := 0x0C) rfl (by decide) rfl rfl rfl (by cases sp <;> simp [-Fin.ofNat_eq_cast, -Fin.val_ofNat, decodeFields, decS])
theorem yieldTick (a : SPair) (sp : Bool) : Statement (.yieldTick a sp) :=
  plain (m := 0x0C) rfl (by decide) rfl rfl rfl (by cases sp <;> simp [-Fin.ofNat_eq_cast, -Fin.val_ofNat, decodeFields, decS])
theorem sleep (a : SReg) (imm : Word) : Statement (.sleep a imm) := by
  obtain ⟨p, h1, h2⟩ := decode_mkWide 0x0E 0 a imm (by decide) rfl rfl
  exact of_code rfl fun _ => h1.trans (by simp [-Fin.ofNat_eq_cast, -Fin.val_ofNat, decodeFields, decSI, h2])
theorem spawn (a : VOp) (b : SPair) : Statement (.spawn a b) :=
  plain (m := 0x0F) rfl (by decide) rfl rfl rfl (by simp [-Fin.ofNat_eq_cast, -Fin.val_ofNat, decodeFields, decA])
theorem launch (q : SReg) (p : SPair) : Statement (.launch q p) :=
  plain (m := 0x10) rfl (by decide) rfl rfl rfl (by simp [-Fin.ofNat_eq_cast, -Fin.val_ofNat, decodeFields, decQ, q2])
theorem add (ty : IntTy) (d : VOp) (a : VOp) (b : VOp) : Statement (.add ty d a b) :=
  long (m := 0x11) rfl (by decide) rfl (pvec_lt _) rfl rfl (fun _ => by simp [-Fin.ofNat_eq_cast, -Fin.val_ofNat, fields_a, decA, vecInt_enc])
theorem sub (ty : IntTy) (d : VOp) (a : VOp) (b : VOp) : Statement (.sub ty d a b) :=
  long (m := 0x12) rfl (by decide) rfl (pvec_lt _) rfl rfl (fun _ => by simp [-Fin.ofNat_eq_cast, -Fin.val_ofNat, fields_a, decA, vecInt_enc])
theorem mul (ty : IntTy) (d : VOp) (a : VOp) (b : VOp) : Statement (.mul ty d a b) :=
  long (m := 0x13) rfl (by decide) rfl (pvec_lt _) rfl rfl (fun _ => by simp [-Fin.ofNat_eq_cast, -Fin.val_ofNat, fields_a, decA, vecInt_enc])
theorem mulh (ty : IntTy) (d : VOp) (a : VOp) (b : VOp) : Statement (.mulh ty d a b) :=
  long (m := 0x14) rfl (by decide) rfl (pvec_lt _) rfl rfl (fun _ => by simp [-Fin.ofNat_eq_cast, -Fin.val_ofNat, fields_a, decA, vecInt_enc])
theorem mad (ty : IntTy) (d : VOp) (a : VOp) (b : VOp) : Statement (.mad ty d a b) :=
  long (m := 0x15) rfl (by decide) rfl (pvec_lt _) rfl rfl (fun _ => by simp [-Fin.ofNat_eq_cast, -Fin.val_ofNat, fields_a, decA, vecInt_enc])
theorem and (d : VOp) (a : VOp) (b : VOp) : Statement (.and d a b) :=
  plain (m := 0x16) rfl (by decide) rfl rfl rfl (by simp [-Fin.ofNat_eq_cast, -Fin.val_ofNat, decodeFields, decA, vec0, f0])
theorem or (d : VOp) (a : VOp) (b : VOp) : Statement (.or d a b) :=
  plain (m := 0x17) rfl (by decide) rfl rfl rfl (by simp [-Fin.ofNat_eq_cast, -Fin.val_ofNat, decodeFields, decA, vec0, f0])
theorem xor (d : VOp) (a : VOp) (b : VOp) : Statement (.xor d a b) :=
  plain (m := 0x18) rfl (by decide) rfl rfl rfl (by simp [-Fin.ofNat_eq_cast, -Fin.val_ofNat, decodeFields, decA, vec0, f0])
theorem shl (ty : IntTy) (d : VOp) (a : VOp) (b : VOp) : Statement (.shl ty d a b) :=
  long (m := 0x19) rfl (by decide) rfl (pvec_lt _) rfl rfl (fun _ => by simp [-Fin.ofNat_eq_cast, -Fin.val_ofNat, fields_a, decA, vecInt_enc])
theorem shr (ty : IntTy) (d : VOp) (a : VOp) (b : VOp) : Statement (.shr ty d a b) :=
  long (m := 0x1A) rfl (by decide) rfl (pvec_lt _) rfl rfl (fun _ => by simp [-Fin.ofNat_eq_cast, -Fin.val_ofNat, fields_a, decA, vecInt_enc])
theorem sra (ty : IntTy) (d : VOp) (a : VOp) (b : VOp) : Statement (.sra ty d a b) :=
  long (m := 0x1B) rfl (by decide) rfl (pvec_lt _) rfl rfl (fun _ => by simp [-Fin.ofNat_eq_cast, -Fin.val_ofNat, fields_a, decA, vecInt_enc])
theorem min (ty : IntTy) (d : VOp) (a : VOp) (b : VOp) : Statement (.min ty d a b) :=
  long (m := 0x1C) rfl (by decide) rfl (pvec_lt _) rfl rfl (fun _ => by simp [-Fin.ofNat_eq_cast, -Fin.val_ofNat, fields_a, decA, vecInt_enc])
theorem max (ty : IntTy) (d : VOp) (a : VOp) (b : VOp) : Statement (.max ty d a b) :=
  long (m := 0x1D) rfl (by decide) rfl (pvec_lt _) rfl rfl (fun _ => by simp [-Fin.ofNat_eq_cast, -Fin.val_ofNat, fields_a, decA, vecInt_enc])
theorem abs (ty : IntTy) (d : VOp) (a : VOp) : Statement (.abs ty d a) :=
  long (m := 0x1E) rfl (by decide) rfl (pvec_lt _) rfl rfl (fun _ => by simp [-Fin.ofNat_eq_cast, -Fin.val_ofNat, fields_a, decA, b0, vecInt_enc])
theorem cmp (c : Cond) (ty : IntTy) (k : KReg) (a : VOp) (b : VOp) : Statement (.cmp c ty k a b) :=
  long (m := 0x1F) rfl (by decide) rfl (pvec_lt _) rfl rfl (fun _ => by simp [-Fin.ofNat_eq_cast, -Fin.val_ofNat, fields_a, decA, vecInt_enc])
theorem sel (k : Fin 4) (d : VOp) (a : VOp) (b : VOp) : Statement (.sel k d a b) :=
  plain (m := 0x20) rfl (by decide) rfl rfl rfl (by simp [-Fin.ofNat_eq_cast, -Fin.val_ofNat, decodeFields, decA, vec0])
theorem bfx (uns : Bool) (d : VOp) (a : VOp) (b : VOp) : Statement (.bfx uns d a b) :=
  plain (m := 0x21) rfl (by decide) rfl rfl rfl (by cases uns <;> simp [-Fin.ofNat_eq_cast, -Fin.val_ofNat, decodeFields, decA, vec0])
theorem bfi (d : VOp) (a : VOp) (b : VOp) : Statement (.bfi d a b) :=
  plain (m := 0x22) rfl (by decide) rfl rfl rfl (by simp [-Fin.ofNat_eq_cast, -Fin.val_ofNat, decodeFields, decA, vec0, f0])
theorem popc (d : VOp) (a : VOp) : Statement (.popc d a) :=
  plain (m := 0x23) rfl (by decide) rfl rfl rfl (by simp [-Fin.ofNat_eq_cast, -Fin.val_ofNat, decodeFields, decA, vec0, f0, b0])
theorem clz (d : VOp) (a : VOp) : Statement (.clz d a) :=
  plain (m := 0x24) rfl (by decide) rfl rfl rfl (by simp [-Fin.ofNat_eq_cast, -Fin.val_ofNat, decodeFields, decA, vec0, f0, b0])
theorem shflIdx (d : VOp) (a : VOp) (b : VOp) : Statement (.shflIdx d a b) :=
  plain (m := 0x25) rfl (by decide) rfl rfl rfl (by simp [-Fin.ofNat_eq_cast, -Fin.val_ofNat, decodeFields, decA, vec0])
theorem shflUp (d : VOp) (a : VOp) (b : VOp) : Statement (.shflUp d a b) :=
  plain (m := 0x25) rfl (by decide) rfl rfl rfl (by simp [-Fin.ofNat_eq_cast, -Fin.val_ofNat, decodeFields, decA, vec0])
theorem shflDown (d : VOp) (a : VOp) (b : VOp) : Statement (.shflDown d a b) :=
  plain (m := 0x25) rfl (by decide) rfl rfl rfl (by simp [-Fin.ofNat_eq_cast, -Fin.val_ofNat, decodeFields, decA, vec0])
theorem shflXor (d : VOp) (a : VOp) (b : VOp) : Statement (.shflXor d a b) :=
  plain (m := 0x25) rfl (by decide) rfl rfl rfl (by simp [-Fin.ofNat_eq_cast, -Fin.val_ofNat, decodeFields, decA, vec0])
theorem voteAll (d : VOp) (k : KReg) : Statement (.voteAll d k) :=
  plain (m := 0x26) rfl (by decide) rfl rfl rfl (by simp [-Fin.ofNat_eq_cast, -Fin.val_ofNat, decodeFields, decA, vec0, b0])
theorem voteAny (d : VOp) (k : KReg) : Statement (.voteAny d k) :=
  plain (m := 0x26) rfl (by decide) rfl rfl rfl (by simp [-Fin.ofNat_eq_cast, -Fin.val_ofNat, decodeFields, decA, vec0, b0])
theorem voteBallot (d : VOp) (k : KReg) : Statement (.voteBallot d k) :=
  plain (m := 0x26) rfl (by decide) rfl rfl rfl (by simp [-Fin.ofNat_eq_cast, -Fin.val_ofNat, decodeFields, decA, vec0, b0])
theorem id (d : VOp) (sel : BitVec 9) : Statement (.id d sel) :=
  plain (m := 0x27) rfl (by decide) rfl rfl rfl (by simp only [decodeFields, num9]; simp)
theorem mov (d : VOp) (a : VOp) : Statement (.mov d a) :=
  plain (m := 0x28) rfl (by decide) rfl rfl rfl (by simp [-Fin.ofNat_eq_cast, -Fin.val_ofNat, decodeFields, decA, vec0, f0, b0])
theorem fadd (ty : FloTy) (r : Rnd) (d : VOp) (a : VOp) (b : VOp) : Statement (.fadd ty r d a b) :=
  long (m := 0x29) rfl (by decide) rfl (pvec_lt _) rfl rfl (fun _ => by simp [-Fin.ofNat_eq_cast, -Fin.val_ofNat, fields_a, decA, vecRnd_enc])
theorem fsub (ty : FloTy) (r : Rnd) (d : VOp) (a : VOp) (b : VOp) : Statement (.fsub ty r d a b) :=
  long (m := 0x2A) rfl (by decide) rfl (pvec_lt _) rfl rfl (fun _ => by simp [-Fin.ofNat_eq_cast, -Fin.val_ofNat, fields_a, decA, vecRnd_enc])
theorem fmul (ty : FloTy) (r : Rnd) (d : VOp) (a : VOp) (b : VOp) : Statement (.fmul ty r d a b) :=
  long (m := 0x2B) rfl (by decide) rfl (pvec_lt _) rfl rfl (fun _ => by simp [-Fin.ofNat_eq_cast, -Fin.val_ofNat, fields_a, decA, vecRnd_enc])
theorem ffma (ty : FloTy) (r : Rnd) (d : VOp) (a : VOp) (b : VOp) : Statement (.ffma ty r d a b) :=
  long (m := 0x2C) rfl (by decide) rfl (pvec_lt _) rfl rfl (fun _ => by simp [-Fin.ofNat_eq_cast, -Fin.val_ofNat, fields_a, decA, vecRnd_enc])
theorem fmin (ty : FloTy) (d : VOp) (a : VOp) (b : VOp) : Statement (.fmin ty d a b) :=
  plain (m := 0x2D) rfl (by decide) rfl rfl rfl (by simp [-Fin.ofNat_eq_cast, -Fin.val_ofNat, decodeFields, decA, vec0])
theorem fmax (ty : FloTy) (d : VOp) (a : VOp) (b : VOp) : Statement (.fmax ty d a b) :=
  plain (m := 0x2E) rfl (by decide) rfl rfl rfl (by simp [-Fin.ofNat_eq_cast, -Fin.val_ofNat, decodeFields, decA, vec0])
theorem fcmp (c : FCond) (ty : FloTy) (k : KReg) (a : VOp) (b : VOp) : Statement (.fcmp c ty k a b) :=
  plain (m := 0x2F) rfl (by decide) rfl rfl rfl (by simp [-Fin.ofNat_eq_cast, -Fin.val_ofNat, decodeFields, decA, vec0])
theorem fcls (ty : FloTy) (d : VOp) (a : VOp) : Statement (.fcls ty d a) :=
  plain (m := 0x30) rfl (by decide) rfl rfl rfl (by simp [-Fin.ofNat_eq_cast, -Fin.val_ofNat, decodeFields, decA, vec0, b0])
theorem frcp (d : VOp) (a : VOp) : Statement (.frcp d a) :=
  plain (m := 0x31) rfl (by decide) rfl rfl rfl (by simp [-Fin.ofNat_eq_cast, -Fin.val_ofNat, decodeFields, decA, vec0, f0, b0])
theorem frsq (d : VOp) (a : VOp) : Statement (.frsq d a) :=
  plain (m := 0x32) rfl (by decide) rfl rfl rfl (by simp [-Fin.ofNat_eq_cast, -Fin.val_ofNat, decodeFields, decA, vec0, f0, b0])
theorem fsqrt (d : VOp) (a : VOp) : Statement (.fsqrt d a) :=
  plain (m := 0x33) rfl (by decide) rfl rfl rfl (by simp [-Fin.ofNat_eq_cast, -Fin.val_ofNat, decodeFields, decA, vec0, f0, b0])
theorem fex2 (d : VOp) (a : VOp) : Statement (.fex2 d a) :=
  plain (m := 0x34) rfl (by decide) rfl rfl rfl (by simp [-Fin.ofNat_eq_cast, -Fin.val_ofNat, decodeFields, decA, vec0, f0, b0])
theorem flg2 (d : VOp) (a : VOp) : Statement (.flg2 d a) :=
  plain (m := 0x35) rfl (by decide) rfl rfl rfl (by simp [-Fin.ofNat_eq_cast, -Fin.val_ofNat, decodeFields, decA, vec0, f0, b0])
theorem fsin (d : VOp) (a : VOp) : Statement (.fsin d a) :=
  plain (m := 0x36) rfl (by decide) rfl rfl rfl (by simp [-Fin.ofNat_eq_cast, -Fin.val_ofNat, decodeFields, decA, vec0, f0, b0])
theorem fcos (d : VOp) (a : VOp) : Statement (.fcos d a) :=
  plain (m := 0x37) rfl (by decide) rfl rfl rfl (by simp [-Fin.ofNat_eq_cast, -Fin.val_ofNat, decodeFields, decA, vec0, f0, b0])
theorem fred (r : Rnd) (d : VOp) (a : VOp) : Statement (.fred r d a) :=
  long (m := 0x38) rfl (by decide) rfl (pvec_lt _) rfl rfl (fun _ => by simp [-Fin.ofNat_eq_cast, -Fin.val_ofNat, fields_a, decA, f0, b0, vecRnd_enc])
theorem cvt (dst : Elt) (src : Elt) (r : Rnd) (d : VOp) (a : VOp) : Statement (.cvt dst src r d a) :=
  long (m := 0x39) rfl (by decide) rfl (pvec_lt _) rfl rfl (fun _ => by simp [-Fin.ofNat_eq_cast, -Fin.val_ofNat, fields_a, decA, vecRnd_enc])
theorem cvtn (dst : Elt) (src : Elt) (r : Rnd) (o : Ovf) (d : VOp) (a : VOp) : Statement (.cvtn dst src r o d a) :=
  long (m := 0x3A) rfl (by decide) rfl (pvec_lt _) rfl rfl (fun _ => by simp [-Fin.ofNat_eq_cast, -Fin.val_ofNat, fields_a, decA, vecRndOvf_enc])
theorem cvtw (dst : Elt) (src : Elt) (r : Rnd) (d : VOp) (a : VOp) : Statement (.cvtw dst src r d a) :=
  long (m := 0x3B) rfl (by decide) rfl (pvec_lt _) rfl rfl (fun _ => by simp [-Fin.ofNat_eq_cast, -Fin.val_ofNat, fields_a, decA, vecRnd_enc])
theorem pack (ty : PackTy) (r : Rnd) (d : VOp) (a : VOp) (b : VOp) : Statement (.pack ty r d a b) :=
  long (m := 0x3C) rfl (by decide) rfl (pvec_lt _) rfl rfl (fun _ => by simp [-Fin.ofNat_eq_cast, -Fin.val_ofNat, fields_a, decA, vecRnd_enc])
theorem unpack (ty : PackTy) (d : VOp) (a : VOp) : Statement (.unpack ty d a) :=
  plain (m := 0x3D) rfl (by decide) rfl rfl rfl (by simp [-Fin.ofNat_eq_cast, -Fin.val_ofNat, decodeFields, decA, vec0, b0])
theorem kand (d : KReg) (a : KReg) (b : KReg) : Statement (.kand d a b) :=
  plain (m := 0x3E) rfl (by decide) rfl rfl rfl (by simp [-Fin.ofNat_eq_cast, -Fin.val_ofNat, decodeFields, decX])
theorem kor (d : KReg) (a : KReg) (b : KReg) : Statement (.kor d a b) :=
  plain (m := 0x3E) rfl (by decide) rfl rfl rfl (by simp [-Fin.ofNat_eq_cast, -Fin.val_ofNat, decodeFields, decX])
theorem kxor (d : KReg) (a : KReg) (b : KReg) : Statement (.kxor d a b) :=
  plain (m := 0x3E) rfl (by decide) rfl rfl rfl (by simp [-Fin.ofNat_eq_cast, -Fin.val_ofNat, decodeFields, decX])
theorem knot (d : KReg) (a : KReg) : Statement (.knot d a) :=
  plain (m := 0x3E) rfl (by decide) rfl rfl rfl (by simp [-Fin.ofNat_eq_cast, -Fin.val_ofNat, decodeFields, decX, decK_zero])
theorem xcfg (x : XNum) (base : BitVec 8) (bound : BitVec 8) (step : BitVec 4) : Statement (.xcfg x base bound step) :=
  long (m := 0x3F) rfl (by decide) rfl (idxPayload_lt _ _ _) rfl rfl (fun _ => by simp [-Fin.ofNat_eq_cast, -Fin.val_ofNat, decodeFields, decX, idx_zero, idx_base, idx_bound, idx_step])
theorem xset (x : XNum) (a : VOp) : Statement (.xset x a) :=
  plain (m := 0x3F) rfl (by decide) rfl rfl rfl (by simp [-Fin.ofNat_eq_cast, -Fin.val_ofNat, decodeFields, decX, vec0])
theorem xget (d : VOp) (x : XNum) : Statement (.xget d x) :=
  plain (m := 0x3F) rfl (by decide) rfl rfl rfl (by simp [-Fin.ofNat_eq_cast, -Fin.val_ofNat, decodeFields, decX, vec0])
theorem xadd (x : XNum) (a : VOp) : Statement (.xadd x a) :=
  plain (m := 0x3F) rfl (by decide) rfl rfl rfl (by simp [-Fin.ofNat_eq_cast, -Fin.val_ofNat, decodeFields, decX, vec0])
theorem shp (d : SReg) (a : VOp) : Statement (.shp d a) :=
  plain (m := 0x40) rfl (by decide) rfl rfl rfl (by simp [-Fin.ofNat_eq_cast, -Fin.val_ofNat, decodeFields, decA, b0])
theorem shpw (d : SReg) : Statement (.shpw d) :=
  plain (m := 0x40) rfl (by decide) rfl rfl rfl (by simp [-Fin.ofNat_eq_cast, -Fin.val_ofNat, decodeFields, decA, b0])
theorem tnow (d : VOp) : Statement (.tnow d) :=
  plain (m := 0x41) rfl (by decide) rfl rfl rfl (by simp [-Fin.ofNat_eq_cast, -Fin.val_ofNat, decodeFields, decX])
theorem tget (d : VOp) (t : TOp) : Statement (.tget d t) :=
  plain (m := 0x41) rfl (by decide) rfl rfl rfl (by simp [-Fin.ofNat_eq_cast, -Fin.val_ofNat, decodeFields, decX])
theorem tdist (d : VOp) (t : TOp) : Statement (.tdist d t) :=
  plain (m := 0x41) rfl (by decide) rfl rfl rfl (by simp [-Fin.ofNat_eq_cast, -Fin.val_ofNat, decodeFields, decX])
theorem tready (k : KReg) (t : TOp) : Statement (.tready k t) :=
  plain (m := 0x41) rfl (by decide) rfl rfl rfl (by simp [-Fin.ofNat_eq_cast, -Fin.val_ofNat, decodeFields, decX])
theorem twait (t : TOp) : Statement (.twait t) :=
  plain (m := 0x42) rfl (by decide) rfl rfl rfl (by simp [-Fin.ofNat_eq_cast, -Fin.val_ofNat, decodeFields, decX])
theorem tyield (t : TOp) : Statement (.tyield t) :=
  plain (m := 0x43) rfl (by decide) rfl rfl rfl (by simp [-Fin.ofNat_eq_cast, -Fin.val_ofNat, decodeFields, decX])
theorem trank (d : VOp) (t : Fin 16) (m : Fin 8) : Statement (.trank d t m) :=
  plain (m := 0x44) rfl (by decide) rfl rfl rfl (by simp [-Fin.ofNat_eq_cast, -Fin.val_ofNat, decodeFields, decX, time_field])
theorem ld (m : MemMod) (d : VOp) (a : VOp) (b : SPair) (t : TOp) : Statement (.ld m d a b t) :=
  long (m := 0x45) rfl (by decide) rfl (pmem_lt _) rfl rfl (fun _ => by simp [-Fin.ofNat_eq_cast, -Fin.val_ofNat, decodeFields, decM, decMem])
theorem st (m : MemMod) (d : VOp) (a : VOp) (b : SPair) (key : SReg) : Statement (.st m d a b key) :=
  long (m := 0x46) rfl (by decide) rfl (pmem_lt _) rfl rfl (fun _ => by simp [-Fin.ofNat_eq_cast, -Fin.val_ofNat, decodeFields, decM, decMem, noTime, no_time])
theorem sld (m : MemMod) (d : VOp) (a : VOp) (b : SPair) (t : TOp) : Statement (.sld m d a b t) :=
  long (m := 0x47) rfl (by decide) rfl (pmem_lt _) rfl rfl (fun _ => by simp [-Fin.ofNat_eq_cast, -Fin.val_ofNat, decodeFields, decM, decMem])
theorem sst (m : MemMod) (d : VOp) (a : VOp) (b : SPair) (key : SReg) : Statement (.sst m d a b key) :=
  long (m := 0x48) rfl (by decide) rfl (pmem_lt _) rfl rfl (fun _ => by simp [-Fin.ofNat_eq_cast, -Fin.val_ofNat, decodeFields, decM, decMem, noTime, no_time])
theorem lds (m : MemMod) (d : VOp) (a : VOp) (b : SPair) (t : TOp) : Statement (.lds m d a b t) :=
  long (m := 0x49) rfl (by decide) rfl (pmem_lt _) rfl rfl (fun _ => by simp [-Fin.ofNat_eq_cast, -Fin.val_ofNat, decodeFields, decM, decMem])
theorem sts (m : MemMod) (d : VOp) (a : VOp) (b : SPair) : Statement (.sts m d a b) :=
  long (m := 0x4A) rfl (by decide) rfl (pmem_lt _) rfl rfl (fun _ => by simp [-Fin.ofNat_eq_cast, -Fin.val_ofNat, decodeFields, decM, decMem, noTime, no_time])
theorem ldp (m : MemMod) (d : VOp) (a : VOp) (b : SPair) (t : TOp) : Statement (.ldp m d a b t) :=
  long (m := 0x4B) rfl (by decide) rfl (pmem_lt _) rfl rfl (fun _ => by simp [-Fin.ofNat_eq_cast, -Fin.val_ofNat, decodeFields, decM, decMem])
theorem stp (m : MemMod) (d : VOp) (a : VOp) (b : SPair) : Statement (.stp m d a b) :=
  long (m := 0x4C) rfl (by decide) rfl (pmem_lt _) rfl rfl (fun _ => by simp [-Fin.ofNat_eq_cast, -Fin.val_ofNat, decodeFields, decM, decMem, noTime, no_time])
theorem probe (m : MemMod) (a : VOp) (b : SPair) (t : TOp) : Statement (.probe m a b t) :=
  long (m := 0x4D) rfl (by decide) rfl (pmem_lt _) rfl rfl (fun _ => by simp [-Fin.ofNat_eq_cast, -Fin.val_ofNat, decodeFields, decM, decMem, zero_dir])
theorem ldt (m : MemMod) (d : VOp) (a : VOp) (b : SPair) (key : SReg) (t : TOp) : Statement (.ldt m d a b key t) :=
  long (m := 0x4E) rfl (by decide) rfl (pmem_lt _) rfl rfl (fun _ => by simp [-Fin.ofNat_eq_cast, -Fin.val_ofNat, decodeFields, decM, decMem])
theorem atom (op : AtomOp) (m : MemMod) (d : VOp) (a : VOp) (b : SPair) (t : TOp) : Statement (.atom op m d a b t) :=
  long (m := 0x4F) rfl (by decide) rfl (pmem_lt _) rfl rfl (fun _ => by simp [-Fin.ofNat_eq_cast, -Fin.val_ofNat, decodeFields, decM, decMem])
theorem cas (m : MemMod) (d : VOp) (a : VOp) (b : SPair) (e : VOp) (t : TOp) : Statement (.cas m d a b e t) :=
  long (m := 0x50) rfl (by decide) rfl (pmem_lt _) rfl rfl (fun _ => by simp [-Fin.ofNat_eq_cast, -Fin.val_ofNat, decodeFields, decM, decMem])
theorem atsc (op : AtomOp) (m : MemMod) (d : VOp) (a : VOp) (b : SPair) (t : TOp) : Statement (.atsc op m d a b t) :=
  long (m := 0x51) rfl (by decide) rfl (pmem_lt _) rfl rfl (fun _ => by simp [-Fin.ofNat_eq_cast, -Fin.val_ofNat, decodeFields, decM, decMem])
theorem red (op : AtomOp) (m : MemMod) (d : VOp) (a : VOp) (b : SPair) : Statement (.red op m d a b) :=
  long (m := 0x52) rfl (by decide) rfl (pmem_lt _) rfl rfl (fun _ => by simp [-Fin.ofNat_eq_cast, -Fin.val_ofNat, decodeFields, decM, decMem, noTime, no_time])
theorem hred (op : AtomOp) (m : MemMod) (d : VOp) (a : VOp) (b : SPair) : Statement (.hred op m d a b) :=
  long (m := 0x53) rfl (by decide) rfl (pmem_lt _) rfl rfl (fun _ => by simp [-Fin.ofNat_eq_cast, -Fin.val_ofNat, decodeFields, decM, decMem, noTime, no_time])
theorem fence (o : Order) (s : Scope) : Statement (.fence o s) :=
  plain (m := 0x54) rfl (by decide) rfl rfl rfl (by simp [-Fin.ofNat_eq_cast, -Fin.val_ofNat, decodeFields, decQ, sc_field, ord_field, scope_field])
theorem bar (n : Fin 16) : Statement (.bar n) :=
  plain (m := 0x55) rfl (by decide) rfl rfl rfl (by simp [-Fin.ofNat_eq_cast, -Fin.val_ofNat, decodeFields, decQ, qc, bar_field, bar_lt])
theorem barr (n : Fin 16) : Statement (.barr n) :=
  plain (m := 0x55) rfl (by decide) rfl rfl rfl (by simp [-Fin.ofNat_eq_cast, -Fin.val_ofNat, decodeFields, decQ, qc, bar_field, bar_lt])
theorem barw (n : Fin 16) : Statement (.barw n) :=
  plain (m := 0x55) rfl (by decide) rfl rfl rfl (by simp [-Fin.ofNat_eq_cast, -Fin.val_ofNat, decodeFields, decQ, qc, bar_field, bar_lt])
theorem evsig (a : SReg) : Statement (.evsig a) :=
  plain (m := 0x56) rfl (by decide) rfl rfl rfl (by simp [-Fin.ofNat_eq_cast, -Fin.val_ofNat, decodeFields, decQ, q1])
theorem evwait (a : SReg) (b : SReg) : Statement (.evwait a b) :=
  plain (m := 0x56) rfl (by decide) rfl rfl rfl (by simp [-Fin.ofNat_eq_cast, -Fin.val_ofNat, decodeFields, decQ, q2])
theorem evq (d : SReg) (a : SReg) : Statement (.evq d a) :=
  plain (m := 0x56) rfl (by decide) rfl rfl rfl (by simp [-Fin.ofNat_eq_cast, -Fin.val_ofNat, decodeFields, decQ, q2])
theorem sigdec (p : SPair) : Statement (.sigdec p) :=
  plain (m := 0x57) rfl (by decide) rfl rfl rfl (by simp [-Fin.ofNat_eq_cast, -Fin.val_ofNat, decodeFields, decQ, q1])
theorem cpa (toGlobal : Bool) (size : Size) (policy : Policy) (o : VOp) (a : VOp) (b : SPair) (s : SPair) (tag : Fin 64) : Statement (.cpa toGlobal size policy o a b s tag) := by
  refine long (m := 0x58) rfl (by decide) rfl (pcopy_lt _) rfl rfl fun hf => ?_
  have hb : b.val < 16 := by simp [Instr.fieldsOk] at hf; exact hf.2
  simp [-Fin.ofNat_eq_cast, -Fin.val_ofNat, decodeFields, decM, memBase_low b hb]
theorem cpt (a : SReg) (v : SPair) (tag : Fin 64) : Statement (.cpt a v tag) :=
  plain (m := 0x59) rfl (by decide) rfl rfl rfl (by simp [-Fin.ofNat_eq_cast, -Fin.val_ofNat, decodeFields, decQ])
theorem tagw (i : Fin 64) : Statement (.tagw i) :=
  plain (m := 0x5A) rfl (by decide) rfl rfl rfl (by simp [-Fin.ofNat_eq_cast, -Fin.val_ofNat, decodeFields, decQ, qc])
theorem taga (i : Fin 64) (m : BitVec 8) : Statement (.taga i m) :=
  plain (m := 0x5A) rfl (by decide) rfl rfl rfl (by simp [-Fin.ofNat_eq_cast, -Fin.val_ofNat, decodeFields, decQ, num8])
theorem tagf (i : Fin 64) : Statement (.tagf i) :=
  plain (m := 0x5A) rfl (by decide) rfl rfl rfl (by simp [-Fin.ofNat_eq_cast, -Fin.val_ofNat, decodeFields, decQ, qc])
theorem tagc (d : SPair) : Statement (.tagc d) :=
  plain (m := 0x5A) rfl (by decide) rfl rfl rfl (by simp [-Fin.ofNat_eq_cast, -Fin.val_ofNat, decodeFields, decQ, q1])
theorem srec (d : SReg) (a : SReg) : Statement (.srec d a) :=
  plain (m := 0x5B) rfl (by decide) rfl rfl rfl (by simp [-Fin.ofNat_eq_cast, -Fin.val_ofNat, decodeFields, decQ, q2])
theorem sarm (e : SReg) (tag : Fin 64) : Statement (.sarm e tag) :=
  plain (m := 0x5B) rfl (by decide) rfl rfl rfl (by simp [-Fin.ofNat_eq_cast, -Fin.val_ofNat, decodeFields, decQ])
theorem sstop (e : SReg) : Statement (.sstop e) :=
  plain (m := 0x5B) rfl (by decide) rfl rfl rfl (by simp [-Fin.ofNat_eq_cast, -Fin.val_ofNat, decodeFields, decQ, q1])
theorem iord (d : VOp) (a : VOp) (b : SReg) : Statement (.iord d a b) :=
  plain (m := 0x5C) rfl (by decide) rfl rfl rfl (by simp [-Fin.ofNat_eq_cast, -Fin.val_ofNat, decodeFields, decA])
theorem iowr (d : VOp) (a : VOp) (b : SReg) : Statement (.iowr d a b) :=
  plain (m := 0x5C) rfl (by decide) rfl rfl rfl (by simp [-Fin.ofNat_eq_cast, -Fin.val_ofNat, decodeFields, decA])
theorem tlw (i : SReg) (v : SPair) : Statement (.tlw i v) :=
  plain (m := 0x5D) rfl (by decide) rfl rfl rfl (by simp [-Fin.ofNat_eq_cast, -Fin.val_ofNat, decodeFields, decQ, q2])
theorem tlget (d : SPair) (i : SReg) : Statement (.tlget d i) :=
  plain (m := 0x5D) rfl (by decide) rfl rfl rfl (by simp [-Fin.ofNat_eq_cast, -Fin.val_ofNat, decodeFields, decQ, q2])
theorem acca (d : SReg) (n : BitVec 6) : Statement (.acca d n) :=
  plain (m := 0x5E) rfl (by decide) rfl rfl rfl (by simp only [decodeFields, decQ, num6]; simp)
theorem accf (h : SReg) : Statement (.accf h) :=
  plain (m := 0x5E) rfl (by decide) rfl rfl rfl (by simp [-Fin.ofNat_eq_cast, -Fin.val_ofNat, decodeFields, decQ, q1])
theorem accz (h : SReg) : Statement (.accz h) :=
  plain (m := 0x5E) rfl (by decide) rfl rfl rfl (by simp [-Fin.ofNat_eq_cast, -Fin.val_ofNat, decodeFields, decQ, q1])
theorem accr (d : VOp) (h : SReg) (n : SReg) (t : TOp) : Statement (.accr d h n t) :=
  long (m := 0x5F) rfl (by decide) rfl (pvec_lt _) rfl rfl (fun _ => by simp [-Fin.ofNat_eq_cast, -Fin.val_ofNat, decodeFields, decA])
theorem accw (a : VOp) (h : SReg) (n : SReg) : Statement (.accw a h n) :=
  plain (m := 0x5F) rfl (by decide) rfl rfl rfl (by simp [-Fin.ofNat_eq_cast, -Fin.val_ofNat, decodeFields, decA, vec0])
theorem mgix (a : SReg) : Statement (.mgix a) :=
  plain (m := 0x60) rfl (by decide) rfl rfl rfl (by simp [-Fin.ofNat_eq_cast, -Fin.val_ofNat, decodeFields, decQ, q1])
theorem mma (fa : MxFmt) (fb : MxFmt) (c : SReg) (d : SReg) (tag : Fin 64) : Statement (.mma fa fb c d tag) :=
  long (m := 0x61) rfl (by decide) rfl (pmat_lt _) rfl rfl (fun _ => by simp [-Fin.ofNat_eq_cast, -Fin.val_ofNat, decodeFields, decQ, decMat])
theorem mloop (fa : MxFmt) (fb : MxFmt) (c : SReg) (n : SReg) (d : SReg) (tag : Fin 64) : Statement (.mloop fa fb c n d tag) :=
  long (m := 0x62) rfl (by decide) rfl (pmat_lt _) rfl rfl (fun _ => by simp [-Fin.ofNat_eq_cast, -Fin.val_ofNat, decodeFields, decQ, decMat])
theorem mloopSc (fa : MxFmt) (fb : MxFmt) (sf : ScFmt) (c : SReg) (n : SReg) (d : SReg) (tag : Fin 64) : Statement (.mloopSc fa fb sf c n d tag) :=
  long (m := 0x62) rfl (by decide) rfl (pmat_lt _) rfl rfl (fun _ => by simp [-Fin.ofNat_eq_cast, -Fin.val_ofNat, decodeFields, decQ, decMat])
theorem scacc (sf : ScFmt) (c : SReg) (p : SReg) (s : SReg) (tag : Fin 64) : Statement (.scacc sf c p s tag) :=
  long (m := 0x63) rfl (by decide) rfl (pmat_lt _) rfl rfl (fun _ => by simp [-Fin.ofNat_eq_cast, -Fin.val_ofNat, decodeFields, decQ, decMat])
theorem sysr (d : SPair) (n : BitVec 12) : Statement (.sysr d n) :=
  plain (m := 0x66) rfl (by decide) rfl rfl rfl (by simp [-Fin.ofNat_eq_cast, -Fin.val_ofNat, decodeFields, decQ, num12])
theorem sysw (a : SPair) (n : BitVec 12) : Statement (.sysw a n) :=
  plain (m := 0x66) rfl (by decide) rfl rfl rfl (by simp [-Fin.ofNat_eq_cast, -Fin.val_ofNat, decodeFields, decQ, num12])
theorem wspill (a : SPair) (b : SReg) : Statement (.wspill a b) :=
  plain (m := 0x68) rfl (by decide) rfl rfl rfl (by simp [-Fin.ofNat_eq_cast, -Fin.val_ofNat, decodeFields, decQ, q2])
theorem wfill (a : SPair) (b : SReg) : Statement (.wfill a b) :=
  plain (m := 0x68) rfl (by decide) rfl rfl rfl (by simp [-Fin.ofNat_eq_cast, -Fin.val_ofNat, decodeFields, decQ, q2])
theorem storeAccept (req : Nat) : Statement (.storeAccept req) := of_none rfl
theorem linkUnrecoverableFlit (oct : Oct) : Statement (.linkUnrecoverableFlit oct) := of_none rfl
theorem linkRetry (boundary : Fin 10) (down : Bool) (ticks : Nat) : Statement (.linkRetry boundary down ticks) := of_none rfl
theorem spareRow (value : DWord) : Statement (.spareRow value) := of_none rfl
theorem rowRemap (value : DWord) : Statement (.rowRemap value) := of_none rfl
theorem spareGranule (value : DWord) : Statement (.spareGranule value) := of_none rfl
theorem memrepairReservedKind (value : DWord) : Statement (.memrepairReservedKind value) := of_none rfl
theorem faqTail (value : Word) : Statement (.faqTail value) := of_none rfl
theorem bplAdd (value : DWord) : Statement (.bplAdd value) := of_none rfl
theorem fretCommit (port : Port) (value : DWord) : Statement (.fretCommit port value) := of_none rfl
theorem hsemAcquire (port : Port) (both : Bool) : Statement (.hsemAcquire port both) := of_none rfl
theorem hsemRelease (port : Port) : Statement (.hsemRelease port) := of_none rfl
theorem functionLevelReset (port : Port) : Statement (.functionLevelReset port) := of_none rfl
theorem linkDown (port : Port) : Statement (.linkDown port) := of_none rfl
theorem queueEnable (q : Nat) : Statement (.queueEnable q) := of_none rfl
theorem queueResume (q : Nat) : Statement (.queueResume q) := of_none rfl
theorem queueDisable (q : Nat) : Statement (.queueDisable q) := of_none rfl
theorem doorbell (q : Nat) (value : DWord) : Statement (.doorbell q value) := of_none rfl
theorem msixUnmask (port : Port) (fn : Nat) (vec : Nat) : Statement (.msixUnmask port fn vec) := of_none rfl
theorem peerRequest (r : PeerReq) : Statement (.peerRequest r) := of_none rfl
theorem hostWrite (src : Outsider) (pa : Nat) (data : OutsideStore) : Statement (.hostWrite src pa data) := of_none rfl
theorem hostRead (src : Outsider) (pa : Nat) (n : OutsideLoad) : Statement (.hostRead src pa n) := of_none rfl
theorem ionotify (n : Nat) : Statement (.ionotify n) := of_none rfl
theorem nvmeCompletion (n : Nat) (num : Nat) (status : Nat) : Statement (.nvmeCompletion n num status) := of_none rfl
theorem suspend (port : Port) (p : Fin 8) : Statement (.suspend port p) := of_none rfl
theorem partitionResume (port : Port) (p : Fin 8) : Statement (.partitionResume port p) := of_none rfl
theorem pstatePs0 (port : Port) : Statement (.pstatePs0 port) := of_none rfl
theorem pstatePs1 (port : Port) : Statement (.pstatePs1 port) := of_none rfl
theorem pstatePs2 (port : Port) : Statement (.pstatePs2 port) := of_none rfl
theorem pstatePs3 (port : Port) : Statement (.pstatePs3 port) := of_none rfl
theorem mxgate (port : Port) (value : DWord) : Statement (.mxgate port value) := of_none rfl
theorem pwralarm (port : Port) (value : DWord) : Statement (.pwralarm port value) := of_none rfl
theorem powerWindowEnd (avg : BitVec 16) : Statement (.powerWindowEnd avg) := of_none rfl
theorem energyAccount (shares : List (Nat × Nat)) : Statement (.energyAccount shares) := of_none rfl
theorem firmwareInstall (port : Port) (arg : BitVec 48) : Statement (.firmwareInstall port arg) := of_none rfl
theorem attest (port : Port) (arg : BitVec 48) : Statement (.attest port arg) := of_none rfl
theorem removeOctant (port : Port) (arg : BitVec 48) : Statement (.removeOctant port arg) := of_none rfl
theorem raiseRollback (port : RollbackWrite) : Statement (.raiseRollback port) := of_none rfl
theorem fwmboxNoCommand (port : Port) (value : DWord) : Statement (.fwmboxNoCommand port value) := of_none rfl
theorem trimiLoad (obj : TrimiObj) : Statement (.trimiLoad obj) := of_none rfl
theorem prqRespNoEffect (value : DWord) : Statement (.prqRespNoEffect value) := of_none rfl
theorem prqTail (value : Word) : Statement (.prqTail value) := of_none rfl
theorem frecTail (value : Word) : Statement (.frecTail value) := of_none rfl
theorem shootdown (value : DWord) : Statement (.shootdown value) := of_none rfl
theorem debugHalt (value : DWord) : Statement (.debugHalt value) := of_none rfl
theorem debugResume (value : DWord) : Statement (.debugResume value) := of_none rfl
theorem debugStep (value : DWord) : Statement (.debugStep value) := of_none rfl
theorem dbgDataWrite (value : DWord) : Statement (.dbgDataWrite value) := of_none rfl
theorem registerWrite (port : Port) (fn : Nat) (offset : Nat) (size : Nat) (value : DWord) : Statement (.registerWrite port fn offset size value) := of_none rfl
theorem coldReset : Statement .coldReset := of_none rfl
theorem coldResetRelease : Statement .coldResetRelease := of_none rfl
theorem thermalAlert : Statement .thermalAlert := of_none rfl
theorem criticalTemperatureStop : Statement .criticalTemperatureStop := of_none rfl
theorem beaconSend : Statement .beaconSend := of_none rfl
theorem resume : Statement .resume := of_none rfl
theorem repairComplete : Statement .repairComplete := of_none rfl
theorem fretMapCheck : Statement .fretMapCheck := of_none rfl
theorem fretInstall : Statement .fretInstall := of_none rfl
theorem boundTransitionStart : Statement .boundTransitionStart := of_none rfl
theorem boundTransitionEnd : Statement .boundTransitionEnd := of_none rfl
theorem hsemLapse : Statement .hsemLapse := of_none rfl
theorem powerTransition : Statement .powerTransition := of_none rfl
theorem ticketGrant : Statement .ticketGrant := of_none rfl
theorem shootdownComplete : Statement .shootdownComplete := of_none rfl
theorem dbgDataRead : Statement .dbgDataRead := of_none rfl
theorem exit : Statement .exit :=
  plain (m := 0x0A) rfl (by decide) rfl rfl rfl (by simp only [decodeFields, decB]; simp [-Fin.ofNat_eq_cast, -Fin.val_ofNat])
theorem trig : Statement .trig :=
  plain (m := 0x0B) rfl (by decide) rfl rfl rfl (by simp only [decodeFields, decB]; simp [-Fin.ofNat_eq_cast, -Fin.val_ofNat])
theorem nop : Statement .nop :=
  plain (m := 0x0D) rfl (by decide) rfl rfl rfl (by simp only [decodeFields, decB]; simp [-Fin.ofNat_eq_cast, -Fin.val_ofNat])
theorem fenceSc : Statement .fenceSc :=
  plain (m := 0x54) rfl (by decide) rfl rfl rfl (by simp [-Fin.ofNat_eq_cast, -Fin.val_ofNat, decodeFields, decQ, qz])
theorem trap : Statement .trap :=
  plain (m := 0x64) rfl (by decide) rfl rfl rfl (by simp [-Fin.ofNat_eq_cast, -Fin.val_ofNat, decodeFields, decQ, qz])
theorem brk : Statement .brk :=
  plain (m := 0x64) rfl (by decide) rfl rfl rfl (by simp [-Fin.ofNat_eq_cast, -Fin.val_ofNat, decodeFields, decQ, qz])
theorem rti : Statement .rti :=
  plain (m := 0x65) rfl (by decide) rfl rfl rfl (by simp [-Fin.ofNat_eq_cast, -Fin.val_ofNat, decodeFields, decQ, qz])
theorem replay : Statement .replay :=
  plain (m := 0x67) rfl (by decide) rfl rfl rfl (by simp [-Fin.ofNat_eq_cast, -Fin.val_ofNat, decodeFields, decQ, qz])
theorem thermalAlertDeassert : Statement .thermalAlertDeassert := of_none rfl

end RoundTrip
end Laws
end Sys2Proof
end

