-- ==== Sys2Proof/Laws/Traps.lean ====
section
/-! SUPPORT. Taking a trap, and the faults of a word in the order of R363; and which operations leave memory as it was. -/

namespace Sys2Proof
namespace Laws

open Sys2Proof.Machine

/-! ## Taking a trap (R333, R334) -/

/-- The address of slot 1 of the handler's first packet. -/
theorem handlerPc_eq (h : BitVec 53) : handlerPc h = BitVec.ofNat 57 (h.toNat * 16 + 4) := by
  have hh := h.isLt
  apply BitVec.eq_of_toNat_eq
  have : (h ++ 0#4).toNat = h.toNat <<< 4 := by rw [BitVec.toNat_append]; simp
  simp only [handlerPc, BitVec.toNat_or, BitVec.toNat_ofNat]
  rw [this, ← Nat.shiftLeft_add_eq_or_of_lt (by decide : 4 % 2 ^ 57 < 2 ^ 4), Nat.shiftLeft_eq]
  omega

/-- The trap of a word in a wave that may take one (R333, R334). -/
theorem takeTrap_taken {s : State} (h : MayTrap s) (t : Trap) :
    TrapTaken s (s.takeTrap t) (causeCode t.cause) (fieldCode t.field) t.lanes t.treg t.pc t.park := by
  obtain ⟨hb, hh⟩ := h
  have e : s.takeTrap t = { s with w := s.w.trapped t s.cur.active (handlerPc s.x.handler)
                                   cur := { s.cur with trapped := some (trapRank t.cause) } } := by
    have hb' : ¬ s.w.regs.busy = true := by rw [show s.w.regs.busy = false from hb]; decide
    unfold State.takeTrap
    exact (if_neg hb').trans (if_neg hh)
  have split (v : DWord) : v.extractLsb' 32 32 ++ v.extractLsb' 0 32 = v := by
    ext i hi
    simp only [BitVec.getElem_append, BitVec.getElem_extractLsb']
    split <;> simp_all [BitVec.getLsbD_eq_getElem]
  rw [e]
  refine ⟨?_, ?_, ?_, ?_, ?_, ?_, ?_, ?_, ?_⟩
  · simp [Wave.trapped, trapWord]
  · simp [Wave.trapped]
  · simp [Wave.trapped]; exact split _
  · simp [Wave.trapped]; exact split _
  · simp [Wave.trapped]; exact split _
  · intro r hr
    have (n : Nat) (hn : 56 ≤ n) : ¬ n = r.val := by omega
    simp [Wave.trapped, this]
  · rfl
  · simp [Wave.trapped, handlerPc_eq]
  · rfl

/-! ## The faults of a word, in their order (R363) -/

theorem word_illegal {i : Instr} {ck : Checks} {eff : State → State} {s : State} (h : ck.illegal = true) :
    word i ck eff s = .next (s.takeTrap (s.trapOf i .illegalInstr .none s.cur.active s.cur.unit)) := by
  unfold word; exact if_pos h

theorem word_bound {i : Instr} {ck : Checks} {eff : State → State} {s : State} {f : OpField} {m : Mask} (hi : ck.illegal = false)
    (hb : boundFail i ck s = some (f, m)) : word i ck eff s = .next (s.takeTrap (s.trapOf i .regBound f m s.cur.unit)) := by
  unfold word; simp [hi, hb]

theorem word_priv {i : Instr} {ck : Checks} {eff : State → State} {s : State} (hi : ck.illegal = false) (hb : boundFail i ck s = none)
    (hp : ck.priv ≠ 0) : word i ck eff s = .next (s.takeTrap (s.trapOf i .privLimit .none ck.priv s.cur.unit)) := by
  unfold word; simp only [hi, hb, Bool.false_eq_true, if_false]; exact if_pos hp

/-- A word that its pipe does not accept, or that waits at issue, leaves its entry at its unit and is marked. -/
theorem word_refused {i : Instr} {ck : Checks} {eff : State → State} {s : State} (hi : ck.illegal = false) (hb : boundFail i ck s = none)
    (hp : ck.priv = 0) (ha : ck.accept = false) : word i ck eff s = .next { s.back with cur := { s.cur with refused := true } } := by
  unfold word; simp [hi, hb, hp, ha]

theorem word_wide {i : Instr} {ck : Checks} {eff : State → State} {s : State} (hi : ck.illegal = false) (hb : boundFail i ck s = none)
    (hp : ck.priv = 0) (ha : ck.accept = true)
    (hw : s.w.wide < gCount (eff (s.modW fun w => w.stepAll s.latch (ck.stepIn.getD s.cur.active) (stepOps i))).w) :
    word i ck eff s = .next (s.takeTrap (s.trapOf i .wideBudget .none s.cur.active s.cur.unit)) := by
  unfold word
  simp only [hi, hb, hp, ha, Bool.false_eq_true, if_false, ne_eq, not_true_eq_false, Bool.not_true]
  exact if_pos hw

/-! ## Operations that leave memory as it was -/

@[simp] theorem back_mem (s : State) : s.back.mem = s.mem := rfl
@[simp] theorem park_mem (s : State) (p : Park) : (s.park p).mem = s.mem := rfl
@[simp] theorem pend_mem (s : State) (r : RegName) (l : Latency) : (s.pend r l).mem = s.mem := rfl
@[simp] theorem dropGroups_mem (s : State) (g : List Nat) : (s.dropGroups g).mem = s.mem := rfl

@[simp] theorem raiseMsi_mem (s : State) (p : Port) (f v : Nat) : (s.raiseMsi p f v).mem = s.mem := by
  unfold State.raiseMsi; dsimp only; split <;> rfl

@[simp] theorem raiseBoth_mem (s : State) (v : Nat) : (s.raiseBoth v).mem = s.mem := by
  unfold State.raiseBoth; rw [raiseMsi_mem, raiseMsi_mem]

@[simp] theorem record_mem (s : State) (f : FaultRec) : (s.record f).mem = s.mem := by
  unfold State.record; dsimp only; split
  · rw [raiseBoth_mem]
  · rfl

@[simp] theorem modWave_mem (s : State) (u : Nat) (f : Wave → Wave) : (s.modWave u f).mem = s.mem := by unfold State.modWave; split <;> rfl
@[simp] theorem modGroup_mem (s : State) (g : Nat) (f : Group → Group) : (s.modGroup g f).mem = s.mem := by unfold State.modGroup; split <;> rfl
@[simp] theorem modCtx_mem (s : State) (c : Nat) (f : Ctx → Ctx) : (s.modCtx c f).mem = s.mem := by unfold State.modCtx; split <;> rfl
@[simp] theorem modCore_mem (s : State) (c : Nat) (f : Core → Core) : (s.modCore c f).mem = s.mem := by
  unfold State.modCore; split
  · rfl
  · split <;> rfl

@[simp] theorem terminate_mem (s : State) (c : Nat) (d : Domain) : (s.terminate c d).mem = s.mem := by
  unfold State.terminate; rw [modCtx_mem]; dsimp only; split <;> rfl

@[simp] theorem waveFault_mem (s : State) (w : Wave) (g : Group) (c : Cause) (pc : VA) (d : Domain) : (s.waveFault w g c pc d).mem = s.mem := by
  unfold State.waveFault; rw [record_mem, terminate_mem]

/-- Taking a trap, or ending a context for one, changes no memory. -/
@[simp] theorem takeTrap_mem (s : State) (t : Trap) : (s.takeTrap t).mem = s.mem := by
  unfold State.takeTrap; dsimp only; split
  · split
    · rw [record_mem, terminate_mem]; rfl
    · rfl
  · split
    · rw [waveFault_mem]
    · rfl

@[simp] theorem focus_mem (s : State) (u : Nat) : (s.focus u).mem = s.mem := by
  unfold State.focus; split
  · rfl
  · split
    · rfl
    · dsimp only
      repeat' split
      all_goals rfl

/-- Every word keeps a property of memory that its effect keeps. -/
theorem word_keeps (P : Memory → Prop) {i : Instr} {ck : Checks} {eff : State → State} {s t : State} (hs : P s.mem)
    (he : ∀ u : State, u.mem = s.mem → P (eff u).mem) (h : word i ck eff s = .next t) : P t.mem := by
  unfold word at h
  split at h
  · cases h; rw [takeTrap_mem]; exact hs
  · split at h
    · cases h; rw [takeTrap_mem]; exact hs
    · split at h
      · cases h; rw [takeTrap_mem]; exact hs
      · split at h
        · cases h; exact hs
        · dsimp only at h
          split at h
          · cases h; rw [takeTrap_mem]; exact hs
          · split at h
            · cases h; rw [takeTrap_mem]; exact hs
            · split at h
              · cases h; rw [takeTrap_mem]; exact hs
              · cases h; rw [takeTrap_mem]; exact hs
              · split at h
                · cases h; rw [takeTrap_mem]; exact hs
                · cases h; exact he _ rfl

end Laws
end Sys2Proof
end

