-- ==== Sys2Proof/Laws/Vector.lean ====
section
/-! SUPPORT. Laws of the element-wise and shaped values: elements of a register, the integer effects on bit vectors, BitField, and which
lane values a result shape stands for (R220, R243, R391, R393). -/

namespace Sys2Proof
namespace Laws

open Sys2Proof.Machine

theorem elem_extract (w k : Nat) (v : Word) : elem w k v = (v.extractLsb' (w * k) w).toNat := by
  simp [elem, Nat.shiftRight_eq_div_pow]

theorem joinElems_32 (f : Nat → Nat) (x : BitVec 32) (h : f 0 % 2^32 = x.toNat) : joinElems 32 f = x := by
  apply BitVec.eq_of_toNat_eq; simp [joinElems, List.range_succ]; simpa using h
theorem joinElems_16 (f : Nat → Nat) (x y : BitVec 16) (h0 : f 0 % 2^16 = x.toNat) (h1 : f 1 % 2^16 = y.toNat) : joinElems 16 f = y ++ x := by
  apply BitVec.eq_of_toNat_eq
  have hx := x.isLt; have hy := y.isLt
  have e1 : (y ++ x).toNat = y.toNat * 65536 + x.toNat := by
    rw [BitVec.toNat_append, ← Nat.shiftLeft_add_eq_or_of_lt hx, Nat.shiftLeft_eq]
  rw [e1]
  simp [joinElems, List.range_succ] at *
  rw [h0, h1]; omega
theorem joinElems_8_fold (f : Nat → Nat) : joinElems 8 f = BitVec.ofNat 32 (List.foldl (fun v k => v + f k % 2 ^ 8 * 2 ^ (8 * k)) 0 [0,1,2,3]) := by
    unfold joinElems
    rw [show List.range (32 / 8) = [0, 1, 2, 3] by decide]
theorem foldl_four (g : Nat → Nat) : (List.foldl (fun v k => v + g k ) 0 [0,1,2,3]) = 0 + g 0 + g 1 + g 2 + g 3 := rfl
theorem joinElems_8_sum (f : Nat → Nat) : joinElems 8 f = BitVec.ofNat 32 (0 + f 0 % 2 ^ 8 * 2 ^ (8*0) + f 1 % 2 ^ 8 * 2 ^ (8*1) + f 2 % 2 ^ 8 * 2 ^ (8*2) + f 3 % 2 ^ 8 * 2 ^ (8*3)) := 
  (joinElems_8_fold f).trans (congrArg _ (foldl_four fun k => f k % 2 ^ 8 * 2 ^ (8 * k)))
theorem four_bytes (x y z u : Nat) (_ : x < 256) (_ : y < 256) (_ : z < 256) (_ : u < 256) : (0 + x * 1 + y * 256 + z * 65536 + u * 16777216) % 2^32 = ((u * 256 + z)*256 + y) *256 + x := by omega
theorem joinElems_8 (f : Nat → Nat) (x y z u : BitVec 8) (h0 : f 0 % 2^8 = x.toNat) (h1 : f 1 % 2^8 = y.toNat) (h2 : f 2 % 2^8 = z.toNat) (h3 : f 3 % 2^8 = u.toNat) : joinElems 8 f = u ++ z ++ y ++ x := by
  apply BitVec.eq_of_toNat_eq
  have hx := x.isLt; have hy := y.isLt; have hz := z.isLt; have hu:= u.isLt
  have e1 : (u ++ z).toNat = u.toNat * 256 + z.toNat := by
    rw [BitVec.toNat_append, ← Nat.shiftLeft_add_eq_or_of_lt hz, Nat.shiftLeft_eq]
  have e2 : (u ++ z ++ y).toNat = (u.toNat * 256 + z.toNat)*256 + y.toNat := by
    rw [BitVec.toNat_append, ← Nat.shiftLeft_add_eq_or_of_lt hy, Nat.shiftLeft_eq, e1]
  have e3 : (u ++ z ++ y ++ x).toNat = ((u.toNat * 256 + z.toNat)*256 + y.toNat) *256 + x.toNat := by
    rw [BitVec.toNat_append, ← Nat.shiftLeft_add_eq_or_of_lt hx, Nat.shiftLeft_eq, e2]
  have e4 := joinElems_8_sum f
  rw [e3, e4, h0, h1, h2, h3, BitVec.toNat_ofNat, show (2:Nat)^(8*0) = 1 by norm_num, show (2:Nat)^(8*1) = 256 by norm_num, show (2:Nat)^(8*2) = 65536 by norm_num, show (2:Nat)^(8*3) = 16777216 by norm_num]
  exact four_bytes _ _ _ _ hx hy hz hu

theorem zipElems_onElems (ty : IntTy) (g : Nat → Nat → Nat → Nat) (f : (w : Nat) → BitVec w → BitVec w → BitVec w → BitVec w)
  (h : ∀ x y z : BitVec ty.bits, g x.toNat y.toNat z.toNat % 2 ^ ty.bits = (f ty.bits x y z).toNat) (a b d : Word) :
  zipElems ty.bits g a b d = onElems ty f a b d := by
  unfold zipElems onElems
  have key : ∀ k, g (elem ty.bits k a) (elem ty.bits k b) (elem ty.bits k d) % 2 ^ ty.bits = (f ty.bits (a.extractLsb' (ty.bits * k) ty.bits) (b.extractLsb' (ty.bits * k) ty.bits) (d.extractLsb' (ty.bits * k) ty.bits)).toNat := by
    intro k; rw [elem_extract, elem_extract, elem_extract]; exact h _ _ _
  cases ty <;> simp only [IntTy.bits] at *
  · exact joinElems_32 _ _ (by simpa using key 0)
  · exact joinElems_32 _ _ (by simpa using key 0)
  · exact joinElems_16 _ _ _ (key 0) (key 1)
  · exact joinElems_8 _ _ _ _ _ (key 0) (key 1) (key 2) (key 3)
  · exact joinElems_16 _ _ _ (key 0) (key 1)
  · exact joinElems_8 _ _ _ _ _ (key 0) (key 1) (key 2) (key 3)

theorem intOf_number (sg : Bool) (w : Nat) (hw : 0 < w) (x : BitVec w) : intOf sg w x.toNat = number sg x := by
  have hx := x.isLt
  have hp : 2 ^ w = 2 ^ (w-1) * 2 := by rw [← Nat.pow_succ]; congr 1; omega
  unfold intOf number
  rw [Nat.mod_eq_of_lt hx]
  cases sg
  · simp
  · simp only [true_and, if_true]
    rw [BitVec.toInt_eq_toNat_cond]
    by_cases h : 2 ^ (w-1) ≤ x.toNat
    · rw [if_pos h, if_neg (by omega)]; rw [Int.emod_eq_of_lt (by omega) (by exact_mod_cast hx)]; push_cast; rfl
    · rw [if_neg h, if_pos (by omega)]
theorem wrapN_ofInt (z : Int) (w : Nat) : wrapN z w = (BitVec.ofInt w z).toNat := by
  simp [wrapN, BitVec.toNat_ofInt]
theorem number_ofInt (sg : Bool) {w : Nat} (x : BitVec w) : BitVec.ofInt w (number sg x) = x := by
  cases sg <;> simp [number]

theorem bits_pos (ty : IntTy) : 0 < ty.bits := by cases ty <;> decide

theorem intOp_effect (op : IntOp) (ty : IntTy) (x y z : BitVec ty.bits) :
   op.elem ty x.toNat y.toNat z.toNat % 2 ^ ty.bits = (intEffect op ty.isSigned ty.bits x y z).toNat := by
  have hw := bits_pos ty
  have hv : ∀ u : BitVec ty.bits, ty.val u.toNat = number ty.isSigned u := fun u => intOf_number _ _ hw u
  have hmod : ∀ u : BitVec ty.bits, u.toNat % 2 ^ ty.bits = u.toNat := fun u => Nat.mod_eq_of_lt u.isLt
  generalize ty.isSigned = sg at *
  cases op <;> simp only [IntOp.elem, intEffect, hv, wrapN_ofInt, hmod]
  · rw [BitVec.ofInt_add, number_ofInt, number_ofInt]
  · rw [Int.sub_eq_add_neg, BitVec.ofInt_add, BitVec.ofInt_neg, number_ofInt, number_ofInt, BitVec.sub_eq_add_neg]
  · rw [BitVec.ofInt_mul, number_ofInt, number_ofInt]
  · push_cast; rfl
  · rw [BitVec.ofInt_add, BitVec.ofInt_mul, number_ofInt, number_ofInt, number_ofInt]
  · simp [Nat.shiftLeft_eq]
  · simp only [BitVec.toNat_ushiftRight, Nat.shiftRight_eq_div_pow]
    exact Nat.mod_eq_of_lt (lt_of_le_of_lt (Nat.div_le_self _ _) x.isLt)
  · cases sg
    · simp only [number, Bool.false_eq_true, if_false, BitVec.toNat_ushiftRight, Nat.shiftRight_eq_div_pow]
      rw [BitVec.toNat_ofInt]
      have : ((x.toNat : Int) / ((2 ^ (y.toNat % ty.bits) : Nat) : Int)) = ((x.toNat / 2 ^ (y.toNat % ty.bits) : Nat) : Int) := by push_cast; rfl
      rw [this]
      have h2 := Nat.mod_eq_of_lt (lt_of_le_of_lt (Nat.div_le_self x.toNat (2 ^ (y.toNat % ty.bits))) x.isLt)
      rw [← Int.natCast_emod, Int.toNat_natCast, h2]
    · simp only [number, if_true]
      rw [BitVec.sshiftRight, Int.shiftRight_eq_div_pow]
  · split <;> exact hmod _
  · split <;> exact hmod _
  · cases sg
    · simp only [number, Bool.false_eq_true, if_false]; simp [BitVec.toNat_ofInt, hmod]
    · simp only [number, if_true]

theorem intOp_word (op : IntOp) (ty : IntTy) (a b d : Word) : op.word ty a b d = onElems ty (intEffect op ty.isSigned) a b d := 
  zipElems_onElems ty _ _ (intOp_effect op ty) a b d

-- shapes
theorem single_of_targets {r m o n} (h : targets r m o = [n]) : single r m o = some n := by simp [single, h]
/-- all lanes: the source reads its shape -/
theorem srcShape_is (r : Regs) (o : VOp) : ∀ sh, srcShape r (BitVec.allOnes 32) o = sh → ShapeIs sh (fun L => readV r o L) := by
  intro sh h
  subst h
  unfold srcShape
  cases hs : single r (BitVec.allOnes 32) o with
  | none => trivial
  | some n =>
    have hres : ∀ L : Lane, resolve r o L = n := by
      intro L
      have hm : resolve r o L ∈ targets r (BitVec.allOnes 32) o := (mem_targets _ _ _ _).mpr ⟨L, allOnes_lane L, rfl⟩
      unfold single at hs
      split at hs
      · rename_i k hk; rw [hk] at hm; simp at hm; rw [hm]; simpa using hs
      · cases hs
    have hread : ∀ L, readV r o L = (r.v[n]).lane L := by
      intro L
      exact congrArg (fun k : Fin 256 => (r.v[k]).lane L) (hres L)
    dsimp only
    cases hv : r.v[n] with
    | u v => intro L; show readV r o L = _; rw [hread, hv]; rfl
    | a b st => intro L; show readV r o L = _; rw [hread, hv]; rfl
    | g _ => trivial
    | coming _ => trivial

theorem shape_of_isU {sh : Shape} (h : sh.isU = true) (hp : sh ≠ .pending) : ∃ v, sh = .u v := by
  cases sh <;> first | exact ⟨_, rfl⟩ | exact absurd rfl hp | simp [Shape.isU] at h
theorem affine_is {base stride : Word} {f : Lane → Word} (h : ∀ L : Lane, f L = base + BitVec.ofNat 32 L.val * stride) :
    ShapeIs (.affine base stride) f := by
  unfold Shape.affine
  split
  · rename_i h0; subst h0; intro L; rw [h L]; simp
  · exact h
theorem uniformShape_is (r : Regs) (os : List VOp) (f : Lane → Word) (hf : (∀ o ∈ os, ∃ v, ∀ L, readV r o L = v) → ∀ L K, f L = f K) (K : Lane) :
   ShapeIs (uniformShape r (BitVec.allOnes 32) os (f K)) f := by
  unfold uniformShape
  split
  · rename_i h
    simp only [List.all_eq_true] at h
    split
    · trivial
    · rename_i hp
      intro L
      apply hf
      intro o ho
      obtain ⟨v, hv⟩ := shape_of_isU (h o ho) fun e => hp (List.any_eq_true.mpr ⟨o, ho, by rw [e]; rfl⟩)
      exact ⟨v, srcShape_is r o _ hv⟩
  · trivial

theorem onElems_congr (ty : IntTy) (f) {a b d a' b' d' : Word} (h1 : a = a') (h2 : b = b') (h3 : d = d') : onElems ty f a b d = onElems ty f a' b' d' := by
  subst h1 h2 h3; rfl

theorem sub_self (sg : Bool) (ty : IntTy) (a d : Word) : onElems ty (intEffect .sub sg) a a d = 0 := by
  cases ty <;> simp only [onElems, IntTy.bits, intEffect] <;> simp

theorem onElems_whole {ty : IntTy} (h : ty.whole = true) (f) (a b d : Word) : onElems ty f a b d = f 32 a b d := by
  cases ty <;> simp [IntTy.whole] at h <;> rfl

theorem intShape_is (op : IntOp) (ty : IntTy) (r : Regs) (d a b : VOp) (os : List VOp) (f : Lane → Word) (K : Lane)
   (hf : ∀ L, f L = onElems ty (intEffect op ty.isSigned) (readV r a L) (readV r b L) (readV r d L))
   (hos : (∀ o ∈ os, ∃ v, ∀ L, readV r o L = v) → ∀ L K, f L = f K) :
   ShapeIs (intShape op ty r (BitVec.allOnes 32) a b os (f K)) f := by
  have hu := uniformShape_is r os f hos K
  have sa := srcShape_is r a
  have sb := srcShape_is r b
  unfold intShape
  cases op <;> dsimp only <;> try exact hu
  · split
    · rename_i hw
      split
      · rename_i x st y h1 h2
        refine affine_is fun L => ?_
        rw [hf, onElems_whole hw, (show readV r a L = _ from sa _ h1 L), (show readV r b L = _ from sb _ h2 L)]
        simp only [intEffect]; ring
      · rename_i x y st h1 h2
        refine affine_is fun L => ?_
        rw [hf, onElems_whole hw, (show readV r a L = _ from sa _ h1 L), (show readV r b L = _ from sb _ h2 L)]
        simp only [intEffect]; ring
      · rename_i x st y t h1 h2
        refine affine_is fun L => ?_
        rw [hf, onElems_whole hw, (show readV r a L = _ from sa _ h1 L), (show readV r b L = _ from sb _ h2 L)]
        simp only [intEffect]; ring
      · exact hu
    · exact hu
  · split
    · rename_i hs
      intro L
      have : resolveNat r a L = resolveNat r b L := by
        simp only [sameReg, List.all_eq_true, mem_lanesOf] at hs
        simpa using hs L (allOnes_lane L)
      have h2 : readV r a L = readV r b L := congrArg (fun n => (r.v[Fin.ofNat 256 (n + 0)]).lane L) this
      rw [hf, h2]; exact sub_self _ _ _ _
    · split
      · rename_i hw
        split
        · rename_i x st y h1 h2
          refine affine_is fun L => ?_
          rw [hf, onElems_whole hw, (show readV r a L = _ from sa _ h1 L), (show readV r b L = _ from sb _ h2 L)]
          simp only [intEffect]; ring
        · rename_i x y st h1 h2
          refine affine_is fun L => ?_
          rw [hf, onElems_whole hw, (show readV r a L = _ from sa _ h1 L), (show readV r b L = _ from sb _ h2 L)]
          simp only [intEffect]; ring
        · rename_i x st y t h1 h2
          refine affine_is fun L => ?_
          rw [hf, onElems_whole hw, (show readV r a L = _ from sa _ h1 L), (show readV r b L = _ from sb _ h2 L)]
          simp only [intEffect]; ring
        · exact hu
      · exact hu
  · split
    · rename_i hw
      split
      · rename_i x st y h1 h2
        intro L
        rw [hf, onElems_whole hw, (show readV r a L = _ from sa _ h1 L), (show readV r b L = _ from sb _ h2 L)]
        simp only [intEffect]; ring
      · rename_i x y st h1 h2
        intro L
        rw [hf, onElems_whole hw, (show readV r a L = _ from sa _ h1 L), (show readV r b L = _ from sb _ h2 L)]
        simp only [intEffect]; ring
      · exact hu
    · exact hu
  · split
    · rename_i hw
      split
      · rename_i x st y h1 h2
        intro L
        rw [hf, onElems_whole hw, (show readV r a L = _ from sa _ h1 L), (show readV r b L = _ from sb _ h2 L)]
        simp only [intEffect]
        rw [BitVec.shiftLeft_eq_mul_twoPow, BitVec.shiftLeft_eq_mul_twoPow, BitVec.shiftLeft_eq_mul_twoPow]; ring
      · exact hu
    · exact hu


theorem popcount_eq (x : Word) : BitVec.ofNat 32 (popcount x) = BitVec.ofNat 32 ((List.range 32).filter fun n => x.getLsbD n).length := by
  simp [popcount, List.countP_eq_length_filter]
theorem leadingZeros_eq (x : Word) : BitVec.ofNat 32 (leadingZeros x) = if x = 0 then 32 else BitVec.ofNat 32 (31 - Nat.log2 x.toNat) := by
    simp only [leadingZeros, bitLen]
    by_cases h0 : x = 0
    · simp [h0]
    · have h1 : x.toNat ≠ 0 := fun e => h0 (BitVec.eq_of_toNat_eq (by simpa using e))
      have h2 : Nat.log2 x.toNat < 32 := by
        rw [Nat.log2_lt h1]; exact x.isLt
      rw [if_neg h1, if_neg h0]
      congr 1; omega

theorem offset_bits (v : Word) : (BitVec.extractLsb' 0 5 v).toNat = v.toNat % 32 := by simp
theorem width_bits (v : Word) : (BitVec.extractLsb' 8 5 v).toNat = v.toNat / 256 % 32 := by simp [Nat.shiftRight_eq_div_pow]
theorem min_32 (n : Nat) : Nat.min (n % 32) 32 = n % 32 := Nat.min_eq_left (by omega)
theorem bitField_eq (v sp : Word) : bitField v sp = fieldOf v sp := by
  simp only [bitField, fieldOf, offset_bits, width_bits, min_32]
  split
  · rename_i h0; rw [h0]; simp [Nat.mod_one]
  · rfl
theorem fieldWidth_bits (sp : Word) : fieldWidth sp = (BitVec.extractLsb' 8 5 sp).toNat := by simp only [fieldWidth, width_bits, min_32]

theorem bfxWord_eq (v sp : Word) : bfxWord false v sp = signedField v sp := by
  simp only [bfxWord, signedField, bitField_eq, fieldWidth_bits]
  have hlt : (BitVec.extractLsb' 8 5 sp).toNat < 32 := by rw [width_bits]; omega
  have hfl : (fieldOf v sp).toNat < 2 ^ (BitVec.extractLsb' 8 5 sp).toNat := by
    unfold fieldOf
    rw [BitVec.toNat_ofNat]
    have h1 : v.toNat / 2 ^ (BitVec.extractLsb' 0 5 sp).toNat % 2 ^ (BitVec.extractLsb' 8 5 sp).toNat < 2 ^ (BitVec.extractLsb' 8 5 sp).toNat := Nat.mod_lt _ (by positivity)
    exact lt_of_le_of_lt (Nat.mod_le _ _) h1
  generalize (BitVec.extractLsb' 8 5 sp).toNat = w at *
  generalize fieldOf v sp = f at *
  by_cases hw : 0 < w
  · have hp : 2 ^ w = 2 ^ (w-1) * 2 := by rw [← Nat.pow_succ]; congr 1; omega
    have hbit : f.getLsbD (w-1) = decide (2 ^ (w-1) ≤ f.toNat) := by
      rw [BitVec.getLsbD]
      by_cases hh : 2 ^ (w-1) ≤ f.toNat
      · rw [Nat.testBit_eq_decide_div_mod_eq]
        have : f.toNat / 2 ^ (w-1) = 1 := by
          rw [Nat.div_eq_iff (by positivity)]; omega
        simp [this, hh]
      · rw [Nat.testBit_lt_two_pow (by omega)]; simp [hh]
    by_cases hh : 2 ^ (w-1) ≤ f.toNat
    · rw [if_pos ⟨by simp, hw, hlt, by simp [hbit, hh]⟩, if_pos ⟨hw, hh⟩]
      apply BitVec.eq_of_getLsbD_eq
      intro n hn
      have e : BitVec.ofInt 32 ((f.toNat : Int) - 2 ^ w) = f + (BitVec.allOnes 32 <<< w) := by
        have h3 : (BitVec.allOnes 32 <<< w) = BitVec.ofInt 32 (- 2 ^ w) := by
          rw [BitVec.shiftLeft_eq_mul_twoPow, BitVec.ofInt_neg]
          have : BitVec.ofInt 32 (2 ^ w) = BitVec.twoPow 32 w := by
            apply BitVec.eq_of_toNat_eq
            rw [BitVec.toNat_ofInt, BitVec.toNat_twoPow]; norm_cast
          rw [this, ← BitVec.neg_one_eq_allOnes, BitVec.neg_mul, BitVec.one_mul]
        rw [h3, Int.sub_eq_add_neg, BitVec.ofInt_add]; simp
      rw [e]
      have hdis : f &&& (BitVec.allOnes 32 <<< w) = 0#32 := by
        apply BitVec.eq_of_getLsbD_eq
        intro k hk
        rw [BitVec.getLsbD_and]
        by_cases hkw : k < w
        · simp [hkw]
        · have : f.getLsbD k = false := by
            rw [BitVec.getLsbD]; exact Nat.testBit_lt_two_pow (lt_of_lt_of_le hfl (Nat.pow_le_pow_right (by omega) (by omega)))
          simp [this]
      rw [BitVec.add_eq_or_of_and_eq_zero _ _ hdis]
    · rw [if_neg (by rintro ⟨_, _, _, h⟩; rw [hbit] at h; simp at h; omega), if_neg (by rintro ⟨_, h⟩; omega)]
  · rw [if_neg (by rintro ⟨_, h, _⟩; omega), if_neg (by rintro ⟨h, _⟩; omega)]
theorem bfiWord_eq (d v sp : Word) : bfiWord d v sp = insertField d v sp := by
  simp only [bfiWord, insertField, fieldWidth_bits, offset_bits]
  have : v <<< (sp.toNat % 32) = BitVec.ofNat 32 (v.toNat * 2 ^ (sp.toNat % 32)) := by
    apply BitVec.eq_of_toNat_eq; simp [Nat.shiftLeft_eq]
  rw [this]

theorem uniform_two {r : Regs} {a b : VOp} (g : Word → Word → Word) (h : ∀ o ∈ [a, b], ∃ v, ∀ L, readV r o L = v) (L K : Lane) : g (readV r a L) (readV r b L) = g (readV r a K) (readV r b K) := by
  obtain ⟨v, hv⟩ := h a (by simp); obtain ⟨u, hu⟩ := h b (by simp)
  rw [hv, hv, hu, hu]
theorem uniform_one {r : Regs} {a : VOp} (g : Word → Word) (h : ∀ o ∈ [a], ∃ v, ∀ L, readV r o L = v) (L K : Lane) : g (readV r a L) = g (readV r a K) := by
  obtain ⟨v, hv⟩ := h a (by simp)
  rw [hv, hv]


end Laws
end Sys2Proof
end

