-- ==== Sys2Proof/Tests/Slice0.lean ====
section
/-! SUPPORT. The row's own tests: ill-formed terms that WellFormed refuses, words written out from the spec's encoding tables, single steps on small
states with results worked out by hand from the rules, and a witness for the hypotheses of each statement. -/

namespace Sys2Proof
namespace Tests
set_option maxRecDepth 4000
set_option Elab.async false
open Machine

/-! ## Ill-formed terms -/

/-- A memory modifier. -/
def mm (z : Size) (o : Order) (sc : Scope) (p : Policy) : MemMod := { size := z, order := o, scope := sc, policy := p }
/-- `.b32`, weak, default policy. -/
def weak : MemMod := mm .b32 .wk .dev .dflt

-- R226: one word names x1 as [x1+] and as [x1].
theorem illFormed_twoForms : Instr.wellFormed (.add .i32 (.inc 1) (.idx 1) (.dir 0)) = false := by decide
theorem illFormed_timeForm : Instr.wellFormed (.ld weak (.inc 1) (.dir 0) 0 (.idx 1)) = false := by decide
-- R382: link pair 0.
theorem illFormed_call : Instr.wellFormed (.call 0 1) = false := by decide
-- R283: an addition of 0.
theorem illFormed_taga : Instr.wellFormed (.taga 1 0) = false := by decide
-- R438: a run of 3 banks, and one of 64.
theorem illFormed_acca : Instr.wellFormed (.acca 1 3) = false ∧ Instr.wellFormed (.acca 1 0) = false := by decide
-- R424: a weak fence.
theorem illFormed_fence : Instr.wellFormed (.fence .wk .dev) = false := by decide
-- R395: selectors 9 and 63.
theorem illFormed_id : Instr.wellFormed (.id (.dir 0) 9) = false ∧ Instr.wellFormed (.id (.dir 0) 63) = false := by decide
-- R398, R248: a narrowing pair in `cvt`, a widening one in `cvtn`.
theorem illFormed_cvt : Instr.wellFormed (.cvt .f16 .f32 .rne (.dir 0) (.dir 1)) = false ∧
    Instr.wellFormed (.cvtn .f32 .f16 .rne .sat (.dir 0) (.dir 1)) = false := by decide
-- R399: `cvtw` to FP32.
theorem illFormed_cvtw : Instr.wellFormed (.cvtw .f32 .f16 .rne (.dir 0) (.dir 1)) = false := by decide
-- R208: registers t12 to t16.
theorem illFormed_trank : Instr.wellFormed (.trank (.dir 0) 12 4) = false := by decide
-- R449: the reserved numbers 0x00A and 0x016; only number 0 can be written.
theorem illFormed_sysr : Instr.wellFormed (.sysr 1 0x00A) = false ∧ Instr.wellFormed (.sysr 1 0x016) = false ∧
    Instr.wellFormed (.sysw 1 1) = false := by decide
-- R409: a release load, a weak load with a scope, a load with `.fwd`.
theorem illFormed_ld : Instr.wellFormed (.ld (mm .b32 .rel .dev .dflt) (.dir 0) (.dir 1) 0 (.dir 0)) = false ∧
    Instr.wellFormed (.ld (mm .b32 .wk .sys .dflt) (.dir 0) (.dir 1) 0 (.dir 0)) = false ∧
    Instr.wellFormed (.sld (mm .b32 .wk .dev .fwd) (.dir 0) (.dir 1) 0 (.dir 0)) = false := by decide
-- R409: an acquire store, a key without `.fwd`.
theorem illFormed_st : Instr.wellFormed (.st (mm .b32 .acq .dev .dflt) (.dir 0) (.dir 1) 0 0) = false ∧
    Instr.wellFormed (.sst weak (.dir 0) (.dir 1) 0 5) = false := by decide
theorem illFormed_scratch : Instr.wellFormed (.lds (mm .b32 .wk .dev .keep) (.dir 0) (.dir 1) 0 (.dir 0)) = false ∧
    Instr.wellFormed (.ldt (mm .b32 .rel .dev .dflt) (.dir 0) (.dir 1) 0 0 (.dir 0)) = false ∧
    Instr.wellFormed (.sts (mm .b32 .acq .wave .dflt) (.dir 0) (.dir 1) 0) = false := by decide
theorem illFormed_private : Instr.wellFormed (.ldp (mm .b32 .acq .dev .dflt) (.dir 0) (.dir 1) 0 (.dir 0)) = false ∧
    Instr.wellFormed (.stp (mm .b32 .wk .dev .keep) (.dir 0) (.dir 1) 0) = false ∧
    Instr.wellFormed (.probe (mm .b32 .wk .dev .fwd) (.dir 1) 0 (.dir 0)) = false := by decide
-- R409, R419, R422: a byte atomic, FADD of 64 bits, an ordered `atsc`, an acquiring `red`, an exchanging `hred`.
theorem illFormed_atomics : Instr.wellFormed (.atom .add (mm .b8 .wk .dev .dflt) (.dir 0) (.dir 2) 0 (.dir 0)) = false ∧
    Instr.wellFormed (.atom .fadd (mm .b64 .wk .dev .dflt) (.dir 0) (.dir 2) 0 (.dir 0)) = false ∧
    Instr.wellFormed (.cas (mm .b128 .wk .dev .dflt) (.dir 0) (.dir 2) 0 (.dir 3) (.dir 0)) = false ∧
    Instr.wellFormed (.atsc .add (mm .b32 .acq .dev .dflt) (.dir 0) (.dir 2) 0 (.dir 0)) = false ∧
    Instr.wellFormed (.red .add (mm .b32 .acq .dev .dflt) (.dir 0) (.dir 2) 0) = false ∧
    Instr.wellFormed (.hred .exch weak (.dir 0) (.dir 2) 0) = false := by decide
-- R429: a byte copy, `.fwd`, and a base pair above s31:s30.
theorem illFormed_cpa : Instr.wellFormed (.cpa false .b8 .dflt (.dir 0) (.dir 1) 0 0 0) = false ∧
    Instr.wellFormed (.cpa false .b32 .fwd (.dir 0) (.dir 1) 0 0 0) = false ∧
    Instr.wellFormed (.cpa false .b32 .dflt (.dir 0) (.dir 1) 16 0 0) = false := by decide
-- R257: E4M3 with E2M1, BF16 with E4M3.
theorem illFormed_matrix : Instr.wellFormed (.mma .e4m3 .e2m1 1 2 0) = false ∧ Instr.wellFormed (.mloop .bf16 .e4m3 1 2 3 0) = false ∧
    Instr.wellFormed (.mloopSc .i8 .bf16 .e8m0 1 2 3 0) = false := by decide

/-! ## Words written out from the encoding tables (R347-R358): the layouts of R348, then one word for every constructor -/

/-- The layouts of R348 over a major (R347): A, I, S, SI, B, M, X, Q. -/
def fA (m d a b f : Nat) : Nat := m * 2 ^ 23 + d * 2 ^ 16 + a * 2 ^ 9 + b * 2 ^ 2 + f
def fI (m d a imm : Nat) : Nat := m * 2 ^ 23 + d * 2 ^ 16 + a * 2 ^ 9 + imm
def fS (m d a b f : Nat) : Nat := m * 2 ^ 23 + d * 2 ^ 17 + a * 2 ^ 11 + b * 2 ^ 5 + f
def fSI (m d a imm : Nat) : Nat := m * 2 ^ 23 + d * 2 ^ 17 + a * 2 ^ 11 + imm
def fB (m c off : Nat) : Nat := m * 2 ^ 23 + c * 2 ^ 19 + off
def fM (m d a t b : Nat) : Nat := m * 2 ^ 23 + d * 2 ^ 16 + a * 2 ^ 9 + t * 2 ^ 5 + b
def fX (m op x v t n : Nat) : Nat := m * 2 ^ 23 + op * 2 ^ 20 + x * 2 ^ 16 + v * 2 ^ 9 + t * 2 ^ 4 + n
def fQ (m op sa sb sc e : Nat) : Nat := m * 2 ^ 23 + op * 2 ^ 20 + sa * 2 ^ 14 + sb * 2 ^ 8 + sc * 2 ^ 2 + e
/-- A word behind its prefix (R354): the prefix is the first word. -/
def long (p w : Nat) : Nat := w * 2 ^ 32 + (0x7E * 2 ^ 23 + p)
/-- The memory payload of R355. -/
def pM (size order scope policy tx bhi e op : Nat) : Nat :=
  size * 2 ^ 20 + order * 2 ^ 18 + scope * 2 ^ 16 + policy * 2 ^ 14 + tx * 2 ^ 13 + bhi * 2 ^ 12 + e * 2 ^ 5 + op
/-- What a word, or a word behind a prefix, decodes to. -/
def one (w : Nat) : Option Instr := decodeTableWord 32 w
def two (p w : Nat) : Option Instr := decodeTableWord 64 (long p w)

theorem decode_scalar :
    one (fS 0x00 5 6 7 0) = some (.sAdd 5 6 7) ∧ one (fS 0x00 63 1 2 1) = some (.sSub 63 1 2) ∧ one (fS 0x00 5 6 7 2) = some (.sMul 5 6 7) ∧
    one (fS 0x00 5 6 7 3) = some (.sMulh 5 6 7) ∧ one (fS 0x00 5 6 7 4) = some (.sAnd 5 6 7) ∧ one (fS 0x00 5 6 7 5) = some (.sOr 5 6 7) ∧
    one (fS 0x00 5 6 7 6) = some (.sXor 5 6 7) ∧ one (fS 0x00 5 6 7 7) = some (.sShl 5 6 7) ∧ one (fS 0x00 5 6 7 8) = some (.sShr 5 6 7) ∧
    one (fS 0x00 5 6 7 9) = some (.sSra 5 6 7) ∧ one (fS 0x00 5 6 7 10) = some (.sMin 5 6 7) ∧ one (fS 0x00 5 6 7 11) = some (.sMax 5 6 7) := by decide
theorem decode_scalar_compare :
    one (fS 0x00 5 6 7 12) = some (.sCmpEq 5 6 7) ∧ one (fS 0x00 5 6 7 13) = some (.sCmpNe 5 6 7) ∧ one (fS 0x00 5 6 7 14) = some (.sCmpLt 5 6 7) ∧
    one (fS 0x00 5 6 7 15) = some (.sCmpLe 5 6 7) ∧ one (fS 0x00 5 6 7 16) = some (.sCmpLo 5 6 7) ∧ one (fS 0x00 5 6 7 17) = some (.sCmpLs 5 6 7) ∧
    one (fS 0x00 5 6 7 18) = some (.sSel 5 6 7) ∧ one (fS 0x00 5 6 7 19) = some (.sBfx 5 6 7) ∧ one (fS 0x00 5 6 0 20) = some (.sPopc 5 6) ∧
    one (fS 0x00 5 6 0 21) = some (.sClz 5 6) ∧ one (fS 0x00 5 6 0 22) = some (.sMov 5 6) ∧ one (fS 0x00 5 6 7 25) = none := by decide
theorem decode_scalar_wide :
    one (fSI 0x01 5 0 0x7FF) = some (.sLi 5 0xFFFFFFFF) ∧ two 0x000003 (fSI 0x01 5 0 0x001) = some (.sLi 5 0x1801) ∧
    one (fSI 0x02 5 6 9) = some (.sAddi 5 6 9) ∧ one (fSI 0x0E 0 6 100) = some (.sleep 6 100) ∧
    one (fA 0x03 5 6 7 0) = some (.sRdlane 5 (.dir 6) 7) ∧ one (fA 0x03 5 6 7 1) = some (.sWrlane (.dir 5) 6 7) := by decide
theorem decode_branches :
    one (fB 0x04 0 0x7FFFF) = some (.br (-1)) ∧ one (fB 0x05 3 2) = some (.bc 3 2) ∧ one (fB 0x06 3 2) = some (.bvAny 3 2) ∧
    one (fB 0x06 11 2) = some (.bvAll 3 2) ∧ one (fS 0x07 0 10 0 0) = some (.jr 5) ∧ one (fS 0x07 0 11 0 0) = none ∧
    one (fB 0x08 4 2) = some (.call 4 2) ∧ one (fS 0x09 0 10 0 0) = some (.ret 5) ∧ one (fB 0x0A 0 0) = some .exit ∧
    one (fB 0x0B 0 0) = some .trig ∧ one (fB 0x0D 0 0) = some .nop ∧ one 0x06800000 = some .nop := by decide
theorem decode_waits :
    one (fS 0x0C 0 10 0 4) = some (.yieldTags 5 true) ∧ one (fS 0x0C 0 10 7 1) = some (.yieldTl 5 7 false) ∧
    one (fS 0x0C 0 10 7 6) = some (.yieldEv 10 7 true) ∧ one (fS 0x0C 0 10 0 3) = some (.yieldTick 5 false) ∧
    one (fA 0x0F 0 6 12 0) = some (.spawn (.dir 6) 6) ∧ one (fQ 0x10 0 5 6 0 0) = some (.launch 5 3) := by decide
theorem decode_vector_integer :
    one 0x08E3A210 = some (.add .i32 (.inc 3) (.idx 1) (.dir 4)) ∧ one (fA 0x12 1 2 3 1) = some (.sub .n32 (.dir 1) (.dir 2) (.dir 3)) ∧
    two (2 ^ 18) (fA 0x13 1 2 3 2) = some (.mul .n16x2 (.dir 1) (.dir 2) (.dir 3)) ∧
    two (2 ^ 18) (fA 0x14 1 2 3 3) = some (.mulh .n8x4 (.dir 1) (.dir 2) (.dir 3)) ∧
    one (fA 0x15 127 2 3 3) = some (.mad .i8x4 (.dec 15) (.dir 2) (.dir 3)) ∧ one (fA 0x16 1 2 3 0) = some (.and (.dir 1) (.dir 2) (.dir 3)) ∧
    one (fA 0x17 1 2 3 0) = some (.or (.dir 1) (.dir 2) (.dir 3)) ∧ one (fA 0x18 1 2 3 0) = some (.xor (.dir 1) (.dir 2) (.dir 3)) ∧
    one (fA 0x19 1 2 3 0) = some (.shl .i32 (.dir 1) (.dir 2) (.dir 3)) ∧ one (fA 0x1A 1 2 3 0) = some (.shr .i32 (.dir 1) (.dir 2) (.dir 3)) ∧
    one (fA 0x1B 1 2 3 2) = some (.sra .i16x2 (.dir 1) (.dir 2) (.dir 3)) := by decide
theorem decode_vector_rest :
    one (fA 0x1C 1 2 3 0) = some (.min .i32 (.dir 1) (.dir 2) (.dir 3)) ∧ one (fA 0x1D 1 2 3 0) = some (.max .i32 (.dir 1) (.dir 2) (.dir 3)) ∧
    one (fA 0x1E 1 2 0 0) = some (.abs .i32 (.dir 1) (.dir 2)) ∧ one (fA 0x1F (4 * 8 + 3) 2 3 0) = some (.cmp .lo .i32 3 (.dir 2) (.dir 3)) ∧
    one (fA 0x1F (7 * 8 + 3) 2 3 0) = none ∧ one (fA 0x20 1 2 3 3) = some (.sel 3 (.dir 1) (.dir 2) (.dir 3)) ∧
    one (fA 0x21 1 2 3 1) = some (.bfx true (.dir 1) (.dir 2) (.dir 3)) ∧ one (fA 0x22 1 2 3 0) = some (.bfi (.dir 1) (.dir 2) (.dir 3)) ∧
    one (fA 0x23 1 2 0 0) = some (.popc (.dir 1) (.dir 2)) ∧ one (fA 0x24 1 2 0 0) = some (.clz (.dir 1) (.dir 2)) ∧
    one (fA 0x28 1 2 0 0) = some (.mov (.dir 1) (.dir 2)) := by decide
theorem decode_cross_lane :
    one (fA 0x25 1 2 3 0) = some (.shflIdx (.dir 1) (.dir 2) (.dir 3)) ∧ one (fA 0x25 1 2 3 1) = some (.shflUp (.dir 1) (.dir 2) (.dir 3)) ∧
    one (fA 0x25 1 2 3 2) = some (.shflDown (.dir 1) (.dir 2) (.dir 3)) ∧ one (fA 0x25 1 2 3 3) = some (.shflXor (.dir 1) (.dir 2) (.dir 3)) ∧
    one (fA 0x26 1 2 0 0) = some (.voteAll (.dir 1) 2) ∧ one (fA 0x26 1 2 0 1) = some (.voteAny (.dir 1) 2) ∧
    one (fA 0x26 1 2 0 2) = some (.voteBallot (.dir 1) 2) ∧ one (fI 0x27 1 0 0x7F) = some (.id (.dir 1) 0x7F) := by decide
theorem decode_float :
    two (3 * 2 ^ 21) (fA 0x29 1 2 3 1) = some (.fadd .f16x2 .rdn (.dir 1) (.dir 2) (.dir 3)) ∧
    two (1 * 2 ^ 21) (fA 0x2A 1 2 3 2) = some (.fsub .bf16x2 .rtz (.dir 1) (.dir 2) (.dir 3)) ∧
    one (fA 0x2B 1 2 3 0) = some (.fmul .f32 .rne (.dir 1) (.dir 2) (.dir 3)) ∧ one 0x96040208 = some (.ffma .f32 .rne (.dir 4) (.dir 1) (.dir 2)) ∧
    one (fA 0x2D 1 2 3 0) = some (.fmin .f32 (.dir 1) (.dir 2) (.dir 3)) ∧ one (fA 0x2E 1 2 3 0) = some (.fmax .f32 (.dir 1) (.dir 2) (.dir 3)) ∧
    one (fA 0x2F (2 * 8 + 1) 2 3 0) = some (.fcmp .lt .f32 1 (.dir 2) (.dir 3)) ∧ one (fA 0x30 1 2 0 2) = some (.fcls .bf16x2 (.dir 1) (.dir 2)) ∧
    two (2 * 2 ^ 21) (fA 0x38 1 2 0 0) = some (.fred .rup (.dir 1) (.dir 2)) := by decide
theorem decode_transcendental :
    one (fA 0x31 1 2 0 0) = some (.frcp (.dir 1) (.dir 2)) ∧ one (fA 0x32 1 2 0 0) = some (.frsq (.dir 1) (.dir 2)) ∧
    one (fA 0x33 1 2 0 0) = some (.fsqrt (.dir 1) (.dir 2)) ∧ one (fA 0x34 1 2 0 0) = some (.fex2 (.dir 1) (.dir 2)) ∧
    one (fA 0x35 1 2 0 0) = some (.flg2 (.dir 1) (.dir 2)) ∧ one (fA 0x36 1 2 0 0) = some (.fsin (.dir 1) (.dir 2)) ∧
    one (fA 0x37 1 2 0 0) = some (.fcos (.dir 1) (.dir 2)) := by decide
theorem decode_convert :
    one (fI 0x39 1 2 (0 * 32 + 3 * 2)) = some (.cvt .f32 .e4m3 .rne (.dir 1) (.dir 2)) ∧
    two (1 * 2 ^ 21 + 3 * 2 ^ 19) (fI 0x3A 1 2 (3 * 32 + 0 * 2)) = some (.cvtn .e4m3 .f32 .rtz .trap (.dir 1) (.dir 2)) ∧
    one (fI 0x3B 1 2 (1 * 32 + 4 * 2)) = some (.cvtw .f16 .e5m2 .rne (.dir 1) (.dir 2)) ∧
    one (fA 0x3C 1 2 3 2) = some (.pack .i16x2 .rne (.dir 1) (.dir 2) (.dir 3)) ∧ one (fA 0x3D 1 2 0 3) = some (.unpack .n16x2 (.dir 1) (.dir 2)) := by decide
theorem decode_mask_index_time :
    one 0x1F010403 = some (.kand 3 1 2) ∧ one (fX 0x3E 1 1 2 0 3) = some (.kor 3 1 2) ∧ one (fX 0x3E 2 1 2 0 3) = some (.kxor 3 1 2) ∧
    one (fX 0x3E 3 1 0 0 3) = some (.knot 3 1) ∧ two (16 * 2 ^ 15 + 8 * 2 ^ 7 + 15 * 2 ^ 3) (fX 0x3F 0 5 0 0 0) = some (.xcfg 5 16 8 15) ∧
    one (fX 0x3F 1 5 6 0 0) = some (.xset 5 (.dir 6)) ∧ one (fX 0x3F 2 5 6 0 0) = some (.xget (.dir 6) 5) ∧
    one (fX 0x3F 3 5 6 0 0) = some (.xadd 5 (.dir 6)) ∧ one (fA 0x40 5 6 0 0) = some (.shp 5 (.dir 6)) ∧ one (fA 0x40 5 0 0 1) = some (.shpw 5) := by decide
theorem decode_time :
    one (fX 0x41 0 0 6 0 0) = some (.tnow (.dir 6)) ∧ one (fX 0x41 1 0 6 17 0) = some (.tget (.dir 6) (.idx 1)) ∧
    one (fX 0x41 2 0 6 3 0) = some (.tdist (.dir 6) (.dir 3)) ∧ one (fX 0x41 3 0 0 3 2) = some (.tready 2 (.dir 3)) ∧
    one (fX 0x42 0 0 0 3 0) = some (.twait (.dir 3)) ∧ one (fX 0x43 0 0 0 3 0) = some (.tyield (.dir 3)) ∧
    one (fX 0x44 0 0 6 3 4) = some (.trank (.dir 6) 3 4) := by decide
theorem decode_loads :
    two (pM 3 1 3 0 0 0 0 0) (fM 0x45 8 9 2 4) = some (.ld (mm .b64 .acq .sys .dflt) (.dir 8) (.dir 9) 2 (.dir 2)) ∧
    two (pM 4 0 0 2 1 1 0 0) (fM 0x47 8 9 2 4) = some (.sld (mm .b128 .wk .dev .keep) (.dir 8) (.dir 9) 18 (.idx 2)) ∧
    one (fM 0x45 8 9 2 11) = none ∧ one (fM 0x49 8 9 2 4) = some (.lds weak (.dir 8) (.dir 9) 2 (.dir 2)) ∧
    one (fM 0x4B 8 9 2 4) = some (.ldp weak (.dir 8) (.dir 9) 2 (.dir 2)) ∧ one (fM 0x4D 0 9 2 4) = some (.probe weak (.dir 9) 2 (.dir 2)) ∧
    two (pM 0 0 0 0 0 0 12 0) (fM 0x4E 8 9 2 4) = some (.ldt weak (.dir 8) (.dir 9) 2 12 (.dir 2)) := by decide
theorem decode_stores :
    two (pM 1 2 2 3 0 0 12 0) (fM 0x46 8 9 0 4) = some (.st (mm .b8 .rel .group .fwd) (.dir 8) (.dir 9) 2 12) ∧
    two (pM 2 0 0 1 0 0 0 0) (fM 0x48 8 9 0 4) = some (.sst (mm .b16 .wk .dev .stream) (.dir 8) (.dir 9) 2 0) ∧
    one (fM 0x4A 8 9 0 4) = some (.sts weak (.dir 8) (.dir 9) 2) ∧ one (fM 0x4C 3 8 0 12) = some (.stp weak (.dir 3) (.dir 8) 6) := by decide
-- Words that the spec itself gives (chapters "A packet, bit by bit" and "Core and Private Memory").
theorem decode_spec_words :
    one 0x2583100C = some (.ldp weak (.dir 3) (.dir 8) 6 (.dir 0)) ∧ decodeTableWord 64 (0x6284040A * 2 ^ 32 + 0x3F400000) =
      some (.ld (mm .b128 .wk .dev .dflt) (.dir 4) (.dir 2) 5 (.dir 0)) ∧ one 0x0F890808 = some (.cmp .ne .i32 1 (.dir 4) (.dir 2)) ∧
    one 0x02880001 = some (.bc 1 1) ∧ one 0x2A800000 = some (.bar 0) ∧ one 0x23050C02 = some (.st weak (.dir 5) (.dir 6) 1 0) ∧
    one 0x20B00102 = some (.tready 2 (.idx 0)) := by decide
theorem decode_atomics :
    two (pM 3 3 3 0 0 0 0 3) (fM 0x4F 8 9 2 4) = some (.atom .minN (mm .b64 .ar .sys .dflt) (.dir 8) (.dir 9) 2 (.dir 2)) ∧
    two (pM 0 0 0 0 0 0 5 0) (fM 0x50 8 9 2 4) = some (.cas weak (.dir 8) (.dir 9) 2 (.dir 5) (.dir 2)) ∧
    two (pM 0 0 0 0 0 0 0 8) (fM 0x51 8 9 2 4) = some (.atsc .exch weak (.dir 8) (.dir 9) 2 (.dir 2)) ∧
    two (pM 0 2 0 0 0 0 0 7) (fM 0x52 8 9 0 4) = some (.red .xor (mm .b32 .rel .dev .dflt) (.dir 8) (.dir 9) 2) ∧
    two (pM 0 0 0 0 0 0 0 9) (fM 0x53 8 9 0 4) = some (.hred .fadd weak (.dir 8) (.dir 9) 2) ∧
    two (pM 0 0 0 0 0 0 0 12) (fM 0x4F 8 9 2 4) = none := by decide
theorem decode_sync :
    one (fQ 0x54 0 0 0 3 2) = some (.fence .rel .sys) ∧ one (fQ 0x54 1 0 0 0 0) = some .fenceSc ∧ one (fQ 0x55 0 0 0 15 0) = some (.bar 15) ∧
    one (fQ 0x55 1 0 0 3 0) = some (.barr 3) ∧ one (fQ 0x55 2 0 0 3 0) = some (.barw 3) ∧ one (fQ 0x55 0 0 0 16 0) = none ∧
    one (fQ 0x56 0 5 0 0 0) = some (.evsig 5) ∧ one (fQ 0x56 1 5 6 0 0) = some (.evwait 5 6) ∧ one (fQ 0x56 2 5 6 0 0) = some (.evq 5 6) ∧
    one (fQ 0x57 0 10 0 0 0) = some (.sigdec 5) := by decide
theorem decode_async :
    two (4 * 2 ^ 20 + 2 ^ 19 + 14 * 2 ^ 13 + 9 * 2 ^ 7 + 2 * 2 ^ 5) (fM 0x58 8 9 0 4) = some (.cpa true .b128 .keep (.dir 8) (.dir 9) 2 7 9) ∧
    one (fQ 0x59 0 5 10 9 0) = some (.cpt 5 5 9) ∧ one (fQ 0x5A 0 0 0 9 0) = some (.tagw 9) ∧
    one (0x5A * 2 ^ 23 + 1 * 2 ^ 20 + 255 * 2 ^ 8 + 9 * 2 ^ 2) = some (.taga 9 255) ∧ one (fQ 0x5A 2 0 0 9 0) = some (.tagf 9) ∧
    one (fQ 0x5A 3 10 0 0 0) = some (.tagc 5) ∧ one (fQ 0x5B 0 5 6 0 0) = some (.srec 5 6) ∧ one (fQ 0x5B 1 5 0 9 0) = some (.sarm 5 9) ∧
    one (fQ 0x5B 2 5 0 0 0) = some (.sstop 5) ∧ one (fA 0x5C 1 2 3 0) = some (.iord (.dir 1) (.dir 2) 3) ∧
    one (fA 0x5C 1 2 3 1) = some (.iowr (.dir 1) (.dir 2) 3) ∧ one (fQ 0x5D 0 5 10 0 0) = some (.tlw 5 5) ∧ one (fQ 0x5D 1 10 5 0 0) = some (.tlget 5 5) := by decide
theorem decode_matrix :
    one (fQ 0x5E 0 5 0 32 0) = some (.acca 5 32) ∧ one (fQ 0x5E 1 5 0 0 0) = some (.accf 5) ∧ one (fQ 0x5E 2 5 0 0 0) = some (.accz 5) ∧
    two (19 * 2 ^ 13) (fA 0x5F 1 2 3 0) = some (.accr (.dir 1) 2 3 (.idx 3)) ∧ one (fA 0x5F 1 2 3 1) = some (.accw (.dir 1) 2 3) ∧
    one (fQ 0x60 0 5 0 0 0) = some (.mgix 5) ∧ two (7 * 2 ^ 20 + 7 * 2 ^ 17 + 63 * 2 ^ 9) (fQ 0x61 0 5 0 6 0) = some (.mma .bf16 .bf16 5 6 63) ∧
    two (4 * 2 ^ 20 + 5 * 2 ^ 17 + 9 * 2 ^ 9) (fQ 0x62 0 10 11 12 0) = some (.mloop .e4m3 .e5m2 10 11 12 9) ∧
    two (0 * 2 ^ 20 + 1 * 2 ^ 17 + 1 * 2 ^ 15 + 9 * 2 ^ 9) (fQ 0x62 0 10 11 12 0) = some (.mloopSc .e2m1 .e2m3 .e8m0 10 11 12 9) ∧
    two (2 * 2 ^ 15 + 9 * 2 ^ 9) (fQ 0x63 0 10 11 12 0) = some (.scacc .f32 10 11 12 9) := by decide
theorem decode_system :
    one (fQ 0x64 0 0 0 0 0) = some .trap ∧ one (fQ 0x64 1 0 0 0 0) = some .brk ∧ one (fQ 0x65 0 0 0 0 0) = some .rti ∧
    one (0x66 * 2 ^ 23 + 10 * 2 ^ 14 + 0x015 * 2 ^ 2) = some (.sysr 5 0x015) ∧ one (0x66 * 2 ^ 23 + 1 * 2 ^ 20 + 10 * 2 ^ 14) = some (.sysw 5 0) ∧
    one (fQ 0x67 0 0 0 0 0) = some .replay ∧ one (fQ 0x68 0 10 6 0 0) = some (.wspill 5 6) ∧ one (fQ 0x68 1 10 6 0 0) = some (.wfill 5 6) ∧
    one (fQ 0x69 0 0 0 0 0) = none ∧ one (fQ 0x70 0 0 0 0 0) = none := by decide
-- R343, R346: a header of control version 1 is good; version 2 and a header with bit 0 set are malformed.
theorem packet_header : (packetOf [0x06800000, 0x06800000, 0x06800000]).malformed = false ∧
    (packetOfBytes ([0x00, 0x00, 0x00, 0x81] ++ List.replicate 12 0)).malformed = true ∧
    (packetOfBytes ([0x01, 0x00, 0x00, 0x40] ++ List.replicate 12 0)).malformed = true := by decide
/-! ## Witnesses: states and operands that meet the hypotheses of each statement -/

/-- A package in PS0 with one wave resident on core 0, its lane 0 active at slot 1 of a packet, in a group of one wave with a scratchpad and 4 tags; its
context has a handler. -/
def base : State :=
  { State.reset with
    w := { live := true, uid := 1, gid := 1, nregs := 256, wide := 64, limit := 64, front := [{ pc := 0x10004, mask := 1 }] }
    g := { gid := 1, waves := 1, scratch := 4096, tags := [0, 0, 0, 0] }
    x := { handler := 4 }
    cur := { active := 1, pc := 0x10004, next := 0x10008, unit := 0x10004 }
    power := { cur := 0 }
    serial := 10 }

/-- The base state with scalar registers set, both as they stand and as they stood at issue. -/
def withS (l : List (Fin 64 × Word)) (s : State) : State :=
  let r := { s.w.regs with s := l.foldl (fun v p => v.set p.1.val p.2) s.w.regs.s }
  { s with w := { s.w with regs := r }, latch := r }

/-- The base state with a time register in every lane, arrived where the mask says. -/
def withT (t : Fin 16) (v : DWord) (arr : Mask) (s : State) : State :=
  let r := { s.w.regs with t := s.w.regs.t.set t.val (Vector.replicate 32 v), arr := s.w.regs.arr.set t.val arr }
  { s with w := { s.w with regs := r }, latch := r }

/-- The base state with shape U values in vector registers. -/
def withV (l : List (Fin 256 × Word)) (s : State) : State :=
  let r := { s.w.regs with v := l.foldl (fun v p => v.set p.1.val (.u p.2)) s.w.regs.v }
  { s with w := { s.w with regs := r }, latch := r }

theorem base_fits : RowsFit base := by unfold RowsFit; decide
theorem base_frontier : Frontier base := by constructor <;> decide
theorem base_mayTrap : MayTrap base := by unfold MayTrap; decide

theorem witness_ScalarOpsWriteTheirRow : scalarValue base.latch (.sShl 63 1 2) = some (63, 0) ∧ scalarValue base.latch (.sLi 0 5) = some (0, 5) ∧ RowsFit base := by
  unfold RowsFit; decide
theorem witness_VectorIntegerWordsWriteTheirRow : ∃ r, vectorRow base (.add .i8x4 (.dir 8) (.dir 1) (.dir 2)) = some r ∧
    Instr.wellFormed (.add .i8x4 (.dir 8) (.dir 1) (.dir 2)) = true ∧ Clear (.add .i8x4 (.dir 8) (.dir 1) (.dir 2)) {} base ∧
    WriteFits (.add .i8x4 (.dir 8) (.dir 1) (.dir 2)) base base.cur.active base.cur.active r.d 1 (fun _ => r.val) (fun _ => r.sh) := by
  refine ⟨_, rfl, by decide, ⟨by decide, by decide⟩, ?_⟩
  unfold WriteFits; decide
theorem witness_ScalarReadsOfVectorStateWriteTheirRow : ∃ r, readWord base (.sRdlane 5 (.idx 15) 6) = some r ∧
    Instr.wellFormed (.sRdlane 5 (.idx 15) 6) = true ∧ Clear (.sRdlane 5 (.idx 15) 6) r.ck base ∧ RowsFit base :=
  ⟨_, rfl, by decide, ⟨by decide, by decide⟩, base_fits⟩
theorem witness_MaskWordsWriteTheirRow : maskValue base (.knot 0 0) = some (0, 0) ∧ Clear (.knot 0 0) {} base ∧
    (∃ v, maskValue base (.cmp .ls .n8x4 7 (.dir 1) (.dir 2)) = some (7, v)) ∧ Clear (.cmp .ls .n8x4 7 (.dir 1) (.dir 2)) {} base ∧
    Instr.wellFormed (.cmp .ls .n8x4 7 (.dir 1) (.dir 2)) = true ∧ RowsFit base :=
  ⟨by decide, ⟨by decide, by decide⟩, ⟨_, rfl⟩, ⟨by decide, by decide⟩, by decide, base_fits⟩
theorem witness_CrossLaneWordsWriteTheirRow : ∃ r, crossWord base (.shflIdx (.dir 8) (.dir 1) (.dir 2)) = some r ∧
    Clear (.shflIdx (.dir 8) (.dir 1) (.dir 2)) r.ck base ∧ WriteFits (.shflIdx (.dir 8) (.dir 1) (.dir 2)) base r.steps r.lanes r.d r.n r.val r.sh := by
  refine ⟨_, rfl, ⟨by decide, by decide⟩, ?_⟩
  unfold WriteFits; decide
theorem witness_FloatWordsWriteTheirRow : ∃ r, floatWord base (.ffma .f32 .rup (.dir 8) (.dir 1) (.dir 2)) = some r ∧
    Clear (.ffma .f32 .rup (.dir 8) (.dir 1) (.dir 2)) r.ck base ∧ WriteFits (.ffma .f32 .rup (.dir 8) (.dir 1) (.dir 2)) base r.steps r.lanes r.d r.n r.val r.sh := by
  refine ⟨_, rfl, ⟨by decide, by decide⟩, ?_⟩
  unfold WriteFits; decide
theorem witness_ConversionsWriteTheirRow : ∃ r, convertWord base (.cvtn .e4m3 .f32 .rne .trap (.dir 8) (.dir 1)) = some r ∧
    overflows base (.cvtn .e4m3 .f32 .rne .trap (.dir 8) (.dir 1)) = 0 ∧ Clear (.cvtn .e4m3 .f32 .rne .trap (.dir 8) (.dir 1)) r.ck base ∧
    WriteFits (.cvtn .e4m3 .f32 .rne .trap (.dir 8) (.dir 1)) base r.steps r.lanes r.d r.n r.val r.sh := by
  refine ⟨_, rfl, by decide, ⟨by decide, by decide⟩, ?_⟩
  unfold WriteFits; decide
theorem witness_TimeReadsWriteTheirRow : ∃ r, timeWord base (.trank (.dir 8) 8 7) = some r ∧ Instr.wellFormed (.trank (.dir 8) 8 7) = true ∧
    Clear (.trank (.dir 8) 8 7) r.ck base ∧ WriteFits (.trank (.dir 8) 8 7) base r.steps r.lanes r.d r.n r.val r.sh := by
  refine ⟨_, rfl, by decide, ⟨by decide, by decide⟩, ?_⟩
  unfold WriteFits; decide
theorem witness_IndexWordsChangeOneIndexRegister : (∃ y, indexRow base (.xcfg 15 16 0 8) = some (15, y)) ∧ Clear (.xcfg 15 16 0 8) {} base ∧
    (∃ y, indexRow base (.xadd 1 (.inc 1)) = some (1, y)) ∧ Clear (.xadd 1 (.inc 1)) {} base ∧ RowsFit base :=
  ⟨⟨_, rfl⟩, ⟨by decide, by decide⟩, ⟨_, rfl⟩, ⟨by decide, by decide⟩, base_fits⟩
theorem witness_BranchesMoveTheLanesOfActive : (∃ m pc, branchOf base (.call 15 0x40000) = some (m, pc)) ∧ Instr.wellFormed (.call 15 0x40000) = true ∧
    branchOf base (.bc 1 1) = some (0, 0x10014) ∧ branchOf base (.jr 0) = some (1, 4) ∧ Frontier base ∧ RowsFit base :=
  ⟨⟨_, _, rfl⟩, by decide, by decide, by decide, base_frontier, base_fits⟩

/-- Time register t3 at 5 in every lane, arrived in the lanes of a mask. -/
def timed (arr : Mask) : State := withT 3 5 arr { base with tick := 5 }
theorem witness_WaitingWordsGoOnOrPark_holds : ∃ r, waitWord (timed 1) (.twait (.dir 3)) = some r ∧ r.legal ∧ r.holds ∧ Clear (.twait (.dir 3)) {} (timed 1) ∧
    RowsFit (timed 1) ∧ (timed 1).w.live = true := by
  refine ⟨_, rfl, ?_, ?_, ⟨by decide, by decide⟩, ?_, by decide⟩
  · show ∀ L : Lane, _
    decide
  · show ∀ L : Lane, _ → (_ ∧ _)
    decide
  · unfold RowsFit; decide
theorem witness_WaitingWordsGoOnOrPark_parks : ∃ r, waitWord (timed 0) (.twait (.dir 3)) = some r ∧ r.legal ∧ ¬ r.holds ∧ Clear (.twait (.dir 3)) {} (timed 0) ∧
    RowsFit (timed 0) ∧ (timed 0).w.live = true := by
  refine ⟨_, rfl, ?_, ?_, ⟨by decide, by decide⟩, ?_, by decide⟩
  · show ∀ L : Lane, _
    decide
  · show ¬ ∀ L : Lane, _ → (_ ∧ _)
    decide
  · unfold RowsFit; decide
theorem witness_WaitingWordsGoOnOrPark_tag : ∃ r, waitWord base (.tagw 3) = some r ∧ r.legal ∧ r.holds ∧ Clear (.tagw 3) {} base ∧ RowsFit base := by
  refine ⟨_, rfl, ?_, ?_, ⟨by decide, by decide⟩, base_fits⟩
  · show 3 < 4
    decide
  · show (_ : Nat) = 0
    decide
theorem witness_WaitingWordsGoOnOrPark_sleep : ∃ r, waitWord base (.sleep 1 1) = some r ∧ r.legal ∧ ¬ r.holds ∧ Clear (.sleep 1 1) {} base ∧ RowsFit base := by
  refine ⟨_, rfl, trivial, ?_, ⟨by decide, by decide⟩, base_fits⟩
  show ¬ (_ : Word) = 0
  decide

/-! ### Traps -/

/-- A wave of 8 registers: v8 is the first that lies outside. -/
def eight : State := { base with w := { base.w with nregs := 8 } }
theorem witness_RegBoundNamesTheFirstOperandOutside : (∃ r, vectorRow eight (.add .i32 (.dir 7) (.dir 8) (.dir 9)) = some r) ∧ MayTrap eight ∧
    (([1, 2, 3].zip (Instr.vops (.add .i32 (.dir 7) (.dir 8) (.dir 9)))).find? fun p => outside eight p.2 0 != 0) = some (2, .dir 8) :=
  ⟨⟨_, rfl⟩, by unfold MayTrap; decide, by decide⟩

-- The limit is 64 words: an `.b32` access at byte 253 ends at 257.
theorem witness_LimitsAndOverflowTrap_priv :
    let s := withS [(2, 253)] base
    MayTrap s ∧ boundFail (.ldp weak (.dir 8) (.dir 1) 1 (.dir 2)) {} s = none ∧
      (maskOf fun L => s.cur.active.getLsbD L.val &&
        decide (4 * s.w.limit < (s.latch.pair 1).toNat + (readV s.latch (.dir 1) L).toNat + sizeBytes .b32)) ≠ 0 :=
  ⟨by unfold MayTrap; decide, by decide, by decide⟩
/-- A wave without wide rows, and with two values in v1. -/
def narrow : State :=
  let r := { base.w.regs with v := base.w.regs.v.set 1 (.g (Vector.ofFn fun L => BitVec.ofNat 32 L.val)) }
  { base with w := { base.w with wide := 1, regs := r }, latch := r, cur := { base.cur with active := 3 } }
theorem witness_LimitsAndOverflowTrap_wide : ∃ r, vectorRow narrow (.mul .i32 (.dir 8) (.dir 1) (.dir 1)) = some r ∧ MayTrap narrow ∧
    boundFail (.mul .i32 (.dir 8) (.dir 1) (.dir 1)) {} narrow = none ∧
    ¬ WriteFits (.mul .i32 (.dir 8) (.dir 1) (.dir 1)) narrow narrow.cur.active narrow.cur.active r.d 1 (fun _ => r.val) (fun _ => r.sh) := by
  refine ⟨_, rfl, by unfold MayTrap; decide, by decide, ?_⟩
  unfold WriteFits; decide
/-- 449 in v1, the first whole number above the largest E4M3 number that rounds beyond 448 under `.rup`. -/
def large : State := withV [(1, 0x43E08000)] base
theorem witness_LimitsAndOverflowTrap_overflow : ∃ r, convertWord large (.cvtn .e4m3 .f32 .rup .trap (.dir 8) (.dir 1)) = some r ∧ MayTrap large ∧
    boundFail (.cvtn .e4m3 .f32 .rup .trap (.dir 8) (.dir 1)) {} large = none ∧ overflows large (.cvtn .e4m3 .f32 .rup .trap (.dir 8) (.dir 1)) ≠ 0 ∧
    WriteFits (.cvtn .e4m3 .f32 .rup .trap (.dir 8) (.dir 1)) large r.steps r.lanes r.d r.n r.val r.sh := by
  refine ⟨_, rfl, by unfold MayTrap; decide, by decide, by decide, ?_⟩
  unfold WriteFits; decide

/-- v1 is the destination of an access that ended as POISON in lane 0. -/
def poisoned : State := { base with w := { base.w with poisoned := [(1, 1)] }, cur := { base.cur with poisoned := [(1, 1)] } }
theorem witness_PoisonTrapsAtItsReader : ∃ r, vectorRow poisoned (.mov (.dir 8) (.dir 1)) = some r ∧ MayTrap poisoned ∧
    boundFail (.mov (.dir 8) (.dir 1)) {} poisoned = none ∧ poisonUse (.mov (.dir 8) (.dir 1)) {} poisoned = some .a ∧
    WriteFits (.mov (.dir 8) (.dir 1)) poisoned poisoned.cur.active poisoned.cur.active r.d 1 (fun _ => r.val) (fun _ => r.sh) := by
  refine ⟨_, rfl, by unfold MayTrap; decide, by decide, by decide, ?_⟩
  unfold WriteFits; decide
theorem witness_PoisonTraps_twait :
    let s := withT 3 poisonTime 1 base
    MayTrap s ∧ boundFail (.twait (.dir 3)) {} s = none ∧ RowsFit s ∧ ∃ L : Lane, s.cur.active.getLsbD L.val = true ∧ (s.latch.t[timeReg s.latch (.dir 3) L])[L] = poisonTime :=
  ⟨by unfold MayTrap; decide, by decide, by unfold RowsFit; decide, 0, by decide, by decide⟩
-- Tag 4 is the first beyond a window of 4; 64 the first I/O context number beyond a partition's; 8 the least offset that is no multiple of 16.
theorem witness_IllegalValuesTrapBeforeAnyEffect : illegalNow base (.taga 4 1) ∧ illegalNow (withS [(1, 64)] base) (.tlget 2 1) ∧
    illegalNow (withS [(1, 8)] base) (.mgix 1) ∧ illegalNow (withS [(1, 16384)] base) (.wspill 1 1) ∧ illegalNow base .rti ∧ MayTrap base := by
  refine ⟨?_, ?_, ?_, Or.inr ?_, ?_, base_mayTrap⟩
  · show 4 ≤ 4
    decide
  · show (64 : Nat) ≤ _
    decide
  · show ¬ (_ : Nat) = 0
    decide
  · decide
  · show (_ : Bool) = false
    decide
theorem witness_TrapAndBrkEnterTheHandler : RowsFit base ∧ MayTrap base ∧ base.brkHalts = false := ⟨base_fits, base_mayTrap, by decide⟩
/-- brkhalt is set in the context's debug entry (R341). -/
def brkhalt : State := { base with xlate := { base.xlate with dbg := [(8, 1)] } }
theorem witness_TrapAndBrk_halt : RowsFit brkhalt ∧ brkhalt.brkHalts = true := ⟨by unfold RowsFit; decide, by decide⟩
/-- A trap record is in use. -/
def busy : State := withS [(56, 0x800)] base
theorem witness_RtiResumesAndClearsBusy : RowsFit busy ∧ Frontier busy ∧ (busy.w.regs.s[(56 : SReg)]).getLsbD 11 = true ∧
    busy.heldLanes = false ∧ ∃ L : Lane, busy.cur.active.getLsbD L.val = true :=
  ⟨by unfold RowsFit; decide, by constructor <;> decide, by decide, by decide, 0, by decide⟩
/-- Another entry of the wave can go on. -/
def busy2 : State := { busy with w := { busy.w with front := [{ pc := 0x10004, mask := 1 }, { pc := 0x10104, mask := 2 }] } }
theorem witness_NestedTraps_wait : RowsFit busy2 ∧ (busy2.w.regs.s[(56 : SReg)]).getLsbD 11 = true ∧ Frontier busy2 ∧
    ∃ e ∈ busy2.w.front.filter fun e => e.mask &&& busy2.cur.active == 0 && e.pc != busy2.cur.unit, e.blocked = false :=
  ⟨by unfold RowsFit; decide, by decide, by constructor <;> decide, by decide⟩
theorem witness_NestedTraps_end : RowsFit busy ∧ busy.cur.active ≠ 0 ∧ (∀ e ∈ busy.w.front, e.blocked = true ∨ e.mask &&& busy.cur.active ≠ 0) ∧
    busy.xlate.frec.used 512 ≠ 256 :=
  ⟨by unfold RowsFit; decide, by decide, by decide, by decide⟩
/-- The context has no handler; its slot, context and number are the largest that the record holds. -/
def noHandler : State := { base with x := { base.x with id := 4095, handler := 0 }, w := { base.w with ctx := 4095, slot := 20479 } }
theorem witness_NoHandlerEndsTheContext : RowsFit noHandler ∧ (noHandler.w.regs.s[(56 : SReg)]).getLsbD 11 = false ∧ noHandler.x.handler = 0 ∧
    noHandler.xlate.frec.used 512 ≠ 256 ∧ noHandler.w.ctx < 4096 ∧ noHandler.partOf noHandler.w.ctx < 8 ∧ noHandler.w.slot < 20480 :=
  ⟨by unfold RowsFit; decide, by decide, by decide, by decide, by decide, by decide, by decide⟩

/-! ### Memory words -/

/-- The page at address 0 of context 0 maps onto device address 0x10000 and may be written. -/
def mapped : State :=
  { base with c := { base.c with tlb := [{ ctx := 0, base := 0, size := 65536, target := .device, pa := 0x10000, write := true, exec := true }] } }
/-- The same page, and a base of 0x10000, where no page is mapped. -/
def unmapped : State := withS [(2, 0x10000)] mapped

theorem witness_AccessWordsStartTheirAccess : ∃ r, accessRow mapped (.ld weak (.dir 8) (.dir 1) 1 (.dir 2)) = some r ∧
    Instr.wellFormed (.ld weak (.dir 8) (.dir 1) 1 (.dir 2)) = true ∧ Clear (.ld weak (.dir 8) (.dir 1) 1 (.dir 2)) r.ck mapped ∧ r.accept ∧
    gCount (r.shaped (.ld weak (.dir 8) (.dir 1) 1 (.dir 2)) mapped) ≤ mapped.w.wide :=
  ⟨_, rfl, by decide, ⟨by decide, by decide⟩, ⟨trivial, by decide⟩, by decide⟩
theorem witness_LoadsAskForTheLinesTheyMiss_held : ∃ r, accessRow unmapped (.ld weak (.dir 8) (.dir 1) 1 (.dir 2)) = some r ∧
    Clear (.ld weak (.dir 8) (.dir 1) 1 (.dir 2)) r.ck unmapped ∧ r.accept ∧
    gCount (r.shaped (.ld weak (.dir 8) (.dir 1) 1 (.dir 2)) unmapped) ≤ unmapped.w.wide ∧ (∃ t, exec (.ld weak (.dir 8) (.dir 1) 1 (.dir 2)) unmapped = .next t) ∧
    ∃ L : Lane, r.lanes.getLsbD L.val = true ∧
      reaches unmapped (loadOf weak (.dir 1) 1 false unmapped.latch unmapped.cur.active).need ((loadOf weak (.dir 1) 1 false unmapped.latch unmapped.cur.active).ps L) = false :=
  ⟨_, rfl, ⟨by decide, by decide⟩, ⟨trivial, by decide⟩, by decide, ⟨_, rfl⟩, 0, by decide, by decide⟩
theorem witness_LoadsAskForTheLinesTheyMiss_miss : (∃ t, exec (.ld weak (.dir 8) (.dir 1) 1 (.dir 2)) mapped = .next t) ∧
    reaches mapped (loadOf weak (.dir 1) 1 false mapped.latch mapped.cur.active).need ((loadOf weak (.dir 1) 1 false mapped.latch mapped.cur.active).ps 0) = true :=
  ⟨⟨_, rfl⟩, by decide⟩
theorem witness_LoadsAskForTheLinesTheyMiss_lds : ∃ r, accessRow base (.lds weak (.dir 8) (.dir 1) 1 (.dir 2)) = some r ∧
    Clear (.lds weak (.dir 8) (.dir 1) 1 (.dir 2)) {} base ∧ r.accept ∧ gCount (r.shaped (.lds weak (.dir 8) (.dir 1) 1 (.dir 2)) base) ≤ base.w.wide ∧
    ∃ t, exec (.lds weak (.dir 8) (.dir 1) 1 (.dir 2)) base = .next t :=
  ⟨_, rfl, ⟨by decide, by decide⟩, ⟨by decide, by decide⟩, by decide, ⟨_, rfl⟩⟩
theorem witness_StoresPostTheBytesOfTheirLanes : ∃ own sw o sc p, storeRow mapped (.st weak (.dir 8) (.dir 1) 1 0) = some (own, sw, o, sc, p) ∧ p ∧
    Instr.wellFormed (.st weak (.dir 8) (.dir 1) 1 0) = true ∧ Clear (.st weak (.dir 8) (.dir 1) 1 0) {} mapped ∧ RowsFit mapped ∧
    mapped.memAccept (.st weak (.dir 8) (.dir 1) 1 0) (own &&& maskOf fun L => !reaches mapped .write (sw.ps L)) = true ∧ mapped.releaseOk o sc = true :=
  ⟨_, _, _, _, _, rfl, trivial, by decide, ⟨by decide, by decide⟩, by unfold RowsFit; decide, by decide, by decide⟩
-- The last word of the private segment: bytes 252 to 255.
theorem witness_StoresPostTheBytesOfTheirLanes_stp :
    let s := withS [(2, 252)] mapped
    ∃ own sw o sc p, storeRow s (.stp weak (.dir 8) (.dir 1) 1) = some (own, sw, o, sc, p) ∧ p ∧ Clear (.stp weak (.dir 8) (.dir 1) 1) {} s ∧
      s.memAccept (.stp weak (.dir 8) (.dir 1) 1) (own &&& maskOf fun L => !reaches s .write (sw.ps L)) = true ∧ s.releaseOk o sc = true ∧ sw.priv = true ∧
      s.reqs = [] ∧ s.c.l1 = [] := by
  refine ⟨_, _, _, _, _, rfl, ⟨?_, by decide⟩, ⟨by decide, by decide⟩, by decide, by decide, rfl, rfl, rfl⟩
  show ∀ L : Lane, _ → (_ : Nat) ≤ _
  decide
theorem witness_ScratchpadStoresWriteTheirBytes : Instr.wellFormed (.sts weak (.dir 8) (.dir 1) 1) = true ∧ Clear (.sts weak (.dir 8) (.dir 1) 1) {} base ∧ RowsFit base ∧
    cellsWf 0 base.g.pad = true ∧ base.w.acquiring = false ∧ base.heldConflict (.sts weak (.dir 8) (.dir 1) 1) = false ∧ weak.order = .wk :=
  ⟨by decide, ⟨by decide, by decide⟩, base_fits, by decide, by decide, by decide, rfl⟩
-- A release fence stands for the next `sts`, and what is before it is done.
theorem witness_ScratchpadStores_fence :
    let s := { base with w := { base.w with relSts := some .sys } }
    RowsFit s ∧ s.heldConflict (.sts weak (.dir 8) (.dir 1) 1) = false ∧ s.w.relSts = some .sys ∧ s.fullRelease .sys = true :=
  ⟨by unfold RowsFit; decide, by decide, rfl, by decide⟩
theorem witness_AtomicsAskTheHome : ∃ w join, atomAsk mapped (.hred .add weak (.dir 8) (.dir 1) 1) = some (w, join) ∧ join = true ∧
    Instr.wellFormed (.hred .add weak (.dir 8) (.dir 1) 1) = true ∧ Clear (.hred .add weak (.dir 8) (.dir 1) 1) {} mapped ∧
    mapped.memAccept (.hred .add weak (.dir 8) (.dir 1) 1) (mapped.cur.active &&& maskOf fun L => !reaches mapped .write (w.ps L)) = true ∧
    mapped.releaseOk w.order w.scope = true ∧ (∃ t, exec (.hred .add weak (.dir 8) (.dir 1) 1) mapped = .next t) ∧ reaches mapped .write (w.ps 0) = true ∧
    mapped.c.keyAt mapped.w.ctx (w.addr 0 / w.n * w.n) = some (.device, 0x10000) ∧ lowest (sameLocation mapped w 0) = 0 :=
  ⟨_, _, rfl, rfl, by decide, ⟨by decide, by decide⟩, by decide, by decide, ⟨_, rfl⟩, by decide, by decide, by decide⟩
theorem witness_FencesOrderTheirScope : Instr.wellFormed (.fence .ar .sys) = true ∧ RowsFit base ∧ base.w.acquiring = false ∧ base.releaseOk .ar .sys = true ∧
    base.w.reading = false := ⟨by decide, base_fits, by decide, by decide, by decide⟩
theorem witness_BarriersCountArrivalsAndRelease : RowsFit base ∧ AtBarrier base 15 := ⟨base_fits, ⟨by decide, by decide, by decide, by decide⟩⟩
theorem witness_EventWordsAskTheHome : RowsFit mapped ∧ mapped.memAccept (.evwait 1 2) 0 = true ∧ eventAsk mapped (.evwait 1 2) = some (0, 0, none) ∧
    translates mapped .read (mapped.eventVa 0) = true ∧ mapped.c.keyAt mapped.w.ctx (mapped.eventVa 0) = some (.device, 0x10000) ∧
    mapped.memAccept (.sigdec 1) 0 = true ∧ translates mapped .write ((mapped.latch.pair 1).toNat % 2 ^ 57 / 8 * 8) = true ∧ mapped.memAccept (.evsig 1) 0 = true ∧
    translates mapped .write (mapped.eventVa 0) = true ∧ mapped.reqs = [] :=
  ⟨by unfold RowsFit; decide, by decide, by decide, by decide, by decide, by decide, by decide, by decide, by decide, rfl⟩
theorem witness_EndsAndTriggers : RowsFit base ∧ base.heldLanes = false ∧ Frontier base ∧ (∀ e ∈ base.w.front, e.mask = base.cur.active) ∧ base.g.runs = [] :=
  ⟨base_fits, by decide, base_frontier, by decide, rfl⟩
theorem witness_EndsAndTriggers_split : busy2.heldLanes = false ∧ Frontier busy2 ∧ ∃ e ∈ busy2.w.front, e.mask ≠ busy2.cur.active :=
  ⟨by decide, by constructor <;> decide, by decide⟩
/-- The last wave of a group that holds an accumulator run. -/
def leaking : State := { base with g := { base.g with runs := [(0, 1)] } }
theorem witness_EndsAndTriggers_leak : RowsFit leaking ∧ leaking.heldLanes = false ∧ Frontier leaking ∧ leaking.g.runs ≠ [] ∧
    leaking.g.waves ≤ (lanesOf (leaking.g.exited ||| (1#32 <<< leaking.w.index))).length ∧ leaking.xlate.frec.used 512 ≠ 256 :=
  ⟨by unfold RowsFit; decide, by decide, by constructor <;> decide, by decide, by decide, by decide⟩
/-- Tag 3 counts 65280: adding 255 gives the largest count. -/
def counted : State := { base with g := { base.g with tags := [0, 1, 0, 65280] } }
theorem witness_TagWordsChangeTheirCount : RowsFit counted ∧ (3 : Fin 64).val < counted.g.tags.length ∧ counted.g.tags.getD 3 0 + (255 : BitVec 8).toNat ≤ 65535 ∧
    counted.w.reading = false ∧ counted.storing counted.w.uid = false ∧ counted.g.tags.length ≤ 64 :=
  ⟨by unfold RowsFit; decide, by decide, by decide, by decide, by decide, by decide⟩
theorem witness_SystemRegistersReadAndWrite : RowsFit base ∧ Instr.wellFormed (.sysr 0 0x015) = true := ⟨base_fits, by decide⟩
/-- I/O context 63 of partition 0 belongs to context 0. -/
def stored : State := withS [(1, 63)] { mapped with ios := [{ n := 63, valid := true, timeline := 7 }] }
theorem witness_StorageWordsNumberTheirRequests : Clear (.iord (.dir 8) (.dir 1) 1) {} stored ∧ stored.ioIllegal (stored.latch.sget 1) = false ∧
    (∃ x, stored.io? (stored.x.part * 64 + (stored.latch.sget 1).toNat) = some x ∧
      ((lanesOf stored.cur.active).all fun L => (stored.ioMiss stored.latch (.dir 1) x .write L).isNone) = true ∧
      WriteFits (.iord (.dir 8) (.dir 1) 1) stored stored.cur.active stored.cur.active (.dir 8) 2
        (fun j L => BitVec.ofNat 32 ((x.issued.toNat + 1 + (lanesOf stored.cur.active).countP fun K => decide (K.val < L.val)) / 2 ^ (32 * j))) (fun _ => .g)) ∧ stored.w.acquiring = false ∧
    stored.ioRoom (lanesOf stored.cur.active).length = true ∧ stored.heldConflict (.iord (.dir 8) (.dir 1) 1) = false ∧ stored.cur.active ≠ 0 ∧ RowsFit stored :=
  ⟨⟨by decide, by decide⟩, by decide, ⟨_, rfl, by decide, by unfold WriteFits; decide⟩, by decide, by decide, by decide, by decide, by unfold RowsFit; decide⟩
/-- The word handed over at tick 0, and tick 1. -/
def handedOver : Access :=
  { id := 9, kind := .iord, pc := 0x10004, instr := .iord (.dir 8) (.dir 1) 1, issued := 0, lanes := 3, latch := some stored.w.regs }
theorem witness_StorageWords_numbered :
    let s := { stored with tick := 1, w := { stored.w with accs := [handedOver] } }
    s.accessOf 0 9 = some (s.w, handedOver) ∧ (s.focus s.w.uid).w = s.w ∧ (s.focus s.w.uid).ioAhead s.w handedOver = false ∧ handedOver.issued < s.tick ∧
      ∃ x, (s.focus s.w.uid).io? ((s.focus s.w.uid).ioNum (stored.w.regs.sget 1)) = some x ∧ x.issued.toNat + 32 < 2 ^ 64 ∧ x.issued = 0 :=
  ⟨rfl, by decide, by decide, by decide, _, rfl, by decide, rfl⟩

/-! ### Engines, runs, tasks -/

theorem witness_AccumulatorWordsHoldRunsAndThePort : Instr.wellFormed (.acca 5 32) = true ∧ base.freeRun base.c.id 32 = some 0 ∧ base.accAllowed base.g 32 = true ∧
    base.accaBehind = false := ⟨by decide, by decide, by decide, by decide⟩
theorem witness_AccumulatorWords_held : leaking.g.run? (leaking.latch.sget 1).toNat = some ((leaking.latch.sget 1).toNat, 1) ∧
    leaking.c.entryNames leaking.g.gid (leaking.latch.sget 1).toNat 1 = false ∧ leaking.c.accWaits = [] ∧ Clear (.accw (.dir 1) 1 2) {} leaking ∧
    leaking.segIllegal (leaking.latch.sget 1).toNat (leaking.latch.sget 2).toNat = false ∧ (leaking.latch.sget 2).toNat % 16 = 0 :=
  ⟨by decide, by decide, rfl, ⟨by decide, by decide⟩, by decide, by decide⟩
-- A store of this tick at the byte after the block.
theorem witness_AccumulatorWords_mgix :
    let s := { base with g := { base.g with scratch := 4096, fresh := (base.tick, [(256, 0)]) } }
    (s.latch.sget 0).toNat % 16 = 0 ∧ (s.latch.sget 0).toNat + 256 ≤ s.g.scratch ∧ s.g.fresh.1 = s.tick ∧
      ∀ c ∈ s.g.fresh.2, c.1 < (s.latch.sget 0).toNat ∨ (s.latch.sget 0).toNat + 256 ≤ c.1 := by decide
/-- A group with an accumulator run of 32 banks and a queue of 7 entries. -/
def tiled : State := { base with g := { base.g with runs := [(0, 32)] }, c := { base.c with mq := List.replicate 7 { gid := 1 } } }
theorem witness_MatrixWordsQueueOneEntry : (∃ e, matrixEntry tiled (.mma .e4m3 .e5m2 1 2 3) = some (e, true) ∧ tiled.g.tags.getD e.tag 0 + 1 ≤ 65535) ∧
    Instr.wellFormed (.mma .e4m3 .e5m2 1 2 3) = true ∧ RowsFit tiled ∧ tiled.cur.q ≤ tiled.tick ∧ tiled.c.mq.length < 8 ∧ tiled.g.gid ≠ 0 :=
  ⟨⟨_, rfl, by decide⟩, by decide, by unfold RowsFit; decide, by decide, by decide, by decide⟩
/-- The run of v254 and v255, and its two lines at address 0. -/
def runOf : State := withS [(2, 0x1FE)] mapped
theorem witness_RunsMoveBetweenRowsAndMemory : RowsFit runOf ∧ (runOf.latch.pair 2).toNat % 128 = 0 ∧ (runOf.latch.sget 2).toNat < 16384 ∧
    (∀ n ∈ runRegs (runOf.latch.sget 2), n < runOf.w.nregs ∧ n < 256) ∧ runOf.memAccept (.wspill 2 2) 0 = true ∧ runOf.memAccept (.wfill 2 2) 0 = true ∧ runOf.w.accs = [] ∧
    (∀ j, j < (runRegs (runOf.latch.sget 2)).length → translates runOf .write (((runOf.latch.pair 2).toNat + 128 * j) % 2 ^ 57) = true) ∧
    gCount { runOf.w with regs := { runOf.w.regs with v := (Vector.ofFn fun n : Fin 256 =>
      if n.val ∈ runRegs (runOf.latch.sget 2) then .g (runOf.w.regs.v[n]).all else runOf.w.regs.v[n]) } } ≤ runOf.w.wide ∧
    runOf.cur.poisoned = [] ∧ runOf.trackerRoom (runRegs (runOf.latch.sget 2)).length = true :=
  ⟨by unfold RowsFit; decide, by decide, by decide, by decide, by decide, by decide, rfl, by decide, by decide, rfl, by decide⟩
/-- The pool of the context holds 63 tasks of at most 64. -/
def pooled : State := { base with x := { base.x with pool := List.replicate 63 { entry := 0, data := [], rcb := 0, chain := [], tick := 0 } } }
theorem witness_TasksAndLaunches_spawn : Clear (.spawn (.dir 1) 1) {} pooled ∧ RowsFit pooled ∧ (pooled.latch.pair 1).toNat % 256 = 0 ∧ pooled.w.reading = false ∧
    pooled.unstamped pooled.w.uid = false ∧ pooled.x.id = pooled.w.ctx ∧ pooled.x.pool.length + (lanesOf pooled.cur.active).length ≤ 2 ^ pooled.x.tasklg :=
  ⟨⟨by decide, by decide⟩, by unfold RowsFit; decide, by decide, by decide, by decide, by decide, by decide⟩
/-- Queue 4095 of partition 0 is internal and enabled, and has room for one packet. -/
def queued : State :=
  withS [(1, 4095)] { mapped with
    parts := mapped.parts.set 0 { force := { valid := true, qfirst := 4095, qlast := 4095 } }
    queues := [{ q := 4095, kind := 3, state := 1, lgsize := 6, wptr := 63 }] }
theorem witness_TasksAndLaunches_launch : RowsFit queued ∧ queued.launchIllegal (queued.latch.sget 1).toNat (queued.latch.pair 1).toNat = false ∧
    (∃ x, queued.queue? (queued.latch.sget 1).toNat = some x ∧ x.wptr < x.rptr + 2 ^ x.lgsize ∧ x.rptr ≤ x.wptr) ∧ queued.w.reading = false ∧
    queued.unapplied queued.w.uid = false ∧ queued.heldConflict (.launch 1 1) = false ∧ translates queued .read ((queued.latch.pair 1).toNat % 2 ^ 57) = true ∧
    queued.c.keyAt queued.w.ctx ((queued.latch.pair 1).toNat % 2 ^ 57) = some (.device, 0x10000) ∧ queued.mem.isBad 0x800 = false ∧ queued.mem.isBad 0x801 = false :=
  ⟨by unfold RowsFit; decide, by decide, ⟨_, rfl, by decide, by decide⟩, by decide, by decide, by decide, by decide, by decide, by decide, by decide⟩

/-! ### The causal fabric -/

/-- One request of the wave, number 7, in the base state: from core 0 in octant 0 to home 7, line 0x38. -/
def asks (k : ReqKind) (st : Stage) : Req :=
  { id := 7, kind := k, wave := 1, slot := 0, core := 0, site := 0, home := 7, ctx := 0, part := 0, line := 0x38, seq := 1, stage := st }
/-- The base state at a tick, with requests and flights. -/
def fabric (n : Nat) (rs : List Req) (fs : List Flight) : State := { base with tick := n, reqs := rs, flights := fs }
/-- A change of one octant. -/
def withOct (o : Oct) (f : Octant → Octant) (s : State) : State := { s with octs := s.octs.set o.val (f s.octs[o]) }
/-- A flight from octant 0 to octant 7, and one back. -/
def there (w : Wire) : Flight := { src := 0, dst := 7, epoch := 0, wire := w }
def backAgain (w : Wire) : Flight := { src := 7, dst := 0, epoch := 0, wire := w }

-- The count of the path stands at its last value, 4095.
theorem witness_StampingCountsWrites :
    let s := withOct 0 (fun o => { o with k := o.k.set 0 ((o.k[(0 : Fin 8)]).set 7 4095), shown := o.shown.set 7 4094 }) (fabric 5 [asks .write .stamp] [])
    s.req? 7 = some (asks .write .stamp) ∧ (asks .write .stamp).target = .device ∧ s.mayStamp (asks .write .stamp) = true ∧ s.octs[(7 : Oct)].cf.removed = false :=
  ⟨rfl, rfl, by decide, by decide⟩
theorem witness_StampingCountsNoReads :
    let s := fabric 5 [asks (.read false) .stamp] []
    s.req? 7 = some (asks (.read false) .stamp) ∧ (asks (.read false) .stamp).kind.isWrite = false ∧ s.octs[(0 : Oct)].stopped = false ∧
      s.octs[(7 : Oct)].cf.removed = false ∧ s.readStampBehind (asks (.read false) .stamp) = false :=
  ⟨rfl, rfl, by decide, by decide, by decide⟩
-- A write of octant 0 to its own home, the next of its path.
theorem witness_Stamping_home :
    let r := { asks .write .stamp with home := 0 }
    let s := fabric 5 [r] []
    s.req? 7 = some r ∧ s.mayStamp r = true ∧ s.octs[r.home].cf.removed = false ∧ s.mem.wf = true ∧ r.line ∉ s.hostHolds ∧ (s.octs[r.home]).early = [] ∧
      (s.octs[r.home]).refusing[r.site] = none ∧ ((s.octs[r.site]).k[r.site])[r.home] = (s.octs[r.home]).a[r.site] ∧
      ∀ i : Fin 8, i ≠ r.site → notBefore (s.octs[r.home]).a[i] ((s.octs[r.site]).k[i])[r.home] :=
  ⟨rfl, by decide, by decide, by decide, by decide, by decide, by decide, by decide, by unfold notBefore; decide⟩

/-- A write in flight with the column that names its path's first write; and one with the second. -/
def firstWrite : Req := { asks .write .wire with vec := CVec.zero.set 0 1 }
def secondWrite : Req := { asks .write .wire with vec := CVec.zero.set 0 2 }
theorem witness_WritesApplyInCausalOrder :
    let s := fabric 5 [firstWrite] [there (.wr 7)]
    Arrives s 0 7 (.wr 7) ∧ s.req? 7 = some firstWrite ∧ Unhindered s firstWrite ∧ InOrder s firstWrite ∧ firstWrite.bad = 0 ∧ s.mem.wf = true :=
  ⟨⟨_, rfl, rfl, rfl, rfl⟩, rfl, ⟨rfl, by decide, by decide, rfl, by decide⟩, ⟨by decide, by unfold notBefore; decide⟩, rfl, by decide⟩
-- The early buffer holds 511 writes, then 512.
theorem witness_WritesApply_early :
    let s := withOct 7 (fun o => { o with early := List.replicate 511 3 }) (fabric 5 [secondWrite] [there (.wr 7)])
    Arrives s 0 7 (.wr 7) ∧ s.req? 7 = some secondWrite ∧ ¬ InOrder s secondWrite ∧ s.octs[(7 : Oct)].refusing[(0 : Oct)] = none ∧ (s.octs[(7 : Oct)]).early.length < 512 :=
  ⟨⟨_, rfl, rfl, rfl, rfl⟩, rfl, fun h => absurd h.1 (by decide), by decide, by decide⟩
theorem witness_WritesApply_full :
    let s := withOct 7 (fun o => { o with early := List.replicate 512 3 }) (fabric 5 [secondWrite] [there (.wr 7)])
    Arrives s 0 7 (.wr 7) ∧ ¬ InOrder s secondWrite ∧ s.octs[(7 : Oct)].refusing[(0 : Oct)] = none ∧ 512 ≤ (s.octs[(7 : Oct)]).early.length :=
  ⟨⟨_, rfl, rfl, rfl, rfl⟩, fun h => absurd h.1 (by decide), by decide, by decide⟩
-- The home is 2047 counts ahead of the column, and 2048: half the range (R31).
theorem witness_ReadsWaitForTheirColumn :
    let s := withOct 7 (fun o => { o with a := o.a.set 3 2047 }) (fabric 5 [asks (.read false) .wire] [there (.rd 7)])
    Arrives s 0 7 (.rd 7) ∧ s.req? 7 = some (asks (.read false) .wire) ∧ ∀ k : Fin 8, notBefore (s.octs[(7 : Oct)]).a[k] (asks (.read false) .wire).vec[k] :=
  ⟨⟨_, rfl, rfl, rfl, rfl⟩, rfl, by unfold notBefore; decide⟩
theorem witness_ReadsWait_held :
    let s := withOct 7 (fun o => { o with a := o.a.set 3 2048 }) (fabric 5 [asks .mreq .wire] [there (.mreq 7)])
    Arrives s 0 7 (.mreq 7) ∧ s.req? 7 = some (asks .mreq .wire) ∧ ∃ k : Fin 8, ¬ notBefore (s.octs[(7 : Oct)]).a[k] (asks .mreq .wire).vec[k] :=
  ⟨⟨_, rfl, rfl, rfl, rfl⟩, rfl, 3, by unfold notBefore; decide⟩
theorem witness_RepliesAndBeaconsTeachTheSite :
    Arrives (fabric 5 [] [there (.bcn CVec.zero)]) 0 7 (.bcn CVec.zero) ∧ Arrives (fabric 5 [] [backAgain (.refuse CVec.zero)]) 7 0 (.refuse CVec.zero) ∧
    Arrives (fabric 5 [asks (.read false) .reply] [backAgain (.rply 7 CVec.zero)]) 7 0 (.rply 7 CVec.zero) ∧
    (fabric 5 [asks (.read false) .reply] []).req? 7 = some (asks (.read false) .reply) ∧ (asks (.read false) .reply).kind.isRead = true ∧
    Arrives (fabric 5 [asks (.read true) .reply] [backAgain (.aply 7 CVec.zero CMat.zero)]) 7 0 (.aply 7 CVec.zero CMat.zero) ∧
    (fabric 5 [asks (.read true) .reply] []).req? 7 = some (asks (.read true) .reply) ∧ (asks (.read true) .reply).kind.isRead = true ∧
    Arrives (fabric 5 [asks .mreq .reply] [backAgain (.mrply 7 CVec.zero CMat.zero)]) 7 0 (.mrply 7 CVec.zero CMat.zero) ∧
    (fabric 5 [asks .mreq .reply] []).req? 7 = some (asks .mreq .reply) :=
  ⟨⟨_, rfl, rfl, rfl, rfl⟩, ⟨_, rfl, rfl, rfl, rfl⟩, ⟨_, rfl, rfl, rfl, rfl⟩, rfl, rfl, ⟨_, rfl, rfl, rfl, rfl⟩, by decide, by decide, ⟨_, rfl, rfl, rfl, rfl⟩, rfl⟩

/-- Tick 16,640 = 65 * 256; a retained write of tick 256, 16,384 ticks ago; the last beacon of home 7 came at tick 12,544, 4,096 ticks ago; home 7
refused, and the resend is due. -/
def late : State :=
  withOct 0 (fun o => { o with retry := [(7, 256)], bcnTick := o.bcnTick.set 7 12544, refusedAt := o.refusedAt.set 7 (some 16640) })
    (fabric 16640 [firstWrite] [])
theorem witness_BeaconsLossesAndResends : late.tick % 256 = 0 ∧ late.octs[(0 : Oct)].cf.removed = false ∧ late.octs[(7 : Oct)].cf.removed = false ∧
    (late.octs[(0 : Oct)]).bcnTick[(7 : Oct)] + 4096 ≤ late.tick ∧ (∃ p ∈ (late.octs[(0 : Oct)]).retry, p.2 + 16384 ≤ late.tick) ∧
    (late.octs[(0 : Oct)]).refusedAt[(7 : Oct)] = some 16640 ∧ late.req? 7 = some firstWrite :=
  ⟨by decide, by decide, by decide, by decide, by decide, by decide, rfl⟩
/-- A load of one lane that waits for request 7. -/
def loading : Access := { id := 3, kind := .load, pc := 0x10004, instr := .nop, issued := 0, lanes := 1, waits := [7] }
def delayed : Req := { asks (.read false) .wire with acc := some 3 }
def travelling : State := { fabric 5 [delayed] [there (.rd 7)] with w := { base.w with accs := [loading] } }
theorem witness_BeaconsLosses_retry : there (.rd 7) ∈ travelling.flights ∧ (0, false) ∈ routeOf 0 7 ∧ (there (.rd 7)).wire = .rd delayed.id ∧
    delayed ∈ travelling.reqs ∧ delayed.kind.isWrite = false ∧ (delayed.priv && delayed.quiet) = false ∧ accOf travelling 1 3 = some loading :=
  ⟨.head _, by decide, rfl, .head _, rfl, rfl, rfl⟩
/-- An epoch change for which every site has stopped and every home but 7 has drained. -/
def draining : State :=
  { base with epoch := { running := true, stopped := 255, drained := 127 }
              octs := Vector.ofFn fun o => { (State.reset.octs[o]) with stopped := true } }
theorem witness_EpochChangesClearTheFabric : draining.epoch.running = true ∧ allOcts draining draining.epoch.stopped = true ∧
    draining.epoch.drained.getLsbD 7 = false ∧ draining.homeDrained 7 = true ∧ (∀ o : Oct, o = 7 ∨ draining.epoch.drained.getLsbD o.val = true ∨ (draining.octs[o]).cf.removed = true) :=
  ⟨rfl, by decide, by decide, by decide, by decide⟩
theorem witness_EpochChanges_stopped :
    let s := { draining with epoch := { running := true, stopped := 127 } }
    s.epoch.running = true ∧ (s.octs[(7 : Oct)]).stopped = true ∧ s.epoch.stopped.getLsbD 7 = false := ⟨rfl, by decide, by decide⟩
theorem witness_EpochChanges_resume :
    let s := { draining with epoch := { running := true, stopped := 255, drained := 255 } }
    s.epoch.running = true ∧ allOcts s s.epoch.drained = true := ⟨rfl, by decide⟩

/-! ### Streams, caches, repairs -/

theorem witness_StreamWords_cpa : Clear (.cpa false .b32 .dflt (.dir 1) (.dir 2) 1 2 3) {} mapped ∧ (3 : Fin 64).val < mapped.g.tags.length ∧
    (mapped.cur.active &&& maskOf fun L => !reaches mapped .read (linePieces (laneAddr mapped.latch (.dir 2) 1 L) 4)) = 0 ∧
    mapped.memAccept (.cpa false .b32 .dflt (.dir 1) (.dir 2) 1 2 3) 0 = true ∧ mapped.storing mapped.w.uid = false ∧ mapped.g.tags.getD 3 0 + 1 ≤ 65535 ∧
    RowsFit mapped ∧ mapped.w.acquiring = false ∧ mapped.cur.q ≤ mapped.tick ∧
    mapped.trackerRoom (mapped.missCount { k := { policy := .dflt }, ps := fun L => linePieces (laneAddr mapped.latch (.dir 2) 1 L) 4 } mapped.cur.active) = true :=
  ⟨⟨by decide, by decide⟩, by decide, by decide, by decide, by decide, by decide, by unfold RowsFit; decide, by decide, by decide, by decide⟩
theorem witness_StreamWords_cpaMiss : Clear (.cpa false .b32 .dflt (.dir 1) (.dir 2) 1 2 3) {} unmapped ∧
    (unmapped.cur.active &&& maskOf fun L => !reaches unmapped .read (linePieces (laneAddr unmapped.latch (.dir 2) 1 L) 4)) = 1 ∧
    unmapped.memAccept (.cpa false .b32 .dflt (.dir 1) (.dir 2) 1 2 3) 1 = true ∧ RowsFit unmapped ∧ unmapped.w.acquiring = false ∧ unmapped.storing unmapped.w.uid = false :=
  ⟨⟨by decide, by decide⟩, by decide, by decide, by unfold RowsFit; decide, by decide, by decide⟩
/-- A tensor record (R291): one dimension of 4 elements of 4 bytes at address 0, without a ring and a slot size of 16 bytes, or with a ring of 2 slots of 2 *
16 bytes at 0x600. -/
def record (ring : Bool) : List Byte :=
  let v := 4 + 4 * 2 ^ 40 + 2 * 2 ^ 678 + 2 ^ 681 + if ring then 0x600 * 2 ^ 640 + 2 * 2 ^ 660 + 2 * 2 ^ 666 else 2 ^ 666 + 2 ^ 689
  (List.range 128).map fun k => BitVec.ofNat 8 (v / 2 ^ (8 * k))
/-- Bytes as cells from an offset on. -/
def cellsFrom (off : Nat) (b : List Byte) : List Host.Cell := ((List.range b.length).map fun k => (off + k, b.getD k 0)).filter fun p => p.2 ≠ 0
/-- The records at offsets 0 and 128; page 0 is mapped; engine 0 is held and engine 1 armed, with tag 1. -/
def ringed : State :=
  withS [(4, 128), (5, 1)] { mapped with
    g := { mapped.g with pad := cellsFrom 0 (record true) ++ cellsFrom 128 (record false), tags := [0, 1, 0, 65534] }
    c := { mapped.c with engines := (mapped.c.engines.set 0 { kind := .held, gid := 1, rec_ := record true }).set 1 { kind := .armed, gid := 1, rec_ := record true, tag := 1 } } }
theorem witness_StreamWords_cpt : (ringed.latch.sget 4).toNat % 16 = 0 ∧ (3 : Fin 64).val < ringed.g.tags.length ∧ lowestFree ringed 2 ∧
    (readTensor (ringed.g.tensorAt (ringed.latch.sget 4).toNat)).badCpt 0 = false ∧ ringed.g.tags.getD 3 0 + 1 ≤ 65535 ∧
    ringed.heldConflict (.cpt 4 0 3) = false ∧
    ringed.probeTensor (readTensor (ringed.g.tensorAt (ringed.latch.sget 4).toNat)) ((ringed.latch.pair 0).toNat % 2 ^ 57) = none :=
  ⟨by decide, by decide, ⟨by decide +kernel, by decide +kernel⟩, by decide +kernel, by decide, by decide, by decide +kernel⟩
theorem witness_StreamWords_srec : (ringed.latch.sget 0).toNat % 16 = 0 ∧ lowestFree ringed 2 ∧
    (readTensor (ringed.g.tensorAt (ringed.latch.sget 0).toNat)).badStream = false :=
  ⟨by decide, ⟨by decide +kernel, by decide +kernel⟩, by decide +kernel⟩
theorem witness_StreamWords_sarm : (ringed.latch.sget 0).toNat = (0 : Fin 4).val ∧ (ringed.c.engines[(0 : Fin 4)]).gid = ringed.g.gid ∧
    (ringed.c.engines[(0 : Fin 4)]).kind = .held ∧ ringed.heldConflict (.sarm 0 3) = false ∧ cellsWf 0 ringed.g.pad = true ∧
    ringed.probeTensor (readTensor (ringed.c.engines[(0 : Fin 4)]).rec_) 0 = none :=
  ⟨by decide, by decide +kernel, by decide +kernel, by decide, by decide +kernel, by decide +kernel⟩
theorem witness_StreamWords_sstop : (ringed.latch.sget 5).toNat = (1 : Fin 4).val ∧ (ringed.c.engines[(1 : Fin 4)]).gid = ringed.g.gid ∧
    (ringed.c.engines[(1 : Fin 4)]).kind = .armed ∧ (ringed.c.engines[(0 : Fin 4)]).kind = .held :=
  ⟨by decide, by decide +kernel, by decide +kernel, by decide +kernel⟩

-- Each request stands where its happening finds it; an L2 copy and an L3 line of line 0x38 stand in octants 0 and 7.
theorem witness_RequestsMove_l2 :
    let r := asks (.read false) .l2
    let s := withOct 0 (fun o => { o with l2 := [{ line := 0x38, way := 3 }] }) (fabric 5 [r] [])
    s.req? 7 = some r ∧ s.readBehind r = false ∧ (fabric 5 [r] []).octs[(0 : Oct)].l2Find 0x38 = none ∧ s.octs[(0 : Oct)].l2Find 0x38 = some { line := 0x38, way := 3 } ∧
      s.coveredAt 0 7 = true := ⟨rfl, by decide, by decide, by decide, by decide⟩
theorem witness_RequestsMove_l3 :
    let r := asks (.read false) .l3
    let s := withOct 7 (fun o => { o with l3 := [{ line := 0x38, way := 15 }] }) (fabric 5 [r] [])
    s.req? 7 = some r ∧ r.line ∉ s.hostHolds ∧ s.octs[(7 : Oct)].l3Find 0x38 = some { line := 0x38, way := 15 } ∧ takes r.kind { line := 0x38, way := 15 } = false ∧
      (fabric 5 [r] []).octs[(7 : Oct)].l3Find 0x38 = none := ⟨rfl, by decide, by decide, by decide, by decide⟩
-- An `ldt` with the key of the line's first forwarded store.
theorem witness_RequestsMove_take :
    let r := asks (.take 9) .l3
    let s := withOct 7 (fun o => { o with l3 := [{ line := 0x38, way := 0, key := some 9 }] }) (fabric 5 [r] [])
    s.req? 7 = some r ∧ s.octs[(7 : Oct)].l3Find 0x38 = some { line := 0x38, way := 0, key := some 9 } ∧ takes r.kind { line := 0x38, way := 0, key := some 9 } = true ∧
      s.mem.wf = true := ⟨rfl, by decide, by decide, by decide⟩
theorem witness_RequestsMove_hbm : (fabric 5 [asks (.read false) .hbm] []).req? 7 = some (asks (.read false) .hbm) ∧
    (fabric 5 [asks (.read false) .mem] []).req? 7 = some (asks (.read false) .mem) ∧ (asks (.read false) .mem).stage = .mem := ⟨rfl, rfl, rfl⟩
theorem witness_RequestsMove_fill :
    let r := { asks (.read false) .fill with acc := some 3 }
    let s := { fabric 5 [r] [] with w := { base.w with accs := [loading] } }
    s.req? 7 = some r ∧ r.target = .device ∧ r.eng = none ∧ (r.priv && r.quiet) = false ∧ accOf s r.wave 3 = some loading := ⟨rfl, rfl, rfl, rfl, rfl⟩
theorem witness_RequestsMove_store :
    let r := asks .write .l2
    let s := fabric 5 [r] []
    s.req? 7 = some r ∧ r.target = .device ∧
      s.earlier r (fun q => q.unread || (q.kind.isWrite && q.stage == .l2)) = false ∧ s.heldLine r.wave r.seq (r.va.toNat / 128) = false :=
  ⟨rfl, rfl, by decide, by decide⟩
theorem witness_RequestsMove_acknowledged : (fabric 5 [asks .write .applied] []).req? 7 = some (asks .write .applied) ∧
    (fabric 5 [{ asks .write .wire with target := .host 1 }] []).req? 7 = some { asks .write .wire with target := .host 1 } ∧
    (fabric 5 [{ asks (.atomic .add none) .alu with acc := some 3 }] []).req? 7 = some { asks (.atomic .add none) .alu with acc := some 3 } ∧
    (fabric 5 [asks (.event 65535) .applied] []).req? 7 = some (asks (.event 65535) .applied) ∧
    (fabric 5 [{ asks (.read false) .l3 with snooped := true }] []).req? 7 = some { asks (.read false) .l3 with snooped := true } := ⟨rfl, rfl, rfl, rfl, rfl⟩

-- One spare row of the bank is left, then none; 15 and 16 remaps of the channel; 255 and 256 granules.
theorem witness_RepairsAndRings :
    let s := { base with repair := { spareRows := [(bankKey 0 0, 1)], remaps := [(0, 15)], granules := Vector.replicate 8 255 } }
    let t := { base with repair := { spareRows := [(bankKey 0 0, 2)], remaps := [(0, 16)], granules := Vector.replicate 8 256 } }
    s.repairBusy = false ∧ s.sparesUsed (bankKey (repairPc 0) (repairBank 0)) < 2 ∧ s.remapsUsed (repairPc 0 / 2) < 16 ∧ s.repair.granules[octOfPc (repairPc 0)] < 256 ∧
    t.repairBusy = false ∧ 2 ≤ t.sparesUsed (bankKey (repairPc 0) (repairBank 0)) ∧ 16 ≤ t.remapsUsed (repairPc 0 / 2) ∧ 256 ≤ t.repair.granules[octOfPc (repairPc 0)] ∧
    ({ base with repair := { memrepair := 0x9000000000000000, due := some 4096 } } : State).repairBusy = true ∧ base.mem.wf = true ∧ base.repair.bpl.length < 4096 := by
  decide
-- A tail 256 entries behind head, and 257; 2,048, and 2,049.
theorem witness_RepairsAndRings_tails : (base.repair.faq.head + 512 - (256 : Word).toNat % 512) % 512 ≤ 256 ∧ 256 < (base.repair.faq.head + 512 - (255 : Word).toNat % 512) % 512 ∧
    (base.xlate.frec.head + 512 - (256 : Word).toNat % 512) % 512 ≤ 256 ∧ 256 < (base.xlate.frec.head + 512 - (255 : Word).toNat % 512) % 512 ∧
    (base.xlate.prqHead + 4096 - (2048 : Word).toNat % 4096) % 4096 ≤ 2048 ∧ 2048 < (base.xlate.prqHead + 4096 - (2047 : Word).toNat % 4096) % 4096 := by decide

/-! ### HSEM, queues, storage, the dispatcher -/

theorem witness_TheSemaphore : base.power.held = false ∧ base.hsem.owner = 0 ∧ (ownedBy base 2).hsem.owner ≠ 0 ∧ (ownedBy base 2).hsem.owner ≠ BitVec.ofNat 2 ((0 : Port).val + 1) ∧
    (ownedBy base 2).hsem.owner = BitVec.ofNat 2 ((1 : Port).val + 1) ∧ guardedOf 0 (.mxgate 0 5) ∧
    ({ ownedBy base 2 with tick := Config.hsemLapse } : State).hsem.wrote + Config.hsemLapse ≤ ({ ownedBy base 2 with tick := Config.hsemLapse } : State).tick ∧
    (0xF1 : DWord).extractLsb' 0 2 = 1 ∧ (ownedBy base 2).fret.state ≠ 1 := ⟨rfl, rfl, by decide, by decide, by decide, rfl, by decide, by decide, by decide⟩
-- Port 1 has taken it in this tick, in a tie that port 0 wins or loses; and under cold reset.
theorem witness_TheSemaphore_tie (last : Bool) :
    let s := hsemTo base 1 last
    s.power.held = false ∧ s.hsem.owner ≠ 0 ∧ s.hsem.owner ≠ BitVec.ofNat 2 ((0 : Port).val + 1) ∧ s.hsem.took = some s.tick ∧ s.hsem.owner ≠ 3 ∧
      (s.hsem.hadLast ≠ ((0 : Port).val == 1) ↔ last = true) ∧ ({ base with power := { held := true } } : State).power.held = true := by
  cases last <;> exact ⟨rfl, by decide, by decide, rfl, by decide, by decide, rfl⟩
-- The map after reset is accepted; one with an owner of 9 is rejected.
theorem witness_TheSemaphore_check : ({ base with fret := { checking := some 0 } } : State).rejects = false ∧
    ({ base with fret := { checking := some 0, stored := Vector.replicate _ 0x9999999999999999 } } : State).rejects = true := by decide +kernel
-- The first tick of a transition, and the install's tick.
theorem witness_TheSemaphore_transition :
    let s : State := { base with tick := 4096, fret := { state := 1, install := 16384 } }
    let t : State := { base with tick := 16384, fret := { state := 1, install := 16384, stagedParts := [({ valid := true }, {})] } }
    let u : State := { base with tick := 28672, fret := { started := true, boundEnd := some 28672 } }
    s.fret.install ≤ s.tick + Config.boundLead ∧ s.tick < s.fret.install ∧ s.fret.boundEnd = none ∧ t.fret.state = 1 ∧ t.fret.install ≤ t.tick ∧
      (∀ x ∈ t.queues, x.state ≠ 1) ∧ t.fret.stagedParts[(0 : Fin 8).val]? = some ({ valid := true }, {}) ∧ u.fret.boundEnd = some 28672 ∧ 28672 ≤ u.tick ∧ u.fret.state ≠ 1 :=
  ⟨by decide, by decide, rfl, rfl, by decide, by decide, rfl, rfl, by decide, by decide⟩

/-- A record of fields: first bit and value. -/
def fields (l : List (Nat × Nat)) (n : Nat) : List Byte := bytesOfNat (l.foldl (fun v p => v + p.2 * 2 ^ p.1) 0) n
/-- Memory of context 1: its root RCB at 0x1000 (R143), queue records from 0x2000 on (R99), page tables that map 1 GiB at 0 (R321), a packet at 0x8000
(R103), and the descriptor of a kernel at 0x9000 (R365). -/
def worldMem (packet : List (Nat × Nat)) : Memory :=
  let m := ({} : Memory).setBytes 0x1000 (fields [(636, 1), (633, 3), (696, 6), (920, 4), (197, 320), (182, 100), (163, 1024), (147, 128), (125, 4096), (117, 255)] 128)
  let m := m.setBytes 0x20C0 (fields [(320, 0x8000), (270, 0x20), (258, 1), (253, 6), (250, 2)] 64)
  let m := ((m.setBytes 0x4000 (bytesOfNat 0x5001 8)).setBytes 0x5000 (bytesOfNat 0x6001 8)).setBytes 0x6000 (bytesOfNat 0x0F 8)
  let m := m.setBytes 0x8000 (fields packet 64)
  m.setBytes 0x9000 (fields [(0, 1), (16, 8), (32, 4), (64, 2)] 256)
/-- The package with context 1 in partition 3, whose queue 3 is enabled and holds one packet of lgsize 6. -/
def world (packet : List (Nat × Nat)) : State :=
  let s : State := { base with
    x := {}
    mem := worldMem packet
    window := { qdesc := 2, ctxRoot := [(1, 0x8000000000001000)] }
    parts := base.parts.set 3 { force := { valid := true, cores := 1, qfirst := 0, qlast := 4095 } } }
  match (s.loadCtx 1).readChain 1 0x1000 with
  | .ok (c, t) => { t with queues := [{ q := 3, base := 0x8000, rcb := 0x1000, ctx := 1, kind := 2, state := 1, irqfn := 4, wptr := 1, rcbs := [0x1000], chain := some c }] }
  | .error _ => s
/-- A KERNEL packet of a grid of 2 groups of 2 waves, with a completion signal at 0xA000. -/
def kernelPacket : List (Nat × Nat) := [(12, 1), (294, 0x1400), (348, 0x90), (451, 1)]
theorem some_with {α : Type} {o : Option α} {p : α → Prop} [DecidablePred p] (h : (o.any fun a => decide (p a)) = true) : ∃ a, o = some a ∧ p a := by
  obtain ⟨a, e, q⟩ := Option.any_eq_true _ o |>.mp h
  exact ⟨a, e, of_decide_eq_true q⟩
theorem witness_QueuesStart_kernel : ∃ x b c d, (world kernelPacket).startHead 3 0 = some (x, b, c) ∧ kernelFits (world kernelPacket) x b c d := by
  let s := world kernelPacket
  obtain ⟨⟨x, b, c⟩, e, h⟩ := some_with (o := s.startHead 3 0) (p := fun y => ((s.readVa y.1.ctx (bitsOf y.2.1 348 49 * 256) 128).any fun lo =>
    (s.readVa y.1.ctx (bitsOf y.2.1 348 49 * 256 + 128) 128).any fun hi => s.signalOk y.1.ctx (bitsOf y.2.1 294 54 * 8) && !(readKDesc (lo ++ hi)).bad &&
      (readKDesc (lo ++ hi)).waves == 0 && (readKDesc (lo ++ hi)).priv == 0 && bitsOf y.2.1 7 1 == 0) = true) (by decide +kernel)
  obtain ⟨lo, el, h⟩ := Option.any_eq_true _ _ |>.mp h
  obtain ⟨hi, eh, h⟩ := Option.any_eq_true _ _ |>.mp h
  simp only [Bool.and_eq_true, beq_iff_eq, Bool.not_eq_true'] at h
  exact ⟨x, b, c, _, e, ⟨lo, hi, el, eh, rfl⟩, h.1.1.1.1, h.1.1.1.2, .inl h.1.1.2, .inl h.1.2, fun k => absurd (h.2.symm.trans k) (by decide)⟩
/-- A TASKPOOL packet of 4 tasks, a SIGNAL packet that adds 2^64 − 3, and packets of kinds EVENT and WAIT (R107-R110). -/
def poolPacket : List (Nat × Nat) := [(0, 1), (348, 0x910), (401, 0x580), (453, 4)]
def signalPacket : List (Nat × Nat) := [(0, 2), (294, 0x1400), (348, 0x1403), (402, 2 ^ 64 - 3)]
theorem witness_QueuesStart_taskpool : ∃ y, (world poolPacket).startHead 3 1 = some y ∧ ((world poolPacket).signalOk y.1.ctx (bitsOf y.2.1 294 54 * 8) = true ∧
    (world poolPacket).recordsOk y.1.ctx (bitsOf y.2.1 401 52 * 32) (bitsOf y.2.1 453 32 + 1) = true) := some_with (by decide +kernel)
theorem witness_QueuesStart_signal :
    let s := world signalPacket
    ∃ y, s.startHead 3 2 = some y ∧ (s.signalOk y.1.ctx (bitsOf y.2.1 294 54 * 8) = true ∧ s.writable y.1.ctx (bitsOf y.2.1 348 54 * 8) = true ∧
      (((s.startJob y.1 y.2.1 y.2.2).2.place y.1.ctx (bitsOf y.2.1 348 54 * 8)).any fun p =>
        !(s.startJob y.1 y.2.1 y.2.2).2.mem.isBad (p.2 / 32) && s.queues.all fun z => decide (p.2 + 8 ≤ s.recordPa z.q ∨ s.recordPa z.q + 64 ≤ p.2)) = true ∧
      s.mem.wf = true) := some_with (by decide +kernel)
theorem witness_QueuesStart_eventWait :
    (∃ y, (world [(0, 3), (348, 5), (364, 7)]).startHead 3 3 = some y ∧ (world [(0, 3), (348, 5), (364, 7)]).signalOk y.1.ctx (bitsOf y.2.1 294 54 * 8) = true) ∧
    ∃ y, (world [(0, 4)]).startHead 3 4 = some y ∧ (world [(0, 4)]).signalOk y.1.ctx (bitsOf y.2.1 294 54 * 8) = true :=
  ⟨some_with (by decide +kernel), some_with (by decide +kernel)⟩
-- A packet whose dependence signal at 0xA018 reads 0 may start.
theorem witness_QueuesStart_dependence :
    let s := world (kernelPacket ++ [(11, 1), (240, 0x1403)])
    ∃ x, s.queue? 3 = some x ∧ (s.consumes x = true ∧ x.chain.isSome = true ∧ (s.headPacket x).any (fun b => packetErr x b == none && s.startable x b &&
      bitsOf b 11 1 == 1 && (s.dwordVa x.ctx (bitsOf b 240 54 * 8)).isSome) = true) := some_with (by decide +kernel)
/-- The world with a job of the queue whose work is done, numbered 3. -/
def doneJob : Job := { id := 3, q := 3, index := 0, kind := 2, ctx := 1, rcb := 0x1000, compsig := 0xA000, coldone := true }
def doneWorld : State := { world kernelPacket with jobs := [doneJob] }
theorem witness_QueuesStart_completion : (doneWorld.jobs.find? (fun j => j.id == 3)) = some doneJob ∧ doneJob.dead = false ∧ doneWorld.jobDone doneJob = true ∧
    doneJob.compsig ≠ 0 ∧ doneJob.cev = none ∧ ∃ p, doneWorld.place doneJob.ctx doneJob.compsig.toNat = some p ∧ (doneWorld.mem.isBad (p.2 / 32) = false ∧
      doneWorld.queues.all (fun z => decide (p.2 + 8 ≤ doneWorld.recordPa z.q ∨ doneWorld.recordPa z.q + 64 ≤ p.2)) = true ∧ doneWorld.mem.wf = true) :=
  ⟨by rfl, rfl, by decide +kernel, by decide, rfl, some_with (by decide +kernel)⟩
theorem witness_QueuesStart_enable : enables (world kernelPacket) 3 := by
  let s := world kernelPacket
  have h : ((s.loadCtx (s.readQueue 3).1.ctx).readChain (s.readQueue 3).1.ctx (s.readQueue 3).1.rcb.toNat).toOption.any (fun p =>
    (p.1.rcbs.head?.bind fun a => ((s.loadCtx (s.readQueue 3).1.ctx).place (s.readQueue 3).1.ctx a).map (·.2)) == (s.loadCtx (s.readQueue 3).1.ctx).rootOf (s.readQueue 3).1.ctx) = true := by
    decide +kernel
  obtain ⟨⟨c, v⟩, e, h⟩ := Option.any_eq_true _ _ |>.mp h
  refine ⟨by decide +kernel, by decide +kernel, c, v, ?_, beq_iff_eq.mp h⟩
  revert e
  cases hh : (s.loadCtx (s.readQueue 3).1.ctx).readChain (s.readQueue 3).1.ctx (s.readQueue 3).1.rcb.toNat with
  | ok p => exact fun e => by cases e; rfl
  | error => exact fun e => by cases e
-- A queue whose record names kind 0 with lgsize 0 is bad.
theorem witness_QueuesStart_badRecord : ((world kernelPacket).readQueue 5).2 = false := by decide +kernel
/-- The world's queue in error. -/
def failedWorld : State := { world kernelPacket with queues := (world kernelPacket).queues.map fun x => { x with state := 2 } }
theorem witness_QueuesStart_resume : ∃ x, failedWorld.queue? 3 = some x ∧ x.state = 2 := some_with (by decide +kernel)
-- A doorbell at wptr, at rptr + 2^lgsize, and one beyond.
theorem witness_QueuesStart_doorbell : ∃ x, (world kernelPacket).queue? 3 = some x ∧ (x.state = 1 ∧ (1 : DWord).toNat ≤ x.wptr ∧ x.wptr < (64 : DWord).toNat ∧
    (64 : DWord).toNat - x.rptr ≤ 2 ^ x.lgsize ∧ x.wptr < (65 : DWord).toNat ∧ 2 ^ x.lgsize < (65 : DWord).toNat - x.rptr) := some_with (by decide +kernel)

/-- A storage context, number 63, of 7 slots and blocks of 512 bytes, with its command queue at 0x8000 and its answers at 0x7000 (R117). -/
def ioRegs : Vector DWord 8 := #v[0, 0, 0x11, 0x22, 9 + 16 * 6 + 2 ^ 48 * 7, 2 ^ 24 * 8, 0x33, 0x44]
def ioWorld (tl tick : Nat) (rs : List IoReq) : State :=
  { base with tick := tick, ios := [{ n := 63, regs := ioRegs, valid := true, timeline := BitVec.ofNat 64 tl, issued := BitVec.ofNat 64 (tl + rs.length), reqs := rs }] }
def ioReq (num : Nat) (sub : Option Nat) : IoReq := { num := num, write := true, ctx := 5, buf := 0, pages := [(0x1000, 512)], lba := 7, blocks := 1, submitted := sub }
theorem witness_Storage_bind : ({ base with ios := [{ n := 63, regs := ioRegs }] } : State).ioRec 63 = { n := 63, regs := ioRegs } ∧
    ({ n := 63, regs := ioRegs } : IoCtx).bindable = true ∧ (base.ioRec 511).bindable = false ∧ (base.ioRec 511).valid = false :=
  ⟨rfl, by decide, by decide, rfl⟩
theorem witness_Storage_submit : ∃ x, (ioWorld 4 5 [ioReq 5 none]).io? 63 = some x ∧ (x.valid = true ∧ x.waiting = some (ioReq 5 none) ∧ x.room (ioReq 5 none) = true) :=
  some_with (by decide)
-- The next number in order, and a later one; at the tick of the timeout.
theorem witness_Storage_complete : ∃ x, (ioWorld 4 (7 + Config.ioTimeout) [ioReq 5 (some 7), ioReq 6 (some 9)]).io? 63 = some x ∧
    ((x.reqs.find? fun r => r.num == 5 && r.submitted.isSome) = some (ioReq 5 (some 7)) ∧ (5 = x.timeline.toNat + 1 ∧ x.timeline.toNat + x.reqs.length < 2 ^ 64) ∧
      (x.reqs.find? fun r => r.num == 6 && r.submitted.isSome) = some (ioReq 6 (some 9)) ∧ (x.reqs.find? fun r => r.num == 5 && !r.done) = some (ioReq 5 (some 7)) ∧
      7 + Config.ioTimeout ≤ (ioWorld 4 (7 + Config.ioTimeout) []).tick) := some_with (by decide)
theorem witness_Storage_poll :
    let s := ioWorld 4 1024 [ioReq 5 (some 7)]
    let t := { s with mem := s.mem.setBytes 0x7000 (bytesOfNat (2 ^ 96 * 5 + 2 ^ 112) 16) }
    s.tick % 1024 = 0 ∧ (∃ x, s.io? 63 = some x ∧ bitsOf (s.mem.bytes (x.cq + 16 * (x.cqHead % x.depth)) 16) 112 1 ≠ 1 - x.cqHead / x.depth % 2) ∧
      ∃ x, t.io? 63 = some x ∧ bitsOf (t.mem.bytes (x.cq + 16 * (x.cqHead % x.depth)) 16) 112 1 = 1 - x.cqHead / x.depth % 2 :=
  ⟨rfl, some_with (by decide), some_with (by decide +kernel)⟩

/-! ### The dispatcher, the core's engines, held words and times -/

/-- The world's package powered on, with the queue's chain in force, and with the second group of a grid of 2 × 1 × 1 left to place, of one wave. -/
def gridJob : Job := { id := 400, q := 3, index := 0, kind := 0, ctx := 1, rcb := 0x1000, left := 1, args := 0xB000, grid := (2, 1, 1), kdesc := 0x9000 }
def placing : Placing := { group := { ctx := 1, kdesc := 0x9000, rcb := 0x1000, chain := [0x1000], job := 400, octmask := 255, regs := 8, wideEach := 4 }, since := 0, next := 1, count := 2 }
def gridWorld : State :=
  let t := world kernelPacket
  let s := match t.queues.head?.bind (·.chain) with
    | some c => t.noteChain c
    | none => t
  { s with w := {}, g := {}, trust := { s.trust with booted := true }, jobs := [gridJob], sched := { s.sched with places := [placing] } }
theorem witness_Dispatcher_place : gridWorld.dispatches 3 = true ∧ gridWorld.placeOrder 3 = [placing] ∧ placing ∈ gridWorld.sched.places ∧ placing.rowsFor = none ∧
    placing.saved = false ∧ placing.group.task = false ∧ placing.group.coresident = false ∧ placing.next + 1 = placing.count ∧
    (gridWorld.jobs.find? fun j => j.id == placing.group.job) = some gridJob ∧ gridWorld.pickCore placing = some 0 :=
  ⟨by decide +kernel, by decide +kernel, by decide +kernel, rfl, rfl, rfl, rfl, rfl, by rfl, by decide +kernel⟩
/-- A group of the world's context under eviction, with its wave; the save area at 0 has 100 units (R443). -/
def leaving : Group := { base.g with ctx := 1, rcb := 0x1000, chain := [0x1000], evictAt := some 0, scratch := 0, tags := [] }
def evictWorld : State := { world kernelPacket with w := { base.w with ctx := 1 }, g := leaving, mem := (worldMem kernelPacket).setBytes 0 (bytesOfNat 100 8) }
theorem witness_Dispatcher_save : evictWorld.group? 1 = some leaving ∧ leaving.evictAt ≠ none ∧ (evictWorld.stopLoops leaving).group? 1 = some leaving ∧
    (evictWorld.stopLoops leaving).settled leaving = true ∧
    (let v := (evictWorld.stopLoops leaving).flushPrivate leaving
     v.groupDrained leaving = true ∧ (v.takeUnits leaving (v.wavesOf leaving.gid)).isSome = true ∧ (v.ctx? leaving.ctx).isSome = true) := by decide +kernel
def aTask (n : Nat) : Task := { entry := 0x9100, data := [BitVec.ofNat 8 n], rcb := 0x1000, chain := [0x1000], tick := n }
theorem witness_Dispatcher_bin :
    let s := (world kernelPacket).modCtx 1 fun x => { x with pool := [aTask 4, aTask 6] }
    ∃ x, s.ctx? 1 = some x ∧ (x.pool.head? = some (aTask 4) ∧ (∀ t ∈ x.pool, (t.entry, t.rcb) = (0x9100, 0x1000)) ∧ ∀ p ∈ s.sched.places, p.tasks = []) := some_with (by decide +kernel)
/-- A group in which a barrier has waited for its whole timeout. -/
def barWorld : State :=
  { world kernelPacket with w := { base.w with ctx := 1 }, g := { leaving with evictAt := none, bars := base.g.bars.set 2 { first := some 5, elapsed := 100, barto := 100, arrived := 0 } } }
theorem witness_Dispatcher_barrier : (barWorld.g.bars[(2 : Fin 16)]).arriving = [] ∧ (barWorld.g.bars[(2 : Fin 16)]).first ≠ none ∧
    (barWorld.g.bars[(2 : Fin 16)]).barto ≤ (barWorld.g.bars[(2 : Fin 16)]).elapsed ∧ barWorld.group? 1 = some barWorld.g ∧ barWorld.g.evictAt = none ∧
    (barWorld.ctx? barWorld.g.ctx).isSome = true ∧ (∃ w, barWorld.waveAt 1 0 = some w ∧ w.exited = false) ∧ (∀ v ∈ barWorld.allWaves, v.gid = 1 → v.ctx = barWorld.g.ctx) ∧
    barWorld.g.rcb.toNat ∈ barWorld.g.chain ∧ barWorld.xlate.frec.used 512 ≠ 256 :=
  ⟨by decide +kernel, by decide +kernel, by decide +kernel, by decide +kernel, rfl, by decide +kernel, some_with (by decide +kernel), by decide +kernel, by decide +kernel, by decide +kernel⟩
-- An overflow wait that its event meets; partition 3 suspends, resumes, and is empty.
theorem witness_Dispatcher_waits :
    let e : WaitEntry := { wave := 1, ctx := 1, part := 3, name := 5, thr := 0, place := .overflow 1 }
    let s := { world kernelPacket with sched := { (world kernelPacket).sched with waits := [e] } }
    e ∈ s.sched.waits ∧ s.eventMeets 1 5 0 = true := by decide +kernel
theorem witness_Dispatcher_suspend :
    let s := { world kernelPacket with hsem := { owner := 1 } }
    let t := { gridWorld with parts := gridWorld.parts.set 3 { suspend := true }, ios := [{ n := 192, valid := true }] }
    s.power.held = false ∧ s.holds 0 = true ∧ (s.parts[(3 : Fin 8)]).suspend = false ∧ (t.parts[(3 : Fin 8)]).suspend = true ∧ t.groupsIn 3 = [] ∧
      ∀ i ∈ t.ios, i.valid = true → i.n / 64 = 3 → i.timeline = i.issued := by decide +kernel

/-- The base state with an engine of core 0. -/
def engineCore (f : Core → Core) : State := { base with c := f base.c, tick := 100, g := { base.g with pad := [(5, 6)] } }
def mx : MxEntry := { gid := 1, desc := List.replicate 64 0, steps := 2, bank := 32, tag := 1, init := true, rows := List.replicate 128 0 }
theorem witness_Engines_gate :
    let s := { engineCore id with power := { mxgate := 100, cur := 1 } }
    s.power.held = false ∧ s.power.cur.toNat ≤ 1 ∧ (s.core 0).bow.state = .idle ∧ (s.core 0).bow.gated = false ∧ s.power.mxgate ≠ 0 ∧ s.power.mxgate.toNat ≤ s.tick - Nat.max (s.core 0).bow.idleSince s.power.since := by
  decide
theorem witness_Engines_entry (st : BowState) :
    let s := engineCore fun c => { c with mq := [mx], bow := { state := st, leave := 100 }, acc := [(7, 5)] }
    (s.core 0).mq = [mx] ∧ s.power.busy = false ∧ s.group? mx.gid = some s.g ∧ s.bowAt 0 st = true ∧ mx.steps ≠ 0 ∧ (∀ a ∈ (s.core 0).accWaits, s.tick ≤ a.start ∧ (a.start = s.tick → a.op.isRead = false)) ∧
      AccRises (s.core 0).acc := by
  refine ⟨rfl, rfl, rfl, by cases st <;> decide, by decide, ?_, List.pairwise_singleton _ _⟩
  intro a h
  cases h
theorem witness_Engines_stop :
    let s := engineCore fun c => { c with bow := { state := .stop, leave := 100, stopFor := some 1 } }
    s.bowAt 0 .stop = true ∧ (s.core 0).bow.stopFor = some 1 ∧ s.group? 1 = some s.g := ⟨by decide, rfl, rfl⟩
-- A wait at the port: accz, accw and accr.
theorem witness_Engines_port (op : AccOp) :
    let s := engineCore fun c => { c with accWaits := [{ start := 99, gid := 1, op := op }], acc := [(7, 5)] }
    (s.core 0).accWaits = [{ start := 99, gid := 1, op := op }] ∧ 99 < s.tick ∧ AccRises (s.core 0).acc := ⟨rfl, Nat.le.refl, List.pairwise_singleton _ _⟩
theorem witness_Engines_read :
    let a : Access := { id := 7, kind := .accr, pc := 0, instr := .nop, issued := 0, lanes := 1, regs := 1 }
    accOf { base with w := { base.w with accs := [a] } } 1 7 = some a ∧ a.data = Vector.replicate 32 0 := ⟨rfl, rfl⟩
/-- A tensor of one dimension: 8 elements of 4 bytes at VA 0, in 2 slots of 32 bytes at 0x600 of the scratchpad (R283). -/
def tensor (dir noring : Nat) : List Byte := fields [(689, noring), (685, dir), (681, 1), (678, 2), (666, 1), (660, 1), (640, 0x600), (40, 8), (0, 4)] 128
def streaming (k : EngineKind) (dir noring : Nat) (pad : List (Nat × Byte)) (busy : Bool) : State :=
  { world kernelPacket with
    c := { base.c with engines := base.c.engines.set 0 { kind := k, gid := 1, rec_ := tensor dir noring, tag := 1, num := 1, busy := busy } }
    g := { base.g with ctx := 1, rcb := 0x1000, chain := [0x1000], scratch := 8192, pad := pad } }
-- Before its work on slot 1, and after it.
theorem witness_Engines_fill : ∀ b, ∃ y, (streaming .armed 0 0 [] b).engine? 0 0 .armed = some y ∧ ((streaming .armed 0 0 [] b).fillReady 0 y.1 y.2.1 y.2.2 = true ∧
    y.2.1.slotAt y.1.num + 16 ≤ y.2.2.scratch ∧ cellsWf 0 y.2.2.pad = true ∧ y.2.2.fresh.2 = [] ∧ y.1.busy = b ∧ y.1.waits = []) := by
  intro b
  cases b <;> exact some_with (by decide +kernel)
theorem witness_Engines_drain : ∀ b, ∃ y, (streaming .armed 1 0 [(0x600, 1)] b).engine? 0 0 .armed = some y ∧
    ((streaming .armed 1 0 [(0x600, 1)] b).fillReady 0 y.1 y.2.1 y.2.2 = false ∧ drainReady y.1 y.2.1 y.2.2 = true ∧ y.2.1.slotAt y.1.num + 16 ≤ y.2.2.scratch ∧
      cellsWf 0 y.2.2.pad = true ∧ y.2.2.fresh.2 = [] ∧ y.1.busy = b ∧ y.1.waits = []) := by
  intro b
  cases b <;> exact some_with (by decide +kernel)
theorem witness_Engines_copy : ∀ b, ∃ y, (streaming .cpt 0 1 [] b).engine? 0 0 .cpt = some y ∧
    (y.1.waits = [] ∧ y.1.next < y.2.1.count ∧ y.1.busy = b ∧ y.2.1.dir ≠ 2) := by
  intro b
  cases b <;> exact some_with (by decide +kernel)

/-- A word that waits for pages in core 0: `ld v20, [s8:s9, v3], t2` with s8 = 0x10000 (R212). -/
def heldWord' : Held :=
  { id := 4, wave := 1, slot := 0, pc := 0x10004, instr := .ld { size := .b32, order := .wk, scope := .dev, policy := .dflt } (.dir 20) (.dir 3) 4 (.dir 2), mask := 1
    latch := { base.w.regs with s := base.w.regs.s.set 8 0x10000 }, need := .read, va := 0x10000, acc := some 10 }
def loadAcc : Access := { id := 10, kind := .load, pc := 0x10004, instr := heldWord'.instr, issued := 0, lanes := 1, regs := 1, treg := Vector.replicate 32 2, tlanes := 1 }
/-- The world with the held word, its walk going on, and with a TLB entry for the page or none. -/
def heldState (f : Held → Held) (tlb : List Tlb) : State :=
  { world kernelPacket with w := { base.w with ctx := 1, accs := [loadAcc] }, g := leaving, c := { base.c with held := [f heldWord'], tlb := tlb } }
def itsPage : Tlb := { ctx := 1, base := 0x10000, size := 65536, target := .device, pa := 0x90000, write := true, exec := true }
theorem witness_Held_present : ∃ y, translating (heldState id [itsPage]) (.translationComplete 0 4) = some y ∧ (y.2.1 ≠ 0 ∧ y.2.1 = y.1.mask ∧
    ((heldWord y.1 y.2.2).vas 0).all (fun v => ((y.2.2.tlbLoads ((lanesOf y.2.1).flatMap (heldWord y.1 y.2.2).vas)).2.c.look y.2.2.w.ctx v.1 v.2).isSome) = true ∧
    (heldWord y.1 y.2.2).ready (y.2.2.tlbLoads ((lanesOf y.2.1).flatMap (heldWord y.1 y.2.2).vas)).2 = true) := some_with (by decide +kernel)
-- An address of 2^40, which no entry of the root's table translates.
def farHeld (h : Held) : Held := { h with again := 1, state := .retry, latch := { h.latch with s := h.latch.s.set 9 0x100 } }
theorem witness_Held_absent : ∃ y, translating (heldState (fun h => { farHeld h with state := .walking }) []) (.translationComplete 0 4) = some y ∧ (y.2.1 = 1 ∧
    ((heldWord y.1 y.2.2).vas 0).all (fun v => ((y.2.2.tlbLoads ((lanesOf y.2.1).flatMap (heldWord y.1 y.2.2).vas)).2.c.look y.2.2.w.ctx v.1 v.2).isNone) = true ∧
    ((heldWord y.1 y.2.2).vas 0).isEmpty = false ∧ y.1.mask ≠ 0 ∧ (∃ x ∈ y.2.2.c.held, x.id = y.1.id ∧ x.walk &&& ~~~y.2.1 = 0)) := some_with (by decide +kernel)
theorem witness_Held_walks : (heldState farHeld []).held? 0 4 = some (farHeld heldWord') ∧ (heldState farHeld []).mayReissue (farHeld heldWord') = true ∧
    (let p := reissueAt (heldState farHeld []) (farHeld heldWord')
     inTlb p.2 p.1 = 0 ∧ ∃ x ∈ p.2.c.held, x.id = 4) := by decide +kernel
-- The same word waits on page request 2.
def asking : State := { base with w := { base.w with accs := [loadAcc] }, c := { base.c with held := [{ heldWord' with state := .waiting, asks := [(2, 1)] }] },
                                  xlate := { base.xlate with prq := [{ index := 2, va := 0x10000, ctx := 0, part := 0, need := .read, bad := false, core := 0, tick := 0, waiters := 1 }] } }
theorem witness_Held_answers : ∃ h ∈ asking.c.held, (∃ p ∈ asking.xlate.prq, p.index = 2) ∧ asking.w.live = true ∧ asking.c.held = [h] ∧ asking.cores = [] ∧ h.wave = asking.w.uid ∧
    h.asks = [(2, h.mask)] ∧ h.mask ≠ 0 ∧ h.failed = 0 ∧ failKind h.instr = .load ∧ h.acc = some 10 ∧ asking.w.acc? 10 = some loadAcc ∧ loadAcc.uniform = false :=
  ⟨_, List.mem_singleton_self _, ⟨_, List.mem_singleton_self _, rfl⟩, rfl, rfl, rfl, rfl, rfl, by decide, rfl, rfl, rfl, rfl, rfl⟩
theorem witness_Held_retry : ∀ h ∈ ({ asking with c := { asking.c with held := [{ heldWord' with asks := [(2, 1)] }] } } : State).allHeld, h.waitingLanes = 0 := by decide
/-- A load in flight with a refinement of its request 1, or a late notice for it that raises its time of 90 to 95. -/
def inFlight (a : Access) : State := { base with tick := 100, w := { base.w with accs := [a] } }
theorem witness_Held_times :
    let l := { loadAcc with sources := Vector.replicate 32 [(1, 0, 4, 0)] }
    let a := { l with refines := [(1, 120)] }
    let b := { l with own := Vector.replicate 32 90, notices := [(1, .add 5)] }
    (inFlight a).accessOf 0 10 = some ((inFlight a).w, a) ∧ (inFlight a).wave? 1 = some (inFlight a).w ∧ (inFlight b).accessOf 0 10 = some ((inFlight b).w, b) ∧
      a.noticedAt ≠ some 100 ∧ (a.lanesOfReq 1).getLsbD 0 = true ∧ (a.noteTime 1 120).laneTime 0 = some 120 ∧ a.going 0 = true ∧ raised b 1 (.add 5) 0 ∧
      ¬ raised { b with own := Vector.replicate 32 noPromise } 1 (.add 5) 0 ∧ ((inFlight a).focus 1).w = (inFlight a).w :=
  ⟨rfl, rfl, rfl, by decide, by decide +kernel, by decide +kernel, by decide +kernel, by unfold raised; decide +kernel, by unfold raised; decide +kernel, by decide +kernel⟩
theorem witness_Held_times_poison :
    let s := { withT 2 poisonTime 1 (inFlight loadAcc) with w := { (withT 2 poisonTime 1 (inFlight loadAcc)).w with park := .twait (Vector.replicate 32 2), parkLanes := 1 } }
    s.atSlot 0 = some s.w ∧ s.wave? s.w.uid = some s.w ∧ s.w.switch = false ∧ (s.w.regs.t[2])[0] = poisonTime ∧ s.w.parkLanes = 1 := ⟨rfl, rfl, rfl, by decide +kernel, rfl⟩
theorem witness_Held_arrival :
    let a := { loadAcc with at_ := some 100 }
    (inFlight a).accessOf 0 10 = some ((inFlight a).w, a) ∧ ((inFlight a).focus 1).w = (inFlight a).w ∧ (((inFlight a).focus 1).arrivedLanes a).getLsbD 0 = true ∧ a.bad.getLsbD 0 = false ∧ a.notices = [] ∧ (a.dst[(0 : Lane)]).val + 0 < 256 :=
  ⟨rfl, by decide +kernel, by decide +kernel, rfl, rfl, by decide⟩
-- A `twait` whose register has arrived at tick 99, and a `tyield` whose promise matures at this tick.
theorem witness_Held_parks :
    let s := { withT 2 99 1 (inFlight loadAcc) with w := { (withT 2 99 1 (inFlight loadAcc)).w with park := .twait (Vector.replicate 32 2), parkLanes := 1 } }
    let t := { withT 2 100 0 (inFlight loadAcc) with w := { (withT 2 100 0 (inFlight loadAcc)).w with park := .tyield (Vector.replicate 32 2), parkLanes := 1 } }
    s.atSlot 0 = some s.w ∧ s.w.switch = false ∧ (s.w.regs.arr[2]).getLsbD 0 = true ∧ (s.w.regs.t[2])[0].toNat ≤ s.tick ∧ s.w.parkLanes = 1 ∧
      t.atSlot 0 = some t.w ∧ isPromise (t.w.regs.t[2])[0] = true ∧ (t.w.regs.t[2])[0].toNat ≤ t.tick := by decide +kernel
theorem witness_Held_fetch :
    let s := { heldState id [{ itsPage with base := (packetVa 0x10004) / 65536 * 65536 }] with w := { base.w with ctx := 1, front := [{ pc := 0x10004, mask := 1, fetching := true }] } }
    s.atSlot 0 = some s.w ∧ (s.focus 1).w = s.w ∧ (∃ e ∈ s.w.front, e.pc = 0x10004 ∧ e.fetching = true) ∧ ((s.focus 1).tlbLoad .fetch (packetVa 0x10004)).1.1 = true := by decide +kernel

/-! ### Ends, power, boot, outsiders, the debugger and the window -/

/-- The base state at tick 100 with a change of its wave, and one of its group. -/
def waveAs (f : Wave → Wave) (g : Group → Group) : State := { base with tick := 100, w := f base.w, g := g base.g }
theorem witness_Waves_parks (p : Park) :
    let s := waveAs (fun w => { w with park := p }) id
    s.atSlot 0 = some s.w ∧ s.wave? s.w.uid = some s.w ∧ s.w.spilled = false ∧ (100 : Nat) ≤ s.tick ∧ (100 : DWord).toNat ≤ s.tick ∧
      (s.group? s.w.gid).isSome = true := ⟨rfl, rfl, rfl, Nat.le.refl, Nat.le.refl, rfl⟩
theorem witness_Waves_spilled :
    let s := waveAs (fun w => { w with park := .yield (.tick 100) true, spilled := true }) id
    s.atSlot 0 = some s.w ∧ s.w.park = .yield (.tick 100) true ∧ s.w.spilled = true ∧ (s.group? s.w.gid).isSome = true := ⟨rfl, rfl, rfl, rfl⟩
theorem witness_Waves_triggered :
    let s := waveAs (fun w => { w with triggered := true, trigAt := 5 }) id
    s.atSlot 0 = some s.w ∧ s.group? s.w.gid = some s.g ∧ s.w.triggered = true ∧ s.g.triggered &&& (1#32 <<< s.w.index) = 0 ∧ s.unstampedBefore s.w.uid s.w.trigAt = false :=
  ⟨rfl, rfl, rfl, by decide, by decide⟩
-- The last wave of its group, and one of two.
theorem witness_Waves_free :
    let s := waveAs (fun w => { w with exited := true, triggered := true }) fun g => { g with triggered := 1, exited := 1, tags := [] }
    let t := waveAs (fun w => { w with exited := true, triggered := true }) fun g => { g with triggered := 1, exited := 1, waves := 2 }
    s.w.accs = [] ∧ s.storing s.w.uid = false ∧ s.g.triggered &&& (1#32 <<< s.w.index) ≠ 0 ∧ (s.core (coreOfSlot 0)).holding s.w.uid = false ∧
      (s.allWaves.countP fun v => v.gid == s.w.gid) ≤ 1 ∧ s.g.waves ≤ (lanesOf s.g.exited).length ∧ s.tagged s.g = false ∧ (lanesOf t.g.exited).length < t.g.waves :=
  ⟨rfl, by decide, by decide, by decide, by decide, by decide, by decide, by decide⟩
/-- A copy whose lane has come, and one whose lane has not in a group under eviction since tick 0. -/
def copyAcc : Access :=
  { id := 10, kind := .copy, pc := 0x10004, instr := .cpa false .b32 .dflt (.dir 3) (.dir 4) 4 0 1, issued := 0, lanes := 1, regs := 1, tag := some 1, latch := some base.w.regs }
def copying (a : Access) (n : Nat) : State := { waveAs (fun w => { w with accs := [a] }) (fun g => { g with evictAt := some 0 }) with tick := n }
theorem witness_Waves_copy : (copying copyAcc 4096).accessOf 0 10 = some ((copying copyAcc 4096).w, copyAcc) ∧ ((copying copyAcc 4096).focus 1).w = (copying copyAcc 4096).w ∧
    copyAcc.waits = [] := ⟨rfl, by decide +kernel, rfl⟩
theorem witness_Waves_copyEvicted :
    let a := { copyAcc with waits := [7], sources := Vector.replicate 32 [(7, 0, 4, 0)] }
    let s := { copying a 4096 with reqs := [asks (.read false) .l2] }
    s.accessOf 0 10 = some (s.w, a) ∧ (s.focus 1).w = s.w ∧ a.latch = some base.w.regs ∧ (s.focus 1).g.evictAt = some 0 ∧ 0 + 4096 ≤ s.tick ∧
      a.lanes &&& ~~~((s.focus 1).arrivedLanes a) ≠ 0 ∧ (s.focus 1).c.held.length < 64 := ⟨rfl, by decide +kernel, rfl, by decide +kernel, by decide +kernel, by decide +kernel, by decide +kernel⟩
theorem witness_Waves_fence :
    let a : Access := { id := 10, kind := .fence, pc := 0x10004, instr := .fenceSc, issued := 0, lanes := 1, regs := 0, ticket := some 1 }
    let s := { waveAs (fun w => { w with accs := [a] }) id with seq := { next := 3, tickets := [{ g := 2, wave := 1, slot := 0, acc := 10 }] } }
    s.atSlot 0 = some s.w ∧ (s.focus 1).w = s.w ∧ (s.w.accs.find? fun a => a.kind == .fence && a.ticket.isSome && s.fenceScDone s.w a) = some a :=
  ⟨rfl, by decide +kernel, by decide +kernel⟩
-- Seven tickets have been granted in this tick.
theorem witness_Waves_ticket :
    let k : Ticket := { g := 0, wave := 1, slot := 0, acc := 10, home := some 3 }
    let s := { base with tick := 100, seq := { next := 1, tickets := [k], tick := 100, granted := 7 } }
    s.epoch.running = false ∧ s.seq.tickets = [k] ∧ k.g = 0 ∧ k.done = false ∧ 0 < s.seq.next ∧ s.seq.granted < 8 := by decide

/-- A booted package in PS0 whose HSEM port 0 owns, with no queue and no group. -/
def empty : State := { base with w := {}, g := {}, hsem := { owner := 1 }, trust := { booted := true } }
theorem witness_Power_command : empty.power.held = false ∧ empty.holds 0 = true ∧ empty.power.busy = false ∧ empty.trust.booted = true ∧ empty.idlePackage = true ∧
    ({ empty with queues := [{ q := 3, state := 1 }] } : State).idlePackage = false := by decide
-- From any state to any other, in an idle package and in one with an enabled queue.
theorem witness_Power_transition (k l : BitVec 2) :
    let s := { empty with tick := 4096, power := { cur := k, target := l, busy := true } }
    let t : State := { s with queues := [{ q := 3, state := 1 }] }
    s.power.busy = true ∧ s.epoch.running = false ∧ s.quiet = true ∧ s.idlePackage = true ∧ s.tick = 4096 ∧ t.quiet = true ∧ t.idlePackage = false :=
  ⟨rfl, rfl, by rfl, by rfl, rfl, by rfl, by rfl⟩
-- Ticks before a window ends and at its end; an account that is due, and one that a terminated context is owed.
theorem witness_Power_energy : (249999 : Nat) % 250000 ≠ 0 ∧ (250000 : Nat) % 250000 = 0 ∧ (2500000 : Nat) % 2500000 = 0 ∧ (2500001 : Nat) % 2500000 ≠ 0 ∧
    1 ∈ ({ empty with power := { owing := [1] } } : State).power.owing ∧ (1 : Nat) ∉ empty.power.owing ∧
    ∃ pa, (world kernelPacket).rootOf 1 = some pa ∧ (world kernelPacket).mem.wf = true :=
  ⟨by decide, by decide, by decide, by decide, by decide, by decide, some_with (by decide +kernel)⟩
theorem witness_Boot_release : ({ empty with power := { held := true } } : State).power.held = true ∧ empty.power.held = false := ⟨rfl, rfl⟩
theorem witness_Boot_requests : empty.power.held = false ∧ empty.holds 0 = true ∧ empty.trust.status ≠ 1 ∧ empty.epoch.running = false ∧ empty.mem.wf = true := by decide
theorem witness_Outsiders_memory : empty.power.held = false ∧ inMemory (Config.installed - 200) 200 = true ∧ inMemory (Config.installed - 200) 201 = false ∧ empty.mem.wf = true ∧
    inMemory (reachedAt { empty with window := { devwin := 5 } } (.window 0) 64) 64 = true := by decide +kernel
/-- The world with an ACT entry of peer 77 for context 1: all rights, and queues 3 to 63; peer 78 has no right (R113). -/
def peerWorld : State :=
  { world kernelPacket with window := { (world kernelPacket).window with
      act := [(2, BitVec.ofNat 64 (2 ^ 63 + 77 * 2 ^ 48 + 2 ^ 36 + 7 * 2 ^ 60 + 3 * 2 ^ 24 + 63 * 2 ^ 12 + 2)), (5, BitVec.ofNat 64 (2 ^ 63 + 78 * 2 ^ 48 + 2 ^ 36))] } }
theorem witness_Outsiders_peer : peerWorld.actEntry 79 1 = none ∧ (peerWorld.rootOf 1).isSome = true ∧
    (∃ v, peerWorld.actEntry 77 1 = some v ∧ (v / 2 ^ 61 % 2 = 1 ∧ v / 2 ^ 60 % 2 = 1 ∧ v / 2 ^ 62 % 2 = 1 ∧ v / 2 ^ 24 % 4096 ≤ 3 ∧ 3 ≤ v / 2 ^ 12 % 4096 ∧ 2 < v / 2 ^ 24 % 4096 ∧
      v / 2 ^ 12 % 4096 < 64)) ∧
    (∃ v, peerWorld.actEntry 78 1 = some v ∧ (v / 2 ^ 61 % 2 ≠ 1 ∧ v / 2 ^ 60 % 2 ≠ 1 ∧ v / 2 ^ 62 % 2 ≠ 1)) ∧
    (∃ k, (peerWorld.loadCtx 1).peerPlace 1 0x30000 .read = some k) ∧ (∃ k, (peerWorld.loadCtx 1).peerPlace 1 0x30000 .write = some k) ∧
    ∃ x, peerWorld.queue? 3 = some x ∧ (x.kind = 2 ∧ x.state = 1 ∧ x.wptr < (6 : DWord).toNat ∧ (6 : DWord).toNat - x.rptr ≤ 2 ^ x.lgsize) :=
  ⟨by decide +kernel, by decide +kernel, some_with (by decide +kernel), some_with (by decide +kernel), Option.isSome_iff_exists.mp (by decide +kernel),
    Option.isSome_iff_exists.mp (by decide +kernel), some_with (by decide +kernel)⟩

-- A range that ends at 2^57, and one beyond it.
theorem witness_Shootdown :
    let s (n : DWord) : State := { base with xlate := { base.xlate with shootVa := 0x1FFFFFFFFFF0000, shootLen := n } }
    (s 1).xlate.shootGo = false ∧ (2 ^ 63 : DWord).getLsbD 63 = true ∧ (s 1).shootRange.1 + (s 1).shootRange.2 = 2 ^ 57 ∧ 2 ^ 57 < (s 2).shootRange.1 + (s 2).shootRange.2 ∧
      ((s 1).allCores.map (·.id)).Nodup := by decide
theorem witness_Shootdown_complete :
    let s : State := { base with xlate := { base.xlate with shootGo := true } }
    s.shootWaits = false ∧ ({ s with xlate := { s.xlate with shootWait := [7] }, reqs := [asks (.read false) .l2] } : State).shootWaits = true := by decide
theorem witness_Debugger (f : Nat) :
    let s := waveAs (fun w => { w with halted := true }) id
    let t : State := { s with xlate := { s.xlate with dbgSel := BitVec.ofNat 64 f } }
    (base.allWaves.map (·.uid)).Nodup ∧ base.dbgWaves (2 ^ 49) = [] ∧ s.dbgWaves (2 ^ 61) = [s.w] ∧ s.w.halted = true ∧ base.dbgTarget = none ∧ t.dbgTarget = some t.w ∧
      t.wave? t.w.uid = some t.w := by
  refine ⟨by decide, by decide, by decide +kernel, rfl, by decide, rfl, rfl⟩
theorem witness_Debugger_files :
    let v (f n : Nat) : DWord := BitVec.ofNat 64 (f * 2 ^ 60 + n * 2 ^ 52)
    selFile (v 0 255) = 0 ∧ selNumber (v 0 255) = 255 ∧ selFile (v 1 65) = 1 ∧ selNumber (v 1 65) % 64 ≠ 0 ∧ selFile (v 5 7) = 5 ∧ selNumber (v 5 7) % 8 ≠ 0 ∧ selFile (v 4 3) = 4 := by decide
theorem witness_Window : empty.power.held = false ∧ takesAccess (empty.spotFor 0 (0x1010 / 8 * 8)) 0x1010 3 = false ∧ empty.holds 0 = true ∧ (77 : DWord) ≠ 0 := by decide

/-! ### The step -/

/-- The state after reset with an instruction placed where the next step fetches it. -/
def atUnit (w : Nat) : State := State.reset.withFetchWord 32 w
theorem witness_Step_due : ({ base with todo := [.thermalAlert, .ticketGrant] } : State).todo = .thermalAlert :: [.ticketGrant] ∧ base.script = [] ∧
    ({ base with script := [.happen .thermalAlert, .tick] } : State).script = .happen .thermalAlert :: [.tick] ∧ encode .thermalAlert = none ∧
    State.reset.firstIssue = none ∧ State.reset.timeUp = none ∧ State.reset.todo = [] := by decide +kernel
/-- Does the next step issue a unit that meets the hypotheses of the statement on steps? -/
def unitMet (s : State) (f : Entry → Packet → Bool) : Bool :=
  s.script.isEmpty && s.todo.isEmpty && s.firstIssue.any fun w => let u := s.focus w.uid
    match u.pickEntry u.c u.w with
    | .entry e p false => (u.c.tlbFind u.w.ctx (packetVa e.pc)).any (fun x => x.exec && p == packetOfBytes (u.mem.bytes (x.key (packetVa e.pc)) 16)) && !p.malformed &&
        p.starts.contains (slotOf e.pc) && !u.mustReserve e (unitAt p e.pc) && f e p
    | _ => false
theorem unitMet_meets {s : State} {f : Entry → Packet → Bool} (h : unitMet s f = true) : ∃ w u e p, Issues s w u ∧ AtUnit u e p ∧ f e p = true := by
  unfold unitMet at h
  simp only [Bool.and_eq_true, Option.any_eq_true, List.isEmpty_iff] at h
  obtain ⟨⟨hs, ht⟩, w, hw, h⟩ := h
  generalize hk : (s.focus w.uid).pickEntry (s.focus w.uid).c (s.focus w.uid).w = k at h
  match k, h with
  | .entry e p false, h =>
    simp only [Bool.and_eq_true, Option.any_eq_true, Bool.not_eq_true', beq_iff_eq] at h
    obtain ⟨⟨⟨⟨⟨x, hx, hx'⟩, hm⟩, hst⟩, hr⟩, hf⟩ := h
    exact ⟨w, _, e, p, .inl ⟨hs, ht, hw, rfl⟩, ⟨hk, ⟨x, hx, hx'⟩, hm, hst, hr⟩, hf⟩
-- `s.add s5, s6, s7` stands alone; a word of reserved major 0x70.
theorem witness_Step_unit : ∃ w u e p, Issues (atUnit 0x000A30E0) w u ∧ AtUnit u e p ∧
    (legal (p.codeAt (slotOf e.pc)).1 == some (.sAdd 5 6 7) && !chainBit (p.slot (p.codeAt (slotOf e.pc)).2)) = true := unitMet_meets (by decide +kernel)
theorem witness_Step_illegal : ∃ w u e p, Issues (atUnit (0x70 * 2 ^ 23)) w u ∧ AtUnit u e p ∧ (legal (p.codeAt (slotOf e.pc)).1 == none) = true :=
  unitMet_meets (by decide +kernel)
-- `s.add s5, s6, s7` chained to `add v3, v1, v2` (majors 0x00 and 0x11).
theorem witness_Step_chained : ∃ w u e p, Issues (State.reset.withFetchWord 64 ((0x11 * 2 ^ 23 + 3 * 2 ^ 16 + 1 * 2 ^ 9 + 2 * 2 ^ 2) * 2 ^ 32 + 2 ^ 31 + 0x000A30E0)) w u ∧ AtUnit u e p ∧
    (let c := p.codeAt (slotOf e.pc)
     let d := p.codeAt (c.2 + 1)
     legal c.1 == some (.sAdd 5 6 7) && (legal d.1).isSome && chainBit (p.slot c.2) && pipeOf (majorOf (p.slot c.2)) != pipeOf (majorOf (p.slot d.2))) = true :=
  unitMet_meets (by decide +kernel)
theorem witness_Encoded : Instr.wellFormed (.sAdd 5 6 7) = true ∧ (encode (.sAdd 5 6 7)).isSome = true := by decide
theorem witness_StepKeeps : State.reset.mem.wf = true ∧ ∃ t, step State.reset = .next t := by
  have f : State.reset.firstIssue = none := by decide +kernel
  have t : State.reset.timeUp = none := by decide +kernel
  have e : State.reset.script = [] ∧ State.reset.todo = [] := ⟨rfl, rfl⟩
  exact ⟨by decide, State.reset.tickOn, by simp [step, State.move, e.1, e.2, f, t]⟩

/-! ## Single steps, with results worked out by hand from the rules or taken from the spec's own examples -/

/-- What a reader of a next state sees. -/
def nextHas (o : Out1) (p : State → Bool) : Bool := match o with
  | .next t => p t
  | .fault _ => false
  | .refused _ => false
/-- Lane 0 of a vector register, a scalar and a mask after an instruction. -/
def v0 (n : Fin 256) (t : State) : Word := (t.w.regs.v[n]).lane 0
def s' (n : Fin 64) (t : State) : Word := t.w.regs.s[n]

-- R359: 0xFFFFFFFF + 2 wraps to 1; s0 keeps 0 (R176).
theorem test_sAdd_wraps : nextHas (exec (.sAdd 5 6 7) (withS [(6, 0xFFFFFFFF), (7, 2)] base)) (fun t => s' 5 t == 1) = true := by decide +kernel
theorem test_sAdd_s0 : nextHas (exec (.sAdd 0 6 7) (withS [(6, 3), (7, 2)] base)) (fun t => s' 0 t == 0) = true := by decide +kernel
-- −1 is below 1 as a signed value and above it as an unsigned one.
theorem test_sCmp_signs : nextHas (exec (.sCmpLt 5 6 7) (withS [(6, 0xFFFFFFFF), (7, 1)] base)) (fun t => s' 5 t == 1) = true ∧
    nextHas (exec (.sCmpLo 5 6 7) (withS [(6, 0xFFFFFFFF), (7, 1)] base)) (fun t => s' 5 t == 0) = true := by decide +kernel
theorem test_sSra_sign : nextHas (exec (.sSra 5 6 7) (withS [(6, 0x80000000), (7, 4)] base)) (fun t => s' 5 t == 0xF8000000) = true := by decide +kernel
-- The high words of −1 × 2, signed and unsigned.
theorem test_mulh_signs : nextHas (exec (.mulh .i32 (.dir 4) (.dir 1) (.dir 2)) (withV [(1, 0xFFFFFFFF), (2, 2)] base)) (fun t => v0 4 t == 0xFFFFFFFF) = true ∧
    nextHas (exec (.mulh .n32 (.dir 4) (.dir 1) (.dir 2)) (withV [(1, 0xFFFFFFFF), (2, 2)] base)) (fun t => v0 4 t == 1) = true := by decide +kernel
-- Bytes wrap each by itself: no carry leaves a byte. The destination is a source too.
theorem test_add_bytes : nextHas (exec (.add .i8x4 (.dir 1) (.dir 1) (.dir 2)) (withV [(1, 0xFF01807F), (2, 0x01010181)] base)) (fun t => v0 1 t == 0x00028100) = true := by
  decide +kernel
-- `mad` adds to its destination: 3 × 5 + 100.
theorem test_mad_accumulates : nextHas (exec (.mad .i32 (.dir 4) (.dir 1) (.dir 2)) (withV [(1, 3), (2, 5), (4, 100)] base)) (fun t => v0 4 t == 115) = true := by decide +kernel
-- `ffma` rounds once: (1 + 2^−23)² − (1 + 2^−22) = 2^−46.
theorem test_ffma_once : nextHas (exec (.ffma .f32 .rne (.dir 4) (.dir 1) (.dir 2)) (withV [(1, 0x3F800001), (2, 0x3F800001), (4, 0xBF800002)] base))
    (fun t => v0 4 t == 0x28800000) = true := by decide +kernel
-- 1 + 2^−24 is a tie: to even, and up.
theorem test_fadd_rounds : nextHas (exec (.fadd .f32 .rne (.dir 4) (.dir 1) (.dir 2)) (withV [(1, 0x3F800000), (2, 0x33800000)] base)) (fun t => v0 4 t == 0x3F800000) = true ∧
    nextHas (exec (.fadd .f32 .rup (.dir 4) (.dir 1) (.dir 2)) (withV [(1, 0x3F800000), (2, 0x33800000)] base)) (fun t => v0 4 t == 0x3F800001) = true := by decide +kernel
-- R250's example: 500.0 toward zero to E4M3 under `.sat`, `.inf` and `.trap`; 440.0 to nearest.
theorem test_cvtn_500 : nextHas (exec (.cvtn .e4m3 .f32 .rtz .sat (.dir 4) (.dir 1)) (withV [(1, 0x43FA0000)] base)) (fun t => v0 4 t == 0x7E) = true ∧
    nextHas (exec (.cvtn .e4m3 .f32 .rtz .inf (.dir 4) (.dir 1)) (withV [(1, 0x43FA0000)] base)) (fun t => v0 4 t == 0x7F) = true ∧
    nextHas (exec (.cvtn .e4m3 .f32 .rne .trap (.dir 4) (.dir 1)) (withV [(1, 0x43DC0000)] base)) (fun t => v0 4 t == 0x7E) = true := by decide +kernel
-- OVERFLOW enters the handler with its lanes in s57, busy in s56 and its PC in s58, and leaves the register as it was.
theorem test_cvtn_trap : nextHas (exec (.cvtn .e4m3 .f32 .rtz .trap (.dir 4) (.dir 1)) (withV [(1, 0x43FA0000), (4, 9)] base))
    (fun t => v0 4 t == 9 && s' 57 t == 1 && (s' 56 t).getLsbD 11 && s' 58 t == 0x10004) = true := by decide +kernel
-- R249's example: −1 of INT8 to an unsigned target.
theorem test_cvtn_negative : nextHas (exec (.cvtn .n32 .i8 .rne .sat (.dir 4) (.dir 1)) (withV [(1, 0xFFFFFFFF)] base)) (fun t => v0 4 t == 0) = true := by decide +kernel
-- A branch to the packet before goes to its slot 1.
theorem test_br_back : nextHas (exec (.br (-1)) base) (fun t => t.w.front == [{ pc := 0xFFF4, mask := 1 }]) = true := by decide +kernel
-- R283: an addition of 3 to tag 2 in state; a tag outside the window traps and adds nothing.
theorem test_taga : nextHas (exec (.taga 2 3) base) (fun t => t.g.tags == [0, 0, 3, 0]) = true ∧ nextHas (exec (.taga 5 3) base) (fun t => t.g.tags == [0, 0, 0, 0]) = true := by
  decide +kernel
-- R34: the site's count of the path to home 7 goes from 4095 to 0.
theorem test_stamp_wraps :
    nextHas (exec (.stampWrite 7) (withOct 0 (fun o => { o with k := o.k.set 0 ((o.k[(0 : Fin 8)]).set 7 4095), shown := o.shown.set 7 4094 }) (fabric 5 [asks .write .stamp] [])))
      (fun t => ((t.octs[(0 : Oct)]).k[(0 : Fin 8)])[(7 : Fin 8)] == 0) = true := by decide +kernel

end Tests
end Sys2Proof
end

section
/-! PROOFS. What the causal fabric keeps when a write is stamped, sent and applied, and the refutation of O36. -/

namespace Sys2Proof
namespace Fabric
open Sys2Proof.Machine Sys2Proof.Laws

/-- An octant without what a write performed at a home changes of it: its caches' lines, its turn of ticketed operations and what its last beacon showed. -/
def bare (o : Octant) : Octant := { o with l2 := [], l3 := [], atscNext := 0, atscLost := [], sentA := CVec.zero }

/-- The name of a request, and what it was stamped with. -/
def stamp (r : Req) : Nat × CVec × Option CMat := (r.id, r.vec, r.mat)

/-- The counts and buffers of every octant, and the stamps of every request. -/
def fabricView (s : State) : Vector Octant 8 × List (Nat × CVec × Option CMat) := (s.octs.map bare, s.reqs.map stamp)

/-- What every site knows and retains, and the stamps of every request. -/
def stampView (s : State) : Vector (CMat × List (Nat × Nat)) 8 × List (Nat × CVec × Option CMat) :=
  (s.octs.map fun o => (o.k, o.retry), s.reqs.map stamp)

theorem map_set_same {α β : Type} {n : Nat} (g : α → β) (v : Vector α n) (o : Fin n) (x : α) (h : g x = g v[o]) : (v.set o x).map g = v.map g := by
  ext i hi
  by_cases hio : o.val = i
  · subst hio; simpa using h
  · simp [hio]

/-- Reading a vector of octants, of counts or of columns after one entry is set. -/
theorem vector_set {α : Type} {n : Nat} (v : Vector α n) (o k : Fin n) (x : α) : (v.set o x)[k] = if k = o then x else v[k] := by
  simp [Vector.getElem_set, Fin.ext_iff, eq_comm]

/-- Two octants have, as homes, applied, buffered, held and refused the same, and report the same. -/
structure SameHome (x y : Octant) : Prop where
  a : x.a = y.a
  early : x.early = y.early
  held : x.held = y.held
  refusing : x.refusing = y.refusing
  cf : x.cf = y.cf

theorem home_of_bare {x y : Octant} (h : bare x = bare y) : SameHome x y :=
  have ha : (bare x).a = (bare y).a := congrArg Octant.a h
  have he : (bare x).early = (bare y).early := congrArg Octant.early h
  have hh : (bare x).held = (bare y).held := congrArg Octant.held h
  have hr : (bare x).refusing = (bare y).refusing := congrArg Octant.refusing h
  have hc : (bare x).cf = (bare y).cf := congrArg Octant.cf h
  ⟨ha, he, hh, hr, hc⟩

theorem stampView_of_fabricView {s t : State} (h : fabricView t = fabricView s) : stampView t = stampView s := by
  obtain ⟨ho, hr⟩ := Prod.mk.inj h
  have hk := congrArg (Vector.map fun o : Octant => (o.k, o.retry)) ho
  simp only [Vector.map_map] at hk
  exact Prod.ext hk hr

theorem fabricView_oct {s t : State} (h : fabricView t = fabricView s) (o : Oct) : bare t.octs[o] = bare s.octs[o] := by
  have := congrArg (fun v : Vector Octant 8 × List (Nat × CVec × Option CMat) => v.1[o]) h
  simpa [fabricView] using this

theorem stampView_oct {s t : State} (h : stampView t = stampView s) (o : Oct) :
    (t.octs[o]).k = (s.octs[o]).k ∧ (t.octs[o]).retry = (s.octs[o]).retry := by
  have := congrArg (fun v : Vector (CMat × List (Nat × Nat)) 8 × List (Nat × CVec × Option CMat) => v.1[o]) h
  simpa [stampView] using this

/-- A request is found again where the stamps are the same, with its own. -/
theorem stampView_req {s t : State} (h : stampView t = stampView s) (id : Nat) : (t.req? id).map stamp = (s.req? id).map stamp := by
  have := congrArg (fun v : Vector (CMat × List (Nat × Nat)) 8 × List (Nat × CVec × Option CMat) => v.2.find? fun p => p.1 == id) h
  simpa only [stampView, List.find?_map, Function.comp_def, stamp, State.req?] using this

/-! ### The elementary updates -/

theorem fabricView_congr {s t : State} (ho : t.octs = s.octs) (hr : t.reqs = s.reqs) : fabricView t = fabricView s := by
  unfold fabricView; rw [ho, hr]

theorem fabricView_modOct (s : State) (o : Oct) {f : Octant → Octant} (h : ∀ x, bare (f x) = bare x) : fabricView (s.modOct o f) = fabricView s := by
  unfold fabricView; rw [modOct_octs, modOct_reqs, map_set_same _ _ _ _ (h _)]

theorem stampView_modOct (s : State) (o : Oct) {f : Octant → Octant} (h : ∀ x, (f x).k = x.k ∧ (f x).retry = x.retry) :
    stampView (s.modOct o f) = stampView s := by
  unfold stampView; rw [modOct_octs, modOct_reqs, map_set_same _ _ _ _ (Prod.ext (h _).1 (h _).2)]

theorem fabricView_mapReqs {s t : State} {f : Req → Req} (ho : t.octs = s.octs) (hr : t.reqs = s.reqs.map f) (h : ∀ r, stamp (f r) = stamp r) :
    fabricView t = fabricView s := by
  unfold fabricView
  rw [ho, hr, List.map_map]
  exact congrArg _ (List.map_congr_left fun r _ => h r)

theorem fabricView_modReq (s : State) (id : Nat) {f : Req → Req} (h : ∀ r, stamp (f r) = stamp r) : fabricView (s.modReq id f) = fabricView s :=
  fabricView_mapReqs rfl rfl fun r => by
    split
    · exact h r
    · rfl

/-- What every operation of a fold keeps, the fold keeps. -/
theorem foldl_same {α β γ : Type} (π : β → γ) {f : β → α → β} (h : ∀ b a, π (f b a) = π b) (l : List α) (b : β) : π (l.foldl f b) = π b :=
  foldl_keeps (fun c => π c = π b) f (fun c a hc => (h c a).trans hc) l b rfl

@[simp] theorem modWave_octs (s : State) (u : Nat) (f : Wave → Wave) : (s.modWave u f).octs = s.octs := by unfold State.modWave; split <;> rfl
@[simp] theorem modWave_reqs (s : State) (u : Nat) (f : Wave → Wave) : (s.modWave u f).reqs = s.reqs := by unfold State.modWave; split <;> rfl

@[simp] theorem fabricView_due (s : State) (e : Instr) : fabricView (s.due e) = fabricView s := rfl
@[simp] theorem fabricView_post (s : State) (a b : Oct) (w : Wire) (e : Instr) : fabricView (s.post a b w e) = fabricView s := rfl

/-! ### Writes performed at a home (R41, R63, R77) -/

theorem bare_modL3 (o : Octant) (line : Nat) (f : L3Line → L3Line) : bare (o.modL3 line f) = bare o := rfl
theorem bare_modL2 (o : Octant) (line : Nat) (f : L2Line → L2Line) : bare (o.modL2 line f) = bare o := rfl
theorem bare_l2Leaves (o : Octant) (line : Nat) : bare (o.l2Leaves line) = bare o := by
  unfold Octant.l2Leaves; dsimp only; split <;> rfl

@[simp] theorem fabricView_l2Drop (s : State) (line : Nat) (keep : Option Oct) : fabricView (s.l2Drop line keep) = fabricView s := by
  refine Prod.ext ?_ rfl
  ext1 i hi
  simp only [fabricView, State.l2Drop, Vector.getElem_map, Vector.getElem_ofFn]
  split <;> rfl

@[simp] theorem fabricView_recallL2 (s : State) (home : Oct) (line : Nat) : fabricView (s.recallL2 home line) = fabricView s :=
  fabricView_modOct s home fun o => bare_l2Leaves o line

@[simp] theorem fabricView_keepBelow (s : State) (home : Oct) (line : Nat) : fabricView (s.keepBelow home line) = fabricView s := by
  unfold State.keepBelow
  split
  · rfl
  · exact fabricView_modOct s home fun o => bare_modL3 o line _

@[simp] theorem fabricView_l3Insert (s : State) (oct : Oct) (p : Nat) (l : L3Line) : fabricView (s.l3Insert oct p l).1 = fabricView s := by
  simp only [State.l3Insert]
  split
  · rfl
  · split
    · exact (fabricView_l2Drop _ _ _).trans (fabricView_modOct s oct fun _ => rfl)
    · exact fabricView_modOct s oct fun _ => rfl

@[simp] theorem fabricView_l3Take (s : State) (oct : Oct) (line ctx : Nat) : fabricView (s.l3Take oct line ctx) = fabricView s := by
  simp only [State.l3Take]
  split
  · rfl
  · refine (fabricView_modOct _ oct fun _ => by rfl).trans ?_
    split
    · exact (fabricView_l2Drop _ _ _).trans (fabricView_modOct s oct fun _ => rfl)
    · rfl

@[simp] theorem fabricView_l2Take (s : State) (oct : Oct) (line ctx : Nat) : fabricView (s.l2Take oct line ctx) = fabricView s := by
  simp only [State.l2Take]
  split
  · rfl
  · refine fabricView_modOct s oct fun x => (bare_modL2 _ _ _).trans ?_
    split
    · exact bare_l2Leaves x _
    · rfl

@[simp] theorem fabricView_noteWrite (s : State) (home : Oct) (line ctx : Nat) (policy : Policy) (key : Option (BitVec 16)) :
    fabricView (s.noteWrite home line ctx policy key) = fabricView s := by
  have hk : fabricView ((if key.isSome then (s.recallL2 home line).l2Drop line none else s).keepBelow home line) = fabricView s := by
    rw [fabricView_keepBelow]
    split
    · rw [fabricView_l2Drop, fabricView_recallL2]
    · rfl
  revert hk
  simp only [State.noteWrite]
  generalize (if key.isSome = true then (s.recallL2 home line).l2Drop line none else s).keepBelow home line = u
  intro hk
  refine Eq.trans ?_ hk
  split
  · exact (fabricView_modOct _ home fun _ => by rfl).trans (fabricView_l2Take _ _ _ _)
  · split
    · exact (fabricView_modOct _ home fun _ => by rfl).trans (fabricView_l3Take _ _ _ _)
    · exact fabricView_l3Insert _ _ _ _

@[simp] theorem fabricView_homeStore (s : State) (line : Nat) (mask : BitVec 128) (d : BitVec 1024) :
    fabricView (s.homeStore line mask d) = fabricView s := by
  refine Eq.trans (fabricView_mapReqs (s := s.l2Drop line (some (homeOf (line * 128)))) rfl rfl fun r => ?_) (fabricView_l2Drop _ _ _)
  split <;> rfl

@[simp] theorem fabricView_staleFills (s : State) (r : Req) : fabricView (s.staleFills r) = fabricView s :=
  fabricView_mapReqs rfl rfl fun q => by split <;> rfl

theorem bare_skipLost (o : Octant) : bare o.skipLost = bare o :=
  foldl_same bare (fun x _ => by split <;> rfl) _ o

@[simp] theorem fabricView_perform (s : State) (r : Req) : fabricView (s.perform r) = fabricView s := by
  have h0 : fabricView (if r.quiet then s else s.staleFills r) = fabricView s := by
    split
    · rfl
    · exact fabricView_staleFills s r
  revert h0
  unfold State.perform
  generalize (if r.quiet = true then s else s.staleFills r) = u
  intro h0
  refine Eq.trans ?_ h0
  dsimp only
  cases r.kind with
  | write =>
    refine (fabricView_due _ _).trans <| (fabricView_modReq _ _ fun _ => by rfl).trans ?_
    split
    · simp
    · refine Eq.trans (fabricView_congr (s := (u.noteWrite r.home r.line r.ctx r.policy r.key).homeStore r.line r.mask r.data) rfl rfl) ?_
      simp
  | atomic op cmp =>
    refine (fabricView_due _ _).trans <| (fabricView_modReq _ _ fun _ => by rfl).trans ?_
    split
    · refine (fabricView_modOct _ _ fun x => by exact bare_skipLost _).trans ?_
      split
      · simp
      · rfl
    · split
      · simp
      · rfl
  | event name =>
    refine (fabricView_due _ _).trans <| (fabricView_modReq _ _ fun _ => by rfl).trans ?_
    split
    · rfl
    · simp
  | read acquire => rfl
  | take key => rfl
  | mreq => rfl

/-! ### What follows a write at a home: beacons, the waves it frees, the reads it lets go (R46, R49, R316) -/

/-- What a change of a wave and a new happening keep, the freeing of the waves that wait for a write keeps. -/
theorem unfence_same {γ : Type} (π : State → γ) (h : ∀ (s : State) (u : Nat) (f : Wave → Wave) (e : Instr), π ((s.modWave u f).due e) = π s)
    (s : State) (ids : List Nat) : π (s.unfence ids) = π s := by
  unfold State.unfence
  exact foldl_same π (fun s w => foldl_same π (fun s a => h s _ _ _) _ s) _ s

@[simp] theorem fabricView_unfence (s : State) (ids : List Nat) : fabricView (s.unfence ids) = fabricView s :=
  unfence_same fabricView (fun s u f _ => fabricView_congr (modWave_octs s u f) (modWave_reqs s u f)) s ids
@[simp] theorem unfence_mem (s : State) (ids : List Nat) : (s.unfence ids).mem = s.mem := unfence_same State.mem (fun s u f _ => modWave_mem s u f) s ids
@[simp] theorem unfence_reqs (s : State) (ids : List Nat) : (s.unfence ids).reqs = s.reqs := unfence_same State.reqs (fun s u f _ => modWave_reqs s u f) s ids

/-- What a packet and the note of what a beacon shows keep, a beacon keeps. -/
theorem beacon_same {γ : Type} (π : State → γ) (hp : ∀ (s : State) (a b : Oct) (w : Wire) (e : Instr), π (s.post a b w e) = π s)
    (ho : ∀ (s : State) (h : Oct) (v : CVec), π (s.modOct h fun x => { x with sentA := v }) = π s) (s : State) (h : Oct) :
    π (s.beacon h) = π s := by
  unfold State.beacon
  split
  · rfl
  · exact (foldl_same π (fun s o => hp s _ _ _ _) _ _).trans (ho s h _)

@[simp] theorem fabricView_beacon (s : State) (h : Oct) : fabricView (s.beacon h) = fabricView s :=
  beacon_same fabricView fabricView_post (fun s h v => fabricView_modOct s h fun _ => by rfl) s h
@[simp] theorem beacon_mem (s : State) (h : Oct) : (s.beacon h).mem = s.mem := beacon_same State.mem (fun _ _ _ _ _ => rfl) (fun _ _ _ => rfl) s h
@[simp] theorem beacon_reqs (s : State) (h : Oct) : (s.beacon h).reqs = s.reqs := beacon_same State.reqs (fun _ _ _ _ _ => rfl) (fun _ _ _ => rfl) s h

@[simp] theorem fabricView_serveRead (s : State) (id : Nat) : fabricView (s.serveRead id) = fabricView s := by
  unfold State.serveRead
  split
  · rfl
  · split
    · exact (fabricView_post _ _ _ _ _).trans (fabricView_modReq _ _ fun _ => by rfl)
    · exact (fabricView_due _ _).trans (fabricView_modReq _ _ fun _ => by rfl)

@[simp] theorem serveRead_mem (s : State) (id : Nat) : (s.serveRead id).mem = s.mem := by
  unfold State.serveRead
  split
  · rfl
  · split <;> rfl

/-- Serving the held reads takes those that it serves off the home's list, and leaves every other count and buffer of the fabric as it was. -/
theorem fabricView_serveHeld (s : State) (h : Oct) :
    ∃ p, fabricView (s.serveHeld h) = fabricView (s.modOct h fun x => { x with held := x.held.filter p }) :=
  ⟨_, foldl_same fabricView fabricView_serveRead _ _⟩

@[simp] theorem serveHeld_mem (s : State) (h : Oct) : (s.serveHeld h).mem = s.mem := foldl_same State.mem serveRead_mem _ _

/-! ### Finding a request after a change -/

theorem req?_id {s : State} {id : Nat} {r : Req} (h : s.req? id = some r) : r.id = id := by
  simpa using List.find?_some h

/-- A request, found after a change of the requests that keeps their names. -/
theorem req?_mapReqs {s t : State} {f : Req → Req} (hr : t.reqs = s.reqs.map f) (hf : ∀ r, (f r).id = r.id) (id : Nat) :
    t.req? id = (s.req? id).map f := by
  have hid : (fun r : Req => r.id == id) ∘ f = fun r => r.id == id := by
    funext r
    rw [Function.comp_apply, hf]
  rw [State.req?, hr, List.find?_map, hid, State.req?]

theorem req?_modReq (s : State) (id n : Nat) {f : Req → Req} (hf : ∀ r, (f r).id = r.id) :
    (s.modReq n f).req? id = (s.req? id).map fun r => if r.id = n then f r else r :=
  req?_mapReqs rfl (fun r => by
    split
    · exact hf r
    · rfl) id

theorem req?_modReq_same {s : State} {id : Nat} {r : Req} {f : Req → Req} (h : s.req? id = some r) (hf : ∀ r, (f r).id = r.id) :
    (s.modReq id f).req? id = some (f r) := by
  rw [req?_modReq s id id hf, h, Option.map_some, if_pos (req?_id h)]

theorem req?_modReq_other (s : State) {id n : Nat} {f : Req → Req} (hn : id ≠ n) (hf : ∀ r, (f r).id = r.id) :
    (s.modReq n f).req? id = s.req? id := by
  rw [req?_modReq s id n hf]
  cases h : s.req? id with
  | none => rfl
  | some r => rw [Option.map_some, if_neg (req?_id h ▸ hn)]

theorem serveRead_req (s : State) {id n : Nat} (hn : id ≠ n) : (s.serveRead n).req? id = s.req? id := by
  unfold State.serveRead
  split
  · rfl
  · next r hr =>
    split
    · exact req?_modReq_other s (req?_id hr ▸ hn) fun _ => by rfl
    · exact req?_modReq_other s (req?_id hr ▸ hn) fun _ => by rfl

/-- Serving the held reads of a home changes no request but those that are held there. -/
theorem serveHeld_req (s : State) {h : Oct} {id : Nat} (hn : id ∉ (s.octs[h]).held) : (s.serveHeld h).req? id = s.req? id := by
  have hfold : ∀ (l : List Nat) (u : State), id ∉ l → (l.foldl (fun u n => u.serveRead n) u).req? id = u.req? id := by
    intro l
    induction l with
    | nil => exact fun _ _ => rfl
    | cons n rest ih =>
      intro u hu
      rw [List.mem_cons, not_or] at hu
      exact (ih _ hu.2).trans (serveRead_req u hu.1)
  exact hfold _ _ fun hm => hn (List.mem_of_mem_filter hm)

/-! ### Applying a write (R41) -/

/-- A home after it has counted a write, and merged the matrix of a release. -/
def counted (s : State) (r : Req) : State :=
  s.modOct r.home fun x => { x with a := x.a.set r.site r.seqNo, h := match r.mat with
    | some m => mergeMat x.h m
    | none => x.h }

/-- The home after a write's bytes and count, with the beacon that its count may call for, before it serves reads. -/
def performed (s : State) (r : Req) : State :=
  let u := ((counted s r).perform r).unfence [r.id]
  if u.octs[r.home].mustBeacon then u.beacon r.home else u

theorem applyWrite_eq (s : State) (r : Req) : s.applyWrite r = (performed s r).serveHeld r.home := rfl

theorem performed_same {γ : Type} (π : State → γ) (hb : ∀ (s : State) (h : Oct), π (s.beacon h) = π s)
    (hf : ∀ (s : State) (ids : List Nat), π (s.unfence ids) = π s) (s : State) (r : Req) : π (performed s r) = π ((counted s r).perform r) := by
  unfold performed
  dsimp only
  split
  · rw [hb, hf]
  · rw [hf]

theorem fabricView_performed (s : State) (r : Req) : fabricView (performed s r) = fabricView (counted s r) :=
  (performed_same fabricView fabricView_beacon fabricView_unfence s r).trans (fabricView_perform _ r)

theorem stampView_applyWrite (s : State) (r : Req) : stampView (s.applyWrite r) = stampView s := by
  obtain ⟨p, hp⟩ := fabricView_serveHeld (performed s r) r.home
  rw [applyWrite_eq, stampView_of_fabricView hp]
  refine (stampView_modOct _ _ fun _ => by exact ⟨rfl, rfl⟩).trans ?_
  rw [stampView_of_fabricView (fabricView_performed s r)]
  exact stampView_modOct s _ fun _ => by exact ⟨rfl, rfl⟩

/-- Applying a write sets its path's count at the home, and leaves that home's early buffer as it was. -/
theorem applyWrite_home (s : State) (r : Req) :
    ((s.applyWrite r).octs[r.home]).a = (s.octs[r.home]).a.set r.site r.seqNo ∧ ((s.applyWrite r).octs[r.home]).early = (s.octs[r.home]).early := by
  obtain ⟨p, hp⟩ := fabricView_serveHeld (performed s r) r.home
  have h1 := home_of_bare (fabricView_oct hp r.home)
  have h2 := home_of_bare (fabricView_oct (fabricView_performed s r) r.home)
  rw [modOct_octs, vector_set, if_pos rfl] at h1
  rw [counted, modOct_octs, vector_set, if_pos rfl] at h2
  rw [applyWrite_eq]
  exact ⟨h1.a.trans h2.a, h1.early.trans h2.early⟩

/-- A store of good sectors, performed: its bytes are in memory, and its request stands applied. -/
theorem perform_write {s : State} {r : Req} (hk : r.kind = .write) (hb : r.bad = 0) :
    ∃ u, s.perform r = (u.modReq r.id fun q => { q with stage := .applied }).due (.homeAcknowledgement r.id) ∧
      fabricView u = fabricView s ∧ u.mem = s.mem.store r.line r.mask r.data := by
  refine ⟨((if r.quiet then s else s.staleFills r).noteWrite r.home r.line r.ctx r.policy r.key).homeStore r.line r.mask r.data, ?_, ?_, ?_⟩
  · unfold State.perform
    rw [hk]
    dsimp only
    rw [if_pos hb]
  · rw [fabricView_homeStore, fabricView_noteWrite]
    split
    · rfl
    · exact fabricView_staleFills s r
  · rw [homeStore_mem, noteWrite_mem]
    split <;> rfl

theorem req?_of_fabricView {s t : State} (h : fabricView t = fabricView s) {id : Nat} {r : Req} (hr : s.req? id = some r) :
    ∃ q, t.req? id = some q ∧ stamp q = stamp r := by
  have := stampView_req (stampView_of_fabricView h) id
  rw [hr, Option.map_some, Option.map_eq_some_iff] at this
  exact this

/-- A store of good sectors, applied at a home that does not hold it as a read. -/
theorem applyWrite_write {s : State} {r : Req} {id : Nat} (hr : s.req? id = some r) (hk : r.kind = .write) (hb : r.bad = 0)
    (hn : id ∉ (s.octs[r.home]).held) :
    (s.applyWrite r).mem = s.mem.store r.line r.mask r.data ∧ ∃ q, (s.applyWrite r).req? id = some q ∧ q.stage = .applied := by
  obtain ⟨u, hu, hv, hm⟩ := perform_write (s := counted s r) hk hb
  have hid := req?_id hr
  have hheld : ((performed s r).octs[r.home]).held = (s.octs[r.home]).held := by
    have h := home_of_bare (fabricView_oct (fabricView_performed s r) r.home)
    rw [counted, modOct_octs, vector_set, if_pos rfl] at h
    exact h.held
  obtain ⟨q, hq, -⟩ := req?_of_fabricView hv (id := id) hr
  refine ⟨?_, { q with stage := .applied }, ?_, rfl⟩
  · rw [applyWrite_eq, serveHeld_mem, performed_same State.mem beacon_mem unfence_mem, hu]
    exact hm
  · have hreqs := performed_same State.reqs beacon_reqs unfence_reqs s r
    rw [applyWrite_eq, serveHeld_req _ (hheld ▸ hn), State.req?, hreqs, hu, ← State.req?, hid]
    exact req?_modReq_same hq fun _ => by rfl

/-! ### A write's arrival at its home (R42) -/

theorem stampView_snoopFor (s : State) (r : Req) : stampView (s.snoopFor r) = stampView s := by
  unfold State.snoopFor
  split
  · exact stampView_of_fabricView (fabricView_modReq s r.id (f := fun r => { r with snooped := true }) fun _ => rfl)
  · rfl

theorem stampView_rescan (h : Oct) (n : Nat) (s : State) : stampView (State.rescan h n s) = stampView s := by
  induction n generalizing s with
  | zero => rfl
  | succ n ih =>
    unfold State.rescan
    dsimp only
    have hs := foldl_same stampView stampView_snoopFor ((s.octs[h]).early.filterMap s.req?) s
    split
    · exact hs
    · rw [ih, stampView_applyWrite]
      exact (stampView_modOct _ _ fun _ => by exact ⟨rfl, rfl⟩).trans hs

/-- A home with no write in its early buffer has none to apply. -/
theorem rescanAll_empty {s : State} {h : Oct} (he : (s.octs[h]).early = []) : s.rescanAll h = s := by
  unfold State.rescanAll
  rw [he]
  unfold State.rescan
  rw [he]
  rfl

/-- A home that no longer turns a site's writes away. -/
def welcomed (s : State) (r : Req) : State := s.modOct r.home fun x => { x with refusing := x.refusing.set r.site none }

theorem stampView_welcomed (s : State) (r : Req) : stampView (welcomed s r) = stampView s :=
  stampView_modOct s r.home fun _ => by exact ⟨rfl, rfl⟩

theorem welcomed_home (s : State) (r : Req) :
    (welcomed s r).octs[r.home] = { s.octs[r.home] with refusing := (s.octs[r.home]).refusing.set r.site none } :=
  (vector_set _ _ _ _).trans (if_pos rfl)

/-- A write's arrival changes no count of a site, no retry buffer and no stamp. -/
theorem stampView_arriveWrite (s : State) (id : Nat) : stampView (s.arriveWrite id) = stampView s := by
  unfold State.arriveWrite
  split
  · rfl
  · dsimp only
    repeat' split
    · rfl
    · rfl
    · rw [State.rescanAll, stampView_rescan, stampView_applyWrite]
      exact stampView_welcomed _ _
    · rw [stampView_snoopFor]
      refine (stampView_modOct _ _ fun _ => by exact ⟨rfl, rfl⟩).trans ?_
      exact (stampView_of_fabricView (fabricView_modReq _ _ fun _ => by rfl)).trans (stampView_welcomed _ _)
    · refine (stampView_of_fabricView (fabricView_post _ _ _ _ _)).trans ?_
      exact (stampView_modOct _ _ fun _ => by exact ⟨rfl, rfl⟩).trans (stampView_welcomed _ _)

theorem mayApply_of_inOrder {s : State} {r : Req} (hu : Unhindered s r) (ho : InOrder s r) : s.mayApply r = true := by
  have hc : s.applicable r = true := by
    unfold State.applicable
    simp only [Bool.and_eq_true, beq_iff_eq, List.all_eq_true, List.mem_finRange, forall_true_left, Bool.or_eq_true, ge12, decide_eq_true_eq]
    exact ⟨ho.1, fun k => Classical.or_iff_not_imp_left.mpr (ho.2 k)⟩
  unfold State.mayApply
  rw [hc, hu.plain]
  simpa using hu.host

/-- A store that is next in order at a home which nothing hinders is applied on its arrival. -/
theorem arriveWrite_applies {s : State} {r : Req} {id : Nat} (hr : s.req? id = some r) (hk : r.kind = .write) (hb : r.bad = 0)
    (hu : Unhindered s r) (ho : InOrder s r) (hn : id ∉ (s.octs[r.home]).held) :
    (s.arriveWrite id).mem = s.mem.store r.line r.mask r.data ∧
      ((s.arriveWrite id).octs[r.home]).a = (s.octs[r.home]).a.set r.site r.seqNo ∧ ∃ q, (s.arriveWrite id).req? id = some q ∧ q.stage = .applied := by
  have hoct := welcomed_home s r
  have huu : Unhindered (welcomed s r) r := ⟨hu.device, by rw [hoct]; exact hu.free, hu.host, hu.plain, by rw [hoct]; simp⟩
  have huo : InOrder (welcomed s r) r := by unfold InOrder; rw [hoct]; exact ho
  have hun : id ∉ ((welcomed s r).octs[r.home]).held := by rw [hoct]; exact hn
  obtain ⟨ha, he⟩ := applyWrite_home (welcomed s r) r
  obtain ⟨hm, hq⟩ := applyWrite_write (s := welcomed s r) hr hk hb hun
  have hstep : s.arriveWrite id = (welcomed s r).applyWrite r := by
    have hturn : (s.octs[r.home]).turnsAway r = false := by unfold Octant.turnsAway; rw [hu.welcome]
    have hlast := rescanAll_empty (s := (welcomed s r).applyWrite r) (h := r.home) (by rw [he, hoct]; exact hu.free)
    have hmay := mayApply_of_inOrder huu huo
    unfold welcomed at hmay
    unfold State.arriveWrite
    rw [hr]
    dsimp only
    rw [if_neg (not_not.mpr hu.device), hturn, if_neg Bool.false_ne_true, if_pos hmay]
    exact hlast
  rw [hstep]
  exact ⟨hm, by rw [ha, hoct], hq⟩

theorem stamp_eq {q r : Req} (h : stamp q = stamp r) : q.id = r.id ∧ q.vec = r.vec ∧ q.mat = r.mat :=
  have h' : (q.id, q.vec, q.mat) = (r.id, r.vec, r.mat) := h
  by simpa using h'

/-! ### Stamping (R34, R36, R38) -/

/-- A site's matrix with the count of one of its own paths raised. -/
def raised (k : CMat) (site home : Oct) : CMat := k.set site ((k[site]).set home ((k[site])[home] + 1))

theorem raised_get (k : CMat) (site home i j : Oct) : ((raised k site home)[i])[j] = (k[i])[j] + if i = site ∧ j = home then 1 else 0 := by
  have hrow : (raised k site home)[i] = if i = site then (k[site]).set home ((k[site])[home] + 1) else k[i] := vector_set _ _ _ _
  rw [hrow]
  by_cases hi : i = site
  · subst hi
    have hcol : ((k[i]).set home ((k[i])[home] + 1))[j] = if j = home then (k[i])[home] + 1 else (k[i])[j] := vector_set _ _ _ _
    rw [if_pos rfl, hcol]
    by_cases hj : j = home
    · subst hj; simp
    · simp [hj]
  · simp [hi]

theorem columnOf_get (k : CMat) (h i : Oct) : (columnOf k h)[i] = (k[i])[h] := by simp [columnOf]

/-- A stamped request: its column, and a release's matrix. -/
def stampedReq (k : CMat) (r : Req) : Req := { r with stage := .wire, vec := columnOf k r.home, mat := if r.release then some k else none }

/-- The state after a site raises its count and stamps a write; a remote atomic's copy of the line still stands there. -/
def stampedAt (s : State) (req : Nat) (r : Req) : State :=
  let u := s.modOct r.site fun o => { o with k := raised o.k r.site r.home, retry := o.retry ++ [(req, s.tick)] }
  u.modReq req (stampedReq (u.octs[r.site]).k)

/-- The state after a write is stamped, before it goes to its home. -/
def stamped (s : State) (req : Nat) (r : Req) : State := (stampedAt s req r).dropCopy r

/-- The state after a stamped write is sent: one homed at its own site stands at its home at once. -/
def sent (s : State) (req : Nat) (r : Req) : State :=
  if r.site = r.home then s.arriveWrite req
  else if r.release then s.post r.site r.home (.wrel req) (.wrel r.site r.home) else s.post r.site r.home (.wr req) (.wr r.site r.home)

theorem dropCopy_own (s : State) {r : Req} (h : r.site = r.home) : s.dropCopy r = s := if_pos (.inr h)

@[simp] theorem dropCopy_mem (s : State) (r : Req) : (s.dropCopy r).mem = s.mem := by
  unfold State.dropCopy
  split <;> rfl

theorem fabricView_dropCopy (s : State) (r : Req) : fabricView (s.dropCopy r) = fabricView s := by
  unfold State.dropCopy
  split
  · rfl
  · refine Eq.trans ?_ (fabricView_modOct s r.site (f := fun x => { x with l2 := x.l2.filter fun (l : L2Line) => l.line != r.line }) fun _ => rfl)
    exact fabricView_mapReqs rfl rfl fun q => by split <;> rfl

theorem dropCopy_stage (s : State) (r : Req) (id : Nat) : ((s.dropCopy r).req? id).map (·.stage) = (s.req? id).map (·.stage) := by
  unfold State.dropCopy
  split
  · rfl
  · rw [req?_mapReqs (s := s) rfl (fun q => by split <;> rfl), Option.map_map]
    refine congrFun (congrArg Option.map ?_) _
    funext q
    dsimp only [Function.comp_apply]
    split <;> rfl

theorem sent_away (s : State) (req : Nat) {r : Req} (h : r.site ≠ r.home) :
    sent s req r = s.post r.site r.home (if r.release then .wrel req else .wr req)
      (if r.release then .wrel r.site r.home else .wr r.site r.home) := by
  unfold sent
  rw [if_neg h]
  split <;> rfl

theorem stampView_sent (s : State) (req : Nat) (r : Req) : stampView (sent s req r) = stampView s := by
  unfold sent
  split
  · exact stampView_arriveWrite s req
  · split <;> rfl

theorem stampedAt_oct (s : State) (req : Nat) (r : Req) (o : Oct) : (stampedAt s req r).octs[o] =
    if o = r.site then { s.octs[r.site] with k := raised (s.octs[r.site]).k r.site r.home, retry := (s.octs[r.site]).retry ++ [(req, s.tick)] }
    else s.octs[o] :=
  vector_set _ _ _ _

/-- Stamping raises the site's count of the path and retains the write there. -/
theorem stamped_site (s : State) (req : Nat) (r : Req) :
    ((stamped s req r).octs[r.site]).k = raised (s.octs[r.site]).k r.site r.home ∧
      ((stamped s req r).octs[r.site]).retry = (s.octs[r.site]).retry ++ [(req, s.tick)] := by
  have h := stampView_oct (stampView_of_fabricView (fabricView_dropCopy (stampedAt s req r) r)) r.site
  rw [stampedAt_oct, if_pos rfl] at h
  exact h

/-- Stamping leaves every octant, as a home, as it was. -/
theorem stamped_home (s : State) (req : Nat) (r : Req) (o : Oct) : SameHome (stamped s req r).octs[o] s.octs[o] := by
  have h := home_of_bare (fabricView_oct (fabricView_dropCopy (stampedAt s req r) r) o)
  rw [stampedAt_oct] at h
  split at h
  · next ho => subst ho; exact ⟨h.a, h.early, h.held, h.refusing, h.cf⟩
  · exact h

@[simp] theorem dropCopy_hostHolds (s : State) (r : Req) : (s.dropCopy r).hostHolds = s.hostHolds := by
  unfold State.dropCopy
  split <;> rfl

theorem stamped_hostHolds (s : State) (req : Nat) (r : Req) : (stamped s req r).hostHolds = s.hostHolds := dropCopy_hostHolds _ r

theorem stamped_mem (s : State) (req : Nat) (r : Req) : (stamped s req r).mem = s.mem := dropCopy_mem _ r

theorem stampedAt_req {s : State} {req : Nat} {r : Req} (hr : s.req? req = some r) :
    (stampedAt s req r).req? req = some (stampedReq (raised (s.octs[r.site]).k r.site r.home) r) := by
  have hk : ((stampedAt s req r).octs[r.site]).k = raised (s.octs[r.site]).k r.site r.home := by rw [stampedAt_oct, if_pos rfl]
  rw [← hk]
  exact req?_modReq_same (s := s.modOct r.site _) hr fun _ => by rfl

theorem stamped_req {s : State} {req : Nat} {r : Req} (hr : s.req? req = some r) :
    ∃ q, (stamped s req r).req? req = some q ∧ q.stage = .wire ∧
      stamp q = stamp (stampedReq (raised (s.octs[r.site]).k r.site r.home) r) := by
  have hat := stampedAt_req hr
  obtain ⟨q, hq, hs⟩ := req?_of_fabricView (fabricView_dropCopy _ r) hat
  have hst := dropCopy_stage (stampedAt s req r) r req
  rw [hq, hat] at hst
  exact ⟨q, hq, Option.some.inj hst, hs⟩

theorem stamped_req_own {s : State} {req : Nat} {r : Req} (hr : s.req? req = some r) (own : r.site = r.home) :
    (stamped s req r).req? req = some (stampedReq (raised (s.octs[r.site]).k r.site r.home) r) := by
  rw [stamped, dropCopy_own _ own, stampedAt_req hr]

section Write
variable {s : State} {req : Nat} {r : Req} (hr : s.req? req = some r) (hd : r.target = .device) (hm : s.mayStamp r = true)
  (hh : (s.octs[r.home]).cf.removed = false)
include hr hd hm hh

theorem exec_stampWrite : exec (.stampWrite req) s = .next ((sent (stamped s req r) req r).due (.triggerCount r.slot)) := by
  change execStampWrite req s = _
  unfold execStampWrite
  rw [hr]
  dsimp only
  rw [if_neg (not_not.mpr hd), hm, hh]
  rfl

/-- R34, R36, R44: a stamped write raises its path's count and is retained, carries its column, a release the whole matrix, and is sent to a home elsewhere. -/
theorem stampWrite_counts : ∃ t q, exec (.stampWrite req) s = .next t ∧
    (∀ i j : Fin 8, ((t.octs[r.site]).k[i])[j] = ((s.octs[r.site]).k[i])[j] + if i = r.site ∧ j = r.home then 1 else 0) ∧
    (req, s.tick) ∈ (t.octs[r.site]).retry ∧ t.req? req = some q ∧ (∀ i : Fin 8, q.vec[i] = ((t.octs[r.site]).k[i])[r.home]) ∧
    q.mat = (if r.release then some (t.octs[r.site]).k else none) ∧
    (r.site ≠ r.home → t.mem = s.mem ∧ q.stage = .wire ∧
      { src := r.site, dst := r.home, epoch := (s.octs[r.site]).cf.epoch, wire := (if r.release then .wrel req else .wr req) } ∈ t.flights) := by
  obtain ⟨p, hp, hstage, hstamp⟩ := stamped_req hr
  have hview := stampView_sent (stamped s req r) req r
  obtain ⟨hk, hretry⟩ := stampView_oct hview r.site
  obtain ⟨hk', hretry'⟩ := stamped_site s req r
  rw [hk'] at hk
  rw [hretry'] at hretry
  have hq := stampView_req hview req
  rw [hp, Option.map_some, Option.map_eq_some_iff] at hq
  obtain ⟨q, hq, hqs⟩ := hq
  obtain ⟨-, hvec, hmat⟩ := stamp_eq (hqs.trans hstamp)
  refine ⟨_, q, exec_stampWrite hr hd hm hh, fun i j => ?_, ?_, hq, fun i => ?_, ?_, fun hne => ?_⟩
  · rw [due_octs, hk, raised_get]
  · rw [due_octs, hretry]
    exact List.mem_append_right _ (List.mem_singleton.mpr rfl)
  · rw [hvec, due_octs, hk]
    exact columnOf_get _ _ _
  · rw [hmat, due_octs, hk]
    rfl
  · rw [sent_away _ _ hne] at hq ⊢
    obtain rfl : p = q := Option.some.inj (hp.symm.trans hq)
    refine ⟨stamped_mem s req r, hstage, List.mem_append_right _ (List.mem_singleton.mpr ?_)⟩
    rw [(stamped_home s req r r.site).cf]

/-- R38, R41: a store homed at its own site that is next in order is applied at once, when the home does not hold its id as a read. -/
theorem stampWrite_own_home_applies (own : r.site = r.home) (hk : r.kind = .write) (hb : r.bad = 0) (hwf : s.mem.wf = true)
    (ht : r.ticketed = false) (hl : r.line ∉ s.hostHolds) (he : (s.octs[r.home]).early = [])
    (hf : (s.octs[r.home]).refusing[r.site] = none) (hn : ((s.octs[r.site]).k[r.site])[r.home] = (s.octs[r.home]).a[r.site])
    (hc : ∀ i : Fin 8, i ≠ r.site → notBefore (s.octs[r.home]).a[i] ((s.octs[r.site]).k[i])[r.home])
    (held : req ∉ (s.octs[r.home]).held) :
    ∃ t q, exec (.stampWrite req) s = .next t ∧ t.req? req = some q ∧ q.stage = .applied ∧
      (t.octs[r.home]).a[r.site] = (s.octs[r.home]).a[r.site] + 1 ∧ ∀ key, t.mem.byte key = storedOver s r.line r.mask r.data key := by
  let p := stampedReq (raised (s.octs[r.site]).k r.site r.home) r
  have hcol (i : Oct) : p.vec[i] = ((s.octs[r.site]).k[i])[r.home] + if i = r.site then 1 else 0 := by
    refine (columnOf_get _ r.home i).trans ((raised_get _ _ _ _ _).trans ?_)
    simp
  have hhome := stamped_home s req r r.home
  have hu : Unhindered (stamped s req r) p :=
    { device := rfl, free := hhome.early.trans he, host := by rw [stamped_hostHolds]; exact hl, plain := ht
      welcome := (congrArg (·[r.site]) hhome.refusing).trans hf }
  have hnext : p.vec[r.site] = (s.octs[r.home]).a[r.site] + 1 := by rw [hcol, if_pos rfl, hn]
  have ho : InOrder (stamped s req r) p := by
    have hA : ∀ i : Oct, ((stamped s req r).octs[p.home]).a[i] = (s.octs[r.home]).a[i] := fun i => congrArg (·[i]) hhome.a
    refine ⟨hnext.trans (congrArg (· + 1) (hA _).symm), fun i hi => ?_⟩
    rw [hA, hcol, if_neg (show i ≠ r.site from hi), add_zero]
    exact hc i hi
  obtain ⟨hmem, ha, q, hq, hs⟩ := arriveWrite_applies (stamped_req_own hr own) hk hb hu ho fun h => held (hhome.held ▸ h)
  refine ⟨_, q, exec_stampWrite hr hd hm hh, ?_⟩
  rw [sent, if_pos own]
  refine ⟨hq, hs, ?_, fun key => ?_⟩
  · refine (congrArg (·[r.site]) ha).trans (Eq.trans ?_ hnext)
    exact (vector_set _ _ _ _).trans (if_pos rfl)
  · rw [due_mem, hmem, stamped_mem, byte_store hwf]
    rfl

end Write

/-- What a change of a wave and a new happening keep, a refinement keeps. -/
theorem refineTo_same {γ : Type} (π : State → γ) (h : ∀ (s : State) (u : Nat) (f : Wave → Wave) (e : Instr), π ((s.modWave u f).due e) = π s)
    (s : State) (r : Req) (tick : Nat) : π (s.refineTo r tick) = π s := by
  unfold State.refineTo
  exact foldl_same π (fun s p => h s _ _ _) _ s

/-- The state after a read is stamped with its column. -/
def readStamped (s : State) (req : Nat) (r : Req) : State :=
  s.modReq req fun q => { q with stage := .wire, vec := columnOf (s.octs[r.site]).k r.home }

/-- A read whose column its site knows to be covered refines its load's bound (R198). -/
def readRefined (s : State) (r : Req) : State :=
  if s.coveredAt r.site r.home && !(r.kind == .mreq) then s.refineTo r (r.issued + capHbmOf r.g) else s

/-- The packet of a stamped read, and its arrival. -/
def readWire (req : Nat) (r : Req) : Wire := if r.kind = .mreq then .mreq req else if r.acquire then .racq req else .rd req
def readArrival (r : Req) : Instr :=
  if r.kind = .mreq then .mreq r.site r.home else if r.acquire then .racq r.site r.home else .rd r.site r.home

theorem readRefined_same {γ : Type} (π : State → γ) (h : ∀ (s : State) (u : Nat) (f : Wave → Wave) (e : Instr), π ((s.modWave u f).due e) = π s)
    (s : State) (r : Req) : π (readRefined s r) = π s := by
  unfold readRefined
  split
  · exact refineTo_same π h s r _
  · rfl

section Read
variable {s : State} {req : Nat} {r : Req} (hr : s.req? req = some r) (hw : r.kind.isWrite = false)
  (hst : r.stage = .stamp ∨ r.kind = .mreq ∧ r.stage = .l2) (hgo : (s.octs[r.site]).stopped = false) (hh : (s.octs[r.home]).cf.removed = false)
  (hb : s.readStampBehind r = false)
include hr hw hst hgo hh hb

theorem exec_stampRead : exec (.stampRead req) s =
    .next ((readRefined (readStamped s req r) r).post r.site r.home (readWire req r) (readArrival r)) := by
  have hready : (r.kind.isWrite || !(r.stage == .stamp || (r.kind == .mreq && r.stage == .l2)) || (s.octs[r.site]).stopped || s.readStampBehind r) = false := by
    rw [hw, hgo, hb]
    rcases hst with hst | ⟨hk, hst⟩
    · simp [hst]
    · simp [hk, hst]
  change execStampRead req s = _
  unfold execStampRead
  rw [hr]
  dsimp only
  rw [hready, if_neg Bool.false_ne_true, hh, if_neg Bool.false_ne_true]
  unfold readWire readArrival
  by_cases hk : r.kind = .mreq
  · rw [if_pos hk, if_pos hk, if_pos (beq_iff_eq.mpr hk)]
    rfl
  · rw [if_neg hk, if_neg hk, if_neg (mt beq_iff_eq.mp hk)]
    split <;> rfl

/-- R34, R46: a stamped read carries its column, is sent to its home, and raises no count. -/
theorem stampRead_raises_nothing : ∃ t q, exec (.stampRead req) s = .next t ∧ t.mem = s.mem ∧ t.octs = s.octs ∧ t.req? req = some q ∧ q.stage = .wire ∧
    (∀ i : Fin 8, q.vec[i] = ((s.octs[r.site]).k[i])[r.home]) ∧
    { src := r.site, dst := r.home, epoch := (s.octs[r.site]).cf.epoch,
      wire := (if r.kind = .mreq then .mreq req else if r.acquire then .racq req else .rd req) } ∈ t.flights := by
  have hmem := readRefined_same State.mem (fun s u f _ => modWave_mem s u f) (readStamped s req r) r
  have hocts := readRefined_same State.octs (fun s u f _ => modWave_octs s u f) (readStamped s req r) r
  have hreqs := readRefined_same State.reqs (fun s u f _ => modWave_reqs s u f) (readStamped s req r) r
  have hq : (readStamped s req r).req? req = some { r with stage := .wire, vec := columnOf (s.octs[r.site]).k r.home } :=
    req?_modReq_same hr fun _ => by rfl
  refine ⟨_, { r with stage := .wire, vec := columnOf (s.octs[r.site]).k r.home }, exec_stampRead hr hw hst hgo hh hb, hmem, hocts, ?_, rfl,
    fun i => columnOf_get _ _ i, List.mem_append_right _ (List.mem_singleton.mpr ?_)⟩
  · exact (congrArg (List.find? fun q : Req => q.id == req) hreqs).trans hq
  · rw [hocts]
    rfl

end Read

/-! ### The obligation -/

/-- The stage of a request in the next state, where there is one. -/
def stageAfter (o : Out1) (req : Nat) : Option Stage := match o with
  | .next t => (t.req? req).map (·.stage)
  | .fault _ => none
  | .refused _ => none

/-- A store of a whole line by site 0 to its own home, at the stamper. -/
def ownWrite : Req :=
  { id := 7, kind := .write, wave := 1, slot := 0, core := 0, site := 0, home := 0, ctx := 0, part := 0, line := 0x38, seq := 1
    mask := BitVec.allOnes 128, stage := .stamp }

/-- The reset state with that store, and with requests held as reads at home 0. -/
def ownWriteState (held : List Nat) : State :=
  { State.reset with reqs := [ownWrite], octs := State.reset.octs.set 0 { Octant.reset 0 with held := held } }

/-- While nothing is held at its home, the store is applied. -/
theorem ownWrite_applied : stageAfter (exec (.stampWrite 7) (ownWriteState [])) 7 = some .applied := by
  obtain ⟨t, q, ht, hq, hs, -⟩ := stampWrite_own_home_applies (s := ownWriteState []) (req := 7) (r := ownWrite) rfl rfl (by decide +kernel) (by decide +kernel)
    rfl rfl rfl (by decide) rfl (by decide) (by decide +kernel) (by decide +kernel) (by decide +kernel) (by unfold notBefore; decide +kernel) (by decide +kernel)
  rw [ht, stageAfter, hq, Option.map_some, hs]

/-- When its own id is among the reads held there, the home serves it as one of them, in the same step in which it is applied. -/
theorem ownWrite_served_as_read : stageAfter (exec (.stampWrite 7) (ownWriteState [7])) 7 = some .l3 := by decide +kernel

/-- Refutes O36. No hypothesis of the clause on a site's own home keeps the write's id off the list of reads that the home holds (R46), though no happening
puts a write there. In such a state (`ownWriteState [7]`) the write is applied, its column is then met, and the home serves its id as a held read: its
stage ends as `.l3`, not `.applied`. That is all that fails: `stampWrite_counts`, `stampRead_raises_nothing` and, for a write not held as a read, `stampWrite_own_home_applies` prove the rest. -/
theorem not_stampingCountsWritesAndNotReads : ¬ Obligations.StampingCountsWritesAndNotReads := by
  unfold Obligations.StampingCountsWritesAndNotReads
  rintro ⟨hwrites, -⟩
  obtain ⟨t, q, ht, -, -, hq, -, -, -, hown⟩ := hwrites 7 (ownWriteState [7]) ownWrite rfl rfl (by decide +kernel) (by decide +kernel)
  obtain ⟨hstage, -, -⟩ := hown rfl rfl rfl (by decide) rfl (by decide) (by decide +kernel) (by decide +kernel) (by decide +kernel)
    (by unfold notBefore; decide +kernel)
  have hserved := ownWrite_served_as_read
  rw [ht, stageAfter, hq, Option.map_some, hstage] at hserved
  exact absurd hserved (by decide)

end Fabric
end Sys2Proof
end

section
/-! PROOFS. Where the lanes of a wave stand after a move of its entry, what a wave is when its last entry has ended, and O17. -/

namespace Sys2Proof
namespace Returning
open Sys2Proof.Machine Sys2Proof.Laws

/-! ### Where a lane stands (R161)

A lane stands at a PC when an entry at that PC has it. Merging keeps this relation for every frontier; the first entry that has the lane, which
`Wave.standsAt` names, is at the PC the relation gives as soon as there is only one. -/

/-- Where the first entry of a frontier that has a lane stands. -/
def placeOf (l : List Entry) (L : Lane) : Option VA := (l.find? fun e => e.mask.getLsbD L.val).map (·.pc)

/-- Some entry of a frontier has the lane, and is at the PC. -/
def Stands (l : List Entry) (L : Lane) (p : VA) : Prop := ∃ e ∈ l, e.pc = p ∧ e.mask.getLsbD L.val = true

theorem standsAt_eq_placeOf (w : Wave) (L : Lane) : w.standsAt L = placeOf w.front L := rfl

theorem stands_cons (e : Entry) (l : List Entry) (L : Lane) (p : VA) :
    Stands (e :: l) L p ↔ (e.pc = p ∧ e.mask.getLsbD L.val = true) ∨ Stands l L p := List.exists_mem_cons_iff ..

theorem stands_of_placeOf {l : List Entry} {L : Lane} {p : VA} (h : placeOf l L = some p) : Stands l L p := by
  obtain ⟨e, he, hp⟩ := Option.map_eq_some_iff.mp h
  exact ⟨e, List.mem_of_find?_eq_some he, hp, List.find?_some (p := fun e : Entry => e.mask.getLsbD L.val) he⟩

theorem placeOf_eq_none_iff {l : List Entry} {L : Lane} : placeOf l L = none ↔ ∀ p, ¬ Stands l L p := by
  simp only [placeOf, Option.map_eq_none_iff, List.find?_eq_none, Stands]
  exact ⟨fun h p ⟨e, he, _, hL⟩ => h e he hL, fun h e he hL => h e.pc ⟨e, he, rfl, hL⟩⟩

/-- Two frontiers that have the lane at the same PCs, and the second at one PC at most, name the same place for it. -/
theorem placeOf_congr {l l' : List Entry} {L : Lane} (h : ∀ p, Stands l' L p ↔ Stands l L p)
    (hone : ∀ p q, Stands l L p → Stands l L q → p = q) : placeOf l' L = placeOf l L := by
  cases hq : placeOf l L with
  | none => exact placeOf_eq_none_iff.mpr fun p hp => placeOf_eq_none_iff.mp hq p ((h p).mp hp)
  | some q =>
    have hl := stands_of_placeOf hq
    cases hp : placeOf l' L with
    | none => exact absurd ((h q).mpr hl) (placeOf_eq_none_iff.mp hp q)
    | some p => rw [hone p q ((h p).mp (stands_of_placeOf hp)) hl]

/-- A change of entries that keeps their PCs and masks leaves every lane where it stands. -/
theorem placeOf_map {f : Entry → Entry} (hpc : ∀ e, (f e).pc = e.pc) (hmask : ∀ e, (f e).mask = e.mask) (l : List Entry) (L : Lane) :
    placeOf (l.map f) L = placeOf l L := by
  simp only [placeOf, List.find?_map, Option.map_map, Function.comp_def, hpc, hmask]

/-! ### Merging entries -/

theorem mergeEntries_cons_alone {e : Entry} {rest : List Entry} (h : (mergeEntries rest).find? (fun f => f.pc == e.pc) = none) :
    mergeEntries (e :: rest) = e :: mergeEntries rest := by
  rw [mergeEntries]; simp only [h]

theorem mergeEntries_cons_joins {e f : Entry} {rest : List Entry} (h : (mergeEntries rest).find? (fun f => f.pc == e.pc) = some f) :
    ∃ e', mergeEntries (e :: rest) = e' :: (mergeEntries rest).filter (fun f => f.pc != e.pc) ∧ e'.pc = e.pc ∧ e'.mask = e.mask ||| f.mask := by
  rw [mergeEntries]; simp only [h]
  exact ⟨_, rfl, rfl, rfl⟩

/-- After a merge no two entries stand at one PC. -/
theorem mergeEntries_pcs_nodup (l : List Entry) : ((mergeEntries l).map (·.pc)).Nodup := by
  induction l with
  | nil => exact List.nodup_nil
  | cons e rest ih =>
    cases hfind : (mergeEntries rest).find? fun f => f.pc == e.pc with
    | none =>
      rw [mergeEntries_cons_alone hfind, List.map_cons, List.nodup_cons]
      refine ⟨fun hmem => ?_, ih⟩
      obtain ⟨f, hf, hpc⟩ := List.mem_map.mp hmem
      exact List.find?_eq_none.mp hfind f hf (beq_iff_eq.mpr hpc)
    | some f =>
      obtain ⟨e', heq, hpc, -⟩ := mergeEntries_cons_joins hfind
      rw [heq, List.map_cons, hpc, List.nodup_cons]
      refine ⟨fun hmem => ?_, ih.sublist (List.filter_sublist.map _)⟩
      obtain ⟨g, hg, hgpc⟩ := List.mem_map.mp hmem
      exact bne_iff_ne.mp (List.mem_filter.mp hg).2 hgpc

/-- Merging keeps each lane at the PCs at which it stands. -/
theorem stands_mergeEntries (l : List Entry) (L : Lane) (p : VA) : Stands (mergeEntries l) L p ↔ Stands l L p := by
  induction l with
  | nil => rfl
  | cons e rest ih =>
    rw [stands_cons, ← ih]
    cases hfind : (mergeEntries rest).find? fun f => f.pc == e.pc with
    | none => rw [mergeEntries_cons_alone hfind, stands_cons]
    | some f =>
      obtain ⟨e', heq, hpc', hmask'⟩ := mergeEntries_cons_joins hfind
      have hmem : f ∈ mergeEntries rest := List.mem_of_find?_eq_some hfind
      have hpc : f.pc = e.pc := beq_iff_eq.mp (List.find?_some (p := fun f : Entry => f.pc == e.pc) hfind)
      rw [heq, stands_cons, hpc', hmask', BitVec.getLsbD_or, Bool.or_eq_true]
      constructor
      · rintro (⟨hp, hL | hL⟩ | ⟨g, hg, hgp⟩)
        · exact .inl ⟨hp, hL⟩
        · exact .inr ⟨f, hmem, hpc.trans hp, hL⟩
        · exact .inr ⟨g, List.mem_of_mem_filter hg, hgp⟩
      · rintro (⟨hp, hL⟩ | ⟨g, hg, hp, hL⟩)
        · exact .inl ⟨hp, .inl hL⟩
        · by_cases hgpc : g.pc = e.pc
          · obtain rfl := List.inj_on_of_nodup_map (mergeEntries_pcs_nodup rest) hg hmem (hgpc.trans hpc.symm)
            exact .inl ⟨hpc.symm.trans hp, .inr hL⟩
          · exact .inr ⟨g, List.mem_filter.mpr ⟨hg, bne_iff_ne.mpr hgpc⟩, hp, hL⟩

/-! ### Moving the issuing entry -/

section Front
variable {s : State} (hf : Frontier s)
include hf

/-- Two entries of the frontier that share a lane are one. -/
theorem entry_unique {e f : Entry} (he : e ∈ s.w.front) (hmem : f ∈ s.w.front) {L : Lane} (heL : e.mask.getLsbD L.val = true)
    (hfL : f.mask.getLsbD L.val = true) : e = f := by
  by_contra hne
  have hsymm : Std.Symm fun e f : Entry => e.mask &&& f.mask = 0 := ⟨fun e f h => (BitVec.and_comm f.mask e.mask).trans h⟩
  have hL := congrArg (·.getLsbD L.val) (hf.apart.forall he hmem hne)
  rw [BitVec.getLsbD_and, heL, hfL] at hL
  exact absurd hL (by simp)

/-- The entry of a lane of Active has Active as its mask. -/
theorem mask_eq_active {e : Entry} (he : e ∈ s.w.front) {L : Lane} (heL : e.mask.getLsbD L.val = true) (hL : s.cur.active.getLsbD L.val = true) :
    e.mask = s.cur.active := by
  obtain ⟨m, hm, hmask⟩ := hf.mine
  rw [entry_unique hf he hm heL (hmask ▸ hL), hmask]

theorem stands_unique {L : Lane} {p q : VA} : Stands s.w.front L p → Stands s.w.front L q → p = q := by
  rintro ⟨e, he, rfl, heL⟩ ⟨f, hmem, rfl, hfL⟩
  rw [entry_unique hf he hmem heL hfL]

/-- After a move of the issuing entry a lane of Active stands at the PC alone. -/
theorem stands_moveEntry_active (pc : VA) {L : Lane} (hL : s.cur.active.getLsbD L.val = true) (p : VA) :
    Stands (moveEntry s.w.front s.cur.active pc) L p ↔ p = pc := by
  rw [moveEntry, stands_mergeEntries]
  constructor
  · rintro ⟨e, he, rfl, heL⟩
    obtain ⟨e₀, he₀, rfl⟩ := List.mem_map.mp he
    have hmask : e₀.mask = s.cur.active := mask_eq_active hf he₀ (by split at heL <;> exact heL) hL
    rw [if_pos hmask]
  · rintro rfl
    obtain ⟨e, he, hmask⟩ := hf.mine
    exact ⟨_, List.mem_map_of_mem he, by rw [if_pos hmask], by rw [if_pos hmask, hmask, hL]⟩

omit hf in
/-- A move of the issuing entry leaves a lane outside Active where it stands. -/
theorem stands_moveEntry_other (pc : VA) {L : Lane} (hL : s.cur.active.getLsbD L.val = false) (p : VA) :
    Stands (moveEntry s.w.front s.cur.active pc) L p ↔ Stands s.w.front L p := by
  have hne {e : Entry} (heL : e.mask.getLsbD L.val = true) : e.mask ≠ s.cur.active := by
    rintro h
    rw [h, hL] at heL
    exact Bool.false_ne_true heL
  rw [moveEntry, stands_mergeEntries]
  constructor
  · rintro ⟨e, he, rfl, heL⟩
    obtain ⟨e₀, he₀, rfl⟩ := List.mem_map.mp he
    have hne₀ := hne (e := e₀) (by split at heL <;> exact heL)
    exact ⟨e₀, he₀, by rw [if_neg hne₀], by rwa [if_neg hne₀] at heL⟩
  · rintro ⟨e, he, rfl, heL⟩
    exact ⟨_, List.mem_map_of_mem he, by rw [if_neg (hne heL)], by rwa [if_neg (hne heL)]⟩

/-- R161: a move of the issuing entry takes the lanes of Active to the PC and leaves every other lane where it stands. -/
theorem placeOf_moveEntry (pc : VA) (L : Lane) :
    placeOf (moveEntry s.w.front s.cur.active pc) L = if s.cur.active.getLsbD L.val then some pc else s.w.standsAt L := by
  split
  · next hL =>
    have hat := stands_moveEntry_active hf pc hL
    cases hp : placeOf (moveEntry s.w.front s.cur.active pc) L with
    | none => exact absurd ((hat pc).mpr rfl) (placeOf_eq_none_iff.mp hp pc)
    | some p => rw [(hat p).mp (stands_of_placeOf hp)]
  · next hL =>
    exact placeOf_congr (stands_moveEntry_other pc (Bool.not_eq_true _ ▸ hL)) fun p q => stands_unique hf

/-- R384: once the entry with the mask Active is gone, no lane of Active stands anywhere. -/
theorem placeOf_filter_active {L : Lane} (hL : s.cur.active.getLsbD L.val = true) :
    placeOf (s.w.front.filter fun e => e.mask != s.cur.active) L = none := by
  refine placeOf_eq_none_iff.mpr fun p ⟨e, he, _, heL⟩ => ?_
  obtain ⟨hmem, hmask⟩ := List.mem_filter.mp he
  exact bne_iff_ne.mp hmask (mask_eq_active hf hmem heL hL)

end Front

/-! ### Issuing a word that names no vector or time register (R363) -/

/-- A word that names no vector and no time register, and checks none of its own, is clear. -/
theorem clear_of_no_operands {i : Instr} {ck : Checks} (s : State) (hw : (uses i).vw = []) (hr : (uses i).vr = []) (hn : (uses i).vn = [])
    (ht : (uses i).t = none) (hb : ck.bound = none) (hrun : ck.run = none) : Clear i ck s := by
  constructor
  · simp [boundFail, hw, hr, hn, ht, hb]
  · simp [poisonUse, hr, hrun]

/-- A word that steps no index register, and that nothing stops, takes its effect when what it leaves fits the wide rows the wave had: `word_runs` for
an effect that may end the wave. -/
theorem word_completes {i : Instr} {ck : Checks} {eff : State → State} {s : State} (hi : ck.illegal = false) (hc : Clear i ck s)
    (hp : ck.priv = 0) (ha : ck.accept = true) (ho : ck.overflow = 0) (hq : ck.poison = none) (hn : ck.own = none)
    (hs : stepOps i = []) (hfit : gCount (eff s).w ≤ s.w.wide) : word i ck eff s = .next (eff s) := by
  have hstep : (s.modW fun w => w.stepAll s.latch (ck.stepIn.getD s.cur.active) (stepOps i)) = s := by rw [hs]; rfl
  simp [word, hi, hc.bound, hp, ha, hstep, Nat.not_lt.mpr hfit, ho, hc.good, hq, hn]

/-! ### Returning from a trap (R336, R448) -/

/-- The low four bits of a PC when a packet is entered there (R345). -/
def enterSlot (lo : BitVec 4) : BitVec 4 := if lo &&& 0xC = 0 then 4 else lo &&& 0xC

theorem enterSlot_toNat (lo : BitVec 4) : (enterSlot lo).toNat = lo.toNat / 4 * 4 + if lo.toNat < 4 then 4 else 0 := by
  revert lo; decide

/-- R345: entering a packet changes the low four bits of the PC alone. -/
theorem enterPc_append (hi : BitVec 53) (lo : BitVec 4) : enterPc (hi ++ lo) = hi ++ enterSlot lo := by
  have hkeep : ~~~3#57 = BitVec.allOnes 53 ++ 0xC#4 := by decide
  have hslot : 0xC#57 = 0#53 ++ 0xC#4 := by decide
  have hfour : 4#57 = 0#53 ++ 4#4 := by decide
  have hzero : (0 : BitVec (53 + 4)) = 0#53 ++ 0#4 := by decide
  have hcond : (hi ++ lo) &&& ~~~3#57 &&& 0xC#57 = 0 ↔ lo &&& 0xC = 0 := by
    rw [hkeep, hslot, BitVec.and_append, BitVec.and_append, BitVec.and_zero, BitVec.and_assoc, BitVec.and_self, hzero, BitVec.append_right_inj]
    rfl
  unfold enterPc enterSlot
  dsimp only
  by_cases h : lo &&& 0xC = 0
  · rw [if_pos (hcond.mpr h), if_pos h, hkeep, hfour, BitVec.and_append, BitVec.or_append, BitVec.and_allOnes, BitVec.or_zero]
    exact congrArg (fun x : BitVec 4 => hi ++ (x ||| 4#4)) h
  · rw [if_neg (mt hcond.mp h), if_neg h, hkeep, BitVec.and_append, BitVec.and_allOnes]
    rfl

/-- R345: the PC that a register pair names. -/
theorem enterPc_eq (v : DWord) : enterPc (v.extractLsb' 0 57) = enteredAt v := by
  have hsplit : v.extractLsb' 0 57 = v.extractLsb' 4 53 ++ v.extractLsb' 0 4 :=
    (BitVec.extractLsb'_append_extractLsb'_eq_extractLsb' (start₁ := 0) (len₁ := 4) (start₂ := 4) (len₂ := 53) rfl).symm
  rw [hsplit, enterPc_append]
  apply BitVec.eq_of_toNat_eq
  have hlt := (enterSlot (v.extractLsb' 0 4)).isLt
  rw [BitVec.toNat_append, ← Nat.shiftLeft_add_eq_or_of_lt hlt, Nat.shiftLeft_eq, enterSlot_toNat, BitVec.extractLsb'_toNat, BitVec.extractLsb'_toNat,
    Nat.shiftRight_eq_div_pow, enteredAt, BitVec.toNat_ofNat]
  have := v.isLt
  split <;> split <;> omega

/-- Clearing busy clears bit 11 and no other. -/
theorem getLsbD_clear_busy (x : Word) (n : Nat) : (x &&& ~~~0x800#32).getLsbD n = (x.getLsbD n && decide (n ≠ 11)) := by
  have hbit : (0x800#32).getLsbD n = decide (n = 11) := by
    rw [show 0x800#32 = BitVec.twoPow 32 11 from rfl, BitVec.getLsbD_twoPow]
    simp [eq_comm]
  rw [BitVec.getLsbD_and, BitVec.getLsbD_not, hbit]
  by_cases hn : n < 32
  · simp [hn]
  · simp [BitVec.getLsbD_of_ge x n (Nat.not_lt.mp hn)]

/-- The scalar registers after a return: busy is cleared. -/
theorem returnFromTrap_s (s : State) (r : SReg) :
    s.returnFromTrap.w.regs.s[r] = if r = 56 then s.w.regs.s[(56 : SReg)] &&& ~~~0x800#32 else s.w.regs.s[r] := sregs_set s.w.regs.s 56 r _

/-- Where the lanes stand after a return: those of Active at the PC in s61:s60. -/
theorem returnFromTrap_standsAt {s : State} (hf : Frontier s) (L : Lane) : s.returnFromTrap.w.standsAt L =
    if s.cur.active.getLsbD L.val then some (enteredAt (s.latch.s[(61 : SReg)] ++ s.latch.s[(60 : SReg)])) else s.w.standsAt L := by
  rw [← enterPc_eq, ← placeOf_moveEntry hf]
  exact placeOf_map (f := fun e => { e with blocked := false }) (fun _ => rfl) (fun _ => rfl) _ L

/-- R335: after a return no entry holds a trap. -/
theorem returnFromTrap_not_blocked {s : State} {e : Entry} (he : e ∈ s.returnFromTrap.w.front) : e.blocked = false := by
  obtain ⟨e₀, -, rfl⟩ := List.mem_map.mp he
  rfl

/-- `rti` while s56.busy is 1 returns from the trap. -/
theorem exec_rti {s : State} (hrows : RowsFit s) (hbusy : (s.w.regs.s[(56 : SReg)]).getLsbD 11 = true) : exec .rti s = .next s.returnFromTrap := by
  have hb : s.w.regs.busy = true := hbusy
  exact word_completes (i := .rti) (eff := State.returnFromTrap) (ck := { illegal := !s.w.regs.busy }) (by rw [hb]; rfl)
    (clear_of_no_operands s rfl rfl rfl rfl rfl rfl) rfl rfl rfl rfl rfl rfl hrows

/-! ### The end of a wave's last entry (R384) -/

@[simp] theorem modCtx_w (s : State) (c : Nat) (f : Ctx → Ctx) : (s.modCtx c f).w = s.w := by unfold State.modCtx; split <;> rfl

@[simp] theorem raiseMsi_w (s : State) (p : Port) (f v : Nat) : (s.raiseMsi p f v).w = s.w := by
  unfold State.raiseMsi; dsimp only; split <;> rfl

@[simp] theorem record_w (s : State) (f : FaultRec) : (s.record f).w = s.w := by
  unfold State.record State.raiseBoth; dsimp only; split
  · rw [raiseMsi_w, raiseMsi_w]
  · rfl

/-- Ending a domain leaves the wave at issue, or drops it with its group. -/
theorem terminate_w (s : State) (c : Nat) (d : Domain) : (s.terminate c d).w = if (s.gidsIn c d).contains s.w.gid then {} else s.w := by
  unfold State.terminate; rw [modCtx_w]; dsimp only; split <;> rfl

theorem waveFault_w (s : State) (w : Wave) (g : Group) (c : Cause) (pc : VA) (d : Domain) :
    (s.waveFault w g c pc d).w = s.w ∨ (s.waveFault w g c pc d).w = {} := by
  unfold State.waveFault
  rw [record_w, terminate_w]
  split
  · exact .inr rfl
  · exact .inl rfl

@[simp] theorem stopEngines_w (s : State) : s.stopEngines.w = s.w := by
  refine foldl_keeps (fun t : State => t.w = s.w) _ (fun t e ht => ?_) _ s rfl
  dsimp only
  split
  · exact ht
  · split <;> exact ht

/-- The state in which a wave whose last entry has ended is marked as exited, in its group too, and has left the L1. -/
def exitMarked (s : State) : State :=
  ((s.modW fun w => { w with exited := true, triggered := true, trigAt := if w.triggered then w.trigAt else s.serial }).modC fun c =>
    { c with l1 := c.l1.filter fun (l : L1Line) => !(l.priv && l.owner == s.w.uid) }).modG fun g =>
      { g with exited := g.exited ||| (1#32 <<< s.w.index), exitPcs := g.exitPcs ++ [(s.w.index, s.cur.pc)] }

/-- Whether every wave of the group at issue has exited. -/
def groupEnded (s : State) : Bool := decide (s.g.waves ≤ (lanesOf s.g.exited).length)

/-- The marked state with the engines of the group stopped, when this was its last wave. -/
def exitStopped (s : State) : State := if groupEnded (exitMarked s) then (exitMarked s).stopEngines else exitMarked s

theorem exitStopped_w (s : State) : (exitStopped s).w = (exitMarked s).w := by
  unfold exitStopped
  split
  · exact stopEngines_w _
  · rfl

theorem waveExit_eq (s : State) : s.waveExit =
    if groupEnded (exitMarked s) = true ∧ (exitStopped s).g.runs ≠ [] then
      (exitStopped s).waveFault (exitStopped s).w (exitStopped s).g .accLeak (exitStopped s).cur.pc
        (.ofPolicy (exitStopped s).g.policy (exitStopped s).g.rcb.toNat)
    else ((exitStopped s).due (.triggerCount (exitStopped s).w.slot)).due (.waveSlotFree (exitStopped s).w.slot) := rfl

/-- The end of a wave changes neither its frontier nor its registers, but where ACC_LEAK drops the wave. -/
theorem waveExit_w (s : State) : (s.waveExit.w.front = s.w.front ∧ gCount s.waveExit.w = gCount s.w) ∨ s.waveExit.w = {} := by
  have hkeeps : (exitStopped s).w.front = s.w.front ∧ gCount (exitStopped s).w = gCount s.w := by
    rw [exitStopped_w]
    exact ⟨rfl, rfl⟩
  rw [waveExit_eq]
  split
  · refine (waveFault_w (exitStopped s) _ _ _ _ _).imp (fun hw => ?_) id
    rw [hw]
    exact hkeeps
  · exact .inl hkeeps

/-- A wave that is not resident has no register of shape G. -/
theorem gCount_default : gCount {} = 0 := by decide

/-- The effect of an `exit` issued in `s`: the entry leaves the frontier, and the wave ends with its last one. -/
def exitEffect (s u : State) : State :=
  let u := u.modW fun w => { w with front := w.front.filter fun e => e.mask != s.cur.active }
  if u.w.front.isEmpty then u.waveExit else u

/-- `exit` leaves the other entries of the frontier and the registers, or the wave is dropped. -/
theorem exitEffect_w (s u : State) :
    ((exitEffect s u).w.front = (u.w.front.filter fun e => e.mask != s.cur.active) ∧ gCount (exitEffect s u).w = gCount u.w) ∨
      (exitEffect s u).w = {} := by
  unfold exitEffect
  dsimp only
  split
  · exact waveExit_w _
  · exact .inl ⟨rfl, rfl⟩

/-- `exit` ends its entry when none of its lanes is held for a store, an atomic, a copy or a launch. -/
theorem exec_exit {s : State} (hrows : RowsFit s) (hheld : s.heldLanes = false) : exec .exit s = .next (exitEffect s s) := by
  refine word_completes (i := .exit) (eff := exitEffect s) (ck := { accept := !s.heldLanes }) rfl
    (clear_of_no_operands s rfl rfl rfl rfl rfl rfl) rfl (by rw [hheld]; rfl) rfl rfl rfl rfl ?_
  rcases exitEffect_w s s with ⟨-, hcount⟩ | hgone
  · exact hcount.trans_le hrows
  · rw [hgone, gCount_default]
    exact Nat.zero_le _

/-- Settles O17, by following `word` to the effects of `rti` and of `exit`: `returnFromTrap_standsAt` and `returnFromTrap_s` say what the first does,
and after the second `placeOf_filter_active` finds no entry that has a lane of Active. -/
theorem rtiResumesAndClearsBusy : Obligations.RtiResumesAndClearsBusy := by
  unfold Obligations.RtiResumesAndClearsBusy
  intro s hrows hfront hbusy
  refine ⟨⟨s.returnFromTrap, exec_rti hrows hbusy, returnFromTrap_standsAt hfront, ?_, fun n hn => ?_, fun r hr => ?_,
    fun e => returnFromTrap_not_blocked, rfl, rfl, rfl⟩, fun hheld => ⟨exitEffect s s, exec_exit hrows hheld, fun L hL => ?_⟩⟩
  · rw [returnFromTrap_s, if_pos rfl, getLsbD_clear_busy]
    exact Bool.and_false _
  · rw [returnFromTrap_s, if_pos rfl, getLsbD_clear_busy, decide_eq_true hn, Bool.and_true]
  · rw [returnFromTrap_s, if_neg hr]
  · rcases exitEffect_w s s with ⟨hrest, -⟩ | hgone
    · rw [standsAt_eq_placeOf, hrest]
      exact placeOf_filter_active hfront hL
    · rw [hgone]
      rfl

end Returning
end Sys2Proof
end

section
/-! PROOFS. What the decoder reads from a word of the opcode table laid into a packet, and O57. -/

namespace Sys2Proof
namespace TableWords
open Sys2Proof.Machine Sys2Proof.Laws

/-! ### The words of a packet (R343) -/

theorem wordOfBytes_bytes (w : Word) :
    wordOfBytes (w.extractLsb' 0 8) (w.extractLsb' 8 8) (w.extractLsb' 16 8) (w.extractLsb' 24 8) = w := by
  unfold wordOfBytes
  rw [BitVec.append_assoc, BitVec.append_assoc]
  simp only [BitVec.cast_eq]
  rw [BitVec.extractLsb'_append_extractLsb'_eq_extractLsb' (by rfl), BitVec.extractLsb'_append_extractLsb'_eq_extractLsb' (by rfl),
    BitVec.extractLsb'_append_extractLsb'_eq_extractLsb' (by rfl)]
  exact BitVec.extractLsb'_eq_self

theorem packetOfBytes_bytes (p : Packet) : packetOfBytes p.bytes = p := by
  obtain ⟨h, a, b, c⟩ := p
  simp [packetOfBytes, Packet.bytes, bytesOfWord, wordOfBytes_bytes]

/-! ### The code that stands in slot 1 (R345, R354) -/

/-- A word of another major than 0x7E is a code of its own. -/
theorem decodeTableWord_of_word {x : Nat} (hx : isPrefix (BitVec.ofNat 32 x) = false) :
    decodeTableWord 32 x = decode { payload := none, word := BitVec.ofNat 32 x } := by
  simp [decodeTableWord, packetOfBytes_bytes, tableWords, hx, packetOf, Packet.codeAt, Packet.slot]

/-- A word of major 0x7E gives its low 23 bits as the payload of the word behind it. -/
theorem decodeTableWord_of_prefix {x : Nat} (hx : isPrefix (BitVec.ofNat 32 x) = true) :
    decodeTableWord 64 x = decode { payload := some (BitVec.ofNat 23 x), word := BitVec.ofNat 32 (x / 2 ^ 32) } := by
  have hp : BitVec.ofNat 23 (BitVec.ofNat 32 x).toNat = BitVec.ofNat 23 x := by
    rw [BitVec.ofNat_toNat, BitVec.setWidth_ofNat_of_le (by decide)]
  simp [decodeTableWord, packetOfBytes_bytes, tableWords, hx, packetOf, Packet.codeAt, Packet.slot, -BitVec.toNat_ofNat, hp]

/-! ### The fields of a word below its two marks (R175, R180, R347) -/

/-- The chain bit and the switch marker stand above every field. -/
theorem fields_mod (fmt : Format) (x : Nat) : Fields.ofNat fmt (x % 2 ^ 30) = Fields.ofNat fmt x := by
  cases fmt <;> simp only [Fields.ofNat, bitsAt, Fields.A.injEq, Fields.I.injEq, Fields.S.injEq, Fields.SI.injEq,
    Fields.B.injEq, Fields.M.injEq, Fields.X.injEq, Fields.Q.injEq, Fields.L.injEq, Fin.ext_iff, Fin.val_ofNat] <;> omega

-- A number whose bits [29:0] are the layout of `f` over the major `m`; bits 30 and 31 are free.
variable {x m : Nat} {f : Fields} {r : Option Instr}

theorem majorOf_layout (hx : x % 2 ^ 30 = m * 2 ^ 23 + f.toNat) : majorOf (BitVec.ofNat 32 x) = m := by
  have := fields_lt f
  rw [majorOf, BitVec.toNat_ofNat]
  omega

theorem not_isPrefix_layout (hx : x % 2 ^ 30 = m * 2 ^ 23 + f.toNat) (hm : m ≠ 0x7E) : isPrefix (BitVec.ofNat 32 x) = false := by
  rw [isPrefix, majorOf_layout hx]
  exact beq_false_of_ne hm

theorem fields_layout (hx : x % 2 ^ 30 = m * 2 ^ 23 + f.toNat) : Fields.ofNat f.format (BitVec.ofNat 32 x).toNat = f := by
  have hlow : (BitVec.ofNat 32 x).toNat % 2 ^ 30 = m * 2 ^ 23 + f.toNat := by
    rw [BitVec.toNat_ofNat]
    omega
  rw [← fields_mod, hlow]
  exact fields_ofNat m f

theorem decode_layout (p : Option (BitVec 23)) (hx : x % 2 ^ 30 = m * 2 ^ 23 + f.toNat) (hf : formatOf m = some f.format)
    (hp : p.isSome = true → takesPrefix m = true) :
    decode { payload := p, word := BitVec.ofNat 32 x } = decodeFields m (p.map (·.toNat)) f := by
  have hno : (p.isSome && !takesPrefix m) = false := by
    rw [Bool.and_eq_false_imp]
    exact fun h => by rw [hp h]; rfl
  simp only [decode, majorOf_layout hx, hno, hf, Option.bind_some, fields_layout hx]
  rfl

/-- A word of one slot decodes by its major and its fields. -/
theorem decodeTableWord_layout (hx : x % 2 ^ 30 = m * 2 ^ 23 + f.toNat) (hm : m ≠ 0x7E) (hf : formatOf m = some f.format)
    (hr : decodeFields m none f = r) : decodeTableWord 32 x = r := by
  rw [decodeTableWord_of_word (not_isPrefix_layout hx hm)]
  exact (decode_layout none hx hf nofun).trans hr

/-- A prefixed word decodes by its major, its fields and its payload. -/
theorem decodeTableWord_prefixed {p : Nat} (hpre : x % 2 ^ 32 = 0x7E * 2 ^ 23 + p) (hp : p < 2 ^ 23) (hx : x / 2 ^ 32 % 2 ^ 30 = m * 2 ^ 23 + f.toNat)
    (hf : formatOf m = some f.format) (ht : takesPrefix m = true) (hr : decodeFields m (some p) f = r) :
    decodeTableWord 64 x = r := by
  have hprefix : isPrefix (BitVec.ofNat 32 x) = true := by
    rw [isPrefix, beq_iff_eq, majorOf, BitVec.toNat_ofNat]
    omega
  have hpay : (BitVec.ofNat 23 x).toNat = p := by
    rw [BitVec.toNat_ofNat]
    omega
  rw [decodeTableWord_of_prefix hprefix, decode_layout _ hx hf (fun _ => ht), Option.map_some, hpay, hr]

/-- A word of a reserved major decodes to nothing. -/
theorem decodeTableWord_reserved (hx : x % 2 ^ 30 = m * 2 ^ 23 + f.toNat) (hf : formatOf m = none) : decodeTableWord 32 x = none := by
  have hm : m ≠ 0x7E := by
    rintro rfl
    cases hf
  rw [decodeTableWord_of_word (not_isPrefix_layout hx hm)]
  simp [decode, majorOf_layout hx, hf]

/-! ### `nop` (R386) -/

/-- `nop` names no operand and has the identity as its effect, so a wave whose registers fit leaves it as it was. -/
theorem exec_nop {s : State} (hrows : RowsFit s) : exec .nop s = .next s :=
  Returning.word_completes (i := .nop) (eff := fun u => u) (ck := {}) rfl
    (Returning.clear_of_no_operands s rfl rfl rfl rfl rfl rfl) rfl rfl rfl rfl rfl rfl hrows

/-- Settles O57: each word is a layout of R348 over its major, so `decodeTableWord_layout`, or `decodeTableWord_prefixed` for a long form, gives the
fields from which its instruction is read. -/
theorem wordsWrittenOutDecode : Obligations.WordsWrittenOutDecode := by
  unfold Obligations.WordsWrittenOutDecode
  refine ⟨?nop, ?nopSwitch, rfl, by decide, fun _ => exec_nop, ?sAdd, ?add, ?ffma, ?kand, ?bar, ?br, ?ldp, ?ld, ?mloop, ?reserved⟩
  case nop => exact decodeTableWord_layout (m := 0x0D) (f := .B 0 0) rfl (by decide) rfl rfl
  case nopSwitch => exact decodeTableWord_layout (m := 0x0D) (f := .B 0 0) rfl (by decide) rfl rfl
  case sAdd => exact decodeTableWord_layout (m := 0x00) (f := .S 5 6 7 0) rfl (by decide) rfl rfl
  case add => exact decodeTableWord_layout (m := 0x11) (f := .A 99 81 4 0) rfl (by decide) rfl rfl
  case ffma => exact decodeTableWord_layout (m := 0x2C) (f := .A 4 1 2 0) rfl (by decide) rfl rfl
  case kand => exact decodeTableWord_layout (m := 0x3E) (f := .X 0 1 2 0 3) rfl (by decide) rfl rfl
  case bar => exact decodeTableWord_layout (m := 0x55) (f := .Q 0 0 0 3 0) rfl (by decide) rfl rfl
  case br => exact decodeTableWord_layout (m := 0x04) (f := .B 0 0x7FFFF) rfl (by decide) rfl rfl
  case ldp => exact decodeTableWord_layout (m := 0x4B) (f := .M 3 8 0 12) rfl (by decide) rfl rfl
  case ld =>
    exact decodeTableWord_prefixed (m := 0x45) (f := .M 8 9 2 4) (p := 3 * 2 ^ 20 + 1 * 2 ^ 18 + 3 * 2 ^ 16) rfl (by decide) rfl rfl rfl rfl
  case mloop =>
    exact decodeTableWord_prefixed (m := 0x62) (f := .Q 0 10 11 12 0) (p := 4 * 2 ^ 20 + 1 * 2 ^ 17 + 9 * 2 ^ 9) rfl (by decide) rfl rfl rfl rfl
  case reserved => exact decodeTableWord_reserved (m := 0x70) (f := .B 0 0) rfl rfl

end TableWords
end Sys2Proof
end
